-- ==== Sys2Proof/Word.lean ====
section
/-! DEFINITION. The words of the part: bytes of the control link, the bit sets the link carries, and the
saturating rise of a counter (00_scope section 4). -/

namespace Sys2Proof

/-- One byte of a control-link frame (R169). -/
abbrev Byte := BitVec 8

/-- A channel set as START_ANNOUNCEMENT carries it: bit n stands for channel n (R29). -/
abbrev ChannelSet := BitVec 32

/-- A monitor set as START_CHECK carries it: bit n stands for monitor position n (R73). -/
abbrev MonitorSet := BitVec 8

/-- A 16-bit test signature or seed (R75). -/
abbrev Code16 := BitVec 16

end Sys2Proof
end

