-- ==== Sys2Proof/Machine/Table.lean ====
section
/-! DEFINITION. Sparse tables: the part's fixed tables (channels, desks, receivers, slots, figures ...) held as lists
of (key, value) pairs in ONE canonical form, keys strictly rising and no entry equal to what an unlisted key reads as,
so that equal tables are equal data. `d` is what an unlisted key reads as. -/

namespace Sys2Proof.Machine

/-- A table from numbers to values of `α`, held sparsely. -/
abbrev Table (α : Type) := List (Nat × α)

/-- What key `k` holds in the table; `d` where it is not listed. -/
def Table.read {α : Type} (d : α) : Table α → Nat → α
  | [], _ => d
  | (j, v) :: t, k => if j = k then v else Table.read d t k

/-- The table without key `k`. -/
def Table.erase {α : Type} (k : Nat) : Table α → Table α
  | [] => []
  | (j, v) :: t => if j = k then Table.erase k t else (j, v) :: Table.erase k t

/-- The table with `(k, v)` put before the first larger key. -/
def Table.insert {α : Type} (k : Nat) (v : α) : Table α → Table α
  | [] => [(k, v)]
  | (j, w) :: t => if k < j then (k, v) :: (j, w) :: t else (j, w) :: Table.insert k v t

/-- The table in which key `k` holds `v` and every other key holds what it held. -/
def Table.write {α : Type} [DecidableEq α] (d : α) (t : Table α) (k : Nat) (v : α) : Table α :=
  if v = d then t.erase k else (t.erase k).insert k v

/-- The canonical form: keys strictly rising, no entry equal to what an unlisted key reads as. -/
def Table.canonical {α : Type} [DecidableEq α] (d : α) : Table α → Bool
  | [] => true
  | [(_, v)] => v != d
  | (j, v) :: (k, w) :: t => decide (j < k) && v != d && Table.canonical d ((k, w) :: t)

end Sys2Proof.Machine
end

