-- ==== Sys2Proof/Config.lean ====
section
/-! DEFINITION. The sizes and bounds the manual fixes for the part, and the one choice it leaves open to each run: the
order in which the blocks take one second event (R66, R158, log entry 3). SECOND_EVENT carries that order as its operand;
for a second boundary that the counting source reaches with no command, it is the free value `secondOrder`. -/

namespace Sys2Proof

/-- The blocks that take a second event (R160), with the hall clock's own return to the word clock (R162). The order
among them is open (R66, R158; log entry 3). -/
inductive SecondTaker where
  | turnMeter
  | accountingMeters
  | handoverWindows
  | issueWindows
  | missingTimers
  | checkDwell
  | clockReturn
deriving DecidableEq, Repr

end Sys2Proof

namespace Sys2Proof.Config

/-- The order in which the takers take the `n`-th second event that no command brings about: a free value (R66, R158, log
entry 3). -/
opaque secondOrder : Nat → List SecondTaker

/-- Places of the notice queue (R172). -/
def noticePlaces : Nat := 64

/-- Longest body of a control-link frame (R169, R170). -/
def maxBody : Nat := 1024

/-- Records the hire table may hold (R118). -/
def hirePlaces : Nat := 2048

/-- Settlements the settlement queue may hold (R132). -/
def settlementPlaces : Nat := 256

/-- Desk ports of the part (R38). -/
def deskPorts : Nat := 64

/-- The largest value of a counter of seconds or of listener-seconds (00_scope section 4). -/
def maxCount : Nat := 4294967295

/-- The largest money figure of a settlement (R145, R147). -/
def maxMoney : Nat := 999999999

/-- The largest deposit, day cap and lost charge (R121, R138). -/
def maxFigure : Nat := 999999

/-- Desk events taken from one console reply (R45). -/
def eventsPerReply : Nat := 8

/-- Reports taken from one rack reply (R87). -/
def reportsPerReply : Nat := 16

/-- Second events from the placing of a signature to the dwell expiry (R75). -/
def dwellSeconds : Nat := 10

/-- Periods of the counting source in one second (R160). -/
def periodsPerSecond : Nat := 48000

/-- Part identity code of the READY notice (R174). -/
def partIdentity : Nat := 0x0E32

/-- Revision code of the READY notice (R174). -/
def revision : Nat := 1

end Sys2Proof.Config
end

