-- ==== Sys2Proof/Syntax.lean ====
section
/-! DEFINITION. The commands of the part: one constructor of `Instr` for each row of spec/opcode_table.json, in the
table's order, with the operands the manual gives the row, and the types of those operands. -/

namespace Sys2Proof

/-- Output A or B of a booth (R2, R40). -/
inductive Side where
  | a
  | b
deriving DecidableEq, Repr

/-- One byte as the UART receives it: its value, and whether its stop bit was good (R170). -/
structure LineByte where
  value : Byte
  stopOk : Bool
deriving DecidableEq, Repr

/-- What a desk event reports (R45). `other` is an event code that is not in the table of R45. -/
inductive DeskKey where
  | micOn
  | micOff
  | coughOn
  | coughOff
  | outputA
  | outputB
  | relay (channel : Byte)
  | slow
  | other
deriving DecidableEq, Repr

/-- One desk event of a console reply: the desk position it names and the event (R45). -/
structure DeskEvent where
  position : Nat
  key : DeskKey
deriving DecidableEq, Repr

/-- One desk position of a console's state report (R59). -/
structure DeskReport where
  keyDown : Bool
  selection : Side
deriving DecidableEq, Repr

/-- The content of a console's reply: desk events (R45), or a state report for desk positions 1 to 4 (R59). -/
inductive ConsoleContent where
  | events (list : List DeskEvent)
  | report (desk1 desk2 desk3 desk4 : DeskReport)
deriving DecidableEq, Repr

/-- One report of a PRESENT rack (R87). Slots, receivers and bands are as reported, in range or not. -/
inductive RackReport where
  | dock (slot receiver band : Nat)
  | undock (slot : Nat)
  | battery (slot band : Nat)
deriving DecidableEq, Repr

/-- One entry of an INVENTORY (R87). -/
inductive InventoryEntry where
  | empty
  | holds (receiver band : Nat)
deriving DecidableEq, Repr

/-- The content of a rack's reply: reports, or an INVENTORY for slots 1 to 48 in order (R87). -/
inductive RackContent where
  | reports (list : List RackReport)
  | inventory (entries : List InventoryEntry)
deriving DecidableEq, Repr

/-- The commands of the part, one for each row of spec/opcode_table.json. A request carries the tag and the body of
its frame (R169, log entry 1); a link, beacon, clock or timer event carries what the event reports. -/
inductive Instr where
  | powerOnReset
  | frameReceived (bytes : List LineByte)
  | framerGapTimeout
  | unknownKind (kind tag : Byte) (body : List Byte)
  | frameSent
  | readStatus (tag : Byte) (body : List Byte)
  | openSession (tag : Byte) (body : List Byte)
  | closeSession (tag : Byte) (body : List Byte)
  | resetAudio (tag : Byte) (body : List Byte)
  | setTime (tag : Byte) (body : List Byte)
  | writeLimits (tag : Byte) (body : List Byte)
  | readLimits (tag : Byte) (body : List Byte)
  | readFault (tag : Byte) (body : List Byte)
  | clearFault (tag : Byte) (body : List Byte)
  | writeChannel (tag : Byte) (body : List Byte)
  | readChannel (tag : Byte) (body : List Byte)
  | setFloorLanguage (tag : Byte) (body : List Byte)
  | readSources (tag : Byte) (body : List Byte)
  | startAnnouncement (tag : Byte) (body : List Byte)
  | stopAnnouncement (tag : Byte) (body : List Byte)
  | writeBooth (tag : Byte) (body : List Byte)
  | readBooth (tag : Byte) (body : List Byte)
  | readDesks (tag : Byte) (body : List Byte)
  | forceOutputOff (tag : Byte) (body : List Byte)
  | readDeskRecords (tag : Byte) (body : List Byte)
  | startCheck (tag : Byte) (body : List Byte)
  | abortCheck (tag : Byte) (body : List Byte)
  | readCheck (tag : Byte) (body : List Byte)
  | readReceiver (tag : Byte) (body : List Byte)
  | readRack (tag : Byte) (body : List Byte)
  | setMonitor (tag : Byte) (body : List Byte)
  | clearMonitor (tag : Byte) (body : List Byte)
  | withdrawReceiver (tag : Byte) (body : List Byte)
  | restoreReceiver (tag : Byte) (body : List Byte)
  | writeSchedule (tag : Byte) (body : List Byte)
  | readListeners (tag : Byte) (body : List Byte)
  | openHire (tag : Byte) (body : List Byte)
  | cancelHire (tag : Byte) (body : List Byte)
  | declareLost (tag : Byte) (body : List Byte)
  | readHire (tag : Byte) (body : List Byte)
  | readSettlement (tag : Byte) (body : List Byte)
  | takeSettlement (tag : Byte) (body : List Byte)
  | writeTariff (tag : Byte) (body : List Byte)
  | readTariff (tag : Byte) (body : List Byte)
  | freezeTariffs (tag : Byte) (body : List Byte)
  | readDelegation (tag : Byte) (body : List Byte)
  | clearDelegation (tag : Byte) (body : List Byte)
  | readService (tag : Byte) (body : List Byte)
  | consoleReply (booth : Nat) (content : ConsoleContent)
  | rackReply (rack : Nat) (content : RackContent)
  | radiatorStatusPoll
  | radiatorReply
  | unitPollMiss (unit : Nat)
  | unitDeclaredLost (unit : Nat)
  | beaconPollSend
  | beaconReply (receiver tuned band : Nat) (signature : Option Code16)
  | beaconMiss
  | missLimitReached (receiver : Nat)
  | secondEvent (order : List SecondTaker)
  | turnLimitReached (booth : Nat) (domain : Side)
  | overrunLimitReached (booth : Nat) (domain : Side)
  | handoverWindowExpiry (booth : Nat) (domain : Side)
  | issueWindowExpiry (hire : Nat)
  | missingTimeReached (receiver : Nat)
  | checkDwellExpiry
  | referenceGap
  | stableTimeReached
  | referenceEdgesResume
  | consolePoll
  | rackPoll
  | replyKindDiscarded (kind tag : Byte) (body : List Byte)
deriving DecidableEq, Repr

end Sys2Proof
end

