-- ==== Sys2Proof/Machine/State.lean ====
section
/-! DEFINITION. The state of the part, block by block as 00_scope section 2.2 lists them, as plain data, with the value
of each field after power-on reset, and the reasons a step can stop. Numbers the manual counts with are `Nat`; the
manual's value tables are sparse `Table`s that list only the entries away from their power-on value. -/

namespace Sys2Proof.Machine

/-! ### Channel plan (chapter 1) -/

/-- One of the 48 booth outputs (R3). -/
structure BoothOutput where
  booth : Nat
  side : Side
deriving DecidableEq, Repr

/-- What a channel carries when nothing else applies (R2). -/
inductive Fallback where
  | floor
  | silence
  | pivot
deriving DecidableEq, Repr

/-- The plan entry of a channel (R2). -/
structure PlanEntry where
  language : Nat
  first : Option BoothOutput
  second : Option BoothOutput
  autofloor : Bool
  fallback : Fallback
  pivot : Option Nat
deriving DecidableEq, Repr

/-- The power-on plan entry of channels 1 to 31 (R2), which is also the fixed entry of channel 0 (R1). -/
def PlanEntry.unused : PlanEntry :=
  { language := 0, first := none, second := none, autofloor := false, fallback := .floor, pivot := none }

/-- The hall state (R13). -/
inductive Hall where
  | setup
  | session
deriving DecidableEq, Repr

/-- The channel plan block: entries of channels 1 to 31 by channel, floor language, hall state. -/
structure Plan where
  entries : Table PlanEntry
  floorLanguage : Nat
  hall : Hall
deriving DecidableEq, Repr

/-! ### Source arbiter (chapter 2) -/

/-- An announcement input (R28). -/
inductive AnnInput where
  | one
  | two
deriving DecidableEq, Repr

/-- The source identity of a channel: its category with its booth and output, input or pivot (R17). -/
inductive Identity where
  | announce (input : AnnInput)
  | booth (output : BoothOutput)
  | autofloor
  | test
  | pivot (channel : Nat)
  | fallback
  | unused
  | floor
deriving DecidableEq, Repr

/-- What a distribution output carries (R17). `desk` names the desk port whose audio is carried (R38). -/
inductive Program where
  | floor
  | announcement (input : AnnInput)
  | desk (port : Nat)
  | signature
  | silence
deriving DecidableEq, Repr

/-- The effective source record of a channel (R17). -/
structure Source where
  identity : Identity
  muted : Bool
  program : Program
deriving DecidableEq, Repr

/-- The power-on record of channels 1 to 31 (R17). -/
def Source.unused : Source := { identity := .unused, muted := false, program := .silence }

/-- The power-on record of channel 0 (R17). -/
def Source.floor : Source := { identity := .floor, muted := false, program := .floor }

/-- The announcement state of a channel (R28). -/
inductive AnnState where
  | none
  | active (input : AnnInput)
  | deferred (input : AnnInput)
deriving DecidableEq, Repr

/-- The effective ear feed of a booth (R34): the channel relayed, absent when the feed is the floor, and the booth's
fallback flag. -/
structure EarFeed where
  relaying : Option Nat
  fallback : Bool
deriving DecidableEq, Repr

/-- The ear feed of a booth whose selection is FLOOR (R34). -/
def EarFeed.floor : EarFeed := { relaying := Option.none, fallback := false }

/-- The source arbiter block: source records and announcement states by channel; the channel set of each running
input, absent while the input is stopped; relay selections (absent is FLOOR) and ear feeds by booth. -/
structure Arbiter where
  sources : Table Source
  announcements : Table AnnState
  inputOne : Option ChannelSet
  inputTwo : Option ChannelSet
  relays : Table (Option Nat)
  feeds : Table EarFeed
deriving DecidableEq, Repr

/-! ### Booth controller (chapter 3) -/

/-- The interlock of a booth (R36). -/
inductive Interlock where
  | single
  | dual
deriving DecidableEq, Repr

/-- The handover mode of a booth (R36). -/
inductive HandoverMode where
  | override
  | handshake
deriving DecidableEq, Repr

/-- The expiry policy of a handover window (R36). -/
inductive ExpiryPolicy where
  | take
  | lapse
deriving DecidableEq, Repr

/-- The configuration of a booth (R36). -/
structure BoothConfig where
  enabled : Nat
  interlock : Interlock
  mode : HandoverMode
  window : Nat
  policy : ExpiryPolicy
  turnLimit : Nat
  overrun : Nat
deriving DecidableEq, Repr

/-- The power-on configuration of a booth (R36). -/
def BoothConfig.default : BoothConfig :=
  { enabled := 0, interlock := .single, mode := .handshake, window := 5, policy := .take, turnLimit := 30, overrun := 5 }

/-- What the part holds for a desk position beyond its domain (R38, R40, R41): output selection, cough flag, pending
ENGAGED flash, and desk port, absent while the position is DISABLED. -/
structure Desk where
  selection : Side
  cough : Bool
  flash : Bool
  port : Option Nat
deriving DecidableEq, Repr

/-- A DISABLED desk position, which holds no state of its own (R38). -/
def Desk.disabled : Desk := { selection := .a, cough := false, flash := false, port := none }

/-- A handover domain (R43), with the window timer and the policy recorded for the request while PENDING (R48). -/
inductive Domain where
  | idle
  | live (desk : Nat)
  | pending (desk requester timer : Nat) (policy : ExpiryPolicy)
deriving DecidableEq, Repr

/-- The booth controller block: configurations by booth, desks by `deskKey`, domains by `domainKey`. -/
structure Booths where
  configs : Table BoothConfig
  desks : Table Desk
  domains : Table Domain
deriving DecidableEq, Repr

/-! ### Turn meter (chapter 4) -/

/-- The turn record of a handover domain (R61). -/
structure TurnRecord where
  counter : Nat
  limit : Option Nat
  overrun : Option Nat
  dueRaised : Bool
  overrunRaised : Bool
deriving DecidableEq, Repr

/-- The values of a turn record while its domain is IDLE (R61). -/
def TurnRecord.idle : TurnRecord :=
  { counter := 0, limit := none, overrun := none, dueRaised := false, overrunRaised := false }

/-- The desk record of an enabled desk position (R67). -/
structure DeskRecord where
  liveA : Nat
  liveB : Nat
  turnsStarted : Nat
  longestTurn : Nat
  turnDue : Nat
deriving DecidableEq, Repr

/-- A desk record with every figure 0 (R67). -/
def DeskRecord.zero : DeskRecord := { liveA := 0, liveB := 0, turnsStarted := 0, longestTurn := 0, turnDue := 0 }

/-- The turn meter block: turn records by `domainKey`, desk records by `deskKey`. -/
structure Turns where
  turns : Table TurnRecord
  records : Table DeskRecord
deriving DecidableEq, Repr

/-! ### Coverage checker (chapter 5) -/

/-- The check state (R72). -/
inductive CheckState where
  | idle
  | running
  | done
deriving DecidableEq, Repr

/-- A result the checker can enter (chapter 5). -/
inductive CheckResult where
  | notRun
  | pass
  | miscompare
  | noReply
  | preempted
  | excluded
deriving DecidableEq, Repr

/-- The check program (R72). -/
structure CheckProgram where
  channels : ChannelSet
  monitors : MonitorSet
  seed : Code16
  repeats : Nat
deriving DecidableEq, Repr

/-- The progress of one monitor position on the current channel (R72). -/
structure Progress where
  polls : Nat
  mismatch : Bool
deriving DecidableEq, Repr

/-- No poll taken, no mismatch (R75). -/
def Progress.zero : Progress := { polls := 0, mismatch := false }

/-- The coverage checker block. `generator` is the code the test signature generator carries, absent while it is
stopped (R75); results are held by `resultKey`, failure flags by channel, progress by monitor position.
`placements` counts the signatures placed; it is the MODEL's own field (log entry 12): it tells a poll of the channel that
is still current from a poll of an earlier test of the same channel (R76), and a channel placed in the handling of a
second event from one that was current before it (R79, log entry 24). -/
structure Check where
  state : CheckState
  program : Option CheckProgram
  results : Table CheckResult
  failed : Table Bool
  current : Option Nat
  generator : Option Code16
  dwell : Nat
  progress : Table Progress
  placements : Nat
deriving DecidableEq, Repr

/-! ### Rack controller and receiver table (chapter 6) -/

/-- A rack and a slot of it (00_scope section 4). -/
structure Location where
  rack : Nat
  slot : Nat
deriving DecidableEq, Repr

/-- The state of a receiver (R85). -/
inductive ReceiverState where
  | unknown
  | docked
  | reserved
  | out
  | silent
  | stray
  | lost
  | monitor
  | withdrawn
deriving DecidableEq, Repr

/-- The entry of a receiver (R84). -/
structure Receiver where
  state : ReceiverState
  location : Option Location
  band : Nat
  lastReply : Option Nat
  tuned : Option Nat
  misses : Nat
  hire : Option Nat
  silentSince : Option Nat
  missingReported : Bool
deriving DecidableEq, Repr

/-- The power-on entry of a receiver (R84). -/
def Receiver.unseen : Receiver :=
  { state := .unknown, location := none, band := 0, lastReply := none, tuned := none, misses := 0, hire := none,
    silentSince := none, missingReported := false }

/-- The rack controller block: the slot map, by `slotKey`; absent is an empty slot (R86). -/
structure Racks where
  slots : Table (Option Nat)
deriving DecidableEq, Repr

/-- The receiver table block: the entries by receiver number (R84) and the monitor positions (R95). -/
structure Fleet where
  receivers : Table Receiver
  monitors : Table (Option Nat)
deriving DecidableEq, Repr

/-! ### Beacon scheduler (chapter 7) -/

/-- The four poll lists, which are also the four phases of a round (R102, R104). -/
inductive ListId where
  | l0
  | l1
  | l2
  | l3
deriving DecidableEq, Repr

/-- A poll list: its members, oldest first (R102), and its cursor (R103). -/
structure PollList where
  members : List Nat
  cursor : Option Nat
deriving DecidableEq, Repr

/-- An empty poll list (R102, R103). -/
def PollList.empty : PollList := { members := [], cursor := none }

/-- A decode request carried by a poll (R76): its channel, and the placement it belongs to (log entry 12). -/
structure DecodeRequest where
  channel : Nat
  placement : Nat
deriving DecidableEq, Repr

/-- The in-flight poll record (R107). -/
structure InFlight where
  receiver : Nat
  list : ListId
  hire : Option Nat
  decode : Option DecodeRequest
deriving DecidableEq, Repr

/-- The four schedule counts (R104). -/
structure Schedule where
  k0 : Nat
  k1 : Nat
  k2 : Nat
  k3 : Nat
deriving DecidableEq, Repr

/-- The beacon scheduler block: poll lists, schedule counts and position, in-flight record, listener counts by channel
(R115), battery-low marks by receiver (R114). -/
structure Beacon where
  l0 : PollList
  l1 : PollList
  l2 : PollList
  l3 : PollList
  counts : Schedule
  phase : ListId
  sent : Nat
  inFlight : Option InFlight
  listeners : Table Nat
  lowMarks : Table Bool
deriving DecidableEq, Repr

/-! ### Hire table (chapter 8) -/

/-- The state of a hire with the fields present in it (R118). -/
inductive HireState where
  | pending (window : Nat)
  | active (start degradedStart : Nat)
  | closing (start degradedStart finish degradedEnd : Nat)
deriving DecidableEq, Repr

/-- A hire record (R118). The reference is any 32-bit value. -/
structure Hire where
  number : Nat
  receiver : Nat
  reference : Nat
  delegation : Nat
  tariff : Nat
  deposit : Nat
  state : HireState
  openTime : Nat
  lost : Bool
  reconciled : Bool
deriving DecidableEq, Repr

/-- The hire table block: the records by hire number, and the next hire number (R118, R120). -/
structure Hires where
  records : Table (Option Hire)
  next : Nat
deriving DecidableEq, Repr

/-! ### Settlement unit (chapter 9) -/

/-- A tariff class (R138): defined mark, grace G, unit length L, first-unit price F, further-unit price P, day cap C,
lost charge X. -/
structure Tariff where
  defined : Bool
  grace : Nat
  unit : Nat
  firstPrice : Nat
  furtherPrice : Nat
  dayCap : Nat
  lostCharge : Nat
deriving DecidableEq, Repr

/-- The power-on tariff class (R138). -/
def Tariff.undefined : Tariff :=
  { defined := false, grace := 0, unit := 0, firstPrice := 0, furtherPrice := 0, dayCap := 0, lostCharge := 0 }

/-- The six flags of a settlement (R148). -/
structure SettlementFlags where
  grace : Bool
  capped : Bool
  saturated : Bool
  lost : Bool
  reconciled : Bool
  timeDegraded : Bool
deriving DecidableEq, Repr

/-- A settlement (R149). -/
structure Settlement where
  hire : Nat
  receiver : Nat
  reference : Nat
  delegation : Nat
  tariff : Nat
  flags : SettlementFlags
  start : Nat
  finish : Nat
  duration : Nat
  units : Nat
  usage : Nat
  lostCharge : Nat
  total : Nat
  deposit : Nat
  refund : Nat
  due : Nat
deriving DecidableEq, Repr

/-- The settlement unit block: tariff classes by number, freeze state, settlement queue with the oldest first. -/
structure Money where
  tariffs : Table Tariff
  frozen : Bool
  queue : List Settlement
deriving DecidableEq, Repr

/-! ### Accounting meters (chapter 10) -/

/-- The accounting meters block: the delegation listening table by `delegationKey` (R150), the service record by
`serviceKey` (R156), the unserved listener-seconds by channel (R157). -/
structure Meters where
  listening : Table Nat
  service : Table Nat
  unserved : Table Nat
deriving DecidableEq, Repr

/-! ### Hall clock and unit supervisor (chapter 11) -/

/-- The counting source of the hall clock (R160). -/
inductive CountingSource where
  | wordClock
  | oscillator
deriving DecidableEq, Repr

/-- The time quality (R160). -/
inductive Quality where
  | nominal
  | degraded
deriving DecidableEq, Repr

/-- The phase of the reference supervisor (R161). -/
inductive Phase where
  | locked
  | absent
  | settling
  | settled
deriving DecidableEq, Repr

/-- The hall clock block (R160, R161). `stable` is the stable time in oscillator periods, absent while no run of edges
is being timed. `boundaries` is the MODEL's own field (log entry 3): the number of second boundaries that the counting
source has reached with no command, which indexes the free value `Config.secondOrder`. -/
structure Clock where
  seconds : Nat
  subSecond : Nat
  source : CountingSource
  quality : Quality
  degradedCount : Nat
  phase : Phase
  stable : Option Nat
  boundaries : Nat
deriving DecidableEq, Repr

/-- The state of a unit (R165). -/
inductive UnitState where
  | unseen
  | present
  | lost
deriving DecidableEq, Repr

/-- What the supervisor keeps for a unit (R165). -/
structure UnitEntry where
  state : UnitState
  failures : Nat
deriving DecidableEq, Repr

/-- The power-on entry of a unit (R161, R165). -/
def UnitEntry.unseen : UnitEntry := { state := .unseen, failures := 0 }

/-- The severity of a fault (R166). -/
inductive Severity where
  | note
  | degraded
  | lost
deriving DecidableEq, Repr

/-- The cause of a fault (R166). -/
inductive Cause where
  | unitLost
  | referenceLost
  | inventoryMismatch
  | consoleStateMismatch
deriving DecidableEq, Repr

/-- What a valid fault record holds (R166). -/
structure FaultEntry where
  severity : Severity
  cause : Cause
  time : Nat
  detail : Nat
deriving DecidableEq, Repr

/-- The fault record of a unit (R166): the fault held, absent while the record is not valid, and the overflow mark. -/
structure FaultRecord where
  fault : Option FaultEntry
  overflow : Bool
deriving DecidableEq, Repr

/-- The empty fault record (R166). -/
def FaultRecord.empty : FaultRecord := { fault := none, overflow := false }

/-- The lamp set of a desk position as a console poll carries it (R41). -/
structure Lamps where
  live : Bool
  requesting : Bool
  handoverAsked : Bool
  turnDue : Bool
  offAir : Bool
  relayFallback : Bool
  engaged : Bool
deriving DecidableEq, Repr

/-- A poll to a console: whether it carries a return request (R165), and the lamp sets of desk positions 1 to 4 (R41). -/
structure ConsolePoll where
  booth : Nat
  returnRequest : Bool
  lamps : List Lamps
deriving DecidableEq, Repr

/-- A poll to a rack, and whether it carries a return request (R165). -/
structure RackPoll where
  rack : Nat
  returnRequest : Bool
deriving DecidableEq, Repr

/-- The unit supervisor block: units and fault records by unit number; and of the three master links the unit each
polls next and the poll that has been sent and has not completed (R165, log entry 8). -/
structure Supervisor where
  units : Table UnitEntry
  faults : Table FaultRecord
  nextConsole : Nat
  consolePoll : Option ConsolePoll
  nextRack : Nat
  rackPoll : Option RackPoll
  radiatorPoll : Bool
deriving DecidableEq, Repr

/-- The seven limits (R168). -/
structure Limits where
  creditCap : Nat
  missLimit : Nat
  missingCode : Nat
  issueWindow : Nat
  issueMinimum : Nat
  lowBand : Nat
  failureLimit : Nat
deriving DecidableEq, Repr

/-! ### Control link (chapter 12) -/

/-- A frame of the control link without its sync byte, length and check, which follow from it (R169). -/
structure Frame where
  kind : Byte
  tag : Byte
  body : List Byte
deriving DecidableEq, Repr

/-- The receive framer with its frame in progress (R170). HEADER holds the bytes since the sync byte; BODY and CHECK
hold what the header told and the bytes received since. -/
inductive Framer where
  | hunt
  | header (got : List Byte)
  | body (length : Nat) (kind tag : Byte) (got : List Byte)
  | check (kind tag : Byte) (body : List Byte) (got : List Byte)
deriving DecidableEq, Repr

/-- A notice, with the fields of its body (R26, R30, R56, R64, R65, R78, R88, R90, R94, R112 to R114, R123, R125, R130,
R161, R166, R174). -/
inductive Notice where
  | ready
  | fault (unit : Nat) (entry : FaultEntry)
  | reference (quality : Quality) (seconds degraded : Nat)
  | sourceChange (channel : Nat) (identity : Identity)
  | announcementTaken (channel : Nat) (input : AnnInput)
  | deskSlow (booth desk : Nat)
  | turnDue (booth desk : Nat)
  | turnOverrun (booth desk : Nat)
  | checkDone (aborted : Bool) (failed : Nat)
  | hireStarted (hire receiver start : Nat) (reconciled : Bool)
  | hireLapsed (hire receiver : Nat)
  | hireSettled (hire receiver : Nat) (flags : SettlementFlags)
  | stray (receiver rack slot : Nat)
  | strayReturned (receiver rack slot : Nat)
  | recovered (receiver rack slot : Nat)
  | silent (receiver hire : Nat)
  | missing (receiver hire since : Nat)
  | batteryLow (receiver hire band : Nat)
  | reconciled (rack changes : Nat)
deriving DecidableEq, Repr

/-- The control link block: whether the framer takes bytes (not until READY has begun to be sent, R170, R174); the framer;
the request hold; the reply room; the notice queue, oldest first; the notice overflow flag; and the frame the transmitter
is sending, absent while it is idle (R172). -/
structure Link where
  receiving : Bool
  framer : Framer
  hold : Option Frame
  replyRoom : Option Frame
  notices : List Notice
  overflow : Bool
  sending : Option Frame
deriving DecidableEq, Repr

/-! ### The whole part -/

/-- The state of the part: its fourteen blocks (00_scope section 2.2, with the limits of R168 beside the unit
supervisor), and the queue of the commands that wait, first in, first out. -/
structure State where
  link : Link
  plan : Plan
  arbiter : Arbiter
  booths : Booths
  turns : Turns
  check : Check
  racks : Racks
  fleet : Fleet
  beacon : Beacon
  hires : Hires
  money : Money
  meters : Meters
  clock : Clock
  supervisor : Supervisor
  limits : Limits
  pending : List Instr
deriving DecidableEq, Repr

/-- The reasons a step stops with a fault. The manual names no condition that stops the part: a request it will not
carry out is answered with a status, and a report out of range is ignored or counted as a miss. So there is none. -/
inductive Fault where
deriving DecidableEq, Repr

/-- The reasons a step is refused. -/
inductive Refusal where
  /-- Raised by `exec`'s arm of a command that has no meaning yet, naming the command. Safe: the machine stops. -/
  | notModelled (mnemonic : String)
deriving DecidableEq, Repr

/-! ### Power-on reset -/

/-- The control link after power-on reset (R170, R172, R174): READY, placed in the empty queue, has begun to be sent at
once, and with that beginning the framer hunts (log entry 2); the reply room and the queue are empty, the flag is clear,
and the request hold is empty (log entry 13). -/
def Link.reset : Link :=
  { receiving := true, framer := .hunt, hold := none, replyRoom := none, notices := [], overflow := false,
    sending := some ⟨0x60, 0, [0x0E, 0x32, 0x01]⟩ }

/-- The channel plan after power-on reset (R2, R12, R13). -/
def Plan.reset : Plan := { entries := [], floorLanguage := 0, hall := .setup }

/-- The source arbiter after power-on reset (R17, R28, R33, R34). -/
def Arbiter.reset : Arbiter :=
  { sources := [(0, Source.floor)], announcements := [], inputOne := none, inputTwo := none, relays := [], feeds := [] }

/-- The booth controller after power-on reset (R36, R38, R43). -/
def Booths.reset : Booths := { configs := [], desks := [], domains := [] }

/-- The turn meter after power-on reset (R61, R67). -/
def Turns.reset : Turns := { turns := [], records := [] }

/-- The coverage checker after power-on reset (R72). -/
def Check.reset : Check :=
  { state := .idle, program := none, results := [], failed := [], current := none, generator := none, dwell := 0,
    progress := [], placements := 0 }

/-- The slot map after power-on reset (R86). -/
def Racks.reset : Racks := { slots := [] }

/-- The receiver table after power-on reset (R84, R95). -/
def Fleet.reset : Fleet := { receivers := [], monitors := [] }

/-- The beacon scheduler after power-on reset (R102 to R104, R114, R115). -/
def Beacon.reset : Beacon :=
  { l0 := .empty, l1 := .empty, l2 := .empty, l3 := .empty, counts := { k0 := 0, k1 := 0, k2 := 0, k3 := 0 },
    phase := .l0, sent := 0, inFlight := none, listeners := [], lowMarks := [] }

/-- The hire table after power-on reset (R118, R120). -/
def Hires.reset : Hires := { records := [], next := 1 }

/-- The settlement unit after power-on reset (R132, R138, R141). -/
def Money.reset : Money := { tariffs := [], frozen := false, queue := [] }

/-- The accounting meters after power-on reset (R150, R158). -/
def Meters.reset : Meters := { listening := [], service := [], unserved := [] }

/-- The hall clock after power-on reset (R160, R161). -/
def Clock.reset : Clock :=
  { seconds := 0, subSecond := 0, source := .oscillator, quality := .degraded, degradedCount := 0, phase := .absent,
    stable := none, boundaries := 0 }

/-- The unit supervisor after power-on reset (R161, R165, R166); each link polls first the first of its units in
address order, and no poll is under way (log entry 8). -/
def Supervisor.reset : Supervisor :=
  { units := [], faults := [], nextConsole := 1, consolePoll := none, nextRack := 1, rackPoll := none,
    radiatorPoll := false }

/-- The limits after power-on reset (R168). -/
def Limits.reset : Limits :=
  { creditCap := 30, missLimit := 5, missingCode := 3, issueWindow := 120, issueMinimum := 4, lowBand := 1,
    failureLimit := 4 }

/-- The part right after power-on reset (R174), with no command waiting. -/
def State.reset : State :=
  { link := Link.reset, plan := Plan.reset, arbiter := Arbiter.reset, booths := Booths.reset, turns := Turns.reset,
    check := Check.reset, racks := Racks.reset, fleet := Fleet.reset, beacon := Beacon.reset, hires := Hires.reset,
    money := Money.reset, meters := Meters.reset, clock := Clock.reset, supervisor := Supervisor.reset,
    limits := Limits.reset, pending := [] }

end Sys2Proof.Machine
end

