-- ==== Sys2Proof/Machine/Bytes.lean ====
section
/-! DEFINITION. Bytes of the control link: byte order, the check field, the frame as it is sent, and the receive framer
(R169, R170). -/

namespace Sys2Proof.Machine

/-- The low byte of a number. -/
def byteOf (n : Nat) : Byte := BitVec.ofNat 8 n

/-- A number as 2 bytes, high byte first (R169). -/
def be16 (n : Nat) : List Byte := [byteOf (n / 256), byteOf n]

/-- A number as 4 bytes, high byte first (R169). -/
def be32 (n : Nat) : List Byte := [byteOf (n / 16777216), byteOf (n / 65536), byteOf (n / 256), byteOf n]

/-- A mark as a byte, 1 for set (R27, R42, R70). -/
def flagByte (b : Bool) : Byte := if b then 1 else 0

/-- The number 2 bytes stand for, high byte first (R169). -/
def nat16 (hi lo : Byte) : Nat := hi.toNat * 256 + lo.toNat

/-- The number 4 bytes stand for, high byte first (R169). -/
def nat32 (b3 b2 b1 b0 : Byte) : Nat := b3.toNat * 16777216 + b2.toNat * 65536 + b1.toNat * 256 + b0.toNat

/-- One bit taken into the check register (R169): shift left by one, and combine with 1021h when the bit shifted out
and the data bit differ. -/
def crcBit (reg : Code16) (bit : Bool) : Code16 :=
  if reg.msb != bit then (reg <<< 1) ^^^ 0x1021#16 else reg <<< 1

/-- One byte taken into the check register, most significant bit first (R169). -/
def crcByte (reg : Code16) (b : Byte) : Code16 :=
  [7, 6, 5, 4, 3, 2, 1, 0].foldl (fun r i => crcBit r (b.getLsbD i)) reg

/-- The check of a run of bytes: the register starts at FFFFh and there is no final inversion (R169). -/
def crc16 (bytes : List Byte) : Code16 := bytes.foldl crcByte 0xFFFF#16

/-- The bytes of a frame that its check covers: length, kind, tag and body (R169). -/
def Frame.covered (f : Frame) : List Byte := be16 f.body.length ++ [f.kind, f.tag] ++ f.body

/-- The frame as it stands on the line: sync byte, covered bytes, check, high byte first (R169). -/
def Frame.bytes (f : Frame) : List Byte := 0xA5 :: f.covered ++ be16 (crc16 f.covered).toNat

/-- What the framer makes of one byte with a good stop bit (R170): its next phase, and the frame if it is complete. -/
def Framer.take : Framer → Byte → Framer × Option Frame
  | .hunt, b => (if b = 0xA5 then .header [] else .hunt, none)
  | .header [], b => (.header [b], none)
  | .header [h], b => (if Config.maxBody < nat16 h b then .hunt else .header [h, b], none)
  | .header [h, l], b => (.header [h, l, b], none)
  | .header (h :: l :: k :: _), b =>
    (if nat16 h l = 0 then .check k b [] [] else .body (nat16 h l) k b [], none)
  | .body n k t got, b =>
    (if got.length + 1 < n then .body n k t (got ++ [b]) else .check k t (got ++ [b]) [], none)
  | .check k t bs [], b => (.check k t bs [b], none)
  | .check k t bs (c :: _), b =>
    (.hunt, if crc16 (Frame.covered ⟨k, t, bs⟩) = BitVec.ofNat 16 (nat16 c b) then some ⟨k, t, bs⟩ else none)

/-- One received byte: a stop-bit error discards the frame in progress, and is ignored in HUNT (R170). -/
def Framer.byte (f : Framer) (b : LineByte) : Framer × Option Frame :=
  if b.stopOk then f.take b.value else (.hunt, none)

/-- A complete frame is passed to the request hold, and discarded while the hold is occupied (R171). -/
def Link.offer (l : Link) (f : Frame) : Link := if l.hold = none then { l with hold := some f } else l

end Sys2Proof.Machine
end

