-- ==== Sys2Proof/Machine/Operands.lean ====
section
/-! DEFINITION. Operand forms: how the bytes of requests, replies and notices code the values of the manual (R26, R27,
R29, R36, R42, R99, R118, R165, R166, R171, R175), and the keys the sparse tables are held by. -/

namespace Sys2Proof.Machine

/-! ### Keys -/

/-- The key of desk position `d` of booth `b`. -/
def deskKey (b d : Nat) : Nat := b * 8 + d

/-- The place of output A and of output B. -/
def sideIndex : Side → Nat
  | .a => 0
  | .b => 1

/-- The key of a handover domain of booth `b`: its one domain under SINGLE and output A's under DUAL stand at A, output
B's under DUAL at B (R42, R43). -/
def domainKey (b : Nat) (side : Side) : Nat := b * 2 + sideIndex side

/-- The key of a slot of the slot map. -/
def slotKey (l : Location) : Nat := l.rack * 64 + l.slot

/-- The key of an entry of the result table. -/
def resultKey (channel position : Nat) : Nat := channel * 8 + position

/-- The key of a figure of the delegation listening table. -/
def delegationKey (delegation channel : Nat) : Nat := delegation * 32 + channel

/-- The key of a count of the service record; categories are numbered as in R27. -/
def serviceKey (channel category : Nat) : Nat := channel * 8 + category

/-! ### Ranges (00_scope section 4) -/

/-- Channels 0 to 31. -/
def allChannels : List Nat := List.range 32

/-- Language channels 1 to 31. -/
def langChannels : List Nat := List.range' 1 31

/-- Booths 1 to 24. -/
def allBooths : List Nat := List.range' 1 24

/-- Desk positions 1 to 4. -/
def positions : List Nat := List.range' 1 4

/-- Slots 1 to 48. -/
def allSlots : List Nat := List.range' 1 48

/-- Monitor positions 0 to 7. -/
def monitorPositions : List Nat := List.range 8

/-- Units 1 to 42. -/
def allUnits : List Nat := List.range' 1 42

/-- The places of the handover domains, in ascending booth order, output A's before output B's (R52, R66). -/
def domainPlaces : List (Nat × Side) := allBooths.flatMap fun b => [(b, .a), (b, .b)]

/-- The unit number of a rack (R94). -/
def rackUnit (rack : Nat) : Nat := 24 + rack

/-- The unit number of the radiator (00_scope section 2.4). -/
def radiatorUnit : Nat := 41

/-- The unit number of the reference (00_scope section 2.4). -/
def referenceUnit : Nat := 42

/-! ### Status codes (R171) -/

/-- The outcome of a request (R171). -/
inductive Status where
  | ok
  | clamped
  | busy
  | range
  | notFound
  | inUse
  | engaged
  | full
  | empty
  | notAvailable
  | lowBattery
  | noTariff
  | frozen
  | duplicate
  | conflict
  | unitLost
  | wrongState
  | mismatch
  | badLength
  | unknownKind
deriving DecidableEq, Repr

/-- The code of a status (R171). -/
def Status.code : Status → Byte
  | .ok => 0x00
  | .clamped => 0x01
  | .busy => 0x02
  | .range => 0x03
  | .notFound => 0x04
  | .inUse => 0x05
  | .engaged => 0x06
  | .full => 0x07
  | .empty => 0x08
  | .notAvailable => 0x09
  | .lowBattery => 0x0A
  | .noTariff => 0x0B
  | .frozen => 0x0C
  | .duplicate => 0x0D
  | .conflict => 0x0E
  | .unitLost => 0x0F
  | .wrongState => 0x10
  | .mismatch => 0x11
  | .badLength => 0x12
  | .unknownKind => 0x13

/-- OK, or CLAMPED when a value was stored as the nearest bound of its range (00_scope section 4). -/
def clampStatus (changed : Bool) : Status := if changed then .clamped else .ok

/-! ### Codings of single values -/

/-- The code of an output: 1 for A, 2 for B (R26, R42). -/
def sideCode : Side → Byte
  | .a => 1
  | .b => 2

/-- The output a byte names (R57). -/
def sideOfByte (b : Byte) : Option Side :=
  if b = 1 then some .a else if b = 2 then some .b else none

/-- The byte of a present or absent output (R175). -/
def outputByte : Option BoothOutput → Byte
  | none => 0
  | some o => byteOf (o.booth * 8 + sideIndex o.side + 1)

/-- What an output byte codes (R175): `none` when it codes no value, `some none` for the absent output. -/
def outputOfByte (b : Byte) : Option (Option BoothOutput) :=
  if b = 0 then some none
  else
    let booth := b.toNat / 8
    if 1 ≤ booth ∧ booth ≤ 24 then
      if b.toNat % 8 = 1 then some (some ⟨booth, .a⟩)
      else if b.toNat % 8 = 2 then some (some ⟨booth, .b⟩)
      else none
    else none

/-- The code of a fallback (R175). -/
def fallbackCode : Fallback → Byte
  | .floor => 1
  | .silence => 2
  | .pivot => 3

/-- The fallback a byte codes (R175). -/
def fallbackOfByte (b : Byte) : Option Fallback :=
  if b = 1 then some .floor else if b = 2 then some .silence else if b = 3 then some .pivot else none

/-- The yes or no a byte codes (R175). -/
def yesNoOfByte (b : Byte) : Option Bool :=
  if b = 0 then some false else if b = 1 then some true else none

/-- The pivot channel a byte codes (R175): `none` when it codes no value. -/
def pivotOfByte (b : Byte) : Option (Option Nat) :=
  if b = 0 then some none else if b.toNat ≤ 31 then some (some b.toNat) else none

/-- A plan entry in its seven-byte layout, the channel first (R175). -/
def planEntryBytes (channel : Nat) (e : PlanEntry) : List Byte :=
  [byteOf channel, byteOf e.language, outputByte e.first, outputByte e.second, flagByte e.autofloor,
    fallbackCode e.fallback, byteOf (e.pivot.getD 0)]

/-- The announcement input a byte names (R29). -/
def inputOfByte (b : Byte) : Option AnnInput :=
  if b = 1 then some .one else if b = 2 then some .two else none

/-- The code of an announcement input (R26). -/
def inputCode : AnnInput → Byte
  | .one => 1
  | .two => 2

/-- The channel set 4 bytes carry (R29). -/
def setOfBytes (b3 b2 b1 b0 : Byte) : ChannelSet := BitVec.ofNat 32 (nat32 b3 b2 b1 b0)

/-- The channels a set names, in ascending order (R29). -/
def channelsOf (set : ChannelSet) : List Nat := allChannels.filter fun c => set.getLsbD c

/-- The set of the channels for which `p` holds (R29). -/
def setOf (p : Nat → Bool) : ChannelSet :=
  allChannels.foldl (fun acc c => if p c then acc ||| (1#32 <<< c) else acc) 0#32

/-- The monitor positions a set names, in ascending order (R73). -/
def positionsOf (set : MonitorSet) : List Nat := monitorPositions.filter fun m => set.getLsbD m

/-- The set of the monitor positions for which `p` holds (R73). -/
def monitorSetOf (p : Nat → Bool) : MonitorSet :=
  monitorPositions.foldl (fun acc m => if p m then acc ||| (1#8 <<< m) else acc) 0#8

/-- The category code of a source identity (R27). -/
def Identity.code : Identity → Nat
  | .announce _ => 1
  | .booth _ => 2
  | .autofloor => 3
  | .test => 4
  | .pivot _ => 5
  | .fallback => 6
  | .unused => 7
  | .floor => 8

/-- The category, booth, output, input and pivot bytes of an identity (R26, R27). -/
def Identity.bytes (i : Identity) : List Byte :=
  byteOf i.code ::
    match i with
    | .booth o => [byteOf o.booth, sideCode o.side, 0, 0]
    | .announce a => [0, 0, inputCode a, 0]
    | .pivot p => [0, 0, 0, byteOf p]
    | _ => [0, 0, 0, 0]

/-- The announcement state byte of READ_SOURCES (R27). -/
def AnnState.code : AnnState → Byte
  | .none => 0
  | .active .one => 1
  | .active .two => 2
  | .deferred .one => 3
  | .deferred .two => 4

/-- The interlock code (R36). -/
def interlockCode : Interlock → Byte
  | .single => 1
  | .dual => 2

/-- The interlock a byte codes (R36). -/
def interlockOfByte (b : Byte) : Option Interlock :=
  if b = 1 then some .single else if b = 2 then some .dual else none

/-- The handover mode code (R36). -/
def modeCode : HandoverMode → Byte
  | .override => 1
  | .handshake => 2

/-- The handover mode a byte codes (R36). -/
def modeOfByte (b : Byte) : Option HandoverMode :=
  if b = 1 then some .override else if b = 2 then some .handshake else none

/-- The expiry policy code (R36). -/
def policyCode : ExpiryPolicy → Byte
  | .take => 1
  | .lapse => 2

/-- The expiry policy a byte codes (R36). -/
def policyOfByte (b : Byte) : Option ExpiryPolicy :=
  if b = 1 then some .take else if b = 2 then some .lapse else none

/-- The seven configuration fields of a booth in request order (R36, R37). -/
def BoothConfig.bytes (c : BoothConfig) : List Byte :=
  [byteOf c.enabled, interlockCode c.interlock, modeCode c.mode, byteOf c.window, policyCode c.policy,
    byteOf c.turnLimit, byteOf c.overrun]

/-- The code of a check result (R82). -/
def CheckResult.code : CheckResult → Byte
  | .notRun => 0
  | .pass => 1
  | .miscompare => 2
  | .noReply => 3
  | .preempted => 4
  | .excluded => 5

/-- The code of the check state (R82, R173). -/
def CheckState.code : CheckState → Byte
  | .idle => 0
  | .running => 1
  | .done => 2

/-- The code of a receiver state (R99). -/
def ReceiverState.code : ReceiverState → Byte
  | .unknown => 1
  | .docked => 2
  | .reserved => 3
  | .out => 4
  | .silent => 5
  | .stray => 6
  | .lost => 7
  | .monitor => 8
  | .withdrawn => 9

/-- The code of a unit state (R100, R167, R173). -/
def UnitState.code : UnitState → Byte
  | .unseen => 0
  | .present => 1
  | .lost => 2

/-- The code of a severity (R166). -/
def Severity.code : Severity → Byte
  | .note => 1
  | .degraded => 2
  | .lost => 3

/-- The code of a fault cause (R166). -/
def Cause.code : Cause → Byte
  | .unitLost => 1
  | .referenceLost => 2
  | .inventoryMismatch => 3
  | .consoleStateMismatch => 4

/-- The code of the time quality (R161, R173). -/
def Quality.code : Quality → Byte
  | .nominal => 1
  | .degraded => 2

/-- The code of the hall state (R173). -/
def Hall.code : Hall → Byte
  | .setup => 1
  | .session => 2

/-- A present or absent figure of 4 bytes, with its present mark ahead (R99, R135). -/
def optional32 : Option Nat → List Byte
  | none => 0 :: be32 0
  | some n => 1 :: be32 n

/-- The seven limits in the layout of WRITE_LIMITS (R168). -/
def Limits.bytes (l : Limits) : List Byte :=
  [byteOf l.creditCap, byteOf l.missLimit, byteOf l.missingCode] ++ be16 l.issueWindow ++
    [byteOf l.issueMinimum, byteOf l.lowBand, byteOf l.failureLimit]

/-- The six figures of a tariff class in request order and sizes (R139, R142). -/
def Tariff.bytes (t : Tariff) : List Byte :=
  [byteOf t.grace, byteOf t.unit] ++ be16 t.firstPrice ++ be16 t.furtherPrice ++ be32 t.dayCap ++ be32 t.lostCharge

/-! ### The index of requests (chapter 12, section 12.5) -/

/-- The kinds of the requests of the index with their body lengths (R171). -/
def requestIndex : List (Byte × Nat) :=
  [(0x01, 0), (0x02, 0), (0x03, 0), (0x04, 0), (0x05, 4), (0x06, 8), (0x07, 0), (0x08, 1), (0x09, 1), (0x10, 7),
    (0x11, 1), (0x12, 1), (0x13, 0), (0x14, 5), (0x15, 1), (0x18, 8), (0x19, 1), (0x1A, 1), (0x1B, 2), (0x1C, 1)] ++
  [(0x20, 8), (0x21, 0), (0x22, 0), (0x28, 2), (0x29, 1), (0x2A, 3), (0x2B, 1), (0x2C, 2), (0x2D, 2), (0x2E, 4),
    (0x2F, 0), (0x30, 12), (0x31, 4), (0x32, 4), (0x33, 4), (0x34, 0), (0x35, 4), (0x38, 15), (0x39, 1), (0x3A, 0),
    (0x3B, 1), (0x3C, 1), (0x3D, 1)]

/-- Whether a kind names a request of the index (R171). -/
def namesRequest (kind : Byte) : Bool := requestIndex.any fun e => e.1 = kind

/-- Whether a kind is a reply kind, 80h to FFh (R171). -/
def isReplyKind (kind : Byte) : Bool := kind.msb

end Sys2Proof.Machine
end

