-- ==== Sys2Proof/WellFormed.lean ====
section
/-! DEFINITION. Well-formed commands: operands the manual admits for the row. A request may carry a body of any length up
to the longest of a frame, because a body of the wrong length is answered with BAD_LENGTH (R169, R171), and a link's
report may carry values out of range, because the rule that takes it says what they do (R45, R87, R107). -/

namespace Sys2Proof

/-- A number from `low` to `high`. -/
def inRange (low high n : Nat) : Bool := decide (low ≤ n) && decide (n ≤ high)

/-- The frame a request command carries: its kind from the index, its tag and its body; none for an event (R169, R171). -/
def Instr.frame? : Instr → Option Machine.Frame
  | .powerOnReset => none
  | .frameReceived _ => none
  | .framerGapTimeout => none
  | .unknownKind kind tag body => some ⟨kind, tag, body⟩
  | .frameSent => none
  | .readStatus tag body => some ⟨0x01, tag, body⟩
  | .openSession tag body => some ⟨0x02, tag, body⟩
  | .closeSession tag body => some ⟨0x03, tag, body⟩
  | .resetAudio tag body => some ⟨0x04, tag, body⟩
  | .setTime tag body => some ⟨0x05, tag, body⟩
  | .writeLimits tag body => some ⟨0x06, tag, body⟩
  | .readLimits tag body => some ⟨0x07, tag, body⟩
  | .readFault tag body => some ⟨0x08, tag, body⟩
  | .clearFault tag body => some ⟨0x09, tag, body⟩
  | .writeChannel tag body => some ⟨0x10, tag, body⟩
  | .readChannel tag body => some ⟨0x11, tag, body⟩
  | .setFloorLanguage tag body => some ⟨0x12, tag, body⟩
  | .readSources tag body => some ⟨0x13, tag, body⟩
  | .startAnnouncement tag body => some ⟨0x14, tag, body⟩
  | .stopAnnouncement tag body => some ⟨0x15, tag, body⟩
  | .writeBooth tag body => some ⟨0x18, tag, body⟩
  | .readBooth tag body => some ⟨0x19, tag, body⟩
  | .readDesks tag body => some ⟨0x1A, tag, body⟩
  | .forceOutputOff tag body => some ⟨0x1B, tag, body⟩
  | .readDeskRecords tag body => some ⟨0x1C, tag, body⟩
  | .startCheck tag body => some ⟨0x20, tag, body⟩
  | .abortCheck tag body => some ⟨0x21, tag, body⟩
  | .readCheck tag body => some ⟨0x22, tag, body⟩
  | .readReceiver tag body => some ⟨0x28, tag, body⟩
  | .readRack tag body => some ⟨0x29, tag, body⟩
  | .setMonitor tag body => some ⟨0x2A, tag, body⟩
  | .clearMonitor tag body => some ⟨0x2B, tag, body⟩
  | .withdrawReceiver tag body => some ⟨0x2C, tag, body⟩
  | .restoreReceiver tag body => some ⟨0x2D, tag, body⟩
  | .writeSchedule tag body => some ⟨0x2E, tag, body⟩
  | .readListeners tag body => some ⟨0x2F, tag, body⟩
  | .openHire tag body => some ⟨0x30, tag, body⟩
  | .cancelHire tag body => some ⟨0x31, tag, body⟩
  | .declareLost tag body => some ⟨0x32, tag, body⟩
  | .readHire tag body => some ⟨0x33, tag, body⟩
  | .readSettlement tag body => some ⟨0x34, tag, body⟩
  | .takeSettlement tag body => some ⟨0x35, tag, body⟩
  | .writeTariff tag body => some ⟨0x38, tag, body⟩
  | .readTariff tag body => some ⟨0x39, tag, body⟩
  | .freezeTariffs tag body => some ⟨0x3A, tag, body⟩
  | .readDelegation tag body => some ⟨0x3B, tag, body⟩
  | .clearDelegation tag body => some ⟨0x3C, tag, body⟩
  | .readService tag body => some ⟨0x3D, tag, body⟩
  | .consoleReply _ _ => none
  | .rackReply _ _ => none
  | .radiatorStatusPoll => none
  | .radiatorReply => none
  | .unitPollMiss _ => none
  | .unitDeclaredLost _ => none
  | .beaconPollSend => none
  | .beaconReply _ _ _ _ => none
  | .beaconMiss => none
  | .missLimitReached _ => none
  | .secondEvent _ => none
  | .turnLimitReached _ _ => none
  | .overrunLimitReached _ _ => none
  | .handoverWindowExpiry _ _ => none
  | .issueWindowExpiry _ => none
  | .missingTimeReached _ => none
  | .checkDwellExpiry => none
  | .referenceGap => none
  | .stableTimeReached => none
  | .referenceEdgesResume => none
  | .consolePoll => none
  | .rackPoll => none
  | .replyKindDiscarded kind tag body => some ⟨kind, tag, body⟩

/-- Whether the operands that are not part of a request's frame lie where the manual admits them. -/
def Instr.operandsFit : Instr → Bool
  | .powerOnReset => true
  | .frameReceived _ => true
  | .framerGapTimeout => true
  | .unknownKind kind _ _ => !Machine.isReplyKind kind && !Machine.namesRequest kind
  | .frameSent => true
  | .readStatus _ _ => true
  | .openSession _ _ => true
  | .closeSession _ _ => true
  | .resetAudio _ _ => true
  | .setTime _ _ => true
  | .writeLimits _ _ => true
  | .readLimits _ _ => true
  | .readFault _ _ => true
  | .clearFault _ _ => true
  | .writeChannel _ _ => true
  | .readChannel _ _ => true
  | .setFloorLanguage _ _ => true
  | .readSources _ _ => true
  | .startAnnouncement _ _ => true
  | .stopAnnouncement _ _ => true
  | .writeBooth _ _ => true
  | .readBooth _ _ => true
  | .readDesks _ _ => true
  | .forceOutputOff _ _ => true
  | .readDeskRecords _ _ => true
  | .startCheck _ _ => true
  | .abortCheck _ _ => true
  | .readCheck _ _ => true
  | .readReceiver _ _ => true
  | .readRack _ _ => true
  | .setMonitor _ _ => true
  | .clearMonitor _ _ => true
  | .withdrawReceiver _ _ => true
  | .restoreReceiver _ _ => true
  | .writeSchedule _ _ => true
  | .readListeners _ _ => true
  | .openHire _ _ => true
  | .cancelHire _ _ => true
  | .declareLost _ _ => true
  | .readHire _ _ => true
  | .readSettlement _ _ => true
  | .takeSettlement _ _ => true
  | .writeTariff _ _ => true
  | .readTariff _ _ => true
  | .freezeTariffs _ _ => true
  | .readDelegation _ _ => true
  | .clearDelegation _ _ => true
  | .readService _ _ => true
  | .consoleReply booth _ => inRange 1 24 booth
  | .rackReply rack (.reports _) => inRange 1 16 rack
  | .rackReply rack (.inventory entries) => inRange 1 16 rack && decide (entries.length = 48)
  | .radiatorStatusPoll => true
  | .radiatorReply => true
  | .unitPollMiss unit => inRange 1 41 unit
  | .unitDeclaredLost unit => inRange 1 41 unit
  | .beaconPollSend => true
  | .beaconReply _ _ _ _ => true
  | .beaconMiss => true
  | .missLimitReached receiver => inRange 0 4095 receiver
  | .secondEvent order => decide order.Nodup && decide (order.length = 7)
  | .turnLimitReached booth _ => inRange 1 24 booth
  | .overrunLimitReached booth _ => inRange 1 24 booth
  | .handoverWindowExpiry booth _ => inRange 1 24 booth
  | .issueWindowExpiry hire => inRange 1 4294967295 hire
  | .missingTimeReached receiver => inRange 0 4095 receiver
  | .checkDwellExpiry => true
  | .referenceGap => true
  | .stableTimeReached => true
  | .referenceEdgesResume => true
  | .consolePoll => true
  | .rackPoll => true
  | .replyKindDiscarded kind _ _ => Machine.isReplyKind kind

/-- A well-formed command: its frame, if it carries one, is no longer than a frame may be (R169), and its other operands
fit. -/
def Instr.wellFormed (i : Instr) : Bool :=
  i.operandsFit &&
    match i.frame? with
    | some f => decide (f.body.length ≤ Config.maxBody)
    | none => true

end Sys2Proof
end

