-- ==== Sys2Proof/Machine/Flags.lean ====
section
/-! DEFINITION. Flags: the flag bytes of hires and settlements, the lamp bytes, and the bodies of notices that carry
them (R41, R42, R135, R148, R176, and the notice bodies of section 12.5). -/

namespace Sys2Proof.Machine

/-- The flags byte of a settlement: GRACE in bit 0 to TIME_DEGRADED in bit 5 (R176). -/
def SettlementFlags.byte (f : SettlementFlags) : Byte :=
  byteOf ((if f.grace then 1 else 0) + (if f.capped then 2 else 0) + (if f.saturated then 4 else 0) +
    (if f.lost then 8 else 0) + (if f.reconciled then 16 else 0) + (if f.timeDegraded then 32 else 0))

/-- The flags byte of READ_HIRE: 1 for LOST, 2 for RECONCILED, 3 for both (R135). -/
def Hire.flagsByte (h : Hire) : Byte := byteOf ((if h.lost then 1 else 0) + (if h.reconciled then 2 else 0))

/-- The six steady lamps in the order of READ_DESKS; ENGAGED is not reported (R42). -/
def Lamps.steadyBytes (l : Lamps) : List Byte :=
  [flagByte l.live, flagByte l.requesting, flagByte l.handoverAsked, flagByte l.turnDue, flagByte l.offAir,
    flagByte l.relayFallback]

/-- Every lamp dark, as a position above the enabled count shows (R41). -/
def Lamps.dark : Lamps :=
  { live := false, requesting := false, handoverAsked := false, turnDue := false, offAir := false,
    relayFallback := false, engaged := false }

/-- A settlement in its 53-byte layout (R176). -/
def Settlement.bytes (s : Settlement) : List Byte :=
  be32 s.hire ++ be16 s.receiver ++ be32 s.reference ++ [byteOf s.delegation, byteOf s.tariff, s.flags.byte] ++
    be32 s.start ++ be32 s.finish ++ be32 s.duration ++ be32 s.units ++ be32 s.usage ++ be32 s.lostCharge ++
    be32 s.total ++ be32 s.deposit ++ be32 s.refund ++ be32 s.due

/-- The kind of a notice (chapter 12, section 12.5). -/
def Notice.kind : Notice → Byte
  | .ready => 0x60
  | .fault _ _ => 0x61
  | .reference _ _ _ => 0x62
  | .sourceChange _ _ => 0x63
  | .announcementTaken _ _ => 0x64
  | .deskSlow _ _ => 0x65
  | .turnDue _ _ => 0x66
  | .turnOverrun _ _ => 0x67
  | .checkDone _ _ => 0x68
  | .hireStarted _ _ _ _ => 0x69
  | .hireLapsed _ _ => 0x6A
  | .hireSettled _ _ _ => 0x6B
  | .stray _ _ _ => 0x6C
  | .strayReturned _ _ _ => 0x6D
  | .recovered _ _ _ => 0x6E
  | .silent _ _ => 0x6F
  | .missing _ _ _ => 0x70
  | .batteryLow _ _ _ => 0x71
  | .reconciled _ _ => 0x72

/-- The body of a notice, as its owning rule lays it out. -/
def Notice.body : Notice → List Byte
  | .ready => be16 Config.partIdentity ++ [byteOf Config.revision]
  | .fault u e => [byteOf u, e.severity.code, e.cause.code] ++ be32 e.time ++ be32 e.detail
  | .reference q s d => q.code :: be32 s ++ be32 d
  | .sourceChange c i => byteOf c :: i.bytes
  | .announcementTaken c i => [byteOf c, inputCode i]
  | .deskSlow b d => [byteOf b, byteOf d]
  | .turnDue b d => [byteOf b, byteOf d]
  | .turnOverrun b d => [byteOf b, byteOf d]
  | .checkDone a n => [flagByte a, byteOf n]
  | .hireStarted h r s rec => be32 h ++ be16 r ++ be32 s ++ [flagByte rec]
  | .hireLapsed h r => be32 h ++ be16 r
  | .hireSettled h r f => be32 h ++ be16 r ++ [f.byte]
  | .stray r k s => be16 r ++ [byteOf k, byteOf s]
  | .strayReturned r k s => be16 r ++ [byteOf k, byteOf s]
  | .recovered r k s => be16 r ++ [byteOf k, byteOf s]
  | .silent r h => be16 r ++ be32 h
  | .missing r h s => be16 r ++ be32 h ++ be32 s
  | .batteryLow r h b => be16 r ++ be32 h ++ [byteOf b]
  | .reconciled k n => [byteOf k, byteOf n]

/-- A notice as a frame, with tag 0 (R169). -/
def Notice.frame (n : Notice) : Frame := ⟨n.kind, 0, n.body⟩

end Sys2Proof.Machine
end

