-- ==== Sys2Proof/Machine/Ops.lean ====
section
/-! DEFINITION. The named operations over the state: reading and writing one entry of a table, a saturating rise,
raising notices, recording a fault, and taking a request from the hold (R166, R171, R172). -/

namespace Sys2Proof.Machine

/-- A counter that saturates stays at the largest value it can hold (00_scope section 4). -/
def satAdd (n k : Nat) : Nat := min (n + k) Config.maxCount

/-! ### Reading one entry -/

/-- The plan entry of a channel; channel 0 reads as its fixed entry, whatever the table holds (R1, R2). -/
def State.planEntry (s : State) (c : Nat) : PlanEntry := if c = 0 then .unused else s.plan.entries.read .unused c

/-- The effective source record of a channel (R17). -/
def State.source (s : State) (c : Nat) : Source := s.arbiter.sources.read .unused c

/-- The announcement state of a channel (R28). -/
def State.announcement (s : State) (c : Nat) : AnnState := s.arbiter.announcements.read .none c

/-- The channel set of an announcement input, absent while it is stopped (R28). -/
def State.inputSet (s : State) : AnnInput → Option ChannelSet
  | .one => s.arbiter.inputOne
  | .two => s.arbiter.inputTwo

/-- The relay selection of a booth, absent for FLOOR (R33). -/
def State.relay (s : State) (b : Nat) : Option Nat := s.arbiter.relays.read none b

/-- The effective ear feed of a booth (R34). -/
def State.feed (s : State) (b : Nat) : EarFeed := s.arbiter.feeds.read .floor b

/-- The configuration of a booth (R36). -/
def State.config (s : State) (b : Nat) : BoothConfig := s.booths.configs.read .default b

/-- A desk position of a booth (R40). -/
def State.desk (s : State) (b d : Nat) : Desk := s.booths.desks.read .disabled (deskKey b d)

/-- The handover domain standing at a place of a booth (R43). -/
def State.domain (s : State) (b : Nat) (side : Side) : Domain := s.booths.domains.read .idle (domainKey b side)

/-- The turn record of a handover domain (R61). -/
def State.turn (s : State) (b : Nat) (side : Side) : TurnRecord := s.turns.turns.read .idle (domainKey b side)

/-- The desk record of a desk position (R67). -/
def State.deskRecord (s : State) (b d : Nat) : DeskRecord := s.turns.records.read .zero (deskKey b d)

/-- An entry of the result table (R72). -/
def State.result (s : State) (c m : Nat) : CheckResult := s.check.results.read .notRun (resultKey c m)

/-- The failure flag of a channel (R72). -/
def State.failed (s : State) (c : Nat) : Bool := s.check.failed.read false c

/-- The progress of a monitor position on the current channel (R72). -/
def State.progress (s : State) (m : Nat) : Progress := s.check.progress.read .zero m

/-- The receiver a slot holds (R86). -/
def State.slot (s : State) (l : Location) : Option Nat := s.racks.slots.read none (slotKey l)

/-- The entry of a receiver (R84). -/
def State.receiver (s : State) (r : Nat) : Receiver := s.fleet.receivers.read .unseen r

/-- The receiver a monitor position holds (R95). -/
def State.monitorAt (s : State) (p : Nat) : Option Nat := s.fleet.monitors.read none p

/-- A poll list (R102). -/
def State.pollList (s : State) : ListId → PollList
  | .l0 => s.beacon.l0
  | .l1 => s.beacon.l1
  | .l2 => s.beacon.l2
  | .l3 => s.beacon.l3

/-- The listener count of a channel (R115). -/
def State.listeners (s : State) (c : Nat) : Nat := s.beacon.listeners.read 0 c

/-- The battery-low mark of a receiver (R114). -/
def State.lowMark (s : State) (r : Nat) : Bool := s.beacon.lowMarks.read false r

/-- The hire record holding a number (R118). -/
def State.hire (s : State) (n : Nat) : Option Hire := s.hires.records.read none n

/-- The records of the hire table, in ascending hire number order (R118). -/
def State.hireList (s : State) : List Hire := s.hires.records.filterMap fun e => e.2

/-- A tariff class (R138). -/
def State.tariff (s : State) (k : Nat) : Tariff := s.money.tariffs.read .undefined k

/-- A figure of the delegation listening table (R150). -/
def State.listening (s : State) (d c : Nat) : Nat := s.meters.listening.read 0 (delegationKey d c)

/-- The seconds a channel has spent in a category, the categories numbered as in R27 (R156). -/
def State.serviceSeconds (s : State) (c k : Nat) : Nat := s.meters.service.read 0 (serviceKey c k)

/-- The unserved listener-seconds of a channel (R157). -/
def State.unserved (s : State) (c : Nat) : Nat := s.meters.unserved.read 0 c

/-- What the supervisor keeps for a unit (R165). -/
def State.unit (s : State) (u : Nat) : UnitEntry := s.supervisor.units.read .unseen u

/-- The fault record of a unit (R166). -/
def State.faultRecord (s : State) (u : Nat) : FaultRecord := s.supervisor.faults.read .empty u

/-- "Now": the seconds counter as it stands (R160). -/
def State.now (s : State) : Nat := s.clock.seconds

/-! ### Writing one entry -/

/-- Replaces a plan entry (R4). -/
def State.setPlanEntry (s : State) (c : Nat) (e : PlanEntry) : State :=
  { s with plan := { s.plan with entries := s.plan.entries.write .unused c e } }

/-- Sets the announcement state of a channel (R28). -/
def State.setAnnouncement (s : State) (c : Nat) (a : AnnState) : State :=
  { s with arbiter := { s.arbiter with announcements := s.arbiter.announcements.write .none c a } }

/-- Starts or stops an announcement input (R28). -/
def State.setInput (s : State) (i : AnnInput) (set : Option ChannelSet) : State :=
  { s with arbiter :=
      match i with
      | .one => { s.arbiter with inputOne := set }
      | .two => { s.arbiter with inputTwo := set } }

/-- Sets the relay selection of a booth (R33). -/
def State.setRelay (s : State) (b : Nat) (c : Option Nat) : State :=
  { s with arbiter := { s.arbiter with relays := s.arbiter.relays.write none b c } }

/-- Stores a booth configuration (R37). -/
def State.setConfig (s : State) (b : Nat) (c : BoothConfig) : State :=
  { s with booths := { s.booths with configs := s.booths.configs.write .default b c } }

/-- Sets a desk position (R40). -/
def State.setDesk (s : State) (b d : Nat) (k : Desk) : State :=
  { s with booths := { s.booths with desks := s.booths.desks.write .disabled (deskKey b d) k } }

/-- Sets a handover domain (R43). -/
def State.setDomain (s : State) (b : Nat) (side : Side) (m : Domain) : State :=
  { s with booths := { s.booths with domains := s.booths.domains.write .idle (domainKey b side) m } }

/-- Sets a turn record (R61). -/
def State.setTurn (s : State) (b : Nat) (side : Side) (t : TurnRecord) : State :=
  { s with turns := { s.turns with turns := s.turns.turns.write .idle (domainKey b side) t } }

/-- Sets a desk record (R67). -/
def State.setDeskRecord (s : State) (b d : Nat) (r : DeskRecord) : State :=
  { s with turns := { s.turns with records := s.turns.records.write .zero (deskKey b d) r } }

/-- Enters a result (R72). -/
def State.setResult (s : State) (c m : Nat) (r : CheckResult) : State :=
  { s with check := { s.check with results := s.check.results.write .notRun (resultKey c m) r } }

/-- Sets the failure flag of a channel (R77). -/
def State.setFailed (s : State) (c : Nat) : State :=
  { s with check := { s.check with failed := s.check.failed.write false c true } }

/-- Sets the progress of a monitor position (R77). -/
def State.setProgress (s : State) (m : Nat) (p : Progress) : State :=
  { s with check := { s.check with progress := s.check.progress.write .zero m p } }

/-- Fills or empties a slot (R86). -/
def State.setSlot (s : State) (l : Location) (r : Option Nat) : State :=
  { s with racks := { s.racks with slots := s.racks.slots.write none (slotKey l) r } }

/-- Sets the entry of a receiver (R84). -/
def State.setReceiver (s : State) (r : Nat) (e : Receiver) : State :=
  { s with fleet := { s.fleet with receivers := s.fleet.receivers.write .unseen r e } }

/-- Fills or empties a monitor position (R95). -/
def State.setMonitorAt (s : State) (p : Nat) (r : Option Nat) : State :=
  { s with fleet := { s.fleet with monitors := s.fleet.monitors.write none p r } }

/-- Sets a poll list (R102). -/
def State.setPollList (s : State) (i : ListId) (l : PollList) : State :=
  { s with beacon :=
      match i with
      | .l0 => { s.beacon with l0 := l }
      | .l1 => { s.beacon with l1 := l }
      | .l2 => { s.beacon with l2 := l }
      | .l3 => { s.beacon with l3 := l } }

/-- Sets a listener count (R115). -/
def State.setListeners (s : State) (c n : Nat) : State :=
  { s with beacon := { s.beacon with listeners := s.beacon.listeners.write 0 c n } }

/-- Sets or clears a battery-low mark (R114). -/
def State.setLowMark (s : State) (r : Nat) (mark : Bool) : State :=
  { s with beacon := { s.beacon with lowMarks := s.beacon.lowMarks.write false r mark } }

/-- Sets the in-flight poll record (R107). -/
def State.setInFlight (s : State) (p : Option InFlight) : State :=
  { s with beacon := { s.beacon with inFlight := p } }

/-- Puts a record into the hire table, or takes it out (R118). -/
def State.setHire (s : State) (n : Nat) (h : Option Hire) : State :=
  { s with hires := { s.hires with records := s.hires.records.write none n h } }

/-- Sets a tariff class (R139). -/
def State.setTariff (s : State) (k : Nat) (t : Tariff) : State :=
  { s with money := { s.money with tariffs := s.money.tariffs.write .undefined k t } }

/-- Sets a figure of the delegation listening table (R150). -/
def State.setListening (s : State) (d c n : Nat) : State :=
  { s with meters := { s.meters with listening := s.meters.listening.write 0 (delegationKey d c) n } }

/-- Sets a count of the service record (R156). -/
def State.setServiceSeconds (s : State) (c k n : Nat) : State :=
  { s with meters := { s.meters with service := s.meters.service.write 0 (serviceKey c k) n } }

/-- Sets an unserved count (R157). -/
def State.setUnserved (s : State) (c n : Nat) : State :=
  { s with meters := { s.meters with unserved := s.meters.unserved.write 0 c n } }

/-- Sets the state and failure count of a unit (R165). -/
def State.setUnit (s : State) (u : Nat) (e : UnitEntry) : State :=
  { s with supervisor := { s.supervisor with units := s.supervisor.units.write .unseen u e } }

/-- Sets the fault record of a unit (R166). -/
def State.setFaultRecord (s : State) (u : Nat) (f : FaultRecord) : State :=
  { s with supervisor := { s.supervisor with faults := s.supervisor.faults.write .empty u f } }

/-! ### Notices and faults -/

/-- The transmitter begins a notice; with READY the framer starts to hunt (R172, R174). -/
def Link.beginNotice (l : Link) (n : Notice) : Link :=
  { l with sending := some n.frame, receiving := l.receiving || decide (n = .ready) }

/-- A notice joins the queue at its tail; one raised while the queue is full is discarded and the overflow flag is set
(R172). -/
def Link.enqueue (l : Link) (n : Notice) : Link :=
  if l.notices.length < Config.noticePlaces then { l with notices := l.notices ++ [n] } else { l with overflow := true }

/-- A notice raised: an idle transmitter with nothing to send ahead of it begins it at once, and otherwise it joins the
queue (R172). -/
def Link.raise (l : Link) (n : Notice) : Link :=
  if l.sending = none ∧ l.replyRoom = none ∧ l.notices = [] then l.beginNotice n else l.enqueue n

/-- A reply formed: an idle transmitter begins it at once, and otherwise it waits in the reply room (R172). -/
def Link.putReply (l : Link) (r : Frame) : Link :=
  if l.sending = none then { l with sending := some r, replyRoom := none } else { l with replyRoom := some r }

/-- The transmitter has finished a frame, or is idle: it begins the reply in the reply room, or else the notice at the
head of the queue (R172). -/
def Link.transmit (l : Link) : Link :=
  match l.replyRoom with
  | some r => { l with sending := some r, replyRoom := none }
  | none =>
    match l.notices with
    | n :: ns => ({ l with notices := ns } : Link).beginNotice n
    | [] => { l with sending := none }

/-- Raises a notice (R172). -/
def State.raise (s : State) (n : Notice) : State := { s with link := s.link.raise n }

/-- Raises notices in order (R172). -/
def State.raiseAll (s : State) (ns : List Notice) : State := ns.foldl State.raise s

/-- The rank of a severity (R166). -/
def Severity.rank : Severity → Nat
  | .note => 0
  | .degraded => 1
  | .lost => 2

/-- Whether a fault of severity `v` is written into a record (R166): into an empty one, or over a fault of lower rank. -/
def FaultRecord.accepts (f : FaultRecord) (v : Severity) : Bool :=
  match f.fault with
  | none => true
  | some e => e.severity.rank < v.rank

/-- A fault handed to the supervisor (R166): recorded with its FAULT notice, or traced in the overflow mark alone. -/
def recordFault (s : State) (u : Nat) (v : Severity) (c : Cause) (detail : Nat) : State :=
  if (s.faultRecord u).accepts v then
    (s.setFaultRecord u { s.faultRecord u with fault := some ⟨v, c, s.now, detail⟩ }).raise
      (.fault u ⟨v, c, s.now, detail⟩)
  else s.setFaultRecord u { s.faultRecord u with overflow := true }

/-! ### Requests -/

/-- What a request gives: the state it leaves and the body of its reply. -/
abbrev Served := State × List Byte

/-- A reply of a status alone (R171). -/
def answer (s : State) (t : Status) : Served := (s, [t.code])

/-- The reply of a request: its kind plus 80h, its tag, and the body (R169). -/
def Frame.reply (f : Frame) (body : List Byte) : Frame := ⟨f.kind + 0x80, f.tag, body⟩

/-- Whether the request of frame `f` can be taken now (R171): bytes are taken at all (R174), the reply room is empty,
and the hold is free or holds this very frame. -/
def State.admits (s : State) (f : Frame) : Bool :=
  s.link.receiving && decide (s.link.replyRoom = none) && (decide (s.link.hold = none) || decide (s.link.hold = some f))

/-- A frame that cannot be taken waits in the hold if the hold is free, and is discarded otherwise; none of its bytes
is taken before READY has begun to be sent (R171, R174). -/
def State.await (s : State) (f : Frame) : State :=
  if s.link.receiving then { s with link := s.link.offer f } else s

/-- The hold freed (R171). -/
def State.freeHold (s : State) : State := { s with link := { s.link with hold := none } }

/-- The request of frame `f` begins to be taken: the hold is freed, and the reply room is kept for its reply, so that the
notices it raises wait behind it (R171, R172). -/
def State.reserve (s : State) (f : Frame) : State :=
  { s with link := { s.link with hold := none, replyRoom := some (f.reply []) } }

/-- The reply of frame `f` formed (R172). -/
def State.putReply (s : State) (f : Frame) (body : List Byte) : State :=
  { s with link := s.link.putReply (f.reply body) }

/-- The request of frame `f` is taken (R171): the hold is freed, the owning block serves it, and its reply is formed
after every change it caused. A request that cannot be taken now waits or is discarded. -/
def takeRequest (s : State) (f : Frame) (serve : State → Served) : State :=
  if s.admits f then (serve (s.reserve f)).1.putReply f (serve (s.reserve f)).2 else s.await f

/-- A held frame of a reply kind is taken and discarded with no reply (R171). -/
def discardFrame (s : State) (f : Frame) : State := if s.admits f then s.freeHold else s.await f

end Sys2Proof.Machine
end

