-- ==== Sys2Proof/Machine/Arbiter.lean ====
section
/-! DEFINITION. The source arbiter and, because its recomputation can end a test, the coverage checker's advance: the
effective source of each channel, ear feeds, preemption, and the notices of one event (R17 to R35, R75, R78, R80). -/

namespace Sys2Proof.Machine

/-! ### Desks, domains and claims as the arbiter reads them -/

/-- The desk a domain names as live (R43). -/
def Domain.liveDesk : Domain → Option Nat
  | .idle => none
  | .live d => some d
  | .pending d _ _ _ => some d

/-- The desk a domain names as requesting (R43). -/
def Domain.requester : Domain → Option Nat
  | .pending _ e _ _ => some e
  | _ => none

/-- Where the domain covering an output stands: under SINGLE the booth's one domain, under DUAL the output's own (R43). -/
def State.placeOf (s : State) (b : Nat) (side : Side) : Side :=
  match (s.config b).interlock with
  | .single => .a
  | .dual => side

/-- The handover domain covering an output (R43). -/
def State.domainOf (s : State) (o : BoothOutput) : Domain := s.domain o.booth (s.placeOf o.booth o.side)

/-- The desk live on an output: live in the output's domain and selecting the output (R20). -/
def State.liveOn (s : State) (o : BoothOutput) : Option Nat :=
  match (s.domainOf o).liveDesk with
  | some d => if (s.desk o.booth d).selection = o.side then some d else none
  | none => none

/-- Whether an output is claimed: its domain holds a desk LIVE or REQUESTING on it (R9, R44). -/
def State.claimed (s : State) (o : BoothOutput) : Bool :=
  match s.domainOf o with
  | .idle => false
  | .live d => decide ((s.desk o.booth d).selection = o.side)
  | .pending d e _ _ =>
    decide ((s.desk o.booth d).selection = o.side) || decide ((s.desk o.booth e).selection = o.side)

/-- The outputs assigned to a channel (R3). -/
def PlanEntry.outputs (e : PlanEntry) : List BoothOutput := e.first.toList ++ e.second.toList

/-- The serving output of a channel with the desk live on it (R20). -/
def State.serving (s : State) (c : Nat) : Option (BoothOutput × Nat) :=
  (s.planEntry c).outputs.findSome? fun o => (s.liveOn o).map fun d => (o, d)

/-! ### Effective sources (R18 to R23) -/

/-- The record of a channel served by desk `d` on output `o`: silence and the muted mark while the desk holds cough
(R19, R21). -/
def State.boothSource (s : State) (o : BoothOutput) (d : Nat) : Source :=
  { identity := .booth o
    muted := (s.desk o.booth d).cough
    program := if (s.desk o.booth d).cough then .silence else .desk ((s.desk o.booth d).port.getD 0) }

/-- Whether autofloor puts the floor on a channel (row 3 of R19). -/
def State.autofloors (s : State) (c : Nat) : Bool :=
  decide ((s.planEntry c).language ≠ 0) && (s.planEntry c).autofloor &&
    decide (s.plan.floorLanguage = (s.planEntry c).language)

/-- The first of rows 1 to 3 of R19 that holds for a channel 1 to 31: ANNOUNCE, BOOTH or AUTOFLOOR. -/
def State.primary (s : State) (c : Nat) : Option Source :=
  match s.announcement c with
  | .active i => some { identity := .announce i, muted := false, program := .announcement i }
  | _ =>
    match s.serving c with
    | some (o, d) => some (s.boothSource o d)
    | none => if s.autofloors c then some { identity := .autofloor, muted := false, program := .floor } else none

/-- Row 5 of R19, set by language and fallback (R23). -/
def State.fallbackSource (s : State) (c : Nat) : Source :=
  if (s.planEntry c).language = 0 then .unused
  else
    match (s.planEntry c).fallback, (s.planEntry c).pivot with
    | .silence, _ => { identity := .fallback, muted := false, program := .silence }
    | .pivot, some p =>
      match s.primary p with
      | some x => { identity := .pivot p, muted := false, program := x.program }
      | none => { identity := .fallback, muted := false, program := .floor }
    | _, _ => { identity := .fallback, muted := false, program := .floor }

/-- The source without TEST of a channel 1 to 31 (R22). -/
def State.withoutTest (s : State) (c : Nat) : Source := (s.primary c).getD (s.fallbackSource c)

/-- The effective source of a channel as R18 and R19 form it. -/
def State.effective (s : State) (c : Nat) : Source :=
  if c = 0 then
    match s.announcement 0 with
    | .active i => { identity := .announce i, muted := false, program := .announcement i }
    | _ => .floor
  else
    match s.primary c with
    | some x => x
    | none =>
      if s.check.current = some c then { identity := .test, muted := false, program := .signature }
      else s.fallbackSource c

/-! ### Ear feeds (R34) -/

/-- The effective ear feed of booth `x` as R34 forms it from the source records and relay selections. -/
def State.formFeed (s : State) (x : Nat) : EarFeed :=
  match s.relay x with
  | none => .floor
  | some c =>
    match (s.source c).identity with
    | .booth o =>
      if o.booth ≠ x ∧ s.relay o.booth = none then { relaying := some c, fallback := false }
      else { relaying := none, fallback := true }
    | _ => { relaying := none, fallback := true }

/-! ### Recomputation (R24, R25, R35; log entry 5) -/

/-- Every source record formed anew. -/
def State.recomputeSources (s : State) : State :=
  { s with arbiter :=
      { s.arbiter with sources := allChannels.foldl (fun t c => t.write .unused c (s.effective c)) s.arbiter.sources } }

/-- Every ear feed formed anew. -/
def State.recomputeFeeds (s : State) : State :=
  { s with arbiter :=
      { s.arbiter with feeds := allBooths.foldl (fun t b => t.write .floor b (s.formFeed b)) s.arbiter.feeds } }

/-- The source records and then the ear feeds formed anew. -/
def State.recompute (s : State) : State := s.recomputeSources.recomputeFeeds

/-! ### The checker's advance (R75, R78) -/

/-- The test signature of a channel: (seed + 257 × c) mod 65,536 (R75). -/
def CheckProgram.signature (p : CheckProgram) (c : Nat) : Code16 := p.seed + BitVec.ofNat 16 (257 * c)

/-- The channel set of the program held, empty while the program is absent (R72, R82). -/
def State.checkChannels (s : State) : ChannelSet := (s.check.program.map (·.channels)).getD 0

/-- The monitor set of the program held, empty while the program is absent (R72, R82). -/
def State.checkMonitors (s : State) : MonitorSet := (s.check.program.map (·.monitors)).getD 0

/-- The number of channels whose failure flag is set (R78). -/
def State.failedCount (s : State) : Nat := (langChannels.filter fun c => s.failed c).length

/-- The entries of channel `c` for the monitors of the program become `r` where `only` allows it. -/
def State.enterResults (s : State) (c : Nat) (only : CheckResult → Bool) (r : CheckResult) : State :=
  (positionsOf s.checkMonitors).foldl (fun t m => if only (t.result c m) then t.setResult c m r else t) s

/-- Whether a source without TEST leaves the channel to the checker: FALLBACK or UNUSED (R75). -/
def Source.testable (x : Source) : Bool := decide (x.identity = .fallback) || decide (x.identity = .unused)

/-- No channel is current: the generator and the dwell timer stop (R78, R79, R81). -/
def State.liftSignature (s : State) : State :=
  { s with check := { s.check with current := none, generator := none, dwell := 0, progress := [] } }

/-- The signature is placed on channel `c` (R75). -/
def State.placeSignature (s : State) (c : Nat) : State :=
  { s with check :=
      { s.check with
        current := some c
        generator := s.check.program.map fun p => p.signature c
        dwell := Config.dwellSeconds
        progress := []
        placements := s.check.placements + 1 } }

/-- The check takes the first testable channel of a list, entering EXCLUDED for those before it; with none left it is
DONE and CHECK_DONE is due (R75, R78). -/
def takeNextChannel (s : State) : List Nat → State × List Notice
  | [] => ({ s with check := { s.check with state := .done } }, [.checkDone false s.failedCount])
  | c :: cs =>
    if (s.withoutTest c).testable then (s.placeSignature c, [])
    else takeNextChannel (s.enterResults c (fun _ => true) .excluded) cs

/-- The current channel ends: its signature is removed and the check advances to the next higher channel of the set
(R78). -/
def endChannel (s : State) (c : Nat) : State × List Notice :=
  takeNextChannel s.liftSignature ((channelsOf s.checkChannels).filter fun d => decide (c < d))

/-- The current channel is preempted when its source without TEST has left FALLBACK and UNUSED: its open entries become
PREEMPTED and it ends (R22, R80). -/
def preemptCheck (s : State) : State × List Notice :=
  match s.check.current with
  | none => (s, [])
  | some c =>
    if (s.withoutTest c).testable then (s, [])
    else endChannel (s.enterResults c (fun r => decide (r = .notRun)) .preempted) c

/-! ### One event (R26, R30, R78) -/

/-- The SOURCE_CHANGE notices of an event, in ascending channel order (R26). -/
def sourceNotices (before after : State) : List Notice :=
  allChannels.filterMap fun c =>
    if (before.source c).identity = (after.source c).identity then none
    else some (.sourceChange c (after.source c).identity)

/-- The end of an event that reached what the arbiter reads: a test so ended is preempted, every record is formed anew,
and the notices follow: `early` (ANNOUNCEMENT_TAKEN, R30), SOURCE_CHANGE (R26), then `late` and the CHECK_DONE of a
check so ended (R78). `before` is the state in which the event was taken. DESIGN CHOICE (log entry 20), unsafe: `s` holds
every change of the event, and a preempted check advances on that wholly new state (R12, R24, R80 give no order). -/
def settleEvent (before : State) (early late : List Notice) (s : State) : State :=
  let p := preemptCheck s
  let t := p.1.recompute
  t.raiseAll (early ++ sourceNotices before t ++ late ++ p.2)

end Sys2Proof.Machine
end

