-- ==== Sys2Proof/Machine/Turns.lean ====
section
/-! DEFINITION. The turn meter: turns that start and end, the count of a second event, turn due and overrun (R61 to
R69). -/

namespace Sys2Proof.Machine

/-- A turn of desk `d` ends with the counter's value as its length: the desk's longest turn is updated (R62, R69). -/
def endTurn (s : State) (b : Nat) (place : Side) (d : Nat) : State :=
  s.setDeskRecord b d
    { s.deskRecord b d with longestTurn := max (s.deskRecord b d).longestTurn (s.turn b place).counter }

/-- A turn of desk `e` starts under the limit and overrun in force, and its turns started figure rises (R62, R69). -/
def startTurn (s : State) (b : Nat) (place : Side) (e : Nat) : State :=
  (s.setTurn b place
    { counter := 0, limit := some (s.config b).turnLimit, overrun := some (s.config b).overrun, dueRaised := false,
      overrunRaised := false }).setDeskRecord b e
    { s.deskRecord b e with turnsStarted := satAdd (s.deskRecord b e).turnsStarted 1 }

/-- What the turn meter does when the live desk of a domain goes from `old` to `new` (R62): nothing when it has not
changed; otherwise the old turn ends before the new one starts. -/
def turnChange (s : State) (b : Nat) (place : Side) (old new : Option Nat) : State :=
  if old = new then s
  else
    let ended := match old with
      | some d => endTurn s b place d
      | none => s
    match new with
    | some e => startTurn ended b place e
    | none => ended.setTurn b place .idle

/-- The counter of a LIVE or PENDING domain and the live seconds of its live desk rise by one second event (R61,
R68). -/
def turnCount (s : State) (b : Nat) (place : Side) : State :=
  match (s.domain b place).liveDesk with
  | none => s
  | some d =>
    (s.setTurn b place { s.turn b place with counter := satAdd (s.turn b place).counter 1 }).setDeskRecord b d
      (match (s.desk b d).selection with
        | .a => { s.deskRecord b d with liveA := satAdd (s.deskRecord b d).liveA 1 }
        | .b => { s.deskRecord b d with liveB := satAdd (s.deskRecord b d).liveB 1 })

/-- Whether a counter value is the due threshold of a turn whose due mark is clear (R64). -/
def TurnRecord.dueAt (t : TurnRecord) (n : Nat) : Bool := decide (t.limit.map (· * 60) = some n) && !t.dueRaised

/-- Whether a counter value is the overrun threshold of a turn: the held overrun is not 0 and the mark is clear (R65). -/
def TurnRecord.overrunAt (t : TurnRecord) (n : Nat) : Bool :=
  match t.limit, t.overrun with
  | some l, some o => decide (o ≠ 0) && decide ((l + o) * 60 = n) && !t.overrunRaised
  | _, _ => false

/-- A turn that has come to its due threshold: the mark, the live desk's turn-due count and the TURN_DUE notice; the
lamp follows the mark (R64). -/
def turnDue (s : State) (b : Nat) (place : Side) : State :=
  match (s.domain b place).liveDesk with
  | none => s
  | some d =>
    if (s.turn b place).dueAt (s.turn b place).counter then
      ((s.setTurn b place { s.turn b place with dueRaised := true }).setDeskRecord b d
        { s.deskRecord b d with turnDue := satAdd (s.deskRecord b d).turnDue 1 }).raise (.turnDue b d)
    else s

/-- A turn that has come to its overrun threshold: the mark and the TURN_OVERRUN notice (R65). -/
def turnOverrun (s : State) (b : Nat) (place : Side) : State :=
  match (s.domain b place).liveDesk with
  | none => s
  | some d =>
    if (s.turn b place).overrunAt (s.turn b place).counter then
      (s.setTurn b place { s.turn b place with overrunRaised := true }).raise (.turnOverrun b d)
    else s

/-- The turn meter takes a second event for one domain: it counts, and then TURN_DUE goes before TURN_OVERRUN (R61,
R64 to R66). -/
def turnSecond (s : State) (b : Nat) (place : Side) : State :=
  turnOverrun (turnDue (turnCount s b place) b place) b place

/-- The turn meter takes a second event, in ascending booth order, output A's domain before output B's (R66). -/
def turnMeterSecond (s : State) : State := domainPlaces.foldl (fun t p => turnSecond t p.1 p.2) s

end Sys2Proof.Machine
end

