-- ==== Sys2Proof/Machine/Booths.lean ====
section
/-! DEFINITION. The booth controller: desk states and lamps, the channel interlock, domain changes, desk events, the
handover window, and console reconciliation (R40 to R60). -/

namespace Sys2Proof.Machine

/-- The state of an enabled desk (R40). -/
inductive DeskState where
  | idle
  | live
  | requesting
deriving DecidableEq, Repr

/-- The state of desk `d` in a domain: LIVE when the domain names it as live, REQUESTING when it names it as requester
(R40). -/
def Domain.stateOf (m : Domain) (d : Nat) : DeskState :=
  if m.liveDesk = some d then .live else if m.requester = some d then .requesting else .idle

/-- Where the domain of a desk stands: the domain of its selected output (R43). -/
def State.deskPlace (s : State) (b d : Nat) : Side := s.placeOf b (s.desk b d).selection

/-- The domain of a desk (R43). -/
def State.deskDomain (s : State) (b d : Nat) : Domain := s.domain b (s.deskPlace b d)

/-- The state of desk `d` of booth `b` (R40). -/
def State.deskState (s : State) (b d : Nat) : DeskState := (s.deskDomain b d).stateOf d

/-- Whether desk position `d` of booth `b` is enabled (R36, R40). -/
def State.enabled (s : State) (b d : Nat) : Bool := decide (1 ≤ d) && decide (d ≤ (s.config b).enabled)

/-- An ENGAGED flash pends for a desk until the next poll of its console; none is kept for a LOST console (R41, log
entry 10). -/
def flash (s : State) (b d : Nat) : State :=
  if (s.unit b).state = .lost then s else s.setDesk b d { s.desk b d with flash := true }

/-- Sets the cough flag of a desk (R54). -/
def setCough (s : State) (b d : Nat) (on : Bool) : State := s.setDesk b d { s.desk b d with cough := on }

/-! ### Lamps (R32, R34, R41) -/

/-- The channel an output is assigned to (R3). -/
def State.channelOf (s : State) (o : BoothOutput) : Option Nat :=
  langChannels.find? fun c => decide (o ∈ (s.planEntry c).outputs)

/-- Whether the OFF_AIR lamp of a desk is lit: it is live on an output of a channel whose announcement is ACTIVE
(R32). -/
def State.offAir (s : State) (b d : Nat) : Bool :=
  decide (s.deskState b d = .live) &&
    match s.channelOf ⟨b, (s.desk b d).selection⟩ with
    | some c =>
      match s.announcement c with
      | .active _ => true
      | _ => false
    | none => false

/-- The lamp set of a desk position, formed from the state the part holds (R41); a position above the enabled count is
dark. -/
def State.lamps (s : State) (b d : Nat) : Lamps :=
  if s.enabled b d then
    { live := decide (s.deskState b d = .live)
      requesting := decide (s.deskState b d = .requesting)
      handoverAsked := decide (s.deskState b d = .live) && (s.deskDomain b d).requester.isSome
      turnDue := decide (s.deskState b d = .live) && (s.turn b (s.deskPlace b d)).dueRaised
      offAir := s.offAir b d
      relayFallback := (s.feed b).fallback
      engaged := (s.desk b d).flash }
  else .dark

/-! ### The channel interlock (R44) -/

/-- Whether the channel interlock allows a request for an output: it is assigned, and no other output of its channel is
claimed (R44). -/
def State.interlockAllows (s : State) (o : BoothOutput) : Bool :=
  match s.channelOf o with
  | none => false
  | some c => (s.planEntry c).outputs.all fun x => decide (x = o) || !s.claimed x

/-! ### Domain changes (R51) -/

/-- A domain takes its new state, with the turn meter and the cough flags following its live desk: the desk that leaves
LIVE and the desk that becomes LIVE both stand with the flag clear (R50, R54, R62). -/
def setDomainState (s : State) (b : Nat) (place : Side) (new : Domain) : State :=
  let old := s.domain b place
  let t := turnChange (s.setDomain b place new) b place old.liveDesk new.liveDesk
  if old.liveDesk = new.liveDesk then t
  else
    let u := match old.liveDesk with
      | some d => setCough t b d false
      | none => t
    match new.liveDesk with
    | some e => setCough u b e false
    | none => u

/-- The channels whose DEFERRED announcement waits for a domain: their serving output belongs to it (R29, R30). -/
def State.deferredBy (s : State) (b : Nat) (place : Side) : List (Nat × AnnInput) :=
  allChannels.filterMap fun c =>
    match s.announcement c, s.serving c with
    | .deferred i, some (o, _) => if o.booth = b ∧ s.placeOf b o.side = place then some (c, i) else none
    | _, _ => none

/-- DEFERRED channels become ACTIVE (R30). -/
def activate (s : State) (cs : List (Nat × AnnInput)) : State :=
  cs.foldl (fun t p => t.setAnnouncement p.1 (.active p.2)) s

/-- A domain changes state or live desk, as one event (R51): the domain, desks and turns are settled first; when a
request has ended its DEFERRED channels become ACTIVE with ANNOUNCEMENT_TAKEN ahead of the SOURCE_CHANGE notices
(R30). DESIGN CHOICE (log entry 20), unsafe: a check that the new state preempts advances after they have become ACTIVE
(R80). -/
def changeDomain (s : State) (b : Nat) (place : Side) (new : Domain) : State :=
  let ended := (s.domain b place).requester.isSome && new.requester.isNone
  let cs := if ended then s.deferredBy b place else []
  settleEvent s (cs.map fun p => .announcementTaken p.1 p.2) [] (activate (setDomainState s b place new) cs)

/-! ### Desk events (R45 to R56) -/

/-- MIC_ON from desk `e` (R46 to R49). -/
def micOn (s : State) (b e : Nat) : State :=
  if s.deskState b e ≠ .idle then s
  else if s.plan.hall = .setup then flash s b e
  else
    let place := s.deskPlace b e
    let o : BoothOutput := ⟨b, (s.desk b e).selection⟩
    match s.domain b place with
    | .idle => if s.interlockAllows o then changeDomain s b place (.live e) else flash s b e
    | .live d =>
      match (s.config b).mode with
      | .override =>
        if (s.setDomain b place .idle).interlockAllows o then changeDomain s b place (.live e) else flash s b e
      | .handshake =>
        if s.interlockAllows o then
          changeDomain s b place (.pending d e (s.config b).window (s.config b).policy)
        else flash s b e
    | .pending _ _ _ _ => flash s b e

/-- MIC_OFF from desk `x` (R50). -/
def micOff (s : State) (b x : Nat) : State :=
  let place := s.deskPlace b x
  match s.domain b place with
  | .idle => s
  | .live d => if x = d then changeDomain s b place .idle else s
  | .pending d e _ _ =>
    if x = d then changeDomain s b place (.live e)
    else if x = e then changeDomain s b place (.live d)
    else s

/-- COUGH_ON or COUGH_OFF from a desk: a LIVE desk's flag, and its channel's muted mark with it (R21, R54). -/
def cough (s : State) (b d : Nat) (on : Bool) : State :=
  if s.deskState b d = .live ∧ (s.desk b d).cough ≠ on then settleEvent s [] [] (setCough s b d on) else s

/-- OUTPUT_A or OUTPUT_B from a desk (R55). -/
def selectOutput (s : State) (b d : Nat) (side : Side) : State :=
  if s.deskState b d = .idle then s.setDesk b d { s.desk b d with selection := side } else flash s b d

/-- Whether booth `b` may select channel `c` for relay: its language is nonzero and an output of another booth is
assigned to it (R33). -/
def State.relayable (s : State) (b c : Nat) : Bool :=
  decide (1 ≤ c) && decide (c ≤ 31) && decide ((s.planEntry c).language ≠ 0) &&
    (s.planEntry c).outputs.any fun o => decide (o.booth ≠ b)

/-- RELAY(c) from a desk (R33, R35). -/
def relay (s : State) (b d : Nat) (c : Byte) : State :=
  if c = 0 then settleEvent s [] [] (s.setRelay b none)
  else if s.relayable b c.toNat then settleEvent s [] [] (s.setRelay b (some c.toNat))
  else flash s b d

/-- One desk event, taken whole; an event of a position that is not enabled, or with a code that is not in the table, is
ignored (R45). -/
def deskEvent (s : State) (b : Nat) (e : DeskEvent) : State :=
  if s.enabled b e.position then
    match e.key with
    | .micOn => micOn s b e.position
    | .micOff => micOff s b e.position
    | .coughOn => cough s b e.position true
    | .coughOff => cough s b e.position false
    | .outputA => selectOutput s b e.position .a
    | .outputB => selectOutput s b e.position .b
    | .relay c => relay s b e.position c
    | .slow => s.raise (.deskSlow b e.position)
    | .other => s
  else s

/-! ### The handover window (R52, R53) -/

/-- The window of a PENDING domain expires: TAKE gives the microphone to the requester, LAPSE refuses it (R53). -/
def expireWindow (s : State) (b : Nat) (place : Side) : State :=
  match s.domain b place with
  | .pending d e _ p =>
    match p with
    | .take => changeDomain s b place (.live e)
    | .lapse => flash (changeDomain s b place (.live d)) b e
  | _ => s

/-- A PENDING domain takes a second event: its window timer falls by 1 and expires at 0 (R52). -/
def windowSecond (s : State) (b : Nat) (place : Side) : State :=
  match s.domain b place with
  | .pending d e n p =>
    let t := s.setDomain b place (.pending d e (n - 1) p)
    if n - 1 = 0 then expireWindow t b place else t
  | _ => s

/-- Every PENDING domain takes a second event, in ascending booth order, output A's domain before output B's (R52). -/
def windowsSecond (s : State) : State := domainPlaces.foldl (fun t p => windowSecond t p.1 p.2) s

/-! ### Ending claims (R15, R57) -/

/-- A domain becomes IDLE with its requester refused, without the recomputation that follows (R15, R57). -/
def idleDomain (s : State) (b : Nat) (place : Side) : State :=
  match (s.domain b place).requester with
  | some e => flash (setDomainState s b place .idle) b e
  | none => setDomainState s b place .idle

/-- FORCE_OUTPUT_OFF on an output (R57). -/
def forceOff (s : State) (o : BoothOutput) : State :=
  let place := s.placeOf o.booth o.side
  if s.claimed o then
    match (s.domain o.booth place).requester with
    | some e => flash (changeDomain s o.booth place .idle) o.booth e
    | none => changeDomain s o.booth place .idle
  else s

/-! ### Console reconciliation (R59, R60) -/

/-- Pass 1 for one desk: a desk held LIVE or REQUESTING whose key is reported up is taken as a MIC_OFF. -/
def reconcileOff (b : Nat) (t : State × Nat) (p : Nat × DeskReport) : State × Nat :=
  if t.1.enabled b p.1 ∧ t.1.deskState b p.1 ≠ .idle ∧ p.2.keyDown = false then (micOff t.1 b p.1, t.2 + 1) else t

/-- Pass 2 for one desk: a desk held IDLE takes the reported selection. -/
def reconcileSelection (b : Nat) (s : State) (p : Nat × DeskReport) : State :=
  if s.enabled b p.1 ∧ s.deskState b p.1 = .idle then
    s.setDesk b p.1 { s.desk b p.1 with selection := p.2.selection }
  else s

/-- Pass 3 for one desk: a desk held IDLE whose key is reported down is taken as a MIC_ON. DESIGN CHOICE (log entry 22),
unsafe: the desk is judged when the pass reaches it, so one that a lower desk displaced in this pass is taken too. -/
def reconcileOn (b : Nat) (t : State × Nat) (p : Nat × DeskReport) : State × Nat :=
  if t.1.enabled b p.1 ∧ t.1.deskState b p.1 = .idle ∧ p.2.keyDown = true then (micOn t.1 b p.1, t.2 + 1) else t

/-- The three passes over a state report, each in ascending desk order, with the number of corrections (R59). -/
def reconcilePasses (s : State) (b : Nat) (l : List (Nat × DeskReport)) : State × Nat :=
  let off := l.foldl (reconcileOff b) (s, 0)
  l.foldl (reconcileOn b) (l.foldl (reconcileSelection b) off.1, off.2)

/-- The cough flag of every desk of a booth clears, and the muted marks with them (R60, R21). -/
def clearCoughs (s : State) (b : Nat) : State :=
  settleEvent s [] [] (positions.foldl (fun t d => setCough t b d false) s)

/-- A console's state report is reconciled (R59, R60): the passes, the cough flags, and a CONSOLE_STATE_MISMATCH fault
with the number of corrections if any was made. -/
def reconcileConsole (s : State) (b : Nat) (l : List (Nat × DeskReport)) : State :=
  let r := reconcilePasses s b l
  let t := clearCoughs r.1 b
  if r.2 = 0 then t else recordFault t b .note .consoleStateMismatch r.2

end Sys2Proof.Machine
end

