-- ==== Sys2Proof/Machine/Coverage.lean ====
section
/-! DEFINITION. The coverage checker: starting and aborting a check, completed polls, and the dwell (R72 to R83). -/

namespace Sys2Proof.Machine

/-- An accepted START_CHECK stores the program, clears the table and the flags, makes the state RUNNING and advances to
the lowest channel of the set (R74). -/
def beginCheck (s : State) (p : CheckProgram) : State :=
  let t : State :=
    { s with check :=
        { s.check with
          state := .running, program := some p, results := [], failed := [], current := none, generator := none,
          dwell := 0, progress := [] } }
  let r := takeNextChannel t (channelsOf p.channels)
  settleEvent s [] r.2 r.1

/-- The abort of a RUNNING check, without the recomputation that follows, and the CHECK_DONE it queues behind the
SOURCE_CHANGE notices (R81). -/
def abortCheckState (s : State) : State × List Notice :=
  if s.check.state = .running then
    ({ s.liftSignature with check := { s.liftSignature.check with state := .done } },
      [.checkDone true s.failedCount])
  else (s, [])

/-- An open entry of channel `c` fails: MISCOMPARE if its mismatch mark is set, NO_REPLY otherwise, and the channel's
failure flag is set (R77, R79). -/
def failEntry (s : State) (c m : Nat) : State :=
  (s.setResult c m (if (s.progress m).mismatch then .miscompare else .noReply)).setFailed c

/-- Whether every monitor of the program has a settled entry for channel `c` (R78). -/
def State.channelSettled (s : State) (c : Nat) : Bool :=
  (positionsOf s.checkMonitors).all fun m => decide (s.result c m ≠ .notRun)

/-- The repeats of the program held (R72). -/
def State.repeats (s : State) : Nat := (s.check.program.map (·.repeats)).getD 0

/-- What a completed poll brings the checker: a signature, no signature, or a miss (R76). -/
inductive PollOutcome where
  | code (signature : Code16)
  | noCode
  | miss
deriving DecidableEq, Repr

/-- A poll other than a match is counted against the entry of position `m` on channel `c`, which fails when the polls
taken reach the repeats (R77). -/
def countPoll (s : State) (c m : Nat) (mismatch : Bool) : State :=
  let p := s.progress m
  let t := s.setProgress m { polls := p.polls + 1, mismatch := p.mismatch || mismatch }
  if s.repeats ≤ p.polls + 1 then failEntry t c m else t

/-- The effect of a taken poll on the entry of position `m` for the current channel `c` (R77). -/
def pollEntry (s : State) (c m : Nat) (o : PollOutcome) : State :=
  match o with
  | .code x => if s.check.generator = some x then s.setResult c m .pass else countPoll s c m true
  | .noCode => countPoll s c m true
  | .miss => countPoll s c m false

/-- A completed poll of monitor position `m` that carried the decode request `q`: taken only while that test is still
under way and the entry is open, and the channel ends when every entry is settled (R76 to R78). -/
def checkPoll (s : State) (m : Nat) (q : DecodeRequest) (o : PollOutcome) : State :=
  if s.check.current = some q.channel ∧ s.check.placements = q.placement ∧ s.result q.channel m = .notRun then
    let t := pollEntry s q.channel m o
    if t.channelSettled q.channel then
      let r := endChannel t q.channel
      settleEvent s [] r.2 r.1
    else t
  else s

/-- The dwell of channel `c` expires: its open entries fail and the channel ends (R79). -/
def expireDwell (s : State) (c : Nat) : State :=
  let t := (positionsOf s.checkMonitors).foldl
    (fun t m => if t.result c m = .notRun then failEntry t c m else t) s
  let r := endChannel t c
  settleEvent s [] r.2 r.1

/-- The dwell timer takes a second event at whose start `placed` signatures had been placed (R79): a channel that was
current then loses 1 s of its dwell, which expires at 0. DEDUCED (log entry 24): a channel placed in the handling of this
very second event keeps its 10 s, since its dwell lasts more than 9 s. -/
def dwellSecond (placed : Nat) (s : State) : State :=
  match s.check.current with
  | none => s
  | some c =>
    if s.check.placements = placed then
      let t : State := { s with check := { s.check with dwell := s.check.dwell - 1 } }
      if s.check.dwell - 1 = 0 then expireDwell t c else t
    else s

/-- The monitor position that holds a receiver (R95). -/
def State.positionOf (s : State) (r : Nat) : Option Nat :=
  monitorPositions.find? fun p => decide (s.monitorAt p = some r)

/-- The decode request a poll of receiver `r` carries: for the current channel, when `r` stands at a position of the
program whose entry is still NOT_RUN (R76, R107). -/
def State.decodeFor (s : State) (r : Nat) : Option DecodeRequest :=
  match s.check.current, s.positionOf r with
  | some c, some m =>
    if s.checkMonitors.getLsbD m ∧ s.result c m = .notRun then some ⟨c, s.check.placements⟩ else none
  | _, _ => none

end Sys2Proof.Machine
end

