-- ==== Sys2Proof/Machine/Meters.lean ====
section
/-! DEFINITION. The accounting meters: listening credits and the count of a second event (R150 to R158). -/

namespace Sys2Proof.Machine

/-- A credit for the gap from `since` to `now` on channel `p` of a delegation row, held to the credit cap K (R150 to
R152). -/
def credit (s : State) (delegation p since now : Nat) : State :=
  s.setListening delegation p (satAdd (s.listening delegation p) (min (now - since) s.limits.creditCap))

/-- The credit of receiver `r` to a delegation row up to `now`: made when the receiver holds a tuned channel, from its
last reply time (R151, R152). -/
def creditReceiver (s : State) (r delegation now : Nat) : State :=
  match (s.receiver r).tuned, (s.receiver r).lastReply with
  | some p, some t => credit s delegation p t now
  | _, _ => s

/-- The category a channel's second is counted under; channel 0's FLOOR counts as AUTOFLOOR (R156). -/
def Identity.serviceCode (i : Identity) : Nat :=
  match i with
  | .floor => Identity.autofloor.code
  | _ => i.code

/-- Whether listening on a channel of this source is unserved: FALLBACK, PIVOT or TEST (R157). -/
def Identity.isUnserved : Identity → Bool
  | .fallback => true
  | .pivot _ => true
  | .test => true
  | _ => false

/-- One channel's service second and unserved listener-seconds (R156, R157). -/
def meterChannel (s : State) (c : Nat) : State :=
  let i := (s.source c).identity
  let t := s.setServiceSeconds c i.serviceCode (satAdd (s.serviceSeconds c i.serviceCode) 1)
  if c ≠ 0 ∧ i.isUnserved then t.setUnserved c (satAdd (s.unserved c) (s.listeners c)) else t

/-- The accounting meters take a second event (R156, R157). -/
def metersSecond (s : State) : State := allChannels.foldl meterChannel s

end Sys2Proof.Machine
end

