-- ==== Sys2Proof/Machine/Settle.lean ====
section
/-! DEFINITION. The settlement computation, the settlement queue, and hires entering CLOSING and settling (R129 to
R131, R143 to R149). -/

namespace Sys2Proof.Machine

/-- A money figure limited to 999,999,999 (R145 to R147). -/
def limitMoney (n : Nat) : Nat := min n Config.maxMoney

/-- The units of a duration beyond grace: D divided by 60 × L, rounded up (R145). -/
def Tariff.unitsOf (t : Tariff) (d : Nat) : Nat := (d + 60 * t.unit - 1) / (60 * t.unit)

/-- The raw charge before it is limited: F + (n − 1) × P (R145). -/
def Tariff.rawCharge (t : Tariff) (n : Nat) : Nat := t.firstPrice + (n - 1) * t.furtherPrice

/-- The day cap of a duration: C for each started day, limited (R146). -/
def Tariff.capOf (t : Tariff) (d : Nat) : Nat := limitMoney (t.dayCap * ((d + 86399) / 86400))

/-- The charges of a duration before the deposit is set against them. -/
structure Charges where
  units : Nat
  usage : Nat
  grace : Bool
  capped : Bool
  saturated : Bool
deriving DecidableEq, Repr

/-- Grace, units, raw charge and day cap (R144 to R146). -/
def Tariff.charges (t : Tariff) (d : Nat) : Charges :=
  if d ≤ 60 * t.grace then { units := 0, usage := 0, grace := true, capped := false, saturated := false }
  else
    let n := t.unitsOf d
    let raw := limitMoney (t.rawCharge n)
    let exceeds := decide (Config.maxMoney < t.rawCharge n)
    if t.dayCap ≠ 0 ∧ t.capOf d < raw then
      { units := n, usage := t.capOf d, grace := false, capped := true, saturated := exceeds }
    else { units := n, usage := raw, grace := false, capped := false, saturated := exceeds }

/-- The settlement of a hire with its times, under the figures of its class (R143 to R149). -/
def settlementOf (t : Tariff) (h : Hire) (start degradedStart finish degradedEnd : Nat) : Settlement :=
  let c := t.charges (finish - start)
  let lost := if h.lost then t.lostCharge else 0
  let total := limitMoney (c.usage + lost)
  { hire := h.number, receiver := h.receiver, reference := h.reference, delegation := h.delegation, tariff := h.tariff
    flags :=
      { grace := c.grace, capped := c.capped, saturated := c.saturated || decide (Config.maxMoney < c.usage + lost)
        lost := h.lost, reconciled := h.reconciled, timeDegraded := decide (degradedEnd ≠ degradedStart) }
    start := start, finish := finish, duration := finish - start, units := c.units, usage := c.usage
    lostCharge := lost, total := total, deposit := h.deposit, refund := h.deposit - total, due := total - h.deposit }

/-- A CLOSING hire settles: its settlement joins the queue at the tail, the hire leaves the table, and HIRE_SETTLED is
raised (R130). -/
def settleHire (s : State) (n : Nat) : State :=
  match s.hire n with
  | some h =>
    match h.state with
    | .closing st ds fi de =>
      let x := settlementOf (s.tariff h.tariff) h st ds fi de
      (({ s with money := { s.money with queue := s.money.queue ++ [x] } } : State).setHire n none).raise
        (.hireSettled n h.receiver x.flags)
    | _ => s
  | none => s

/-- Step 4 of R129: the hire settles while the queue has a place, and waits otherwise (R130). -/
def settleOrWait (s : State) (n : Nat) : State :=
  if s.money.queue.length < Config.settlementPlaces then settleHire s n else s

/-- The end time of a CLOSING hire. -/
def Hire.endTime? (h : Hire) : Option Nat :=
  match h.state with
  | .closing _ _ fi _ => some fi
  | _ => none

/-- Of two waiting hires, each given as its end time and number, the one that settles first: the earlier end time, and
among equal end times the lower number (R131). -/
def earlierWaiting (x y : Nat × Nat) : Nat × Nat :=
  if y.1 < x.1 ∨ (y.1 = x.1 ∧ y.2 < x.2) then y else x

/-- The CLOSING hires, each as its end time and number. -/
def State.waitingHires (s : State) : List (Nat × Nat) :=
  s.hireList.filterMap fun h => h.endTime?.map fun t => (t, h.number)

/-- The CLOSING hire that settles into a freed place (R131). -/
def State.nextWaiting (s : State) : Option Nat :=
  match s.waitingHires with
  | [] => none
  | x :: xs => some (xs.foldl earlierWaiting x).2

/-- Steps 1 and 2 of R129: an ACTIVE hire becomes CLOSING with its end captured and its flags, and the final credit is
made when its receiver is OUT with a tuned channel (R129, R152). -/
def beginClosing (s : State) (n : Nat) (lost reconciled : Bool) : State :=
  match s.hire n with
  | some h =>
    match h.state with
    | .active st ds =>
      let t := s.setHire n (some { h with
        state := .closing st ds s.now s.clock.degradedCount
        lost := h.lost || lost
        reconciled := h.reconciled || reconciled })
      if (s.receiver h.receiver).state = .out then creditReceiver t h.receiver h.delegation s.now else t
    | _ => s
  | none => s

/-- A PENDING hire becomes ACTIVE at the undock of its receiver, with HIRE_STARTED (R125). -/
def activateHire (s : State) (n : Nat) (reconciled : Bool) : State :=
  match s.hire n with
  | some h =>
    match h.state with
    | .pending _ =>
      (s.setHire n (some { h with
        state := .active s.now s.clock.degradedCount
        reconciled := h.reconciled || reconciled })).raise
        (.hireStarted n h.receiver s.now (h.reconciled || reconciled))
    | _ => s
  | none => s

/-- The next hire number after `n`: raised by 1, and 1 after 4,294,967,295 (R120). -/
def succNumber (n : Nat) : Nat := if n = Config.maxCount then 1 else n + 1

/-- Whether a record of the hire table or a settlement of the queue holds a number (R120). -/
def State.numberHeld (s : State) (n : Nat) : Bool :=
  (s.hire n).isSome || s.money.queue.any fun x => decide (x.hire = n)

/-- The first number from `n` on, in the order of R120, that names neither a record nor a settlement; `fuel` bounds the
search, which the numbers held end. -/
def State.freeNumber (s : State) : Nat → Nat → Nat
  | 0, n => n
  | fuel + 1, n => if s.numberHeld n then s.freeNumber fuel (succNumber n) else n

/-- The next hire number after number `n` has been given (R120). -/
def State.nextNumberAfter (s : State) (n : Nat) : Nat :=
  s.freeNumber (s.hires.records.length + s.money.queue.length) (succNumber n)

end Sys2Proof.Machine
end

