-- ==== Sys2Proof/Machine/Fleet.lean ====
section
/-! DEFINITION. Poll lists, receiver transitions, rack reports and reconciliation, monitors (R84 to R98, R102, R103,
R115). -/

namespace Sys2Proof.Machine

/-! ### Poll lists (R102, R103) -/

/-- The member after `r` in a list of members. -/
def successorIn (r : Nat) : List Nat → Option Nat
  | [] => none
  | x :: xs => if x = r then xs.head? else successorIn r xs

/-- The member after `r`, or the head if `r` is the tail (R103). -/
def PollList.after (l : PollList) (r : Nat) : Option Nat :=
  match successorIn r l.members with
  | some x => some x
  | none => l.members.head?

/-- A receiver joins a list at its tail; in an empty list the cursor names it (R102, R103). -/
def PollList.join (l : PollList) (r : Nat) : PollList :=
  { members := l.members ++ [r], cursor := if l.members = [] then some r else l.cursor }

/-- A receiver leaves a list from wherever it stands; a cursor on it moves to its successor, or to the head if it was
the tail, and is none when no member remains (R102, R103). -/
def PollList.leave (l : PollList) (r : Nat) : PollList :=
  let rest := l.members.filter fun x => decide (x ≠ r)
  { members := rest
    cursor :=
      if rest = [] then none
      else if l.cursor = some r then
        match successorIn r l.members with
        | some x => some x
        | none => rest.head?
      else l.cursor }

/-- The cursor moves on from the member polled (R103). -/
def PollList.advance (l : PollList) (r : Nat) : PollList := { l with cursor := l.after r }

/-- Receiver `r` leaves a poll list (R102). -/
def leaveList (s : State) (i : ListId) (r : Nat) : State := s.setPollList i ((s.pollList i).leave r)

/-- Receiver `r` joins a poll list, with its miss count set to 0 in the same step (R102). -/
def joinList (s : State) (i : ListId) (r : Nat) : State :=
  (s.setPollList i ((s.pollList i).join r)).setReceiver r { s.receiver r with misses := 0 }

/-- The listener count of a tuned channel rises by 1 (R115). -/
def raiseListeners (s : State) (c : Nat) : State := s.setListeners c (s.listeners c + 1)

/-- The listener count of a tuned channel falls by 1, if there is a tuned channel (R115). -/
def dropListeners (s : State) : Option Nat → State
  | some c => s.setListeners c (s.listeners c - 1)
  | none => s

/-! ### Rack reports (R87 to R91) -/

/-- Slot `l` is filled by receiver `r`: slot map and location change in the same step, and the band is stored (R86,
R89). -/
def fillSlot (s : State) (l : Location) (r band : Nat) : State :=
  (s.setSlot l (some r)).setReceiver r { s.receiver r with location := some l, band := band }

/-- What an UNDOCK makes of receiver `r`, whose slot `l` has emptied, by its state (R88). -/
def undockState (s : State) (l : Location) (r : Nat) (reconciled : Bool) : State :=
  match (s.receiver r).state with
  | .docked =>
    (joinList (s.setReceiver r { s.receiver r with state := .stray }) .l1 r).raise (.stray r l.rack l.slot)
  | .reserved =>
    let t := (joinList (s.setReceiver r { s.receiver r with state := .out, tuned := none }) .l0 r).setLowMark r false
    match (s.receiver r).hire with
    | some n => activateHire t n reconciled
    | none => t
  | _ => s

/-- UNDOCK of a slot: ignored when it is empty (R88). `reconciled` tells an action of an inventory (R94). -/
def undock (s : State) (l : Location) (reconciled : Bool) : State :=
  match s.slot l with
  | none => s
  | some r =>
    undockState ((s.setSlot l none).setReceiver r { s.receiver r with location := none }) l r reconciled

/-- The receiver leaves its hire for the rack: DOCKED, with no hire number, no silence and no missing report (R85,
R90). -/
def Receiver.home (e : Receiver) : Receiver :=
  { e with state := .docked, hire := none, silentSince := none, missingReported := false }

/-- Step 3 of R129 for a DOCK: the receiver leaves its list, its listener count falls if it was OUT with a tuned
channel, and it becomes DOCKED (R90). -/
def dockHired (s : State) (r : Nat) : State :=
  match (s.receiver r).state with
  | .out =>
    let t := dropListeners (leaveList s .l0 r) (s.receiver r).tuned
    t.setReceiver r (t.receiver r).home
  | .silent =>
    let t := leaveList s .l2 r
    t.setReceiver r (t.receiver r).home
  | _ => s

/-- The hire of an OUT or SILENT receiver closes at its DOCK (R90, R129). -/
def dockClosing (s : State) (r : Nat) (reconciled : Bool) : State :=
  match (s.receiver r).hire with
  | some n => settleOrWait (dockHired (beginClosing s n false reconciled) r) n
  | none => dockHired s r

/-- What a DOCK makes of a receiver whose location was absent, by its state (R90). -/
def dockState (s : State) (l : Location) (r : Nat) (reconciled : Bool) : State :=
  match (s.receiver r).state with
  | .unknown => s.setReceiver r { s.receiver r with state := .docked }
  | .stray =>
    let t := leaveList s .l1 r
    (t.setReceiver r { t.receiver r with state := .docked }).raise (.strayReturned r l.rack l.slot)
  | .out => dockClosing s r reconciled
  | .silent => dockClosing s r reconciled
  | .lost => (s.setReceiver r { s.receiver r with state := .docked }).raise (.recovered r l.rack l.slot)
  | _ => s

/-- DOCK of receiver `r` in a slot (R89): another receiver there is first undocked; then the report repeats the map,
relocates the receiver, or docks it. -/
def dock (s : State) (l : Location) (r band : Nat) (reconciled : Bool) : State :=
  let t := match s.slot l with
    | some q => if q = r then s else undock s l reconciled
    | none => s
  match (t.receiver r).location with
  | some m =>
    if m = l then t.setReceiver r { t.receiver r with band := band }
    else fillSlot (t.setSlot m none) l r band
  | none => dockState (fillSlot t l r band) l r reconciled

/-- BATTERY of a slot: ignored when it is empty (R91). -/
def battery (s : State) (l : Location) (band : Nat) : State :=
  match s.slot l with
  | some r => s.setReceiver r { s.receiver r with band := band }
  | none => s

/-- Whether a slot number is in its range (R87). -/
def slotInRange (slot : Nat) : Bool := decide (1 ≤ slot) && decide (slot ≤ 48)

/-- Whether a receiver and a band are in their ranges (R87). -/
def receiverInRange (r band : Nat) : Bool := decide (r ≤ 4095) && decide (band ≤ 7)

/-- One rack report, taken whole; one with a field out of range is ignored whole (R87). -/
def rackReport (s : State) (rack : Nat) : RackReport → State
  | .dock slot r band =>
    if slotInRange slot && receiverInRange r band then dock s ⟨rack, slot⟩ r band false else s
  | .undock slot => if slotInRange slot then undock s ⟨rack, slot⟩ false else s
  | .battery slot band => if slotInRange slot && decide (band ≤ 7) then battery s ⟨rack, slot⟩ band else s

/-! ### Reconciliation (R93, R94) -/

/-- One slot of an inventory compared with the slot map, with the number of changes so far (R93). An entry out of
range is skipped (R87). -/
def compareSlot (rack : Nat) (t : State × Nat) (p : Nat × InventoryEntry) : State × Nat :=
  let l : Location := ⟨rack, p.1⟩
  match t.1.slot l, p.2 with
  | none, .empty => t
  | some _, .empty => (undock t.1 l true, t.2 + 1)
  | m, .holds r band =>
    if receiverInRange r band then
      if m = some r then (battery t.1 l band, t.2) else (dock t.1 l r band true, t.2 + 1)
    else t

/-- An INVENTORY from a returning rack (R93, R94): slots compared in ascending order, then the RECONCILED notice, then
an INVENTORY_MISMATCH fault when there were changes. -/
def takeInventory (s : State) (rack : Nat) (entries : List InventoryEntry) : State :=
  let r := (allSlots.zip entries).foldl (compareSlot rack) (s, 0)
  let t := r.1.raise (.reconciled rack r.2)
  if r.2 = 0 then t else recordFault t (rackUnit rack) .note .inventoryMismatch r.2

/-! ### Monitors and withdrawal (R95 to R98) -/

/-- DOCKED if the receiver has a location, UNKNOWN otherwise (R96, R98). -/
def Receiver.restState (e : Receiver) : ReceiverState := if e.location.isSome then .docked else .unknown

/-- The receiver at a monitor position, if any, is released: it leaves L3 and becomes DOCKED or UNKNOWN (R96). The
position is left to the caller. -/
def releaseMonitor (s : State) (p : Nat) : State :=
  match s.monitorAt p with
  | none => s
  | some m =>
    let t := leaveList s .l3 m
    t.setReceiver m { t.receiver m with state := (t.receiver m).restState }

/-- An accepted SET_MONITOR: receiver `r` at position `p` (R95). -/
def placeMonitor (s : State) (p r : Nat) : State :=
  if s.monitorAt p = some r then s
  else
    let t := releaseMonitor s p
    match s.positionOf r with
    | some q => (t.setMonitorAt q none).setMonitorAt p (some r)
    | none =>
      let u := if (t.receiver r).state = .stray then leaveList t .l1 r else t
      (joinList (u.setReceiver r { u.receiver r with state := .monitor }) .l3 r).setMonitorAt p (some r)

/-- An accepted CLEAR_MONITOR (R96). -/
def clearMonitorAt (s : State) (p : Nat) : State :=
  if s.monitorAt p = none then s else (releaseMonitor s p).setMonitorAt p none

end Sys2Proof.Machine
end

