-- ==== Sys2Proof/Machine/Scheduler.lean ====
section
/-! DEFINITION. The beacon scheduler: the schedule, polls, completions, silence and the missing timers (R104 to
R114). -/

namespace Sys2Proof.Machine

/-! ### The schedule (R104 to R106) -/

/-- The phase after a phase (R105). -/
def ListId.next : ListId → ListId
  | .l0 => .l1
  | .l1 => .l2
  | .l2 => .l3
  | .l3 => .l0

/-- The schedule count of a list (R104). -/
def Schedule.count (k : Schedule) : ListId → Nat
  | .l0 => k.k0
  | .l1 => k.k1
  | .l2 => k.k2
  | .l3 => k.k3

/-- The share of a list in a round: the smaller of its count plus one and its length (R105). -/
def State.share (s : State) (i : ListId) : Nat := min (s.beacon.counts.count i + 1) (s.pollList i).members.length

/-- The schedule position moved (R104). -/
def State.setPhase (s : State) (i : ListId) (sent : Nat) : State :=
  { s with beacon := { s.beacon with phase := i, sent := sent } }

/-- The comparisons of R105 from the held phase: phases end until one has polls left to send, or, when all lists are
empty, until one stands empty with no poll sent (R106). Five comparisons always reach one of the two. -/
def settlePhase (s : State) : Nat → State
  | 0 => s
  | fuel + 1 =>
    if s.beacon.sent < s.share s.beacon.phase then s
    else if s.beacon.sent = 0 ∧ [ListId.l0, .l1, .l2, .l3].all (fun i => (s.pollList i).members = []) then s
    else settlePhase (s.setPhase s.beacon.phase.next 0) fuel

/-- The hire number a poll from a list names: the receiver's, for L0 and L2 (R107). -/
def State.polledHire (s : State) (i : ListId) (r : Nat) : Option Nat :=
  match i with
  | .l0 => (s.receiver r).hire
  | .l2 => (s.receiver r).hire
  | _ => none

/-- A poll sent to receiver `r` of list `i` (R105, R107). -/
def sendPoll (s : State) (i : ListId) (r : Nat) : State :=
  let t := s.setInFlight (some
    { receiver := r, list := i, hire := s.polledHire i r, decode := if i = .l3 then s.decodeFor r else none })
  (t.setPollList i ((s.pollList i).advance r)).setPhase i (s.beacon.sent + 1)

/-- One slot of the beacon (R105, R106): while the radiator is PRESENT and no poll is in flight, the phase steps are
made and the member under the cursor is polled. -/
def beaconSlot (s : State) : State :=
  if (s.unit radiatorUnit).state = .present ∧ s.beacon.inFlight = none then
    let t := settlePhase s 5
    if t.beacon.sent < t.share t.beacon.phase then
      match (t.pollList t.beacon.phase).cursor with
      | some r => sendPoll t t.beacon.phase r
      | none => t
    else t
  else s

/-! ### Completions (R107 to R112) -/

/-- Whether the scheduler takes the completion of a poll for its receiver: still a member of the list polled and, for L0
and L2, still under the hire named (R107). -/
def State.takesPoll (s : State) (p : InFlight) : Bool :=
  decide (p.receiver ∈ (s.pollList p.list).members) &&
    match p.list with
    | .l0 => decide ((s.receiver p.receiver).hire = p.hire)
    | .l2 => decide ((s.receiver p.receiver).hire = p.hire)
    | _ => true

/-- The fields a taken reply sets (R108). -/
def Receiver.heard (e : Receiver) (now tuned band : Nat) : Receiver :=
  { e with misses := 0, band := band, lastReply := some now, tuned := some tuned }

/-- The credit of a reply under a hire, made before any field changes (R108, R151). -/
def replyCredit (s : State) (r : Nat) (hire : Option Nat) : State :=
  match hire.bind s.hire with
  | some h => creditReceiver s r h.delegation s.now
  | none => s

/-- The listener counts move with a reply of an OUT receiver: from channel `p`, if there was one, to channel `q` (R109). -/
def moveListeners (s : State) (p : Option Nat) (q : Nat) : State :=
  if p = some q then s else raiseListeners (dropListeners s p) q

/-- The battery test after a reply from L0 or L2 (R114). -/
def batteryTest (s : State) (r band : Nat) : State :=
  if band ≤ s.limits.lowBand ∧ s.lowMark r = false then
    (s.setLowMark r true).raise (.batteryLow r ((s.receiver r).hire.getD 0) band)
  else s

/-- A reply taken from L0 (R109). -/
def replyOut (s : State) (r : Nat) (hire : Option Nat) (tuned band : Nat) : State :=
  let t := replyCredit s r hire
  let u := t.setReceiver r ((t.receiver r).heard t.now tuned band)
  batteryTest (moveListeners u (s.receiver r).tuned tuned) r band

/-- A reply taken from L2 ends the silence (R110). -/
def replySilent (s : State) (r : Nat) (hire : Option Nat) (tuned band : Nat) : State :=
  let t := replyCredit s r hire
  let u := t.setReceiver r
    { (t.receiver r).heard t.now tuned band with state := .out, silentSince := none, missingReported := false }
  batteryTest (raiseListeners (joinList (leaveList u .l2 r) .l0 r) tuned) r band

/-- A reply the scheduler takes (R108 to R111). -/
def takeReply (s : State) (p : InFlight) (tuned band : Nat) : State :=
  match p.list with
  | .l0 => replyOut s p.receiver p.hire tuned band
  | .l2 => replySilent s p.receiver p.hire tuned band
  | _ => s.setReceiver p.receiver ((s.receiver p.receiver).heard s.now tuned band)

/-- An OUT receiver falls silent (R112). -/
def fallSilent (s : State) (r : Nat) : State :=
  let e := s.receiver r
  let t := dropListeners s e.tuned
  let u := t.setReceiver r { e with state := .silent, silentSince := some s.now, missingReported := false }
  (joinList (leaveList u .l0 r) .l2 r).raise (.silent r (e.hire.getD 0))

/-- The miss count after one more miss, which stays at 15 (R112). -/
def Receiver.missed (e : Receiver) : Nat := min (e.misses + 1) 15

/-- A miss the scheduler takes (R112). -/
def takeMiss (s : State) (p : InFlight) : State :=
  let e := s.receiver p.receiver
  let t := s.setReceiver p.receiver { e with misses := e.missed }
  if p.list = .l0 ∧ s.limits.missLimit ≤ e.missed then fallSilent t p.receiver else t

/-- A completion that carried a decode request is passed to the checker in either case (R107). -/
def passToChecker (s : State) (p : InFlight) (o : PollOutcome) : State :=
  match p.decode, s.positionOf p.receiver with
  | some q, some m => checkPoll s m q o
  | _, _ => s

/-- The poll in flight completes with a miss (R107, R112). -/
def completeMiss (s : State) (p : InFlight) : State :=
  let t := s.setInFlight none
  passToChecker (if s.takesPoll p then takeMiss t p else t) p .miss

/-- The poll in flight completes with a reply (R107, R108). -/
def completeReply (s : State) (p : InFlight) (tuned band : Nat) (signature : Option Code16) : State :=
  let t := s.setInFlight none
  passToChecker (if s.takesPoll p then takeReply t p tuned band else t) p
    (match signature with
      | some x => .code x
      | none => .noCode)

/-! ### The missing timers (R113) -/

/-- The value of the seconds counter at which a silence since `since` has reached the missing time (R113). -/
def State.missingAt (s : State) (since : Nat) : Nat := min (since + 64 * 2 ^ s.limits.missingCode) Config.maxCount

/-- Whether receiver `r` is due to be reported missing when the counter stands at `now` (R113). -/
def State.missingDue (s : State) (r now : Nat) : Bool :=
  match (s.receiver r).silentSince with
  | some t =>
    decide ((s.receiver r).state = .silent) && !(s.receiver r).missingReported && decide (s.missingAt t ≤ now)
  | none => false

/-- A silence is reported missing (R113). -/
def reportMissing (s : State) (r : Nat) : State :=
  (s.setReceiver r { s.receiver r with missingReported := true }).raise
    (.missing r ((s.receiver r).hire.getD 0) ((s.receiver r).silentSince.getD 0))

/-- The missing timers take a second event, in ascending receiver order (R113). -/
def missingSecond (s : State) : State :=
  (s.fleet.receivers.map (·.1)).foldl (fun t r => if t.missingDue r t.now then reportMissing t r else t) s

end Sys2Proof.Machine
end

