-- ==== Sys2Proof/Machine/Supervision.lean ====
section
/-! DEFINITION. The unit supervisor and the hall clock: poll completions, losses and returns, the reference, issue
windows, and the second event (R123, R160 to R165). -/

namespace Sys2Proof.Machine

/-! ### Poll completions (R165) -/

/-- Whether a poll of a unit is under way on its link: only that poll can complete with a reply or a miss of the unit
(R165). -/
def State.polls (s : State) (u : Nat) : Bool :=
  decide (s.supervisor.consolePoll.map (·.booth) = some u) ||
    decide (s.supervisor.rackPoll.map (fun p => rackUnit p.rack) = some u) ||
    (decide (u = radiatorUnit) && s.supervisor.radiatorPoll)

/-- A poll of a unit completes: the poll under way on its link, if it is this unit's, is over (R165). -/
def endPoll (s : State) (u : Nat) : State :=
  { s with supervisor :=
      { s.supervisor with
        consolePoll := if s.supervisor.consolePoll.map (·.booth) = some u then none else s.supervisor.consolePoll
        rackPoll :=
          if s.supervisor.rackPoll.map (fun p => rackUnit p.rack) = some u then none else s.supervisor.rackPoll
        radiatorPoll := if u = radiatorUnit then false else s.supervisor.radiatorPoll } }

/-- A reply of a unit: it is PRESENT with failure count 0 (R165). -/
def unitReply (s : State) (u : Nat) : State := (endPoll s u).setUnit u { state := .present, failures := 0 }

/-- A pending ENGAGED flash is not kept for a LOST console (R41, log entry 10). -/
def dropFlashes (s : State) (b : Nat) : State :=
  positions.foldl (fun t d => t.setDesk b d { t.desk b d with flash := false }) s

/-- What the owning block does at the loss of a unit: the flashes of a console are dropped (R41), a poll in flight is
abandoned with the radiator (R106); a rack keeps its slot map (R92). -/
def ownLoss (s : State) (u : Nat) : State :=
  if u = radiatorUnit then s.setInFlight none else if u ≤ 24 then dropFlashes s u else s

/-- The failure count after one more miss, which stays at 15 (R165). -/
def UnitEntry.missed (e : UnitEntry) : Nat := min (e.failures + 1) 15

/-- Whether a miss loses the unit: it is PRESENT and its failure count reaches the failure limit or stands above it
(R165). -/
def State.missLoses (s : State) (u : Nat) : Bool :=
  decide ((s.unit u).state = .present) && decide (s.limits.failureLimit ≤ (s.unit u).missed)

/-- A poll of a unit completes with a miss (R165). -/
def unitMiss (s : State) (u : Nat) : State :=
  let n := (s.unit u).missed
  if s.missLoses u then
    recordFault (ownLoss ((endPoll s u).setUnit u { state := .lost, failures := n }) u) u .lost .unitLost n
  else (endPoll s u).setUnit u { s.unit u with failures := n }

/-- Whether a unit answers a poll with a return: the supervisor holds it UNSEEN or LOST (R165). -/
def UnitEntry.owesReturn (e : UnitEntry) : Bool := decide (e.state ≠ .present)

/-- The next unit of a link in address order, wrapping from the last to the first (R165). -/
def nextAddress (last n : Nat) : Nat := if n < last then n + 1 else 1

/-! ### Issue windows (R123) and cancelling (R127) -/

/-- A PENDING hire is removed with no settlement and its receiver becomes DOCKED (R123, R127). -/
def removePending (s : State) (h : Hire) : State :=
  (s.setHire h.number none).setReceiver h.receiver { s.receiver h.receiver with state := .docked, hire := none }

/-- The issue window of hire `n` takes a second event, expiring at 0 with HIRE_LAPSED (R123). -/
def issueSecond (s : State) (n : Nat) : State :=
  match s.hire n with
  | some h =>
    match h.state with
    | .pending w =>
      if w - 1 = 0 then (removePending s h).raise (.hireLapsed n h.receiver)
      else s.setHire n (some { h with state := .pending (w - 1) })
    | _ => s
  | none => s

/-- Every issue window takes a second event, in ascending hire number order (R123). -/
def issuesSecond (s : State) : State := (s.hires.records.map (·.1)).foldl issueSecond s

/-! ### The hall clock (R160 to R163) -/

/-- The stable time at which the reference is settled: 2 s, in periods of the oscillator (R161). -/
def settledTime : Nat := 2 * Config.periodsPerSecond

/-- The stable time of a run of edges after `n` more periods, held at 2 s; absent while no run is being timed (R161). -/
def Clock.stableAfter (c : Clock) (n : Nat) : Option Nat := c.stable.map fun m => min (m + n) settledTime

/-- In SETTLING the phase becomes SETTLED when the stable time has reached 2 s (R161). -/
def Clock.settle (c : Clock) : Clock :=
  { c with phase := if c.phase = .settling ∧ c.stable = some settledTime then .settled else c.phase }

/-- `n` periods of the counting source that bring no second boundary (R160, R161). -/
def Clock.run (c : Clock) (n : Nat) : Clock :=
  ({ c with subSecond := c.subSecond + n, stable := c.stableAfter n } : Clock).settle

/-- The periods left before the period whose count is the second boundary (R160). -/
def Clock.left (c : Clock) : Nat := Config.periodsPerSecond - 1 - c.subSecond

/-- The state with its clock changed. -/
def State.onClock (s : State) (f : Clock → Clock) : State := { s with clock := f s.clock }

/-- The clock's own part of a second event: the sub-second count returns to 0, the seconds counter rises, a DEGRADED
second is counted, and the period of the boundary joins the stable time (R160, R161, R163). -/
def Clock.boundary (c : Clock) : Clock :=
  { c with
    subSecond := 0
    seconds := satAdd c.seconds 1
    degradedCount := if c.quality = .degraded then satAdd c.degradedCount 1 else c.degradedCount
    stable := c.stableAfter 1 }

/-- The REFERENCE notice of the quality, counter and degraded count as they stand (R161). -/
def State.referenceNotice (s : State) : Notice := .reference s.clock.quality s.clock.seconds s.clock.degradedCount

/-- A second boundary taken in SETTLED returns the clock to the word clock (R162). -/
def clockReturn (s : State) : State :=
  if s.clock.phase = .settled then
    let t : State :=
      { s with clock := { s.clock with source := .wordClock, quality := .nominal, phase := .locked, stable := none } }
    let u := t.setUnit referenceUnit { t.unit referenceUnit with state := .present }
    u.raise u.referenceNotice
  else s

/-- The reference is lost in LOCKED (R161). -/
def loseReference (s : State) : State :=
  let t : State :=
    { s with clock := { s.clock with source := .oscillator, quality := .degraded, phase := .absent, stable := none } }
  let u := t.setUnit referenceUnit { t.unit referenceUnit with state := .lost }
  let v := recordFault u referenceUnit .degraded .referenceLost s.clock.degradedCount
  v.raise v.referenceNotice

/-- The phase of the reference supervisor moves, with its stable time (R161). -/
def setPhaseOf (s : State) (p : Phase) (stable : Option Nat) : State :=
  { s with clock := { s.clock with phase := p, stable := stable } }

/-! ### The second event (R160) -/

/-- One taker takes the second event, on the state that the takers before it leave (R160); `placed` is the count of
signatures placed as it stood when the second event began, for the dwell of a channel placed since (R79, log entry 24). -/
def takeSecond (placed : Nat) (s : State) : SecondTaker → State
  | .turnMeter => turnMeterSecond s
  | .accountingMeters => metersSecond s
  | .handoverWindows => windowsSecond s
  | .issueWindows => issuesSecond s
  | .missingTimers => missingSecond s
  | .checkDwell => dwellSecond placed s
  | .clockReturn => clockReturn s

/-- All takers of a second event, in the order 00_scope section 2.3 names them, the clock's return last. -/
def allTakers : List SecondTaker :=
  [.turnMeter, .accountingMeters, .handoverWindows, .issueWindows, .missingTimers, .checkDwell, .clockReturn]

/-- An order in which every taker stands once: the takers as named, each at its first place, and then those left out. -/
def completeOrder (order : List SecondTaker) : List SecondTaker :=
  (order ++ allTakers).foldl (fun acc x => if x ∈ acc then acc else acc ++ [x]) []

/-- The clock runs on to its next second boundary, at which the second event is taken by its takers in the order given
(R160; R66 and R158 leave the order open, log entry 3). A stable time that reaches 2 s with that very period is settled
behind the boundary (log entry 6). -/
def secondEvent (s : State) (order : List SecondTaker) : State :=
  ((completeOrder order).foldl (takeSecond s.check.placements) (s.onClock fun c => (c.run c.left).boundary)).onClock
    Clock.settle

/-- One period of the counting source: the sub-second count rises by 1, and when it would reach 48,000 it returns to 0
and a second event occurs (R160), its takers in the order of the free value (log entry 3). -/
def clockPeriod (s : State) : State :=
  if s.clock.subSecond + 1 < Config.periodsPerSecond then s.onClock (·.run 1)
  else
    secondEvent (s.onClock fun c => { c with boundaries := c.boundaries + 1 }) (Config.secondOrder s.clock.boundaries)

end Sys2Proof.Machine
end

