-- ==== Sys2Proof/Machine/LinkCommands.lean ====
section
/-! DEFINITION. Meanings of the control-link commands: power-on reset, the framer's gap, kinds that name no request, and
READ_STATUS (R170 to R174). FRAME_RECEIVED and FRAME_SENT, which take the frames of every request, stand in
FrameCommands.lean. -/

namespace Sys2Proof.Machine

/-- What a meaning answers. -/
abbrev Answer := Host.Outcome State Fault Refusal

/-- POWER_ON_RESET: every block takes its power-on values and READY begins to be sent (R174). The commands that wait are
not the part's and stay, and so does the model's own count of boundaries (log entry 3). -/
def execPowerOnReset (s : State) : Answer :=
  .next { State.reset with clock := { Clock.reset with boundaries := s.clock.boundaries }, pending := s.pending }

/-- FRAMER_GAP_TIMEOUT: the frame in progress is discarded (R170). -/
def execFramerGapTimeout (s : State) : Answer := .next { s with link := { s.link with framer := .hunt } }

/-- UNKNOWN_KIND: a frame of a kind in 00h to 7Fh that names no request is answered with UNKNOWN_KIND (R171). -/
def execUnknownKind (kind tag : Byte) (body : List Byte) (s : State) : Answer :=
  .next (if isReplyKind kind || namesRequest kind then s
    else takeRequest s ⟨kind, tag, body⟩ fun t => answer t .unknownKind)

/-- REPLY_KIND_DISCARDED: a frame of a kind in 80h to FFh is taken and discarded with no reply (R171). -/
def execReplyKindDiscarded (kind tag : Byte) (body : List Byte) (s : State) : Answer :=
  .next (if isReplyKind kind then discardFrame s ⟨kind, tag, body⟩ else s)

/-- The reply body of READ_STATUS (R173). -/
def statusBody (s : State) : List Byte :=
  [Status.ok.code, s.plan.hall.code] ++ be32 s.clock.seconds ++ [s.clock.quality.code] ++ be32 s.clock.degradedCount ++
    [flagByte s.link.overflow] ++ be16 s.hireList.length ++ be16 s.money.queue.length ++
    [s.check.state.code, flagByte s.money.frozen] ++ allUnits.map fun u => (s.unit u).state.code

/-- READ_STATUS served: the report, and then the overflow flag cleared (R173). -/
def serveReadStatus (body : List Byte) (s : State) : Served :=
  match body with
  | [] => ({ s with link := { s.link with overflow := false } }, statusBody s)
  | _ => answer s .badLength

/-- READ_STATUS (R173). -/
def execReadStatus (tag : Byte) (body : List Byte) (s : State) : Answer :=
  .next (takeRequest s ⟨0x01, tag, body⟩ (serveReadStatus body))

end Sys2Proof.Machine
end

