-- ==== Sys2Proof/Machine/PlanCommands.lean ====
section
/-! DEFINITION. Meanings of the channel-plan commands: sessions, audio reset, plan entries and the floor language (R1 to
R16). -/

namespace Sys2Proof.Machine

/-! ### Sessions (R14 to R16) -/

/-- An accepted OPEN_SESSION (R14, R71, R158). -/
def openHall (s : State) : State :=
  { s with
    plan := { s.plan with hall := .session }
    turns := { s.turns with records := [] }
    meters := { s.meters with service := [], unserved := [] } }

/-- OPEN_SESSION served (R14). -/
def serveOpenSession (body : List Byte) (s : State) : Served :=
  match body with
  | [] => if s.plan.hall = .setup then answer (openHall s) .ok else answer s .wrongState
  | _ => answer s .badLength

/-- OPEN_SESSION (R14). -/
def execOpenSession (tag : Byte) (body : List Byte) (s : State) : Answer :=
  .next (takeRequest s ⟨0x02, tag, body⟩ (serveOpenSession body))

/-- Every handover domain becomes IDLE (R15). -/
def idleAll (s : State) : State := domainPlaces.foldl (fun t p => idleDomain t p.1 p.2) s

/-- Both announcement inputs stop on all their channels (R15, R28). -/
def stopAllAnnouncements (s : State) : State :=
  { s with arbiter := { s.arbiter with announcements := [], inputOne := none, inputTwo := none } }

/-- What R15 lists, before the recomputation: SETUP, every domain IDLE with its turn ended, both inputs stopped. -/
def quietHall (s : State) : State :=
  let t := stopAllAnnouncements (idleAll s)
  { t with plan := { t.plan with hall := .setup } }

/-- An accepted CLOSE_SESSION (R15). -/
def closeHall (s : State) : State := settleEvent s [] [] (quietHall s)

/-- CLOSE_SESSION served (R15). -/
def serveCloseSession (body : List Byte) (s : State) : Served :=
  match body with
  | [] => if s.plan.hall = .session then answer (closeHall s) .ok else answer s .wrongState
  | _ => answer s .badLength

/-- CLOSE_SESSION (R15). -/
def execCloseSession (tag : Byte) (body : List Byte) (s : State) : Answer :=
  .next (takeRequest s ⟨0x03, tag, body⟩ (serveCloseSession body))

/-- The relay selection of every booth becomes FLOOR (R16). -/
def clearRelays (s : State) : State := { s with arbiter := { s.arbiter with relays := [] } }

/-- The consoles become UNSEEN with failure count 0 (R16). -/
def unseeConsoles (s : State) : State := allBooths.foldl (fun t b => t.setUnit b .unseen) s

/-- RESET_AUDIO (R16): what CLOSE_SESSION does, the abort of a RUNNING check, the relay selections and the consoles. -/
def resetAudioState (s : State) : State :=
  let a := abortCheckState (quietHall s)
  settleEvent s [] a.2 (unseeConsoles (clearRelays a.1))

/-- RESET_AUDIO served (R16). -/
def serveResetAudio (body : List Byte) (s : State) : Served :=
  match body with
  | [] => answer (resetAudioState s) .ok
  | _ => answer s .badLength

/-- RESET_AUDIO (R16). -/
def execResetAudio (tag : Byte) (body : List Byte) (s : State) : Answer :=
  .next (takeRequest s ⟨0x04, tag, body⟩ (serveResetAudio body))

/-! ### Plan entries (R4 to R11) -/

/-- The channel and entry the seven bytes of a WRITE_CHANNEL code, absent when check 1 of R5 fails (R5, R175). -/
def channelWrite (channel language first second autofloor fallback pivot : Byte) : Option (Nat × PlanEntry) :=
  if 1 ≤ channel.toNat ∧ channel.toNat ≤ 31 ∧ language.toNat ≤ 99 then
    match outputOfByte first, outputOfByte second, yesNoOfByte autofloor, fallbackOfByte fallback, pivotOfByte pivot with
    | some f, some g, some a, some k, some p =>
      some (channel.toNat,
        { language := language.toNat, first := f, second := g, autofloor := a, fallback := k, pivot := p })
    | _, _, _, _, _ => none
  else none

/-- Check 2 of R5: a pivot channel present exactly when fallback is PIVOT, and not the channel written (R6). -/
def pivotFits (c : Nat) (e : PlanEntry) : Bool :=
  match e.fallback, e.pivot with
  | .pivot, some p => decide (p ≠ c)
  | .pivot, none => false
  | _, some _ => false
  | _, none => true

/-- Check 3 of R5: language 0, or no other channel holds it (R7). -/
def State.languageFree (s : State) (c : Nat) (e : PlanEntry) : Bool :=
  decide (e.language = 0) || langChannels.all fun d => decide (d = c) || decide ((s.planEntry d).language ≠ e.language)

/-- Check 4 of R5: the outputs present are not equal and stand in no other channel's entry (R8). -/
def State.outputsFree (s : State) (c : Nat) (e : PlanEntry) : Bool :=
  decide (e.outputs.Nodup) &&
    langChannels.all fun d => decide (d = c) || e.outputs.all fun o => decide (o ∉ (s.planEntry d).outputs)

/-- Check 5 of R5: in SESSION no output that leaves the channel is claimed (R9). -/
def State.nothingLeaves (s : State) (c : Nat) (e : PlanEntry) : Bool :=
  decide (s.plan.hall = .setup) ||
    (s.planEntry c).outputs.all fun o => decide (o ∈ e.outputs) || !s.claimed o

/-- Checks 2 to 5 of R5, in order: the status of the first that fails. -/
def State.planRefusal (s : State) (c : Nat) (e : PlanEntry) : Option Status :=
  if !pivotFits c e then some .range
  else if !s.languageFree c e then some .duplicate
  else if !s.outputsFree c e then some .conflict
  else if !s.nothingLeaves c e then some .inUse
  else none

/-- WRITE_CHANNEL served (R4, R5). -/
def serveWriteChannel (body : List Byte) (s : State) : Served :=
  match body with
  | [c, l, f, g, a, k, p] =>
    match channelWrite c l f g a k p with
    | none => answer s .range
    | some (n, e) =>
      match s.planRefusal n e with
      | some t => answer s t
      | none => answer (settleEvent s [] [] (s.setPlanEntry n e)) .ok
  | _ => answer s .badLength

/-- WRITE_CHANNEL (R4). -/
def execWriteChannel (tag : Byte) (body : List Byte) (s : State) : Answer :=
  .next (takeRequest s ⟨0x10, tag, body⟩ (serveWriteChannel body))

/-- READ_CHANNEL served (R11). -/
def serveReadChannel (body : List Byte) (s : State) : Served :=
  match body with
  | [c] =>
    if c.toNat ≤ 31 then (s, Status.ok.code :: planEntryBytes c.toNat (s.planEntry c.toNat)) else answer s .range
  | _ => answer s .badLength

/-- READ_CHANNEL (R11). -/
def execReadChannel (tag : Byte) (body : List Byte) (s : State) : Answer :=
  .next (takeRequest s ⟨0x11, tag, body⟩ (serveReadChannel body))

/-- An accepted SET_FLOOR_LANGUAGE (R12). -/
def setFloor (s : State) (n : Nat) : State :=
  settleEvent s [] [] { s with plan := { s.plan with floorLanguage := n } }

/-- SET_FLOOR_LANGUAGE served (R12). -/
def serveSetFloorLanguage (body : List Byte) (s : State) : Served :=
  match body with
  | [n] => if n.toNat ≤ 99 then answer (setFloor s n.toNat) .ok else answer s .range
  | _ => answer s .badLength

/-- SET_FLOOR_LANGUAGE (R12). -/
def execSetFloorLanguage (tag : Byte) (body : List Byte) (s : State) : Answer :=
  .next (takeRequest s ⟨0x12, tag, body⟩ (serveSetFloorLanguage body))

end Sys2Proof.Machine
end

