-- ==== Sys2Proof/Machine/SourceCommands.lean ====
section
/-! DEFINITION. Meanings of the source-arbiter commands: READ_SOURCES and the announcements (R27 to R32). -/

namespace Sys2Proof.Machine

/-- The channel record of READ_SOURCES (R27). -/
def channelRecord (s : State) (c : Nat) : List Byte :=
  (s.source c).identity.bytes ++ [flagByte (s.source c).muted, (s.announcement c).code]

/-- The booth record of READ_SOURCES (R27). -/
def boothRecord (s : State) (b : Nat) : List Byte :=
  [byteOf ((s.relay b).getD 0), byteOf ((s.feed b).relaying.getD 0), flagByte (s.feed b).fallback]

/-- READ_SOURCES served (R27). -/
def serveReadSources (body : List Byte) (s : State) : Served :=
  match body with
  | [] =>
    (s, [Status.ok.code, byteOf s.plan.floorLanguage] ++ allChannels.flatMap (channelRecord s) ++
      allBooths.flatMap (boothRecord s))
  | _ => answer s .badLength

/-- READ_SOURCES (R27). -/
def execReadSources (tag : Byte) (body : List Byte) (s : State) : Answer :=
  .next (takeRequest s ⟨0x13, tag, body⟩ (serveReadSources body))

/-- Whether a channel's serving output belongs to a domain holding a requesting desk (R29). -/
def State.handingOver (s : State) (c : Nat) : Bool :=
  match s.serving c with
  | some (o, _) => (s.domainOf o).requester.isSome
  | none => false

/-- Each named channel enters the announcement, DEFERRED while its booth is handing over (R29). DESIGN CHOICE (log entry
20), unsafe: all of them enter before the one recomputation that can preempt the check (R80). -/
def enterAnnouncement (s : State) (i : AnnInput) (cs : List Nat) : State :=
  cs.foldl (fun t c => t.setAnnouncement c (if s.handingOver c then .deferred i else .active i)) s

/-- An accepted START_ANNOUNCEMENT (R29). DESIGN CHOICE (log entry 20), unsafe: a check it preempts advances after every
named channel has entered, so it finds a later named channel of the program EXCLUDED. -/
def beginAnnouncement (s : State) (i : AnnInput) (set : ChannelSet) : State :=
  settleEvent s [] [] ((enterAnnouncement s i (channelsOf set)).setInput i (some set))

/-- The status with which START_ANNOUNCEMENT is refused (checks 2 and 3 of R29). -/
def State.announcementRefusal (s : State) (i : AnnInput) (set : ChannelSet) : Option Status :=
  if s.inputSet i ≠ none then some .engaged
  else if (channelsOf set).any fun c => decide (s.announcement c ≠ .none) then some .engaged
  else none

/-- START_ANNOUNCEMENT served (R29): the reply names the channels left DEFERRED. -/
def serveStartAnnouncement (body : List Byte) (s : State) : Served :=
  match body with
  | [n, b3, b2, b1, b0] =>
    match inputOfByte n with
    | none => answer s .range
    | some i =>
      let set := setOfBytes b3 b2 b1 b0
      if set = 0 then answer s .range
      else
        match s.announcementRefusal i set with
        | some t => answer s t
        | none =>
          (beginAnnouncement s i set,
            Status.ok.code :: be32 (setOf fun c => set.getLsbD c && s.handingOver c).toNat)
  | _ => answer s .badLength

/-- START_ANNOUNCEMENT (R29). -/
def execStartAnnouncement (tag : Byte) (body : List Byte) (s : State) : Answer :=
  .next (takeRequest s ⟨0x14, tag, body⟩ (serveStartAnnouncement body))

/-- A running input stops on every channel of its set (R31). -/
def stopInput (s : State) (i : AnnInput) (set : ChannelSet) : State :=
  settleEvent s [] [] (((channelsOf set).foldl (fun t c => t.setAnnouncement c .none) s).setInput i none)

/-- STOP_ANNOUNCEMENT served (R31). -/
def serveStopAnnouncement (body : List Byte) (s : State) : Served :=
  match body with
  | [n] =>
    match inputOfByte n with
    | none => answer s .range
    | some i =>
      match s.inputSet i with
      | some set => answer (stopInput s i set) .ok
      | none => answer s .ok
  | _ => answer s .badLength

/-- STOP_ANNOUNCEMENT (R31). -/
def execStopAnnouncement (tag : Byte) (body : List Byte) (s : State) : Answer :=
  .next (takeRequest s ⟨0x15, tag, body⟩ (serveStopAnnouncement body))

end Sys2Proof.Machine
end

