-- ==== Sys2Proof/Machine/BoothCommands.lean ====
section
/-! DEFINITION. Meanings of the booth commands: configurations, desks and records read, forcing an output off, the
consoles' polls and replies, and the desk-side timers (R36 to R70). -/

namespace Sys2Proof.Machine

/-! ### WRITE_BOOTH (R37 to R39) -/

/-- The nearest value of a range (00_scope section 4). -/
def clamp (low high n : Nat) : Nat := max low (min n high)

/-- The configuration as a WRITE_BOOTH would store it, each numeric field clamped (check 2 of R37). -/
def clampConfig (enabled : Nat) (i : Interlock) (m : HandoverMode) (window : Nat) (p : ExpiryPolicy)
    (turnLimit overrun : Nat) : BoothConfig :=
  { enabled := clamp 0 4 enabled, interlock := i, mode := m, window := clamp 1 30 window, policy := p,
    turnLimit := clamp 5 90 turnLimit, overrun := clamp 0 30 overrun }

/-- The enabled desks of the booths other than `b` (check 4 of R37). -/
def State.otherDesks (s : State) (b : Nat) : Nat :=
  ((allBooths.filter fun x => decide (x ≠ b)).map fun x => (s.config x).enabled).sum

/-- Whether a domain of booth `b` holds a LIVE or REQUESTING desk (check 5 of R37). -/
def State.boothBusy (s : State) (b : Nat) : Bool :=
  decide (s.domain b .a ≠ .idle) || decide (s.domain b .b ≠ .idle)

/-- Checks 3 to 5 of R37 on a clamped configuration: the status of the first that fails. -/
def State.boothRefusal (s : State) (b : Nat) (c : BoothConfig) : Option Status :=
  if s.plan.hall = .session ∧ c.enabled < (s.config b).enabled then some .wrongState
  else if Config.deskPorts < c.enabled + s.otherDesks b then some .full
  else if s.plan.hall = .session ∧ c.interlock ≠ (s.config b).interlock ∧ s.boothBusy b = true then some .inUse
  else none

/-- The desk ports held (R38). -/
def State.portsHeld (s : State) : List Nat := s.booths.desks.filterMap fun e => e.2.port

/-- The lowest-numbered port that no position holds (R38). -/
def State.freePort (s : State) : Option Nat :=
  (List.range' 1 Config.deskPorts).find? fun p => decide (p ∉ s.portsHeld)

/-- A newly enabled position: output A, flags clear, the lowest free port, and a record of zeros (R38, R67). -/
def enableDesk (s : State) (b d : Nat) : State :=
  (s.setDesk b d { selection := .a, cough := false, flash := false, port := s.freePort }).setDeskRecord b d .zero

/-- A position that becomes DISABLED loses its state, its port and its record (R38, R67). -/
def disableDesk (s : State) (b d : Nat) : State := (s.setDesk b d .disabled).setDeskRecord b d .zero

/-- The domains of a booth in their new shape, all IDLE (R39, R61). -/
def reshapeDomains (s : State) (b : Nat) : State :=
  [Side.a, Side.b].foldl (fun t x => (t.setDomain b x .idle).setTurn b x .idle) s

/-- An accepted WRITE_BOOTH (R37 to R39): stored whole, positions enabled in ascending order or disabled, and the
domains reshaped by a change of interlock. -/
def storeConfig (s : State) (b : Nat) (c : BoothConfig) : State :=
  let old := s.config b
  let t := s.setConfig b c
  let u := (positions.filter fun d => decide (old.enabled < d ∧ d ≤ c.enabled)).foldl (fun t d => enableDesk t b d) t
  let v := (positions.filter fun d => decide (c.enabled < d ∧ d ≤ old.enabled)).foldl (fun t d => disableDesk t b d) u
  if c.interlock = old.interlock then v else reshapeDomains v b

/-- WRITE_BOOTH served (R37). -/
def serveWriteBooth (body : List Byte) (s : State) : Served :=
  match body with
  | [b, n, i, m, w, p, l, o] =>
    if 1 ≤ b.toNat ∧ b.toNat ≤ 24 then
      match interlockOfByte i, modeOfByte m, policyOfByte p with
      | some i, some m, some p =>
        let c := clampConfig n.toNat i m w.toNat p l.toNat o.toNat
        match s.boothRefusal b.toNat c with
        | some t => answer s t
        | none =>
          (storeConfig s b.toNat c,
            (clampStatus (decide (c.bytes ≠ [n, interlockCode i, modeCode m, w, policyCode p, l, o]))).code :: b ::
              c.bytes)
      | _, _, _ => answer s .range
    else answer s .range
  | _ => answer s .badLength

/-- WRITE_BOOTH (R37). -/
def execWriteBooth (tag : Byte) (body : List Byte) (s : State) : Answer :=
  .next (takeRequest s ⟨0x18, tag, body⟩ (serveWriteBooth body))

/-! ### Reading booths (R39, R42, R70) -/

/-- Whether a byte names a booth (00_scope section 4). -/
def namesBooth (b : Byte) : Bool := decide (1 ≤ b.toNat) && decide (b.toNat ≤ 24)

/-- READ_BOOTH served (R39). -/
def serveReadBooth (body : List Byte) (s : State) : Served :=
  match body with
  | [b] =>
    if namesBooth b then
      (s, Status.ok.code :: b :: (s.config b.toNat).bytes ++
        positions.map fun d => byteOf ((s.desk b.toNat d).port.getD 0))
    else answer s .range
  | _ => answer s .badLength

/-- READ_BOOTH (R39). -/
def execReadBooth (tag : Byte) (body : List Byte) (s : State) : Answer :=
  .next (takeRequest s ⟨0x19, tag, body⟩ (serveReadBooth body))

/-- The domain record of READ_DESKS (R42). -/
def Domain.bytes : Domain → List Byte
  | .idle => [0, 0, 0, 0, 0]
  | .live d => [1, byteOf d, 0, 0, 0]
  | .pending d e n p => [2, byteOf d, byteOf e, byteOf n, policyCode p]

/-- The domain at output B's place, reported IDLE under SINGLE (R42). -/
def State.secondDomain (s : State) (b : Nat) : Domain :=
  match (s.config b).interlock with
  | .single => .idle
  | .dual => s.domain b .b

/-- The desk record of READ_DESKS (R42). DESIGN CHOICE (log entry 21), unsafe: a DISABLED position reports the selection
held for it, which is 1, A. -/
def deskBytes (s : State) (b d : Nat) : List Byte :=
  (if s.enabled b d then
      [(match s.deskState b d with
        | .idle => 1
        | .live => 2
        | .requesting => 3), sideCode (s.desk b d).selection, flagByte (s.desk b d).cough]
    else [0, sideCode (s.desk b d).selection, flagByte (s.desk b d).cough]) ++ (s.lamps b d).steadyBytes

/-- READ_DESKS served (R42). -/
def serveReadDesks (body : List Byte) (s : State) : Served :=
  match body with
  | [b] =>
    if namesBooth b then
      (s, Status.ok.code :: b :: (s.domain b.toNat .a).bytes ++ (s.secondDomain b.toNat).bytes ++
        positions.flatMap (deskBytes s b.toNat))
    else answer s .range
  | _ => answer s .badLength

/-- READ_DESKS (R42). -/
def execReadDesks (tag : Byte) (body : List Byte) (s : State) : Answer :=
  .next (takeRequest s ⟨0x1A, tag, body⟩ (serveReadDesks body))

/-- The read-out update of one domain: the longest turn of the desk whose turn runs is raised to its counter (R69). -/
def raiseLongest (s : State) (b : Nat) (place : Side) : State :=
  match (s.domain b place).liveDesk with
  | some d => endTurn s b place d
  | none => s

/-- The read-out updates of a booth (R69). -/
def readOut (s : State) (b : Nat) : State := raiseLongest (raiseLongest s b .a) b .b

/-- The domain turn record of READ_DESK_RECORDS (R70). -/
def TurnRecord.bytes (t : TurnRecord) : List Byte :=
  be32 t.counter ++ [byteOf (t.limit.getD 0), byteOf (t.overrun.getD 0), flagByte t.dueRaised, flagByte t.overrunRaised]

/-- The turn record at output B's place, an IDLE record under SINGLE (R70). -/
def State.secondTurn (s : State) (b : Nat) : TurnRecord :=
  match (s.config b).interlock with
  | .single => .idle
  | .dual => s.turn b .b

/-- The desk record of READ_DESK_RECORDS; a DISABLED position reports every figure as 0 (R70). -/
def deskRecordBytes (s : State) (b d : Nat) : List Byte :=
  let r := if s.enabled b d then s.deskRecord b d else .zero
  flagByte (s.enabled b d) ::
    (be32 r.liveA ++ be32 r.liveB ++ be32 r.turnsStarted ++ be32 r.longestTurn ++ be32 r.turnDue)

/-- READ_DESK_RECORDS served (R69, R70). -/
def serveReadDeskRecords (body : List Byte) (s : State) : Served :=
  match body with
  | [b] =>
    if namesBooth b then
      let t := readOut s b.toNat
      (t, Status.ok.code :: b :: (t.turn b.toNat .a).bytes ++ (t.secondTurn b.toNat).bytes ++
        positions.flatMap (deskRecordBytes t b.toNat))
    else answer s .range
  | _ => answer s .badLength

/-- READ_DESK_RECORDS (R70). -/
def execReadDeskRecords (tag : Byte) (body : List Byte) (s : State) : Answer :=
  .next (takeRequest s ⟨0x1C, tag, body⟩ (serveReadDeskRecords body))

/-! ### FORCE_OUTPUT_OFF (R57) -/

/-- FORCE_OUTPUT_OFF served (R57). -/
def serveForceOutputOff (body : List Byte) (s : State) : Served :=
  match body with
  | [b, o] =>
    match sideOfByte o with
    | some x => if namesBooth b then answer (forceOff s ⟨b.toNat, x⟩) .ok else answer s .range
    | none => answer s .range
  | _ => answer s .badLength

/-- FORCE_OUTPUT_OFF (R57). -/
def execForceOutputOff (tag : Byte) (body : List Byte) (s : State) : Answer :=
  .next (takeRequest s ⟨0x1B, tag, body⟩ (serveForceOutputOff body))

/-! ### Consoles (R41, R45, R59, R165) -/

/-- Whether a number is a booth's (00_scope section 4). -/
def isBooth (b : Nat) : Bool := decide (1 ≤ b) && decide (b ≤ 24)

/-- A console's reply: of the form its unit state calls for, it is taken; of another form it counts as a miss (R45, R59,
R165). -/
def takeConsoleReply (s : State) (b : Nat) : ConsoleContent → State
  | .events l =>
    if (s.unit b).owesReturn then unitMiss s b
    else (l.take Config.eventsPerReply).foldl (fun t e => deskEvent t b e) (unitReply s b)
  | .report d1 d2 d3 d4 =>
    if (s.unit b).owesReturn then reconcileConsole (unitReply s b) b [(1, d1), (2, d2), (3, d3), (4, d4)]
    else unitMiss s b

/-- An answer on the booth link: it completes the poll under way, with a reply when it names the console polled, and with
a miss, its content discarded, when it names another; with no poll under way there is nothing to complete (R165). -/
def consoleAnswer (s : State) (booth : Nat) (content : ConsoleContent) : State :=
  match s.supervisor.consolePoll with
  | some p =>
    if isBooth p.booth then if booth = p.booth then takeConsoleReply s booth content else unitMiss s p.booth else s
  | none => s

/-- CONSOLE_REPLY (R45, R59). -/
def execConsoleReply (booth : Nat) (content : ConsoleContent) (s : State) : Answer :=
  .next (consoleAnswer s booth content)

/-- The booth link's next poll (R41, R165): the lamps of the booth's positions, the return request, and after it the
flashes dropped. -/
def sendConsolePoll (s : State) : State :=
  let b := s.supervisor.nextConsole
  let p : ConsolePoll := { booth := b, returnRequest := (s.unit b).owesReturn, lamps := positions.map (s.lamps b) }
  let t := dropFlashes s b
  { t with supervisor := { t.supervisor with consolePoll := some p, nextConsole := nextAddress 24 b } }

/-- CONSOLE_POLL (R41): the link goes on to its next unit once the poll before is complete (R165, log entry 8). -/
def execConsolePoll (s : State) : Answer :=
  .next (if s.supervisor.consolePoll = none then sendConsolePoll s else s)

/-! ### Desk-side timers (R53, R64, R65; log entry 4) -/

/-- TURN_LIMIT_REACHED: the second event whose rise brings a domain's counter to the held limit, taken for that domain
(R64). -/
def execTurnLimitReached (booth : Nat) (place : Side) (s : State) : Answer :=
  .next (if isBooth booth && (s.domain booth place).liveDesk.isSome &&
        (s.turn booth place).dueAt (satAdd (s.turn booth place).counter 1)
    then turnSecond s booth place else s)

/-- OVERRUN_LIMIT_REACHED: the second event whose rise brings a domain's counter to the held limit plus the held overrun,
taken for that domain (R65). -/
def execOverrunLimitReached (booth : Nat) (place : Side) (s : State) : Answer :=
  .next (if isBooth booth && (s.domain booth place).liveDesk.isSome &&
        (s.turn booth place).overrunAt (satAdd (s.turn booth place).counter 1)
    then turnSecond s booth place else s)

/-- Whether a domain's window expires at the next second event (R52). -/
def Domain.expiresNext : Domain → Bool
  | .pending _ _ n _ => decide (n ≤ 1)
  | _ => false

/-- HANDOVER_WINDOW_EXPIRY: the second event that brings a PENDING domain's timer to 0, taken for that domain (R53). -/
def execHandoverWindowExpiry (booth : Nat) (place : Side) (s : State) : Answer :=
  .next (if isBooth booth && (s.domain booth place).expiresNext then windowSecond s booth place else s)

end Sys2Proof.Machine
end

