-- ==== Sys2Proof/Machine/CheckCommands.lean ====
section
/-! DEFINITION. Meanings of the coverage-check commands: START_CHECK, ABORT_CHECK, READ_CHECK and the dwell expiry (R72
to R83). -/

namespace Sys2Proof.Machine

/-! ### START_CHECK (R73, R74) -/

/-- Whether check 1 of START_CHECK holds: at least one channel, not channel 0, and at least one position (R73). -/
def namesTest (set : ChannelSet) (monitors : MonitorSet) : Bool :=
  decide (set ≠ 0) && !set.getLsbD 0 && decide (monitors ≠ 0)

/-- The named positions that hold a monitor receiver (R73). -/
def State.monitorsHeld (s : State) (monitors : MonitorSet) : MonitorSet :=
  monitorSetOf fun p => monitors.getLsbD p && (s.monitorAt p).isSome

/-- Checks 1 to 3 of START_CHECK: the status of the first that fails (R73). -/
def State.checkRefusal (s : State) (set : ChannelSet) (monitors : MonitorSet) : Option Status :=
  if !namesTest set monitors then some .range
  else if s.check.state = .running then some .busy
  else if s.monitorsHeld monitors = 0 then some .wrongState
  else none

/-- START_CHECK served (R73, R74). -/
def serveStartCheck (body : List Byte) (s : State) : Served :=
  match body with
  | [c3, c2, c1, c0, m, g1, g0, r] =>
    let set := setOfBytes c3 c2 c1 c0
    match s.checkRefusal set m with
    | some t => answer s t
    | none =>
      let held := s.monitorsHeld m
      let repeats := clamp 1 16 r.toNat
      (beginCheck s { channels := set, monitors := held, seed := BitVec.ofNat 16 (nat16 g1 g0), repeats := repeats },
        [(clampStatus (decide (repeats ≠ r.toNat))).code, held, byteOf repeats])
  | _ => answer s .badLength

/-- START_CHECK (R74). -/
def execStartCheck (tag : Byte) (body : List Byte) (s : State) : Answer :=
  .next (takeRequest s ⟨0x20, tag, body⟩ (serveStartCheck body))

/-! ### ABORT_CHECK (R81) -/

/-- ABORT_CHECK: a RUNNING check is aborted, and nothing changes in IDLE or DONE (R81). -/
def abortCheck (s : State) : State :=
  if s.check.state = .running then settleEvent s [] (abortCheckState s).2 (abortCheckState s).1 else s

/-- ABORT_CHECK served (R81). -/
def serveAbortCheck (body : List Byte) (s : State) : Served :=
  match body with
  | [] => answer (abortCheck s) .ok
  | _ => answer s .badLength

/-- ABORT_CHECK (R81). -/
def execAbortCheck (tag : Byte) (body : List Byte) (s : State) : Answer :=
  .next (takeRequest s ⟨0x21, tag, body⟩ (serveAbortCheck body))

/-! ### READ_CHECK (R82) -/

/-- Polls taken of a position as READ_CHECK reports them (R82). -/
def State.pollsTaken (s : State) (m : Nat) : Nat :=
  if s.check.current.isSome && s.checkMonitors.getLsbD m then (s.progress m).polls else 0

/-- The seed of the program held, 0 while the program is absent (R82). -/
def State.checkSeed (s : State) : Code16 :=
  match s.check.program with
  | some p => p.seed
  | none => 0

/-- The reply body of READ_CHECK (R82). -/
def checkBody (s : State) : List Byte :=
  [Status.ok.code, s.check.state.code] ++ be32 s.checkChannels.toNat ++ [s.checkMonitors] ++
    be16 s.checkSeed.toNat ++
    [byteOf s.repeats, byteOf (s.check.current.getD 0), byteOf (if s.check.current.isSome then s.check.dwell else 0)] ++
    (monitorPositions.map fun m => byteOf (s.pollsTaken m)) ++
    (langChannels.flatMap fun c => monitorPositions.map fun m => (s.result c m).code) ++
    be32 (setOf fun c => decide (c ≠ 0) && s.failed c).toNat

/-- READ_CHECK served (R82). -/
def serveReadCheck (body : List Byte) (s : State) : Served :=
  match body with
  | [] => (s, checkBody s)
  | _ => answer s .badLength

/-- READ_CHECK (R82). -/
def execReadCheck (tag : Byte) (body : List Byte) (s : State) : Answer :=
  .next (takeRequest s ⟨0x22, tag, body⟩ (serveReadCheck body))

/-! ### The dwell (R79) -/

/-- CHECK_DWELL_EXPIRY: the second event that brings the dwell timer to 0, taken by the checker (R79, log entry 4). -/
def execCheckDwellExpiry (s : State) : Answer :=
  .next (if s.check.current.isSome && decide (s.check.dwell ≤ 1) then dwellSecond s.check.placements s else s)

end Sys2Proof.Machine
end

