-- ==== Sys2Proof/Machine/FleetCommands.lean ====
section
/-! DEFINITION. Meanings of the rack and receiver commands: reading receivers and racks, monitors, withdrawal, and the
rack link's polls and replies (R87 to R101, R165). -/

namespace Sys2Proof.Machine

/-! ### Reading (R99, R100) -/

/-- The reply body of READ_RECEIVER (R99). -/
def receiverBody (s : State) (r : Nat) : List Byte :=
  let e := s.receiver r
  Status.ok.code :: be16 r ++
    [e.state.code, byteOf ((e.location.map (·.rack)).getD 0), byteOf ((e.location.map (·.slot)).getD 0), byteOf e.band] ++
    optional32 e.lastReply ++ [byteOf (e.tuned.getD 255), byteOf e.misses] ++ be32 (e.hire.getD 0) ++
    optional32 e.silentSince ++ [flagByte e.missingReported, byteOf ((s.positionOf r).getD 255)]

/-- READ_RECEIVER served (R99). -/
def serveReadReceiver (body : List Byte) (s : State) : Served :=
  match body with
  | [r1, r0] => if nat16 r1 r0 ≤ 4095 then (s, receiverBody s (nat16 r1 r0)) else answer s .range
  | _ => answer s .badLength

/-- READ_RECEIVER (R99). -/
def execReadReceiver (tag : Byte) (body : List Byte) (s : State) : Answer :=
  .next (takeRequest s ⟨0x28, tag, body⟩ (serveReadReceiver body))

/-- The slot record of READ_RACK (R100). -/
def slotRecord (s : State) (l : Location) : List Byte :=
  match s.slot l with
  | some r => be16 r ++ [byteOf (s.receiver r).band]
  | none => [0xFF, 0xFF, 0]

/-- Whether a number is a rack's (00_scope section 4). -/
def isRack (k : Nat) : Bool := decide (1 ≤ k) && decide (k ≤ 16)

/-- READ_RACK served (R100). -/
def serveReadRack (body : List Byte) (s : State) : Served :=
  match body with
  | [k] =>
    if isRack k.toNat then
      (s, [Status.ok.code, k, (s.unit (rackUnit k.toNat)).state.code] ++
        allSlots.flatMap fun x => slotRecord s ⟨k.toNat, x⟩)
    else answer s .range
  | _ => answer s .badLength

/-- READ_RACK (R100). -/
def execReadRack (tag : Byte) (body : List Byte) (s : State) : Answer :=
  .next (takeRequest s ⟨0x29, tag, body⟩ (serveReadRack body))

/-! ### Monitors (R83, R95, R96) -/

/-- Whether a receiver in this state can be placed at a monitor position (check 3 of R95). -/
def ReceiverState.placeable : ReceiverState → Bool
  | .reserved => false
  | .out => false
  | .silent => false
  | .lost => false
  | _ => true

/-- The checks of SET_MONITOR: the status of the first that fails (R95). -/
def State.monitorRefusal (s : State) (p r : Nat) : Option Status :=
  if 7 < p ∨ 4095 < r then some .range
  else if s.check.state = .running then some .busy
  else if !(s.receiver r).state.placeable then some .notAvailable
  else none

/-- SET_MONITOR served (R95). -/
def serveSetMonitor (body : List Byte) (s : State) : Served :=
  match body with
  | [p, r1, r0] =>
    match s.monitorRefusal p.toNat (nat16 r1 r0) with
    | some t => answer s t
    | none => answer (placeMonitor s p.toNat (nat16 r1 r0)) .ok
  | _ => answer s .badLength

/-- SET_MONITOR (R95). -/
def execSetMonitor (tag : Byte) (body : List Byte) (s : State) : Answer :=
  .next (takeRequest s ⟨0x2A, tag, body⟩ (serveSetMonitor body))

/-- CLEAR_MONITOR served (R96). DESIGN CHOICE (log entry 23), unsafe: a position outside 0–7 is refused with RANGE while
the check is RUNNING too, in the order of R95; R83 and R96 give none. -/
def serveClearMonitor (body : List Byte) (s : State) : Served :=
  match body with
  | [p] =>
    if 7 < p.toNat then answer s .range
    else if s.check.state = .running then answer s .busy
    else answer (clearMonitorAt s p.toNat) .ok
  | _ => answer s .badLength

/-- CLEAR_MONITOR (R96). -/
def execClearMonitor (tag : Byte) (body : List Byte) (s : State) : Answer :=
  .next (takeRequest s ⟨0x2B, tag, body⟩ (serveClearMonitor body))

/-! ### Withdrawal (R97, R98) -/

/-- A receiver becomes WITHDRAWN, with every other field kept (R97). -/
def withdraw (s : State) (r : Nat) : State := s.setReceiver r { s.receiver r with state := .withdrawn }

/-- WITHDRAW_RECEIVER on a receiver in range, by its state (R97). -/
def withdrawReceiver (s : State) (r : Nat) : Served :=
  match (s.receiver r).state with
  | .unknown => answer (withdraw s r) .ok
  | .docked => answer (withdraw s r) .ok
  | .lost => answer (withdraw s r) .ok
  | .stray => answer (withdraw (leaveList s .l1 r) r) .ok
  | .withdrawn => answer s .ok
  | _ => answer s .inUse

/-- WITHDRAW_RECEIVER served (R97). -/
def serveWithdrawReceiver (body : List Byte) (s : State) : Served :=
  match body with
  | [r1, r0] => if nat16 r1 r0 ≤ 4095 then withdrawReceiver s (nat16 r1 r0) else answer s .range
  | _ => answer s .badLength

/-- WITHDRAW_RECEIVER (R97). -/
def execWithdrawReceiver (tag : Byte) (body : List Byte) (s : State) : Answer :=
  .next (takeRequest s ⟨0x2C, tag, body⟩ (serveWithdrawReceiver body))

/-- RESTORE_RECEIVER on a receiver in range (R98). -/
def restoreReceiver (s : State) (r : Nat) : Served :=
  if (s.receiver r).state = .withdrawn then
    answer (s.setReceiver r { s.receiver r with state := (s.receiver r).restState }) .ok
  else answer s .wrongState

/-- RESTORE_RECEIVER served (R98). -/
def serveRestoreReceiver (body : List Byte) (s : State) : Served :=
  match body with
  | [r1, r0] => if nat16 r1 r0 ≤ 4095 then restoreReceiver s (nat16 r1 r0) else answer s .range
  | _ => answer s .badLength

/-- RESTORE_RECEIVER (R98). -/
def execRestoreReceiver (tag : Byte) (body : List Byte) (s : State) : Answer :=
  .next (takeRequest s ⟨0x2D, tag, body⟩ (serveRestoreReceiver body))

/-! ### The rack link (R87, R93, R165) -/

/-- A rack's reply: of the form its unit state calls for, it is taken; of another form, an inventory that is not of 48
entries among them, it counts as a miss (R87, R165). -/
def takeRackReply (s : State) (k : Nat) : RackContent → State
  | .reports l =>
    if (s.unit (rackUnit k)).owesReturn then unitMiss s (rackUnit k)
    else (l.take Config.reportsPerReply).foldl (fun t e => rackReport t k e) (unitReply s (rackUnit k))
  | .inventory l =>
    if (s.unit (rackUnit k)).owesReturn ∧ l.length = allSlots.length then
      takeInventory (unitReply s (rackUnit k)) k l
    else unitMiss s (rackUnit k)

/-- An answer on the rack link: it completes the poll under way, with a reply when it names the rack polled, and with a
miss, its content discarded, when it names another; with no poll under way there is nothing to complete (R165). -/
def rackAnswer (s : State) (rack : Nat) (content : RackContent) : State :=
  match s.supervisor.rackPoll with
  | some p =>
    if isRack p.rack then if rack = p.rack then takeRackReply s rack content else unitMiss s (rackUnit p.rack) else s
  | none => s

/-- RACK_REPLY (R87). -/
def execRackReply (rack : Nat) (content : RackContent) (s : State) : Answer := .next (rackAnswer s rack content)

/-- The rack link's next poll, with its return request (R165). -/
def sendRackPoll (s : State) : State :=
  let k := s.supervisor.nextRack
  { s with supervisor :=
      { s.supervisor with
        rackPoll := some { rack := k, returnRequest := (s.unit (rackUnit k)).owesReturn }
        nextRack := nextAddress 16 k } }

/-- RACK_POLL: the link goes on to its next unit once the poll before is complete (R165, log entry 8). -/
def execRackPoll (s : State) : Answer := .next (if s.supervisor.rackPoll = none then sendRackPoll s else s)

end Sys2Proof.Machine
end

