-- ==== Sys2Proof/Machine/BeaconCommands.lean ====
section
/-! DEFINITION. Meanings of the beacon commands: the schedule, listener counts, polls and their completions, and the
missing timers (R104 to R116). -/

namespace Sys2Proof.Machine

/-! ### Requests (R104, R116) -/

/-- The four counts in request order (R104). -/
def Schedule.bytes (k : Schedule) : List Byte := [byteOf k.k0, byteOf k.k1, byteOf k.k2, byteOf k.k3]

/-- The counts stored in place of those in force (R104). -/
def State.setCounts (s : State) (k : Schedule) : State := { s with beacon := { s.beacon with counts := k } }

/-- WRITE_SCHEDULE served: a count above 63 is stored as 63 (R104). -/
def serveWriteSchedule (body : List Byte) (s : State) : Served :=
  match body with
  | [a, b, c, d] =>
    let k : Schedule := { k0 := min a.toNat 63, k1 := min b.toNat 63, k2 := min c.toNat 63, k3 := min d.toNat 63 }
    (s.setCounts k, (clampStatus (decide (k.bytes ≠ [a, b, c, d]))).code :: k.bytes)
  | _ => answer s .badLength

/-- WRITE_SCHEDULE (R104). -/
def execWriteSchedule (tag : Byte) (body : List Byte) (s : State) : Answer :=
  .next (takeRequest s ⟨0x2E, tag, body⟩ (serveWriteSchedule body))

/-- READ_LISTENERS served (R116). -/
def serveReadListeners (body : List Byte) (s : State) : Served :=
  match body with
  | [] =>
    (s, Status.ok.code :: (allChannels.flatMap fun c => be16 (s.listeners c)) ++
      [ListId.l0, .l1, .l2, .l3].flatMap fun i => be16 (s.pollList i).members.length)
  | _ => answer s .badLength

/-- READ_LISTENERS (R116). -/
def execReadListeners (tag : Byte) (body : List Byte) (s : State) : Answer :=
  .next (takeRequest s ⟨0x2F, tag, body⟩ (serveReadListeners body))

/-! ### Polls and completions (R105 to R112) -/

/-- BEACON_POLL_SEND: one slot of the beacon (R105, R106). -/
def execBeaconPollSend (s : State) : Answer := .next (beaconSlot s)

/-- Whether an answer is a reply of the receiver polled: it names it and carries a tuned channel 0–31 and a band 0–7
(R107). -/
def InFlight.answeredBy (p : InFlight) (receiver tuned band : Nat) : Bool :=
  decide (receiver = p.receiver) && decide (tuned ≤ 31) && decide (band ≤ 7)

/-- BEACON_REPLY: an answer comes in the slot of the poll in flight, and completes it with a reply, or with a miss when it
names another receiver or is out of range (R107, R108). -/
def execBeaconReply (receiver tuned band : Nat) (signature : Option Code16) (s : State) : Answer :=
  .next (match s.beacon.inFlight with
    | some p =>
      if p.answeredBy receiver tuned band then completeReply s p tuned band signature else completeMiss s p
    | none => s)

/-- BEACON_MISS: no answer comes in the slot of the poll in flight (R107, R112). -/
def execBeaconMiss (s : State) : Answer :=
  .next (match s.beacon.inFlight with
    | some p => completeMiss s p
    | none => s)

/-- Whether a miss of the poll in flight brings its receiver's count to the miss limit (R112). -/
def State.missSilences (s : State) (p : InFlight) : Bool :=
  decide (p.list = .l0) && s.takesPoll p && decide (s.limits.missLimit ≤ (s.receiver p.receiver).missed)

/-- MISS_LIMIT_REACHED: the miss of the poll in flight that brings an OUT receiver's count to the miss limit (R112, log
entry 4). -/
def execMissLimitReached (receiver : Nat) (s : State) : Answer :=
  .next (match s.beacon.inFlight with
    | some p => if decide (p.receiver = receiver) && s.missSilences p then completeMiss s p else s
    | none => s)

/-- MISSING_TIME_REACHED: the second event at which a silence reaches the missing time, taken for that receiver (R113,
log entry 4). The counter is read as that event advances it. -/
def execMissingTimeReached (receiver : Nat) (s : State) : Answer :=
  .next (if s.missingDue receiver (satAdd s.now 1) then reportMissing s receiver else s)

end Sys2Proof.Machine
end

