-- ==== Sys2Proof/Machine/HireCommands.lean ====
section
/-! DEFINITION. Meanings of the hire, settlement and tariff commands (R118 to R149). -/

namespace Sys2Proof.Machine

/-! ### OPEN_HIRE (R120 to R122) -/

/-- Whether the rack holding a receiver is LOST (check 4 of R121). -/
def State.rackLost (s : State) (e : Receiver) : Bool :=
  match e.location with
  | some l => decide ((s.unit (rackUnit l.rack)).state = .lost)
  | none => false

/-- Checks 1 to 6 of OPEN_HIRE: the status of the first that fails (R121). -/
def State.hireRefusal (s : State) (r delegation tariff : Nat) : Option Status :=
  if 4095 < r ∨ 127 < delegation ∨ 7 < tariff then some .range
  else if !(s.tariff tariff).defined then some .noTariff
  else if (s.receiver r).state ≠ .docked then some .notAvailable
  else if s.rackLost (s.receiver r) then some .unitLost
  else if (s.receiver r).band < s.limits.issueMinimum then some .lowBattery
  else if Config.hirePlaces ≤ s.hireList.length then some .full
  else none

/-- The record an accepted OPEN_HIRE creates (R122). -/
def newHire (s : State) (r reference delegation tariff deposit : Nat) : Hire :=
  { number := s.hires.next, receiver := r, reference := reference, delegation := delegation, tariff := tariff
    deposit := deposit, state := .pending s.limits.issueWindow, openTime := s.now, lost := false, reconciled := false }

/-- An accepted OPEN_HIRE: the record, the receiver RESERVED under it, and the next hire number (R120, R122). -/
def openHire (s : State) (r reference delegation tariff deposit : Nat) : State :=
  let n := s.hires.next
  let t := (s.setHire n (some (newHire s r reference delegation tariff deposit))).setReceiver r
    { s.receiver r with state := .reserved, hire := some n }
  { t with hires := { t.hires with next := t.nextNumberAfter n } }

/-- OPEN_HIRE served: a refusal carries hire number 0 and deposit 0 (R122). -/
def serveOpenHire (body : List Byte) (s : State) : Served :=
  match body with
  | [r1, r0, f3, f2, f1, f0, d, t, p3, p2, p1, p0] =>
    match s.hireRefusal (nat16 r1 r0) d.toNat t.toNat with
    | some x => (s, x.code :: be32 0 ++ be32 0)
    | none =>
      let deposit := min (nat32 p3 p2 p1 p0) Config.maxFigure
      (openHire s (nat16 r1 r0) (nat32 f3 f2 f1 f0) d.toNat t.toNat deposit,
        (clampStatus (decide (deposit ≠ nat32 p3 p2 p1 p0))).code :: be32 s.hires.next ++ be32 deposit)
  | _ => answer s .badLength

/-- OPEN_HIRE (R122). -/
def execOpenHire (tag : Byte) (body : List Byte) (s : State) : Answer :=
  .next (takeRequest s ⟨0x30, tag, body⟩ (serveOpenHire body))

/-! ### CANCEL_HIRE and DECLARE_LOST (R127 to R129) -/

/-- CANCEL_HIRE on the record holding a number (R127). -/
def cancelHire (s : State) (n : Nat) : Served :=
  match s.hire n with
  | none => answer s .notFound
  | some h =>
    match h.state with
    | .pending _ => answer (removePending s h) .ok
    | .active _ _ => answer s .inUse
    | .closing _ _ _ _ => answer s .wrongState

/-- CANCEL_HIRE served (R127). -/
def serveCancelHire (body : List Byte) (s : State) : Served :=
  match body with
  | [n3, n2, n1, n0] => cancelHire s (nat32 n3 n2 n1 n0)
  | _ => answer s .badLength

/-- CANCEL_HIRE (R127). -/
def execCancelHire (tag : Byte) (body : List Byte) (s : State) : Answer :=
  .next (takeRequest s ⟨0x31, tag, body⟩ (serveCancelHire body))

/-- The receiver of a hire declared lost leaves its poll list, and its listener count when it was OUT with a tuned
channel (R128). -/
def leaveForLost (s : State) (r : Nat) : State :=
  match (s.receiver r).state with
  | .out => dropListeners (leaveList s .l0 r) (s.receiver r).tuned
  | .silent => leaveList s .l2 r
  | _ => s

/-- The receiver of a hire declared lost becomes LOST, with no hire number and no silence (R85, R128). -/
def loseReceiver (s : State) (r : Nat) : State :=
  let t := leaveForLost s r
  t.setReceiver r { t.receiver r with state := .lost, hire := none, silentSince := none, missingReported := false }

/-- An ACTIVE hire closes as lost (R128, R129). -/
def closeLost (s : State) (h : Hire) : State :=
  settleOrWait (loseReceiver (beginClosing s h.number true false) h.receiver) h.number

/-- DECLARE_LOST on the record holding a number (R128). -/
def declareLost (s : State) (n : Nat) : Served :=
  match s.hire n with
  | none => answer s .notFound
  | some h =>
    match h.state with
    | .active _ _ => answer (closeLost s h) .ok
    | _ => answer s .wrongState

/-- DECLARE_LOST served (R128). -/
def serveDeclareLost (body : List Byte) (s : State) : Served :=
  match body with
  | [n3, n2, n1, n0] => declareLost s (nat32 n3 n2 n1 n0)
  | _ => answer s .badLength

/-- DECLARE_LOST (R128). -/
def execDeclareLost (tag : Byte) (body : List Byte) (s : State) : Answer :=
  .next (takeRequest s ⟨0x32, tag, body⟩ (serveDeclareLost body))

/-! ### READ_HIRE (R135) -/

/-- The state code, open, start and end fields of READ_HIRE, from the hire state (R135). -/
def HireState.bytes (openTime : Nat) : HireState → List Byte
  | .pending _ => 1 :: be32 openTime ++ (0 :: be32 0 ++ be32 0) ++ (0 :: be32 0 ++ be32 0)
  | .active st ds => 2 :: be32 openTime ++ (1 :: be32 st ++ be32 ds) ++ (0 :: be32 0 ++ be32 0)
  | .closing st ds fi de => 3 :: be32 openTime ++ (1 :: be32 st ++ be32 ds) ++ (1 :: be32 fi ++ be32 de)

/-- The issue window remaining as READ_HIRE reports it (R135). -/
def HireState.window : HireState → Nat
  | .pending w => w
  | _ => 0

/-- The reply body of READ_HIRE (R135). -/
def hireBody (h : Hire) : List Byte :=
  Status.ok.code :: be32 h.number ++ be16 h.receiver ++ be32 h.reference ++ [byteOf h.delegation, byteOf h.tariff] ++
    be32 h.deposit ++ h.state.bytes h.openTime ++ [h.flagsByte] ++ be16 h.state.window

/-- READ_HIRE served (R135). -/
def serveReadHire (body : List Byte) (s : State) : Served :=
  match body with
  | [n3, n2, n1, n0] =>
    match s.hire (nat32 n3 n2 n1 n0) with
    | some h => (s, hireBody h)
    | none => answer s .notFound
  | _ => answer s .badLength

/-- READ_HIRE (R135). -/
def execReadHire (tag : Byte) (body : List Byte) (s : State) : Answer :=
  .next (takeRequest s ⟨0x33, tag, body⟩ (serveReadHire body))

/-! ### The settlement queue (R131 to R134) -/

/-- READ_SETTLEMENT served (R133). -/
def serveReadSettlement (body : List Byte) (s : State) : Served :=
  match body with
  | [] =>
    match s.money.queue with
    | x :: _ => (s, Status.ok.code :: x.bytes)
    | [] => answer s .empty
  | _ => answer s .badLength

/-- READ_SETTLEMENT (R133). -/
def execReadSettlement (tag : Byte) (body : List Byte) (s : State) : Answer :=
  .next (takeRequest s ⟨0x34, tag, body⟩ (serveReadSettlement body))

/-- The settlement queue replaced (R132). -/
def State.setQueue (s : State) (q : List Settlement) : State := { s with money := { s.money with queue := q } }

/-- A waiting CLOSING hire settles into the place freed, if one waits (R131). -/
def settleNext (s : State) : State :=
  match s.nextWaiting with
  | some n => settleHire s n
  | none => s

/-- TAKE_SETTLEMENT of a hire number (R134). -/
def takeSettlement (s : State) (n : Nat) : Served :=
  match s.money.queue with
  | [] => answer s .empty
  | x :: rest => if x.hire = n then answer (settleNext (s.setQueue rest)) .ok else answer s .mismatch

/-- TAKE_SETTLEMENT served (R134). -/
def serveTakeSettlement (body : List Byte) (s : State) : Served :=
  match body with
  | [n3, n2, n1, n0] => takeSettlement s (nat32 n3 n2 n1 n0)
  | _ => answer s .badLength

/-- TAKE_SETTLEMENT (R134). -/
def execTakeSettlement (tag : Byte) (body : List Byte) (s : State) : Answer :=
  .next (takeRequest s ⟨0x35, tag, body⟩ (serveTakeSettlement body))

/-! ### The issue window (R123) -/

/-- Whether a hire is PENDING with a window that expires at the next second event (R123). -/
def Hire.lapsesNext (h : Hire) : Bool :=
  match h.state with
  | .pending w => decide (w ≤ 1)
  | _ => false

/-- ISSUE_WINDOW_EXPIRY: the second event that brings a PENDING hire's issue window to 0, taken for that hire (R123, log
entry 4). -/
def execIssueWindowExpiry (hire : Nat) (s : State) : Answer :=
  .next (if (s.hire hire).any Hire.lapsesNext then issueSecond s hire else s)

/-! ### Tariffs (R138 to R142) -/

/-- The number of records that name a tariff class (R140, R142). -/
def State.hiresNaming (s : State) (k : Nat) : Nat := (s.hireList.filter fun h => decide (h.tariff = k)).length

/-- Checks 1 to 3 of WRITE_TARIFF: the status of the first that fails (R139). -/
def State.tariffRefusal (s : State) (k : Nat) : Option Status :=
  if 7 < k then some .range
  else if s.money.frozen then some .frozen
  else if s.hiresNaming k ≠ 0 then some .inUse
  else none

/-- WRITE_TARIFF served: each figure clamped to its range (R139). -/
def serveWriteTariff (body : List Byte) (s : State) : Served :=
  match body with
  | [k, g, l, f1, f0, p1, p0, c3, c2, c1, c0, x3, x2, x1, x0] =>
    match s.tariffRefusal k.toNat with
    | some t => answer s t
    | none =>
      let t : Tariff :=
        { defined := true, grace := clamp 0 60 g.toNat, unit := clamp 1 240 l.toNat, firstPrice := nat16 f1 f0
          furtherPrice := nat16 p1 p0, dayCap := clamp 0 Config.maxFigure (nat32 c3 c2 c1 c0)
          lostCharge := clamp 0 Config.maxFigure (nat32 x3 x2 x1 x0) }
      (s.setTariff k.toNat t,
        (clampStatus (decide (t.bytes ≠ [g, l, f1, f0, p1, p0, c3, c2, c1, c0, x3, x2, x1, x0]))).code :: k :: t.bytes)
  | _ => answer s .badLength

/-- WRITE_TARIFF (R139). -/
def execWriteTariff (tag : Byte) (body : List Byte) (s : State) : Answer :=
  .next (takeRequest s ⟨0x38, tag, body⟩ (serveWriteTariff body))

/-- READ_TARIFF served (R142). -/
def serveReadTariff (body : List Byte) (s : State) : Served :=
  match body with
  | [k] =>
    if k.toNat ≤ 7 then
      (s, [Status.ok.code, k, flagByte (s.tariff k.toNat).defined] ++ (s.tariff k.toNat).bytes ++
        [flagByte s.money.frozen] ++ be16 (s.hiresNaming k.toNat))
    else answer s .range
  | _ => answer s .badLength

/-- READ_TARIFF (R142). -/
def execReadTariff (tag : Byte) (body : List Byte) (s : State) : Answer :=
  .next (takeRequest s ⟨0x39, tag, body⟩ (serveReadTariff body))

/-- The tariffs frozen (R141). -/
def State.freeze (s : State) : State := { s with money := { s.money with frozen := true } }

/-- FREEZE_TARIFFS served (R141). -/
def serveFreezeTariffs (body : List Byte) (s : State) : Served :=
  match body with
  | [] => answer s.freeze .ok
  | _ => answer s .badLength

/-- FREEZE_TARIFFS (R141). -/
def execFreezeTariffs (tag : Byte) (body : List Byte) (s : State) : Answer :=
  .next (takeRequest s ⟨0x3A, tag, body⟩ (serveFreezeTariffs body))

end Sys2Proof.Machine
end

