-- ==== Sys2Proof/Machine/MeterCommands.lean ====
section
/-! DEFINITION. Meanings of the accounting commands: reading and clearing delegations, and the service record (R154,
R155, R159). -/

namespace Sys2Proof.Machine

/-- READ_DELEGATION served (R154). -/
def serveReadDelegation (body : List Byte) (s : State) : Served :=
  match body with
  | [d] =>
    if d.toNat ≤ 127 then
      (s, Status.ok.code :: d :: allChannels.flatMap fun c => be32 (s.listening d.toNat c))
    else answer s .range
  | _ => answer s .badLength

/-- READ_DELEGATION (R154). -/
def execReadDelegation (tag : Byte) (body : List Byte) (s : State) : Answer :=
  .next (takeRequest s ⟨0x3B, tag, body⟩ (serveReadDelegation body))

/-- One row of the delegation listening table set to 0 (R155). -/
def clearRow (s : State) (d : Nat) : State := allChannels.foldl (fun t c => t.setListening d c 0) s

/-- Every row of the delegation listening table set to 0 (R155). -/
def clearRows (s : State) : State := { s with meters := { s.meters with listening := [] } }

/-- CLEAR_DELEGATION served (R155). -/
def serveClearDelegation (body : List Byte) (s : State) : Served :=
  match body with
  | [d] =>
    if d.toNat ≤ 127 then answer (clearRow s d.toNat) .ok
    else if d.toNat = 255 then answer (clearRows s) .ok
    else answer s .range
  | _ => answer s .badLength

/-- CLEAR_DELEGATION (R155). -/
def execClearDelegation (tag : Byte) (body : List Byte) (s : State) : Answer :=
  .next (takeRequest s ⟨0x3C, tag, body⟩ (serveClearDelegation body))

/-- The seven category counts of a channel, in the order of the category codes (R159). -/
def serviceBytes (s : State) (c : Nat) : List Byte := (List.range' 1 7).flatMap fun k => be32 (s.serviceSeconds c k)

/-- The unserved count as READ_SERVICE reports it: channel 0 has none, which is given as 0 (R157, R159). -/
def State.unservedShown (s : State) (c : Nat) : Nat := if c = 0 then 0 else s.unserved c

/-- READ_SERVICE served (R159). -/
def serveReadService (body : List Byte) (s : State) : Served :=
  match body with
  | [c] =>
    if c.toNat ≤ 31 then
      (s, Status.ok.code :: c :: serviceBytes s c.toNat ++ be32 (s.unservedShown c.toNat))
    else if c.toNat = 255 then
      (s, Status.ok.code :: serviceBytes s 0 ++ langChannels.flatMap fun c => serviceBytes s c ++ be32 (s.unserved c))
    else answer s .range
  | _ => answer s .badLength

/-- READ_SERVICE (R159). -/
def execReadService (tag : Byte) (body : List Byte) (s : State) : Answer :=
  .next (takeRequest s ⟨0x3D, tag, body⟩ (serveReadService body))

end Sys2Proof.Machine
end

