-- ==== Sys2Proof/Machine/ClockCommands.lean ====
section
/-! DEFINITION. Meanings of the hall-clock and supervision commands: setting the time, limits, faults, the radiator
link, losses, the second event and the reference (R160 to R168). -/

namespace Sys2Proof.Machine

/-! ### SET_TIME (R164) -/

/-- The seconds counter stored (R164). -/
def State.setSeconds (s : State) (n : Nat) : State := { s with clock := { s.clock with seconds := n } }

/-- The checks of SET_TIME: the status of the first that fails (R164). -/
def State.timeRefusal (s : State) : Option Status :=
  if s.plan.hall ≠ .setup then some .wrongState else if s.hireList ≠ [] then some .inUse else none

/-- SET_TIME served: accepted or refused, the reply gives the counter (R164). -/
def serveSetTime (body : List Byte) (s : State) : Served :=
  match body with
  | [t3, t2, t1, t0] =>
    match s.timeRefusal with
    | some x => (s, x.code :: be32 s.clock.seconds)
    | none => (s.setSeconds (nat32 t3 t2 t1 t0), Status.ok.code :: be32 (nat32 t3 t2 t1 t0))
  | _ => answer s .badLength

/-- SET_TIME (R164). -/
def execSetTime (tag : Byte) (body : List Byte) (s : State) : Answer :=
  .next (takeRequest s ⟨0x05, tag, body⟩ (serveSetTime body))

/-! ### Limits (R168) -/

/-- The seven limits, each stored as the nearest bound of its range (R168). -/
def clampLimits (creditCap missLimit missingCode issueWindow issueMinimum lowBand failureLimit : Nat) : Limits :=
  { creditCap := clamp 1 255 creditCap, missLimit := clamp 1 15 missLimit, missingCode := clamp 0 10 missingCode
    issueWindow := clamp 10 600 issueWindow, issueMinimum := clamp 0 7 issueMinimum, lowBand := clamp 0 7 lowBand
    failureLimit := clamp 2 15 failureLimit }

/-- The limits stored (R168). -/
def State.setLimits (s : State) (l : Limits) : State := { s with limits := l }

/-- WRITE_LIMITS served (R168). -/
def serveWriteLimits (body : List Byte) (s : State) : Served :=
  match body with
  | [k, m, c, w1, w0, i, b, f] =>
    let l := clampLimits k.toNat m.toNat c.toNat (nat16 w1 w0) i.toNat b.toNat f.toNat
    (s.setLimits l, (clampStatus (decide (l.bytes ≠ [k, m, c, w1, w0, i, b, f]))).code :: l.bytes)
  | _ => answer s .badLength

/-- WRITE_LIMITS (R168). -/
def execWriteLimits (tag : Byte) (body : List Byte) (s : State) : Answer :=
  .next (takeRequest s ⟨0x06, tag, body⟩ (serveWriteLimits body))

/-- READ_LIMITS served (R168). -/
def serveReadLimits (body : List Byte) (s : State) : Served :=
  match body with
  | [] => (s, Status.ok.code :: s.limits.bytes)
  | _ => answer s .badLength

/-- READ_LIMITS (R168). -/
def execReadLimits (tag : Byte) (body : List Byte) (s : State) : Answer :=
  .next (takeRequest s ⟨0x07, tag, body⟩ (serveReadLimits body))

/-! ### Faults (R167) -/

/-- Whether a number is a unit's (00_scope section 2.4). -/
def isUnit (u : Nat) : Bool := decide (1 ≤ u) && decide (u ≤ 42)

/-- The severity, cause, time and detail of a fault record, 0 when it is not valid (R167). -/
def faultBytes : Option FaultEntry → List Byte
  | some e => [e.severity.code, e.cause.code] ++ be32 e.time ++ be32 e.detail
  | none => [0, 0] ++ be32 0 ++ be32 0

/-- The reply body of READ_FAULT; unit 42 has no failure count (R165, R167). -/
def faultBody (s : State) (u : Nat) : List Byte :=
  [Status.ok.code, byteOf u, (s.unit u).state.code, byteOf (if u = referenceUnit then 0 else (s.unit u).failures),
    flagByte (s.faultRecord u).fault.isSome, flagByte (s.faultRecord u).overflow] ++ faultBytes (s.faultRecord u).fault

/-- READ_FAULT served (R167). -/
def serveReadFault (body : List Byte) (s : State) : Served :=
  match body with
  | [u] => if isUnit u.toNat then (s, faultBody s u.toNat) else answer s .range
  | _ => answer s .badLength

/-- READ_FAULT (R167). -/
def execReadFault (tag : Byte) (body : List Byte) (s : State) : Answer :=
  .next (takeRequest s ⟨0x08, tag, body⟩ (serveReadFault body))

/-- CLEAR_FAULT served: the reply of READ_FAULT, and the record emptied (R167). -/
def serveClearFault (body : List Byte) (s : State) : Served :=
  match body with
  | [u] => if isUnit u.toNat then (s.setFaultRecord u.toNat .empty, faultBody s u.toNat) else answer s .range
  | _ => answer s .badLength

/-- CLEAR_FAULT (R167). -/
def execClearFault (tag : Byte) (body : List Byte) (s : State) : Answer :=
  .next (takeRequest s ⟨0x09, tag, body⟩ (serveClearFault body))

/-! ### The radiator link and losses (R165) -/

/-- RADIATOR_STATUS_POLL: the radiator is polled for its status (R165). -/
def execRadiatorStatusPoll (s : State) : Answer :=
  .next { s with supervisor := { s.supervisor with radiatorPoll := true } }

/-- RADIATOR_REPLY: the poll of the radiator that is under way completes with a reply, the radiator is PRESENT, and beacon
polling resumes where it held (R106, R165). -/
def execRadiatorReply (s : State) : Answer := .next (if s.polls radiatorUnit then unitReply s radiatorUnit else s)

/-- Whether a number is that of a unit the links poll, 1 to 41 (R165). -/
def isPolled (u : Nat) : Bool := decide (1 ≤ u) && decide (u ≤ 41)

/-- UNIT_POLL_MISS: the poll of a unit that is under way completes with a miss (R165). -/
def execUnitPollMiss (unit : Nat) (s : State) : Answer :=
  .next (if isPolled unit && s.polls unit then unitMiss s unit else s)

/-- UNIT_DECLARED_LOST: the miss that brings a PRESENT unit's failure count to the failure limit (R165, log entry 4). -/
def execUnitDeclaredLost (unit : Nat) (s : State) : Answer :=
  .next (if isPolled unit && s.polls unit && s.missLoses unit then unitMiss s unit else s)

/-! ### The second event and the reference (R160 to R163) -/

/-- SECOND_EVENT: the rest of the second passes and its boundary is taken (R160, log entry 6). -/
def execSecondEvent (order : List SecondTaker) (s : State) : Answer := .next (secondEvent s order)

/-- A gap of 1 ms with no edge, by phase (R161). -/
def referenceGap (s : State) : State :=
  match s.clock.phase with
  | .locked => loseReference s
  | .absent => s
  | .settling => setPhaseOf s .absent none
  | .settled => setPhaseOf s .absent none

/-- REFERENCE_GAP (R161). -/
def execReferenceGap (s : State) : Answer := .next (referenceGap s)

/-- The stable time reaches 2 s, by phase: in SETTLING the periods it still wants pass and the phase is SETTLED, when no
second boundary stands before them; one that does is a second event of its own, and the stable time has not reached 2 s
(R161, log entry 6). -/
def stableReached (s : State) : State :=
  match s.clock.phase, s.clock.stable with
  | .settling, some n => if settledTime - n ≤ s.clock.left then s.onClock (·.run (settledTime - n)) else s
  | _, _ => s

/-- STABLE_TIME_REACHED (R161). -/
def execStableTimeReached (s : State) : Answer := .next (stableReached s)

/-- An edge arrives, by phase: in LOCKED it is counted in the sub-second count, in ABSENT it starts a run; in SETTLING the
stable time runs on with the periods of the oscillator (R161). -/
def edgeArrives (s : State) : State :=
  match s.clock.phase with
  | .locked => clockPeriod s
  | .absent => setPhaseOf s .settling (some 0)
  | .settling => s
  | .settled => s

/-- REFERENCE_EDGES_RESUME (R161). -/
def execReferenceEdgesResume (s : State) : Answer := .next (edgeArrives s)

end Sys2Proof.Machine
end

