-- ==== Sys2Proof/Machine/FrameCommands.lean ====
section
/-! DEFINITION. Meanings of FRAME_RECEIVED and FRAME_SENT: the framer's complete frames and the held frame are taken, each
by its kind, as soon as the reply room is empty (R170 to R172). -/

namespace Sys2Proof.Machine

/-- The requests of the index by kind, each with the service of its owning block (chapter 12, section 12.5). -/
def servers : List (Byte × (List Byte → State → Served)) :=
  [(0x01, serveReadStatus), (0x02, serveOpenSession), (0x03, serveCloseSession), (0x04, serveResetAudio),
    (0x05, serveSetTime), (0x06, serveWriteLimits), (0x07, serveReadLimits), (0x08, serveReadFault),
    (0x09, serveClearFault)] ++
  [(0x10, serveWriteChannel), (0x11, serveReadChannel), (0x12, serveSetFloorLanguage), (0x13, serveReadSources),
    (0x14, serveStartAnnouncement), (0x15, serveStopAnnouncement), (0x18, serveWriteBooth), (0x19, serveReadBooth),
    (0x1A, serveReadDesks), (0x1B, serveForceOutputOff), (0x1C, serveReadDeskRecords)] ++
  [(0x20, serveStartCheck), (0x21, serveAbortCheck), (0x22, serveReadCheck), (0x28, serveReadReceiver),
    (0x29, serveReadRack), (0x2A, serveSetMonitor), (0x2B, serveClearMonitor), (0x2C, serveWithdrawReceiver),
    (0x2D, serveRestoreReceiver), (0x2E, serveWriteSchedule), (0x2F, serveReadListeners)] ++
  [(0x30, serveOpenHire), (0x31, serveCancelHire), (0x32, serveDeclareLost), (0x33, serveReadHire),
    (0x34, serveReadSettlement), (0x35, serveTakeSettlement), (0x38, serveWriteTariff), (0x39, serveReadTariff),
    (0x3A, serveFreezeTariffs), (0x3B, serveReadDelegation), (0x3C, serveClearDelegation), (0x3D, serveReadService)]

/-- What serves a frame of a kind in 00h to 7Fh: the owning block of its request, or a reply of UNKNOWN_KIND (R171). -/
def serveFrame (f : Frame) (s : State) : Served :=
  match servers.find? fun e => decide (e.1 = f.kind) with
  | some e => e.2 f.body s
  | none => answer s .unknownKind

/-- A complete frame is passed to the request hold: it is taken at once while the reply room is empty, waits in a free hold
otherwise, and is discarded at an occupied one; a frame of a reply kind is taken and discarded (R171). -/
def passFrame (s : State) (f : Frame) : State :=
  if isReplyKind f.kind then discardFrame s f else takeRequest s f (serveFrame f)

/-- One received byte: the framer takes it, and a frame it completes is passed on; no byte is taken before READY has begun
to be sent (R170, R171, R174). -/
def receiveByte (s : State) (b : LineByte) : State :=
  if s.link.receiving then
    let t : State := { s with link := { s.link with framer := (s.link.framer.byte b).1 } }
    match (s.link.framer.byte b).2 with
    | some f => passFrame t f
    | none => t
  else s

/-- FRAME_RECEIVED: the bytes as the UART receives them, in order (R170, R171). -/
def execFrameReceived (bytes : List LineByte) (s : State) : Answer := .next (bytes.foldl receiveByte s)

/-- The frame in the hold is taken when the reply room is empty (R171). -/
def takeHeld (s : State) : State :=
  match s.link.hold with
  | some f => if s.link.replyRoom = none then passFrame s f else s
  | none => s

/-- FRAME_SENT: the transmitter goes on to its next frame, and when that empties the reply room the frame in the hold is
taken (R171, R172). -/
def execFrameSent (s : State) : Answer := .next (takeHeld { s with link := s.link.transmit })

end Sys2Proof.Machine
end

