-- ==== Sys2Proof/Machine/Dispatch.lean ====
section
/-! DEFINITION. The dispatch of a command to its meaning, one arm for each row of spec/opcode_table.json. -/

namespace Sys2Proof.Machine

/-- The effect of a command on everything but the queue. -/
def exec (i : Instr) (s : State) : Host.Outcome State Fault Refusal :=
  match i with
  | .powerOnReset => Sys2Proof.Machine.execPowerOnReset s
  | .frameReceived bytes => Sys2Proof.Machine.execFrameReceived bytes s
  | .framerGapTimeout => Sys2Proof.Machine.execFramerGapTimeout s
  | .unknownKind kind tag body => Sys2Proof.Machine.execUnknownKind kind tag body s
  | .frameSent => Sys2Proof.Machine.execFrameSent s
  | .readStatus tag body => Sys2Proof.Machine.execReadStatus tag body s
  | .openSession tag body => Sys2Proof.Machine.execOpenSession tag body s
  | .closeSession tag body => Sys2Proof.Machine.execCloseSession tag body s
  | .resetAudio tag body => Sys2Proof.Machine.execResetAudio tag body s
  | .setTime tag body => Sys2Proof.Machine.execSetTime tag body s
  | .writeLimits tag body => Sys2Proof.Machine.execWriteLimits tag body s
  | .readLimits tag body => Sys2Proof.Machine.execReadLimits tag body s
  | .readFault tag body => Sys2Proof.Machine.execReadFault tag body s
  | .clearFault tag body => Sys2Proof.Machine.execClearFault tag body s
  | .writeChannel tag body => Sys2Proof.Machine.execWriteChannel tag body s
  | .readChannel tag body => Sys2Proof.Machine.execReadChannel tag body s
  | .setFloorLanguage tag body => Sys2Proof.Machine.execSetFloorLanguage tag body s
  | .readSources tag body => Sys2Proof.Machine.execReadSources tag body s
  | .startAnnouncement tag body => Sys2Proof.Machine.execStartAnnouncement tag body s
  | .stopAnnouncement tag body => Sys2Proof.Machine.execStopAnnouncement tag body s
  | .writeBooth tag body => Sys2Proof.Machine.execWriteBooth tag body s
  | .readBooth tag body => Sys2Proof.Machine.execReadBooth tag body s
  | .readDesks tag body => Sys2Proof.Machine.execReadDesks tag body s
  | .forceOutputOff tag body => Sys2Proof.Machine.execForceOutputOff tag body s
  | .readDeskRecords tag body => Sys2Proof.Machine.execReadDeskRecords tag body s
  | .startCheck tag body => Sys2Proof.Machine.execStartCheck tag body s
  | .abortCheck tag body => Sys2Proof.Machine.execAbortCheck tag body s
  | .readCheck tag body => Sys2Proof.Machine.execReadCheck tag body s
  | .readReceiver tag body => Sys2Proof.Machine.execReadReceiver tag body s
  | .readRack tag body => Sys2Proof.Machine.execReadRack tag body s
  | .setMonitor tag body => Sys2Proof.Machine.execSetMonitor tag body s
  | .clearMonitor tag body => Sys2Proof.Machine.execClearMonitor tag body s
  | .withdrawReceiver tag body => Sys2Proof.Machine.execWithdrawReceiver tag body s
  | .restoreReceiver tag body => Sys2Proof.Machine.execRestoreReceiver tag body s
  | .writeSchedule tag body => Sys2Proof.Machine.execWriteSchedule tag body s
  | .readListeners tag body => Sys2Proof.Machine.execReadListeners tag body s
  | .openHire tag body => Sys2Proof.Machine.execOpenHire tag body s
  | .cancelHire tag body => Sys2Proof.Machine.execCancelHire tag body s
  | .declareLost tag body => Sys2Proof.Machine.execDeclareLost tag body s
  | .readHire tag body => Sys2Proof.Machine.execReadHire tag body s
  | .readSettlement tag body => Sys2Proof.Machine.execReadSettlement tag body s
  | .takeSettlement tag body => Sys2Proof.Machine.execTakeSettlement tag body s
  | .writeTariff tag body => Sys2Proof.Machine.execWriteTariff tag body s
  | .readTariff tag body => Sys2Proof.Machine.execReadTariff tag body s
  | .freezeTariffs tag body => Sys2Proof.Machine.execFreezeTariffs tag body s
  | .readDelegation tag body => Sys2Proof.Machine.execReadDelegation tag body s
  | .clearDelegation tag body => Sys2Proof.Machine.execClearDelegation tag body s
  | .readService tag body => Sys2Proof.Machine.execReadService tag body s
  | .consoleReply booth content => Sys2Proof.Machine.execConsoleReply booth content s
  | .rackReply rack content => Sys2Proof.Machine.execRackReply rack content s
  | .radiatorStatusPoll => Sys2Proof.Machine.execRadiatorStatusPoll s
  | .radiatorReply => Sys2Proof.Machine.execRadiatorReply s
  | .unitPollMiss unit => Sys2Proof.Machine.execUnitPollMiss unit s
  | .unitDeclaredLost unit => Sys2Proof.Machine.execUnitDeclaredLost unit s
  | .beaconPollSend => Sys2Proof.Machine.execBeaconPollSend s
  | .beaconReply receiver tuned band signature => Sys2Proof.Machine.execBeaconReply receiver tuned band signature s
  | .beaconMiss => Sys2Proof.Machine.execBeaconMiss s
  | .missLimitReached receiver => Sys2Proof.Machine.execMissLimitReached receiver s
  | .secondEvent order => Sys2Proof.Machine.execSecondEvent order s
  | .turnLimitReached booth domain => Sys2Proof.Machine.execTurnLimitReached booth domain s
  | .overrunLimitReached booth domain => Sys2Proof.Machine.execOverrunLimitReached booth domain s
  | .handoverWindowExpiry booth domain => Sys2Proof.Machine.execHandoverWindowExpiry booth domain s
  | .issueWindowExpiry hire => Sys2Proof.Machine.execIssueWindowExpiry hire s
  | .missingTimeReached receiver => Sys2Proof.Machine.execMissingTimeReached receiver s
  | .checkDwellExpiry => Sys2Proof.Machine.execCheckDwellExpiry s
  | .referenceGap => Sys2Proof.Machine.execReferenceGap s
  | .stableTimeReached => Sys2Proof.Machine.execStableTimeReached s
  | .referenceEdgesResume => Sys2Proof.Machine.execReferenceEdgesResume s
  | .consolePoll => Sys2Proof.Machine.execConsolePoll s
  | .rackPoll => Sys2Proof.Machine.execRackPoll s
  | .replyKindDiscarded kind tag body => Sys2Proof.Machine.execReplyKindDiscarded kind tag body s

end Sys2Proof.Machine
end

