-- ==== Sys2Proof/Machine/Step.lean ====
section
/-! DEFINITION. The step: the command at the front of the queue, or, while none waits, one period of the counting
source (log entry 6). -/

namespace Sys2Proof.Machine

/-- One step: the command at the front of the queue is taken whole, with the rest of the queue left waiting (R171 and the
manual's order of events); on an empty queue the counting source runs on by one period (R160, log entry 6). -/
def step (s : State) : Host.Outcome State Fault Refusal :=
  match s.pending with
  | c :: rest => exec c { s with pending := rest }
  | [] => .next (clockPeriod s)

/-- The state with the command a word spells put at the front of its queue; unchanged where the word spells none. -/
def State.withFetchWord (s : State) (nbits w : Nat) : State :=
  match decodeTableWord nbits w with
  | some c => { s with pending := c :: s.pending }
  | none => s

end Sys2Proof.Machine
end

