-- ==== Sys2Proof/Safety.lean ====
section
/-! DEFINITION. What holds in every state the part can reach, in the terms claims use: bounds of the queues, the
canonical form of the tables, and the agreements the manual states between its blocks; and the terms in which a claim
says that a request was taken. -/

namespace Sys2Proof.Machine

/-! ### Requests taken -/

/-- The part can take the request of frame `f` now (R171, R174): it receives, the reply room is empty, and the hold is
free or holds this very frame. -/
def State.canTake (s : State) (f : Frame) : Prop :=
  s.link.receiving = true ∧ s.link.replyRoom = none ∧ (s.link.hold = none ∨ s.link.hold = some f)

/-- The state with the hold freed and a reply formed, which an idle transmitter has begun and which waits in the reply room
otherwise; all else is as it was (R171, R172). -/
def State.replied (s : State) (kind tag : Byte) (body : List Byte) : State :=
  { s with link := ({ s.link with hold := none } : Link).putReply ⟨kind + 0x80, tag, body⟩ }

/-- What the blocks of the audio side hold is kept: plan, sources, booths, turns, check. -/
def State.keepsAudio (s t : State) : Prop :=
  t.plan = s.plan ∧ t.arbiter = s.arbiter ∧ t.booths = s.booths ∧ t.turns = s.turns ∧ t.check = s.check

/-- What the blocks of the receiver side hold is kept: slot map, receivers and monitors, beacon scheduler. -/
def State.keepsFleet (s t : State) : Prop := t.racks = s.racks ∧ t.fleet = s.fleet ∧ t.beacon = s.beacon

/-- What the blocks of the money side hold is kept: hires, tariffs and settlements, meters. -/
def State.keepsMoney (s t : State) : Prop := t.hires = s.hires ∧ t.money = s.money ∧ t.meters = s.meters

/-- The clock, the units with their faults and link polls, the limits and the waiting commands are kept. -/
def State.keepsRest (s t : State) : Prop :=
  t.clock = s.clock ∧ t.supervisor = s.supervisor ∧ t.limits = s.limits ∧ t.pending = s.pending

/-- A request was taken and answered with `body`, and the notices `raised` joined the queue behind it in order (R171,
R172): the rest of the control link is kept. -/
def State.answeredWith (s t : State) (kind tag : Byte) (body : List Byte) (raised : List Notice) : Prop :=
  t.link = ((s.replied kind tag body).raiseAll raised).link

/-- A request was taken and answered with `body`: the hold is free, and the reply is being sent, if the transmitter was
idle, or waits in the reply room behind the frame that is being sent (R171, R172). -/
def State.answers (s t : State) (kind tag : Byte) (body : List Byte) : Prop :=
  t.link.hold = none ∧
    (s.link.sending = none → t.link.sending = some ⟨kind + 0x80, tag, body⟩ ∧ t.link.replyRoom = none) ∧
    ∀ f, s.link.sending = some f → t.link.sending = some f ∧ t.link.replyRoom = some ⟨kind + 0x80, tag, body⟩

/-- An event that is no request raised the notices `raised` in order, and the rest of the control link is kept. -/
def State.raised (s t : State) (raised : List Notice) : Prop := t.link = (s.raiseAll raised).link

/-- The frames the part has begun or is to begin, oldest first: the one being sent, and then the notices that wait, in
their order (R172). -/
def State.line (t : State) : List Frame := t.link.sending.toList ++ t.link.notices.map Notice.frame

/-- A notice was discarded: the queue is full and the overflow flag is set (R172). -/
def State.overflowed (t : State) : Prop := t.link.overflow = true ∧ 64 ≤ t.link.notices.length

/-- A notice was raised: it is being sent, or waits in the queue, or was discarded (R172). -/
def State.tells (t : State) (n : Notice) : Prop := n.frame ∈ t.line ∨ t.overflowed

/-- Two notices were raised in this order: so they stand in the line, or one of them was discarded (R172). -/
def State.tellsInOrder (t : State) (n m : Notice) : Prop := [n.frame, m.frame].Sublist t.line ∨ t.overflowed

/-! ### Polls under way -/

/-- A poll of console `b` is under way on the booth link (R165). -/
def State.awaitsConsole (s : State) (b : Nat) : Prop := s.supervisor.consolePoll.map (·.booth) = some b

/-- A poll of rack `k` is under way on the rack link (R165). -/
def State.awaitsRack (s : State) (k : Nat) : Prop := s.supervisor.rackPoll.map (·.rack) = some k

/-! ### Bounds -/

/-- The notice queue, the settlement queue and the hire table hold no more than their places (R118, R132, R136, R172). -/
def State.queuesBounded (s : State) : Prop :=
  s.link.notices.length ≤ Config.noticePlaces ∧ s.money.queue.length ≤ Config.settlementPlaces ∧
    s.hireList.length ≤ Config.hirePlaces

/-! ### The canonical form -/

/-- Every table of the state has the canonical form, so that equal tables are equal data. -/
def State.tablesCanonical (s : State) : Prop :=
  (s.plan.entries.canonical .unused = true ∧ s.arbiter.sources.canonical .unused = true ∧
    s.arbiter.announcements.canonical .none = true ∧ s.arbiter.relays.canonical none = true ∧
    s.arbiter.feeds.canonical .floor = true) ∧
  (s.booths.configs.canonical .default = true ∧ s.booths.desks.canonical .disabled = true ∧
    s.booths.domains.canonical .idle = true ∧ s.turns.turns.canonical .idle = true ∧
    s.turns.records.canonical .zero = true) ∧
  (s.check.results.canonical .notRun = true ∧ s.check.failed.canonical false = true ∧
    s.check.progress.canonical .zero = true ∧ s.racks.slots.canonical none = true ∧
    s.fleet.receivers.canonical .unseen = true ∧ s.fleet.monitors.canonical none = true) ∧
  (s.beacon.listeners.canonical 0 = true ∧ s.beacon.lowMarks.canonical false = true ∧
    s.hires.records.canonical none = true ∧ s.money.tariffs.canonical .undefined = true) ∧
  (s.meters.listening.canonical 0 = true ∧ s.meters.service.canonical 0 = true ∧
    s.meters.unserved.canonical 0 = true ∧ s.supervisor.units.canonical .unseen = true ∧
    s.supervisor.faults.canonical .empty = true)

/-! ### Ranges of stored values -/

/-- A plan entry holds values of their ranges: language 0–99, outputs of booths 1–24, pivot channel 1–31 (R2, R3). -/
def PlanEntry.fits (e : PlanEntry) : Prop :=
  e.language ≤ 99 ∧ (∀ o ∈ e.outputs, 1 ≤ o.booth ∧ o.booth ≤ 24) ∧ ∀ p, e.pivot = some p → 1 ≤ p ∧ p ≤ 31

/-- A booth configuration holds values of their ranges (R36). -/
def BoothConfig.fits (c : BoothConfig) : Prop :=
  c.enabled ≤ 4 ∧ 1 ≤ c.window ∧ c.window ≤ 30 ∧ 5 ≤ c.turnLimit ∧ c.turnLimit ≤ 90 ∧ c.overrun ≤ 30

/-- A defined tariff class holds figures of their ranges, and an undefined one holds none (R138). -/
def Tariff.fits (t : Tariff) : Prop :=
  if t.defined = true then
    t.grace ≤ 60 ∧ 1 ≤ t.unit ∧ t.unit ≤ 240 ∧ t.firstPrice ≤ 65535 ∧ t.furtherPrice ≤ 65535 ∧ t.dayCap ≤ 999999 ∧
      t.lostCharge ≤ 999999
  else t = .undefined

/-- The limits hold values of their ranges (R168). -/
def Limits.fits (l : Limits) : Prop :=
  (1 ≤ l.creditCap ∧ l.creditCap ≤ 255) ∧ (1 ≤ l.missLimit ∧ l.missLimit ≤ 15) ∧ l.missingCode ≤ 10 ∧
    (10 ≤ l.issueWindow ∧ l.issueWindow ≤ 600) ∧ l.issueMinimum ≤ 7 ∧ l.lowBand ≤ 7 ∧
    2 ≤ l.failureLimit ∧ l.failureLimit ≤ 15

/-- What the host writes is stored within its ranges: plan entries and floor language, booth configurations, tariff
classes, schedule counts and limits (R2, R12, R36, R104, R138, R168). -/
def State.valuesFit (s : State) : Prop :=
  (∀ c, (s.planEntry c).fits) ∧ s.plan.floorLanguage ≤ 99 ∧ (∀ b, (s.config b).fits) ∧ (∀ k, (s.tariff k).fits) ∧
    (s.beacon.counts.k0 ≤ 63 ∧ s.beacon.counts.k1 ≤ 63 ∧ s.beacon.counts.k2 ≤ 63 ∧ s.beacon.counts.k3 ≤ 63) ∧
    s.limits.fits

/-! ### Agreements between blocks -/

/-- While the hall is in SETUP every handover domain is IDLE (R13). -/
def State.setupQuiet (s : State) : Prop :=
  s.plan.hall = .setup → ∀ b side, 1 ≤ b → b ≤ 24 → s.domain b side = .idle

/-- Each enabled desk position holds a port of its own, 1 to 64, and no other position holds one; the enabled desks of all
booths sum to at most 64 (R36, R38). -/
def State.portsAgree (s : State) : Prop :=
  (∀ b d, d ≤ 7 → ((s.desk b d).port = none ↔ s.enabled b d = false)) ∧
    (∀ b d p, d ≤ 7 → (s.desk b d).port = some p → 1 ≤ p ∧ p ≤ 64) ∧
    (∀ b d x e p, d ≤ 7 → e ≤ 7 → (s.desk b d).port = some p → (s.desk x e).port = some p → b = x ∧ d = e) ∧
    (∀ b, (b = 0 ∨ 24 < b) → (s.config b).enabled = 0) ∧
    ((List.range' 1 24).map fun b => (s.config b).enabled).sum ≤ 64

/-- While a handover domain is IDLE its turn record holds the IDLE values (R61). -/
def State.turnsFit (s : State) : Prop := ∀ b side, (s.domain b side).liveDesk = none → s.turn b side = .idle

/-- A desk that a domain names is enabled, selects an output of that domain, and that output is assigned (R3, R40, R43,
R44). -/
def State.claimantFits (s : State) (b : Nat) (side : Side) (d : Nat) : Prop :=
  s.enabled b d = true ∧ s.deskPlace b d = side ∧ s.channelOf ⟨b, (s.desk b d).selection⟩ ≠ none

/-- Every desk that a domain names fits it, and the live desk is not the requester (R43). -/
def State.domainFits (s : State) (b : Nat) (side : Side) : Prop :=
  match s.domain b side with
  | .idle => True
  | .live d => s.claimantFits b side d
  | .pending d e _ _ => d ≠ e ∧ s.claimantFits b side d ∧ s.claimantFits b side e

/-- Every output stands in at most one channel (R3, R8), the desks that domains name fit them, and of the outputs of a
channel at most one is claimed (R44). -/
def State.claimsAgree (s : State) : Prop :=
  (∀ c d o, 1 ≤ c → c ≤ 31 → 1 ≤ d → d ≤ 31 → o ∈ (s.planEntry c).outputs → o ∈ (s.planEntry d).outputs → c = d) ∧
    (∀ b side, 1 ≤ b → b ≤ 24 → s.domainFits b side) ∧
    ∀ c o x, 1 ≤ c → c ≤ 31 → o ∈ (s.planEntry c).outputs → x ∈ (s.planEntry c).outputs →
      s.claimed o = true → s.claimed x = true → o = x

/-- Every source record and every ear feed is the one R18, R19 and R34 form from the state as it stands (R24, R35). -/
def State.sourcesSettled (s : State) : Prop :=
  (∀ c, c < 32 → s.source c = s.effective c) ∧ ∀ b, 1 ≤ b → b ≤ 24 → s.feed b = s.formFeed b

/-- The source without TEST of the channel under test is FALLBACK or UNUSED (R22, R75, R80). -/
def State.testSound (s : State) : Prop :=
  ∀ c, s.check.current = some c →
    (s.withoutTest c).identity = .fallback ∨ (s.withoutTest c).identity = .unused

/-- The check agrees with itself (R72 to R75, R78, R79, R83): it is RUNNING exactly while a channel is under test; that
channel is one of the program, the generator carries its signature and 1 s to 10 s of its dwell are left; and while it is
RUNNING every position of the program holds a monitor. -/
def State.checkFits (s : State) : Prop :=
  (s.check.state = .running ↔ s.check.current ≠ none) ∧
    ∀ c, s.check.current = some c → ∃ p, s.check.program = some p ∧ 1 ≤ c ∧ c ≤ 31 ∧ p.channels.getLsbD c = true ∧
      s.check.generator = some (p.seed + BitVec.ofNat 16 (257 * c)) ∧ 1 ≤ s.check.dwell ∧ s.check.dwell ≤ 10 ∧
      1 ≤ p.repeats ∧ p.repeats ≤ 16 ∧ ∀ m, p.monitors.getLsbD m = true → s.monitorAt m ≠ none

/-- The control link between commands (R171, R172, R174): the framer takes bytes, an idle transmitter has nothing to send,
and a frame waits in the hold only behind a reply that is not yet being sent. -/
def State.linkFits (s : State) : Prop :=
  s.link.receiving = true ∧ (s.link.sending = none → s.link.replyRoom = none ∧ s.link.notices = []) ∧
    (s.link.hold ≠ none → s.link.replyRoom ≠ none)

/-- The hall clock agrees with the reference supervisor (R160 to R163): the counters stand in their ranges; in LOCKED the
clock counts the word clock with quality NOMINAL and unit 42 is PRESENT; in every other phase it counts the oscillator
with quality DEGRADED and unit 42 is not PRESENT; and the stable time is held in SETTLING, below 2 s, and in SETTLED, at
2 s, alone. -/
def State.clockFits (s : State) : Prop :=
  s.clock.subSecond < 48000 ∧ s.clock.seconds ≤ 4294967295 ∧ s.clock.degradedCount ≤ 4294967295 ∧
    (if s.clock.phase = .locked then
      s.clock.source = .wordClock ∧ s.clock.quality = .nominal ∧ (s.unit 42).state = .present
    else s.clock.source = .oscillator ∧ s.clock.quality = .degraded ∧ (s.unit 42).state ≠ .present) ∧
    match s.clock.phase with
    | .locked => s.clock.stable = none
    | .absent => s.clock.stable = none
    | .settling => ∃ n, s.clock.stable = some n ∧ n < 96000
    | .settled => s.clock.stable = some 96000

/-- The master links poll units of theirs, and no failure count is above 15 (R165). -/
def State.pollsFit (s : State) : Prop :=
  (1 ≤ s.supervisor.nextConsole ∧ s.supervisor.nextConsole ≤ 24 ∧ 1 ≤ s.supervisor.nextRack ∧
      s.supervisor.nextRack ≤ 16) ∧
    (∀ p, s.supervisor.consolePoll = some p → 1 ≤ p.booth ∧ p.booth ≤ 24 ∧ p.lamps.length = 4) ∧
    (∀ p, s.supervisor.rackPoll = some p → 1 ≤ p.rack ∧ p.rack ≤ 16) ∧ ∀ u, (s.unit u).failures ≤ 15

/-- A location of the slot map: rack 1–16, slot 1–48 (R86). -/
def Location.fits (l : Location) : Prop := 1 ≤ l.rack ∧ l.rack ≤ 16 ∧ 1 ≤ l.slot ∧ l.slot ≤ 48

/-- A receiver's location is a slot exactly when that slot of the map holds the receiver (R86). -/
def State.slotsAgree (s : State) : Prop :=
  ∀ r l, (s.receiver r).location = some l ↔ l.fits ∧ s.slot l = some r

/-- A location is present in DOCKED and RESERVED, absent in UNKNOWN, OUT, SILENT, STRAY and LOST, and either in MONITOR
and WITHDRAWN (R85). -/
def Receiver.locationFits (e : Receiver) : Prop :=
  match e.state with
  | .docked => e.location ≠ none
  | .reserved => e.location ≠ none
  | .monitor => True
  | .withdrawn => True
  | _ => e.location = none

/-- The cursor of a poll list is none while the list is empty, and names a member otherwise; no member stands twice
(R102, R103). -/
def PollList.sound (l : PollList) : Prop :=
  l.members.Nodup ∧
    match l.cursor with
    | none => l.members = []
    | some r => r ∈ l.members

/-- Poll list `l'` is list `l` with receiver `r` joined at its tail; the cursor names `r` in a list that was empty, and
stays where it was in any other (R102, R103). -/
def PollList.gains (l : PollList) (r : Nat) (l' : PollList) : Prop :=
  l'.members = l.members ++ [r] ∧ l'.cursor = if l.members = [] then some r else l.cursor

/-- Poll list `l'` is list `l` without receiver `r`: the cursor is none when no member remains, stays where it was if it
did not name `r`, and moves from `r` to its successor, or to the head if `r` was the tail (R102, R103). -/
def PollList.loses (l : PollList) (r : Nat) (l' : PollList) : Prop :=
  l'.members = l.members.filter (fun x => decide (x ≠ r)) ∧
    (l'.members = [] → l'.cursor = none) ∧
    (l.cursor ≠ some r → l'.members ≠ [] → l'.cursor = l.cursor) ∧
    ∀ before rest, l.cursor = some r → l.members = before ++ r :: rest → r ∉ before → r ∉ rest →
      l'.cursor = (rest ++ before).head?

/-- The poll lists hold exactly the receivers of their states (R102). -/
def State.listsAgree (s : State) : Prop :=
  s.beacon.l0.sound ∧ s.beacon.l1.sound ∧ s.beacon.l2.sound ∧ s.beacon.l3.sound ∧
    ∀ r, (r ∈ s.beacon.l0.members ↔ (s.receiver r).state = .out) ∧
      (r ∈ s.beacon.l1.members ↔ (s.receiver r).state = .stray) ∧
      (r ∈ s.beacon.l2.members ↔ (s.receiver r).state = .silent) ∧
      (r ∈ s.beacon.l3.members ↔ (s.receiver r).state = .monitor)

/-- The MONITOR receivers are those the monitor positions hold, each at one position (R95). -/
def State.monitorsAgree (s : State) : Prop :=
  (∀ r, (s.receiver r).state = .monitor ↔ ∃ p, p ≤ 7 ∧ s.monitorAt p = some r) ∧
    ∀ p q r, p ≤ 7 → q ≤ 7 → s.monitorAt p = some r → s.monitorAt q = some r → p = q

/-- Whether an open hire in this state holds its receiver in this receiver state: PENDING holds it RESERVED, ACTIVE holds
it OUT or SILENT (R119). -/
def HireState.holds : HireState → ReceiverState → Bool
  | .pending _, .reserved => true
  | .active _ _, .out => true
  | .active _ _, .silent => true
  | _, _ => false

/-- Receivers and open hires name each other (R85, R118 to R120): a record stands under its own number; a PENDING or ACTIVE
hire's receiver is in the state that goes with it and names the hire; a receiver that names a hire is named by that open
hire; and the next hire number is in its range and no record holds it. -/
def State.hiresAgree (s : State) : Prop :=
  (∀ n h, s.hire n = some h → h.number = n ∧
      match h.state with
      | .closing _ _ _ _ => True
      | x => x.holds (s.receiver h.receiver).state = true ∧ (s.receiver h.receiver).hire = some n) ∧
    (∀ r, match (s.receiver r).hire with
      | some n => ∃ h, s.hire n = some h ∧ h.receiver = r ∧ h.state.holds (s.receiver r).state = true
      | none => (s.receiver r).state ≠ .reserved ∧ (s.receiver r).state ≠ .out ∧ (s.receiver r).state ≠ .silent) ∧
    s.hire s.hires.next = none ∧ 1 ≤ s.hires.next ∧ s.hires.next ≤ Config.maxCount

/-- Silent since is present in SILENT alone, missing reported is yes in SILENT alone, and a tuned channel is a channel
(R84, R85, R107). -/
def Receiver.silenceFits (e : Receiver) : Prop :=
  (e.silentSince ≠ none ↔ e.state = .silent) ∧ (e.missingReported = true → e.state = .silent) ∧ e.tuned.getD 0 ≤ 31

/-- The receiver fleet agrees with itself: slots, locations, poll lists, monitors, hires and silences. -/
def State.fleetAgrees (s : State) : Prop :=
  s.slotsAgree ∧ s.listsAgree ∧ s.monitorsAgree ∧ s.hiresAgree ∧
    ∀ r, (s.receiver r).locationFits ∧ (s.receiver r).silenceFits

/-- The number of OUT receivers that last reported a channel since their hire began (R115). -/
def State.outTuned (s : State) (c : Nat) : Nat :=
  (s.beacon.l0.members.filter fun r => decide ((s.receiver r).tuned = some c)).length

/-- The listener counts are the numbers of OUT receivers by tuned channel (R115). -/
def State.listenersAgree (s : State) : Prop := ∀ c, s.listeners c = s.outTuned c

/-! ### The channel under test -/

/-- A channel may be under test: its source without TEST is FALLBACK or UNUSED (R22, R75). -/
def State.openToTest (s : State) (c : Nat) : Prop :=
  (s.withoutTest c).identity = .fallback ∨ (s.withoutTest c).identity = .unused

/-- The event that led from `s` to `t` preempted the test of channel `c` under program `p`: its open entries are PREEMPTED,
and the check takes the next higher channel of its set that may be under test, entering EXCLUDED for those in use before
it, with 10 s of dwell and no poll taken; with none left it is DONE. Entries already settled and the failure flags are
kept (R75, R78 to R80). -/
def State.preempted (s t : State) (c : Nat) (p : CheckProgram) (next : Option Nat) : Prop :=
  (next = (List.range' 1 31).find? fun d => decide (c < d) && p.channels.getLsbD d &&
      (decide ((t.withoutTest d).identity = .fallback) || decide ((t.withoutTest d).identity = .unused))) ∧
    (t.check.program = some p ∧ t.check.current = next ∧ t.check.failed = s.check.failed ∧
      t.check.state = (if next = none then .done else s.check.state) ∧
      t.check.generator = next.map (fun d => p.seed + BitVec.ofNat 16 (257 * d)) ∧
      t.check.dwell = (if next = none then 0 else 10) ∧ ∀ m, t.progress m = ⟨0, false⟩) ∧
    (∀ m, m < 8 →
      ((p.monitors.getLsbD m = true ∧ s.result c m = .notRun) → t.result c m = .preempted) ∧
      (¬(p.monitors.getLsbD m = true ∧ s.result c m = .notRun) → t.result c m = s.result c m)) ∧
    ∀ d m, d ≠ c → m < 8 →
      ((c < d ∧ p.channels.getLsbD d = true ∧ p.monitors.getLsbD m = true ∧ ∀ n, next = some n → d < n) →
        t.result d m = .excluded) ∧
      (¬(c < d ∧ p.channels.getLsbD d = true ∧ p.monitors.getLsbD m = true ∧ ∀ n, next = some n → d < n) →
        t.result d m = s.result d m)

/-- The check after an event that led from `s` to `t`, and the notices it raises: it is kept while no channel is under
test or the one under test still may be, and otherwise that test is preempted, with CHECK_DONE and the number of failed
channels when no channel is left (R22, R78, R80). That the later channels are judged on the wholly new state is the
model's choice (log entry 20). -/
def State.checkFollows (s t : State) (late : List Notice) : Prop :=
  (s.check.current = none → t.check = s.check ∧ late = []) ∧
    ∀ c p, s.check.current = some c → s.check.program = some p →
      (t.openToTest c → t.check = s.check ∧ late = []) ∧
      (¬t.openToTest c → ∃ next, s.preempted t c p next ∧ late =
        if next = none then [.checkDone false ((List.range' 1 31).filter fun d => s.failed d).length] else [])

/-- An event that is no request raised the notices `early` in order, and behind them those of the check, which followed it
(R26, R78, R80). -/
def State.settles (s t : State) (early : List Notice) : Prop :=
  ∃ late, s.checkFollows t late ∧ s.raised t (early ++ late)

/-- A request was taken and answered with `body`, raised the notices `early` in order, and behind them those of the check,
which followed it (R26, R78, R80). -/
def State.answersSettled (s t : State) (kind tag : Byte) (body : List Byte) (early : List Notice) : Prop :=
  ∃ late, s.checkFollows t late ∧ s.answeredWith t kind tag body (early ++ late)

/-! ### Domain changes -/

/-- The live desk of the domain at `place` of booth `b` is not the one of `new`: a turn ends, or starts, or both (R62). -/
def State.changesHands (s : State) (b : Nat) (place : Side) (new : Domain) : Prop :=
  (s.domain b place).liveDesk ≠ new.liveDesk

/-- A request ends when the domain at `place` of booth `b` becomes `new` (R30). -/
def State.endsRequest (s : State) (b : Nat) (place : Side) (new : Domain) : Prop :=
  (s.domain b place).requester ≠ none ∧ new.requester = none

/-- The desks that the domains of booths 1 to 24 name are desk positions (R40, R43). -/
def State.namesPositions (s : State) : Prop :=
  ∀ b side d, 1 ≤ b → b ≤ 24 → ((s.domain b side).liveDesk = some d ∨ (s.domain b side).requester = some d) → d ≤ 4

/-- Every booth is quiet in `t`: each domain is IDLE and its turn has ended in the longest turn of its desk; each live desk
has lost its cough flag; each requester has been refused with an ENGAGED flash, unless its console is LOST; and all else
of every desk and record is kept, and the configurations (R15, R16, R41, R54, R62, R69). -/
def State.boothsQuieted (s t : State) : Prop :=
  (∀ b side, 1 ≤ b → b ≤ 24 → t.domain b side = .idle ∧ (s.turnsFit → t.turn b side = ⟨0, none, none, false, false⟩)) ∧
    t.booths.configs = s.booths.configs ∧
    (s.namesPositions → ∀ b d, d ≤ 7 →
      ((b = 0 ∨ 24 < b) → t.desk b d = s.desk b d ∧ t.deskRecord b d = s.deskRecord b d) ∧
      ∀ (lives asks : Side → Bool) (runs : Side → Nat), 1 ≤ b → b ≤ 24 →
        (lives = fun x => decide ((s.domain b x).liveDesk = some d)) →
        (asks = fun x => decide ((s.domain b x).requester = some d)) →
        (runs = fun x => if lives x = true then (s.turn b x).counter else 0) →
        t.desk b d = { s.desk b d with
          cough := (s.desk b d).cough && !(lives .a || lives .b)
          flash := (s.desk b d).flash || ((asks .a || asks .b) && decide ((s.unit b).state ≠ .lost)) } ∧
        t.deskRecord b d = { s.deskRecord b d with
          longestTurn := max (max (s.deskRecord b d).longestTurn (runs .a)) (runs .b) })

/-- Channel `c` waits, DEFERRED for input `i`, for the domain at `place` of booth `b` (R29, R30). -/
def State.waitsFor (s : State) (b : Nat) (place : Side) (c : Nat) (i : AnnInput) : Prop :=
  s.announcement c = .deferred i ∧ ∃ o d, s.serving c = some (o, d) ∧ o.booth = b ∧ s.placeOf b o.side = place

/-- The domain at `place` of booth `b` is `new` in `t`, every other domain is kept, and the turn meter has followed the
change: the outgoing desk's longest turn, the incoming desk's turns started, and the turn record (R51, R62, R69). -/
def State.turnsFollow (s t : State) (b : Nat) (place : Side) (new : Domain) : Prop :=
  (t.domain b place = new ∧ ∀ x y, (x ≠ b ∨ y ≠ place) → t.domain x y = s.domain x y ∧ t.turn x y = s.turn x y) ∧
    (¬s.changesHands b place new → t.turns = s.turns) ∧
    (s.changesHands b place new → new.liveDesk = none → t.turn b place = ⟨0, none, none, false, false⟩) ∧
    (s.changesHands b place new → new.liveDesk ≠ none →
      t.turn b place = ⟨0, some (s.config b).turnLimit, some (s.config b).overrun, false, false⟩) ∧
    (∀ d, s.changesHands b place new → (s.domain b place).liveDesk = some d →
      t.deskRecord b d =
        { s.deskRecord b d with longestTurn := max (s.deskRecord b d).longestTurn (s.turn b place).counter }) ∧
    (∀ d, s.changesHands b place new → new.liveDesk = some d →
      t.deskRecord b d =
        { s.deskRecord b d with turnsStarted := min ((s.deskRecord b d).turnsStarted + 1) 4294967295 }) ∧
    ∀ x d, d ≤ 7 → (x ≠ b ∨ ((s.domain b place).liveDesk ≠ some d ∧ new.liveDesk ≠ some d)) →
      t.deskRecord x d = s.deskRecord x d

/-- The desks after a domain change: the desk that left LIVE and the desk that became LIVE hold no cough; a desk named
by `flashed` has an ENGAGED flash pending unless its console is LOST; all else of every desk is kept (R41, R50, R54). -/
def State.desksFollow (s t : State) (b : Nat) (place : Side) (new : Domain) (flashed : Option Nat) : Prop :=
  ∀ x d, d ≤ 7 →
    (t.desk x d).selection = (s.desk x d).selection ∧ (t.desk x d).port = (s.desk x d).port ∧
    ((x = b ∧ s.changesHands b place new ∧ ((s.domain b place).liveDesk = some d ∨ new.liveDesk = some d)) →
      (t.desk x d).cough = false) ∧
    (¬(x = b ∧ s.changesHands b place new ∧ ((s.domain b place).liveDesk = some d ∨ new.liveDesk = some d)) →
      (t.desk x d).cough = (s.desk x d).cough) ∧
    ((x = b ∧ flashed = some d ∧ (t.unit b).state ≠ .lost) → (t.desk x d).flash = true) ∧
    (¬(x = b ∧ flashed = some d ∧ (t.unit b).state ≠ .lost) → (t.desk x d).flash = (s.desk x d).flash)

/-- The announcements after a domain change: when its request ends, the channels that waited for the domain are ACTIVE;
every other announcement is kept, and both inputs with their sets (R30). -/
def State.announcementsFollow (s t : State) (b : Nat) (place : Side) (new : Domain) : Prop :=
  (∀ c i, c < 32 → s.endsRequest b place new → s.waitsFor b place c i → t.announcement c = .active i) ∧
    (∀ c, (¬s.endsRequest b place new ∨ ∀ i, ¬s.waitsFor b place c i) → t.announcement c = s.announcement c) ∧
    ∀ i, t.inputSet i = s.inputSet i

/-- Every source and every ear feed is formed from the state as it stands, and no source or feed is held on any other
ground; plan, relay selections and booth configurations are kept (R24, R35). -/
def State.sourcesFollow (s t : State) : Prop :=
  t.sourcesSettled ∧ t.plan = s.plan ∧ t.arbiter.relays = s.arbiter.relays ∧ t.booths.configs = s.booths.configs

/-- One event in which the domain at `place` of booth `b` became `new`, whole, with the audio side following it, and the
receiver side, the money side, the clock, the limits and the waiting commands kept (R51). -/
def State.domainMoved (s t : State) (b : Nat) (place : Side) (new : Domain) (flashed : Option Nat) : Prop :=
  s.turnsFollow t b place new ∧ s.desksFollow t b place new flashed ∧ s.announcementsFollow t b place new ∧
    s.sourcesFollow t ∧ s.keepsFleet t ∧ s.keepsMoney t ∧
    t.clock = s.clock ∧ t.limits = s.limits ∧ t.pending = s.pending

/-- The notices of a domain change: ANNOUNCEMENT_TAKEN for each channel that waited, in ascending channel order, when its
request ended, and then the SOURCE_CHANGE notices (R30). -/
def State.moveNotices (s t : State) (b : Nat) (place : Side) (ended : Bool) : List Notice :=
  (if ended then (s.deferredBy b place).map fun p => Notice.announcementTaken p.1 p.2 else []) ++ sourceNotices s t

/-- The channel interlock lets a request claim output `o`: the output stands in the entry of a channel, in no other
channel's, and no other output of that channel is claimed (R3, R44). -/
def State.claimable (s : State) (o : BoothOutput) : Prop :=
  ∃ c, 1 ≤ c ∧ c ≤ 31 ∧ o ∈ (s.planEntry c).outputs ∧
    (∀ d, 1 ≤ d → d ≤ 31 → o ∈ (s.planEntry d).outputs → d = c) ∧
    ∀ x ∈ (s.planEntry c).outputs, x = o ∨ s.claimed x = false

/-- The channel interlock refuses output `o`: it is unassigned, or another output of its one channel is claimed (R44). -/
def State.unclaimable (s : State) (o : BoothOutput) : Prop :=
  (∀ c, 1 ≤ c → c ≤ 31 → o ∉ (s.planEntry c).outputs) ∨
    ∃ c, 1 ≤ c ∧ c ≤ 31 ∧ o ∈ (s.planEntry c).outputs ∧
      (∀ d, 1 ≤ d → d ≤ 31 → o ∈ (s.planEntry d).outputs → d = c) ∧
      ∃ x ∈ (s.planEntry c).outputs, x ≠ o ∧ s.claimed x = true

/-! ### Hires that close -/

/-- The record `closed` is a hire that has entered CLOSING, and `t` is `s` with the rest of R129 and R130 done: while the
settlement queue has a place the hire is settled, `y` its settlement at the tail, and otherwise it stays in the table as
CLOSING; its receiver is off its poll list; and an OUT one has left its listener count and its last gap is credited. All
else of the hires, the money, the beacon and the meters is kept (R102, R103, R115, R129, R130, R152). -/
def State.hireCloses (s t : State) (closed : Hire) (y : Settlement) : Prop :=
  ((∀ q, q ≠ closed.number → t.hire q = s.hire q) ∧ t.hires.next = s.hires.next ∧
      t.money.tariffs = s.money.tariffs ∧ t.money.frozen = s.money.frozen) ∧
    (s.money.queue.length < 256 → t.hire closed.number = none ∧ t.money.queue = s.money.queue ++ [y]) ∧
    (256 ≤ s.money.queue.length → t.hire closed.number = some closed ∧ t.money.queue = s.money.queue) ∧
    ((s.receiver closed.receiver).state = .out →
      s.beacon.l0.loses closed.receiver t.beacon.l0 ∧ t.beacon.l2 = s.beacon.l2 ∧
      (∀ c, (s.receiver closed.receiver).tuned = some c → t.listeners c = s.listeners c - 1) ∧
      (∀ c, (s.receiver closed.receiver).tuned ≠ some c → t.listeners c = s.listeners c) ∧
      ∀ c since, (s.receiver closed.receiver).tuned = some c → (s.receiver closed.receiver).lastReply = some since →
        t.listening closed.delegation c =
          min (s.listening closed.delegation c + min (s.clock.seconds - since) s.limits.creditCap) 4294967295) ∧
    ((s.receiver closed.receiver).state = .silent →
      s.beacon.l2.loses closed.receiver t.beacon.l2 ∧ t.beacon.l0 = s.beacon.l0 ∧
      t.beacon.listeners = s.beacon.listeners) ∧
    t.beacon = { s.beacon with l0 := t.beacon.l0, l2 := t.beacon.l2, listeners := t.beacon.listeners } ∧
    (((s.receiver closed.receiver).state = .silent ∨ (s.receiver closed.receiver).tuned = none ∨
      (s.receiver closed.receiver).lastReply = none) → t.meters = s.meters) ∧
    (∀ d c, c < 32 → (d ≠ closed.delegation ∨ (s.receiver closed.receiver).tuned ≠ some c) →
      (∀ q, (s.receiver closed.receiver).tuned = some q → q < 32) → t.listening d c = s.listening d c) ∧
    t.meters.service = s.meters.service ∧ t.meters.unserved = s.meters.unserved

/-- The notice of a hire that closes: HIRE_SETTLED while the settlement queue has a place, and none while it waits
(R130). -/
def State.settledNotices (s : State) (y : Settlement) : List Notice :=
  if s.money.queue.length < 256 then [.hireSettled y.hire y.receiver y.flags] else []

/-! ### Turns that a second event lengthens -/

/-- Desk `d` is live in the domain and its turn does not end in the coming second: the domain is LIVE with it, or PENDING
with more than 1 s of its window left (R53, R61). -/
def State.livesOn (s : State) (b : Nat) (side : Side) (d : Nat) : Prop :=
  s.domain b side = .live d ∨ ∃ e n p, s.domain b side = .pending d e n p ∧ 1 < n

/-- The counter of a turn after one more second event (R61). -/
def State.nextCounter (s : State) (b : Nat) (side : Side) : Nat := min ((s.turn b side).counter + 1) 4294967295

/-- The turn comes to its held limit, not raised before, with one more second event (R64). -/
def State.fallsDue (s : State) (b : Nat) (side : Side) : Prop :=
  ∃ l, (s.turn b side).limit = some l ∧ l * 60 = s.nextCounter b side ∧ (s.turn b side).dueRaised = false

/-- The turn comes to its held limit and its held overrun, not 0 and not raised before, with one more second event
(R65). -/
def State.overruns (s : State) (b : Nat) (side : Side) : Prop :=
  ∃ l o, (s.turn b side).limit = some l ∧ (s.turn b side).overrun = some o ∧ o ≠ 0 ∧
    (l + o) * 60 = s.nextCounter b side ∧ (s.turn b side).overrunRaised = false

/-- One more second event raises this notice of the turn of the domain's live desk (R64, R65). -/
def State.turnRaises (s : State) (b : Nat) (side : Side) (n : Notice) : Prop :=
  ∃ d, s.livesOn b side d ∧
    ((s.fallsDue b side ∧ n = .turnDue b d) ∨ (s.overruns b side ∧ n = .turnOverrun b d))

/-- The domain at `x` of booth `b` comes before the one at `y` of booth `c`: in ascending booth order, output A's domain
before output B's (R66). That all turn notices of the earlier domain go ahead of those of the later one, whatever their
kind, is the model's reading (DEDUCED, log entry 11). -/
def placeBefore (b : Nat) (x : Side) (c : Nat) (y : Side) : Prop := b < c ∨ (b = c ∧ x = .a ∧ y = .b)

/-- One more second event removes hire `n`, PENDING in the last second of its window, and raises this notice (R123). -/
def State.lapses (s : State) (n : Nat) (m : Notice) : Prop :=
  ∃ h w, s.hire n = some h ∧ h.state = .pending w ∧ w ≤ 1 ∧ m = .hireLapsed n h.receiver

/-- One more second event reports receiver `r` missing: it is SILENT, not yet reported, and the counter so advanced has
reached its silent since plus the missing time (R113). -/
def State.goesMissing (s : State) (r : Nat) (m : Notice) : Prop :=
  ∃ since, (s.receiver r).state = .silent ∧ (s.receiver r).silentSince = some since ∧
    (s.receiver r).missingReported = false ∧
    min (since + 64 * 2 ^ s.limits.missingCode) 4294967295 ≤ min (s.clock.seconds + 1) 4294967295 ∧
    m = .missing r ((s.receiver r).hire.getD 0) since

end Sys2Proof.Machine
end

