-- ==== Sys2Proof/Certificates/Slice0/Obligations.lean ====
section
/-! DEFINITION. The statements about the part, each as a proposition for the provers. A statement about a request holds
for every state that can take it (R171, R174), and gives the reply and the whole of what is kept. -/

open Sys2Proof Sys2Proof.Machine

/-! ### The queue of commands and power-on reset -/

/-- A step takes the command at the front of the queue, whole, with the rest of the queue waiting: for every command,
queue and state, the step is exec of that command on the state with the queue's rest. -/
def Obligations.FrontCommandRuns : Prop :=
  ∀ (c : Instr) (q : List Instr) (s : State),
    step { s with pending := c :: q } = exec c { s with pending := q }

/-- Every command completes in every state: exec answers a next state, never a fault or a refusal, and it leaves the
queue of waiting commands alone. -/
def Obligations.EveryCommandCompletes : Prop :=
  ∀ (c : Instr) (s : State), ∃ t, exec c s = .next t ∧ t.pending = s.pending

/-- POWER_ON_RESET gives every piece of state the value its chapter gives for power-on reset: the reply room and the
notice queue are empty, and READY, of the part identity 0E32h and revision 01h, is being sent, which is begun at once and
so within the reset (log entry 2). The empty hold and the absent stable time (log entry 13), the first address of each
link (log entry 8) and the count of placements (log entry 12) are the model's choices; the count of boundaries is the
model's own and is kept (log entry 3). -/
def Obligations.PowerOnReset : Prop :=
  ∀ s : State, ∃ t, exec .powerOnReset s = .next t ∧ t.pending = s.pending ∧
    (t.link = ⟨true, .hunt, none, none, [], false, some ⟨0x60, 0, [0x0E, 0x32, 0x01]⟩⟩ ∧
      Notice.ready.frame = ⟨0x60, 0, [0x0E, 0x32, 0x01]⟩) ∧
    ((∀ c, t.planEntry c = ⟨0, none, none, false, .floor, none⟩) ∧ t.plan.floorLanguage = 0 ∧ t.plan.hall = .setup) ∧
    ((∀ c, 1 ≤ c → t.source c = ⟨.unused, false, .silence⟩) ∧ t.source 0 = ⟨.floor, false, .floor⟩ ∧
      (∀ c, t.announcement c = .none) ∧ (∀ i, t.inputSet i = none) ∧ (∀ b, t.relay b = none) ∧
      ∀ b, t.feed b = ⟨none, false⟩) ∧
    ((∀ b, t.config b = ⟨0, .single, .handshake, 5, .take, 30, 5⟩) ∧ (∀ b d, t.desk b d = ⟨.a, false, false, none⟩) ∧
      (∀ b x, t.domain b x = .idle) ∧ (∀ b x, t.turn b x = ⟨0, none, none, false, false⟩) ∧
      ∀ b d, t.deskRecord b d = ⟨0, 0, 0, 0, 0⟩) ∧
    (t.check.state = .idle ∧ t.check.program = none ∧ (∀ c m, t.result c m = .notRun) ∧ (∀ c, t.failed c = false) ∧
      t.check.current = none ∧ t.check.generator = none ∧ t.check.dwell = 0 ∧ (∀ m, t.progress m = ⟨0, false⟩) ∧
      t.check.placements = 0) ∧
    ((∀ r, t.receiver r = ⟨.unknown, none, 0, none, none, 0, none, none, false⟩) ∧ (∀ l, t.slot l = none) ∧
      ∀ p, t.monitorAt p = none) ∧
    ((∀ i, t.pollList i = ⟨[], none⟩) ∧ t.beacon.counts = ⟨0, 0, 0, 0⟩ ∧ t.beacon.phase = .l0 ∧ t.beacon.sent = 0 ∧
      t.beacon.inFlight = none ∧ (∀ c, t.listeners c = 0) ∧ ∀ r, t.lowMark r = false) ∧
    ((∀ n, t.hire n = none) ∧ t.hires.next = 1 ∧ (∀ k, t.tariff k = ⟨false, 0, 0, 0, 0, 0, 0⟩) ∧
      t.money.frozen = false ∧ t.money.queue = []) ∧
    ((∀ d c, t.listening d c = 0) ∧ (∀ c k, t.serviceSeconds c k = 0) ∧ ∀ c, t.unserved c = 0) ∧
    t.clock = ⟨0, 0, .oscillator, .degraded, 0, .absent, none, s.clock.boundaries⟩ ∧
    ((∀ u, t.unit u = ⟨.unseen, 0⟩) ∧ (∀ u, t.faultRecord u = ⟨none, false⟩) ∧ t.supervisor.nextConsole = 1 ∧
      t.supervisor.consolePoll = none ∧ t.supervisor.nextRack = 1 ∧ t.supervisor.rackPoll = none ∧
      t.supervisor.radiatorPoll = false ∧ t.limits = ⟨30, 5, 3, 120, 4, 1, 4⟩)

/-! ### The control link -/

/-- A frame of a request command, sent as R169 lays it out with every stop bit good, is received whole by a framer in
HUNT: byte by byte through the four phases, its check agreeing, it is taken as that request is, by its kind, at once, or
waits in the hold, or is discarded. With any other check it is discarded and nothing changes. That a request command
stands for the completion of its frame is the model's choice (log entry 1). -/
def Obligations.FrameIsReceivedWhole : Prop :=
  (∀ (i : Instr) (f : Frame) (s : State), i.wellFormed = true → i.frame? = some f → s.link.receiving = true →
     s.link.framer = .hunt → exec (.frameReceived (f.bytes.map fun b => ⟨b, true⟩)) s = exec i s) ∧
  ∀ (f : Frame) (x : Code16) (s : State), f.body.length ≤ 1024 → x ≠ crc16 f.covered → s.link.receiving = true →
    s.link.framer = .hunt →
    exec (.frameReceived ((0xA5 :: f.covered ++ be16 x.toNat).map fun b => ⟨b, true⟩)) s = .next s

/-- The check of the nine digits is 29B1h; a gap, a stop-bit error and a length above 1,024 each send the framer to
HUNT with nothing else changed; and no byte is taken before READY has begun to be sent. A kind in 00h to 7Fh that
names no request is answered with UNKNOWN_KIND; a kind in 80h to FFh is taken and discarded with no reply. -/
def Obligations.FramerAndKinds : Prop :=
  (crc16 [0x31, 0x32, 0x33, 0x34, 0x35, 0x36, 0x37, 0x38, 0x39] = 0x29B1 ∧
     (∀ s : State, exec .framerGapTimeout s = .next { s with link := { s.link with framer := .hunt } }) ∧
     (∀ (v : Byte) (s : State), s.link.receiving = true →
       exec (.frameReceived [⟨v, false⟩]) s = .next { s with link := { s.link with framer := .hunt } }) ∧
     (∀ (h l : Byte) (s : State), s.link.receiving = true → s.link.framer = .header [h] →
       1024 < h.toNat * 256 + l.toNat →
       exec (.frameReceived [⟨l, true⟩]) s = .next { s with link := { s.link with framer := .hunt } }) ∧
     ∀ (bytes : List LineByte) (s : State), s.link.receiving = false → exec (.frameReceived bytes) s = .next s) ∧
  ((∀ (kind tag : Byte) (body : List Byte) (s : State), kind.toNat < 128 → (∀ e ∈ requestIndex, e.1 ≠ kind) →
     s.canTake ⟨kind, tag, body⟩ → exec (.unknownKind kind tag body) s = .next (s.replied kind tag [0x13])) ∧
     ∀ (kind tag : Byte) (body : List Byte) (s : State), 128 ≤ kind.toNat → s.canTake ⟨kind, tag, body⟩ →
       exec (.replyKindDiscarded kind tag body) s = .next { s with link := { s.link with hold := none } })

/-- FRAME_SENT begins the reply in the reply room ahead of every notice, and then takes the request that waited in the
hold for that room; else it begins the oldest notice; else it leaves the transmitter idle. A notice raised while nothing
is sent and nothing waits is begun at once; any other joins the queue at the tail, and is discarded with the overflow
flag set while the queue holds 64. A reply is begun at once by an idle transmitter, ahead of the notices that wait, and
waits in the reply room behind a frame that is being sent. -/
def Obligations.TransmitterOrder : Prop :=
  (∀ (r : Frame) (s : State), s.link.replyRoom = some r →
     (s.link.hold = none →
       exec .frameSent s = .next { s with link := { s.link with sending := some r, replyRoom := none } }) ∧
     ∀ (i : Instr) (f : Frame), i.wellFormed = true → i.frame? = some f → s.link.hold = some f →
       exec .frameSent s = exec i { s with link := { s.link with sending := some r, replyRoom := none } }) ∧
  (∀ s : State, s.link.replyRoom = none → s.link.hold = none →
     (∀ (n : Notice) (ns : List Notice), s.link.notices = n :: ns →
       exec .frameSent s = .next { s with link := { s.link with
         sending := some n.frame, notices := ns, receiving := s.link.receiving || decide (n = .ready) } }) ∧
     (s.link.notices = [] → exec .frameSent s = .next { s with link := { s.link with sending := none } })) ∧
  (∀ (n : Notice) (s : State),
     ((s.link.sending = none ∧ s.link.replyRoom = none ∧ s.link.notices = []) →
       s.raise n = { s with link := { s.link with
         sending := some n.frame, receiving := s.link.receiving || decide (n = .ready) } }) ∧
     (¬(s.link.sending = none ∧ s.link.replyRoom = none ∧ s.link.notices = []) → s.link.notices.length < 64 →
       s.raise n = { s with link := { s.link with notices := s.link.notices ++ [n] } }) ∧
     (s.link.notices.length = 64 → s.raise n = { s with link := { s.link with overflow := true } })) ∧
  ∀ (f : Frame) (body : List Byte) (s : State),
    (s.link.sending = none → s.putReply f body =
      { s with link := { s.link with sending := some ⟨f.kind + 0x80, f.tag, body⟩, replyRoom := none } }) ∧
    (s.link.sending ≠ none → s.putReply f body =
      { s with link := { s.link with replyRoom := some ⟨f.kind + 0x80, f.tag, body⟩ } })

/-- A request whose body has another length than its kind in the index is answered with BAD_LENGTH alone, with no
check of its rule made and nothing else changed. A request that completes while the reply room is full waits in the
hold if the hold is free, and is discarded if the hold is occupied. That a request command stands for the completion of
its frame is the model's choice (log entry 1). -/
def Obligations.RequestsRefusedAndWaiting : Prop :=
  (∀ (i : Instr) (f : Frame) (n : Nat) (s : State), i.wellFormed = true → i.frame? = some f → (f.kind, n) ∈ requestIndex →
     f.body.length ≠ n → s.canTake f → exec i s = .next (s.replied f.kind f.tag [0x12])) ∧
  (∀ (i : Instr) (f : Frame) (s : State), i.wellFormed = true → i.frame? = some f → s.link.receiving = true →
     s.link.replyRoom ≠ none →
     exec i s = .next (if s.link.hold = none then { s with link := { s.link with hold := some f } } else s))

/-- READ_STATUS reports the hall, the clock, the queues, the check, the freeze and the 42 units in 60 bytes as they
stand, and then clears the notice overflow flag; that clearing is its only change. -/
def Obligations.ReadStatus : Prop :=
  ∀ (tag : Byte) (s : State), s.canTake ⟨0x01, tag, []⟩ → ∃ body : List Byte,
    exec (.readStatus tag []) s =
      .next { s.replied 0x01 tag body with link := { (s.replied 0x01 tag body).link with overflow := false } } ∧
    body =
      [0x00, (if s.plan.hall = .setup then 1 else 2 : Byte)] ++ be32 s.clock.seconds ++
        [(if s.clock.quality = .nominal then 1 else 2 : Byte)] ++ be32 s.clock.degradedCount ++
        [(if s.link.overflow = true then 1 else 0 : Byte)] ++ be16 s.hireList.length ++ be16 s.money.queue.length ++
        [(match s.check.state with
          | .idle => 0
          | .running => 1
          | .done => 2 : Byte),
         if s.money.frozen = true then 1 else 0] ++
        (List.range' 1 42).map (fun (u : Nat) =>
          (match (s.unit u).state with
            | .unseen => 0
            | .present => 1
            | .lost => 2 : Byte)) ∧
    body.length = 60

/-! ### Languages and the channel plan -/

/-- OPEN_SESSION in SETUP: the hall is in SESSION, every desk record, the service record and the unserved counts are
0, and all else is kept; in SESSION it is refused with WRONG_STATE and changes nothing. CLOSE_SESSION in SESSION: the
hall is in SETUP; every domain of every booth is IDLE, each turn ended in its desk's longest turn, the cough flag of each
live desk clear and each requester flashed unless its console is LOST; both announcement inputs are stopped on every
channel; every source and ear feed is formed anew, with one SOURCE_CHANGE for each channel whose identity changed; and
what R15 lists is kept: plan, selections, ports, records and relay selections, the check, a RUNNING one with its channel
under test where that is FALLBACK or UNUSED without the test, and the receiver side, the money side, the clock and the
units. In SETUP it is refused with WRONG_STATE. -/
def Obligations.OpenAndCloseSession : Prop :=
  (∀ (tag : Byte) (s : State), s.canTake ⟨0x02, tag, []⟩ →
     (s.plan.hall = .setup → ∃ t, exec (.openSession tag []) s = .next t ∧
       t.plan = { s.plan with hall := .session } ∧ (∀ b d, t.deskRecord b d = ⟨0, 0, 0, 0, 0⟩) ∧
       (∀ c k, t.serviceSeconds c k = 0) ∧ (∀ c, t.unserved c = 0) ∧
       (t.turns.turns = s.turns.turns ∧ t.meters.listening = s.meters.listening) ∧
       (t.arbiter = s.arbiter ∧ t.booths = s.booths ∧ t.check = s.check) ∧ s.keepsFleet t ∧
       (t.hires = s.hires ∧ t.money = s.money) ∧ s.keepsRest t ∧ s.answeredWith t 0x02 tag [0x00] []) ∧
     (s.plan.hall = .session → exec (.openSession tag []) s = .next (s.replied 0x02 tag [0x10]))) ∧
  (∀ (tag : Byte) (s : State), s.canTake ⟨0x03, tag, []⟩ →
     (s.plan.hall = .session → ∃ t, exec (.closeSession tag []) s = .next t ∧
       t.plan = { s.plan with hall := .setup } ∧ s.boothsQuieted t ∧
       ((∀ c, t.announcement c = .none) ∧ ∀ i, t.inputSet i = none) ∧ t.sourcesSettled ∧
       t.arbiter.relays = s.arbiter.relays ∧
       (∀ b d, (t.desk b d).selection = (s.desk b d).selection ∧ (t.desk b d).port = (s.desk b d).port) ∧
       s.keepsFleet t ∧ s.keepsMoney t ∧ s.keepsRest t ∧ s.answers t 0x03 tag [0x00] ∧
       (s.testSound → t.check = s.check ∧ s.answeredWith t 0x03 tag [0x00] (sourceNotices s t))) ∧
     (s.plan.hall = .setup → exec (.closeSession tag []) s = .next (s.replied 0x03 tag [0x10])))

/-- RESET_AUDIO from either hall state, where a channel is under test only in a RUNNING check: SETUP; every domain IDLE,
with turns, cough flags and flashes as CLOSE_SESSION leaves them and selections, ports and records kept; both inputs
stopped; every relay selection FLOOR and every ear feed the floor; every source formed anew. A RUNNING check is DONE with
no channel under test and one CHECK_DONE, marked aborted, behind the source notices, with its program, results and flags
kept; an IDLE or DONE one is kept whole. The consoles are UNSEEN with failure count 0, and every receiver, hire, money,
clock, fault and limit record is kept. -/
def Obligations.ResetAudio : Prop :=
  ∀ (tag : Byte) (s : State), s.canTake ⟨0x04, tag, []⟩ → (s.check.state ≠ .running → s.check.current = none) →
    ∃ t, exec (.resetAudio tag []) s = .next t ∧
    t.plan = { s.plan with hall := .setup } ∧ s.boothsQuieted t ∧
    (∀ b d, (t.desk b d).selection = (s.desk b d).selection ∧ (t.desk b d).port = (s.desk b d).port) ∧
    ((∀ c, t.announcement c = .none) ∧ (∀ i, t.inputSet i = none) ∧ ∀ b, t.relay b = none) ∧
    (t.sourcesSettled ∧ ∀ b, 1 ≤ b → b ≤ 24 → t.feed b = ⟨none, false⟩) ∧
    (s.check.state ≠ .running → t.check = s.check ∧ s.answeredWith t 0x04 tag [0x00] (sourceNotices s t)) ∧
    (s.check.state = .running →
      t.check = { s.check with state := .done, current := none, generator := none, dwell := 0, progress := [] } ∧
      s.answeredWith t 0x04 tag [0x00] (sourceNotices s t ++
        [.checkDone true ((List.range' 1 31).filter fun c => s.failed c).length])) ∧
    (∀ u, 1 ≤ u → u ≤ 24 → t.unit u = ⟨.unseen, 0⟩) ∧ (∀ u, 24 < u → t.unit u = s.unit u) ∧
    t.supervisor = { s.supervisor with units := t.supervisor.units } ∧ s.keepsFleet t ∧ s.keepsMoney t ∧
    (t.clock = s.clock ∧ t.limits = s.limits ∧ t.pending = s.pending) ∧ s.answers t 0x04 tag [0x00]

/-- WRITE_CHANNEL that passes the checks of R5 to R9 replaces the whole entry of the channel named and no other, forms
every source and every ear feed anew, and keeps all else. While a channel is under test, the check goes on if the
channel's source without TEST stays FALLBACK or UNUSED under the new entry; otherwise the test is preempted: its open
entries become PREEMPTED and the check takes the next idle channel of its set, entering EXCLUDED for those in use before
it, or is DONE with CHECK_DONE behind the source notices. That the check judges the later channels on the wholly new
state is the model's choice (log entry 20). Any other WRITE_CHANNEL is refused with the status of the first check of R5
that fails, and changes nothing. -/
def Obligations.WriteChannel : Prop :=
  (∀ (tag c l f g a k p : Byte) (n : Nat) (e : PlanEntry) (s : State), s.canTake ⟨0x10, tag, [c, l, f, g, a, k, p]⟩ →
     channelWrite c l f g a k p = some (n, e) → (e.fallback = .pivot ↔ e.pivot ≠ none) → e.pivot ≠ some n →
     (e.language = 0 ∨ ∀ d, 1 ≤ d → d ≤ 31 → d ≠ n → (s.planEntry d).language ≠ e.language) → e.outputs.Nodup →
     (∀ d o, 1 ≤ d → d ≤ 31 → d ≠ n → o ∈ e.outputs → o ∉ (s.planEntry d).outputs) →
     (s.plan.hall = .setup ∨ ∀ o ∈ (s.planEntry n).outputs, o ∈ e.outputs ∨ s.claimed o = false) →
     ∃ t, exec (.writeChannel tag [c, l, f, g, a, k, p]) s = .next t ∧ t.planEntry n = e ∧
       (∀ d, d ≠ n → t.planEntry d = s.planEntry d) ∧
       (t.plan.floorLanguage = s.plan.floorLanguage ∧ t.plan.hall = s.plan.hall) ∧ t.sourcesSettled ∧
       (t.arbiter.announcements = s.arbiter.announcements ∧ t.arbiter.inputOne = s.arbiter.inputOne ∧
         t.arbiter.inputTwo = s.arbiter.inputTwo ∧ t.arbiter.relays = s.arbiter.relays) ∧
       (t.booths = s.booths ∧ t.turns = s.turns) ∧ s.keepsFleet t ∧ s.keepsMoney t ∧ s.keepsRest t ∧
       s.answers t 0x10 tag [0x00] ∧
       s.answersSettled t 0x10 tag [0x00] (sourceNotices s t)) ∧
  (∀ (tag c l f g a k p : Byte) (s : State), s.canTake ⟨0x10, tag, [c, l, f, g, a, k, p]⟩ →
     (channelWrite c l f g a k p = none →
       exec (.writeChannel tag [c, l, f, g, a, k, p]) s = .next (s.replied 0x10 tag [0x03])) ∧
     ∀ (n : Nat) (e : PlanEntry), channelWrite c l f g a k p = some (n, e) →
       (¬((e.fallback = .pivot ↔ e.pivot ≠ none) ∧ e.pivot ≠ some n) →
         exec (.writeChannel tag [c, l, f, g, a, k, p]) s = .next (s.replied 0x10 tag [0x03])) ∧
       ((e.fallback = .pivot ↔ e.pivot ≠ none) → e.pivot ≠ some n →
         ((∃ d, 1 ≤ d ∧ d ≤ 31 ∧ d ≠ n ∧ e.language ≠ 0 ∧ (s.planEntry d).language = e.language) →
           exec (.writeChannel tag [c, l, f, g, a, k, p]) s = .next (s.replied 0x10 tag [0x0D])) ∧
         ((e.language = 0 ∨ ∀ d, 1 ≤ d → d ≤ 31 → d ≠ n → (s.planEntry d).language ≠ e.language) →
           ((¬e.outputs.Nodup ∨ ∃ d o, 1 ≤ d ∧ d ≤ 31 ∧ d ≠ n ∧ o ∈ e.outputs ∧ o ∈ (s.planEntry d).outputs) →
             exec (.writeChannel tag [c, l, f, g, a, k, p]) s = .next (s.replied 0x10 tag [0x0E])) ∧
           (e.outputs.Nodup → (∀ d o, 1 ≤ d → d ≤ 31 → d ≠ n → o ∈ e.outputs → o ∉ (s.planEntry d).outputs) →
             s.plan.hall = .session → (∃ o ∈ (s.planEntry n).outputs, o ∉ e.outputs ∧ s.claimed o = true) →
             exec (.writeChannel tag [c, l, f, g, a, k, p]) s = .next (s.replied 0x10 tag [0x05])))))

/-- The seven-byte coding of a plan entry, written out as R175 gives it, loses nothing: every entry in range is coded and
read back as itself, and bytes that code an entry are the bytes of that entry. READ_CHANNEL returns the entry of any
channel 0 to 31 in its seven bytes, channel 0's the fixed one, and changes no state; above 31 it is refused with RANGE.
-/
def Obligations.ReadChannel : Prop :=
  ∀ (out : Option BoothOutput → Byte) (code : Nat → PlanEntry → List Byte),
    (out = fun o => match o with
      | none => 0x00
      | some ⟨b, .a⟩ => BitVec.ofNat 8 (b * 8 + 1)
      | some ⟨b, .b⟩ => BitVec.ofNat 8 (b * 8 + 2)) →
    (code = fun c e =>
      [BitVec.ofNat 8 c, BitVec.ofNat 8 e.language, out e.first, out e.second, (if e.autofloor = true then 1 else 0 : Byte),
        (match e.fallback with | .floor => 1 | .silence => 2 | .pivot => 3 : Byte),
        (match e.pivot with | none => 0 | some p => BitVec.ofNat 8 p : Byte)]) →
    ((∀ (c : Nat) (e : PlanEntry), 1 ≤ c → c ≤ 31 → e.language ≤ 99 → (∀ o ∈ e.outputs, 1 ≤ o.booth ∧ o.booth ≤ 24) →
       (∀ q, e.pivot = some q → 1 ≤ q ∧ q ≤ 31) →
       ∃ b l f g a k p, code c e = [b, l, f, g, a, k, p] ∧ channelWrite b l f g a k p = some (c, e)) ∧
      (∀ (c l f g a k p : Byte) (n : Nat) (e : PlanEntry), channelWrite c l f g a k p = some (n, e) →
        code n e = [c, l, f, g, a, k, p]) ∧
      out (some ⟨7, .a⟩) = 0x39 ∧ out (some ⟨7, .b⟩) = 0x3A ∧ out (some ⟨24, .b⟩) = 0xC2) ∧
    ∀ (tag c : Byte) (s : State), s.canTake ⟨0x11, tag, [c]⟩ →
      (c.toNat ≤ 31 → exec (.readChannel tag [c]) s =
        .next (s.replied 0x11 tag (0x00 :: code c.toNat (s.planEntry c.toNat)))) ∧
      (31 < c.toNat → exec (.readChannel tag [c]) s = .next (s.replied 0x11 tag [0x03])) ∧
      code 0 (s.planEntry 0) = [0x00, 0x00, 0x00, 0x00, 0x00, 0x01, 0x00]

/-- SET_FLOOR_LANGUAGE stores a language 0 to 99, forms every source and every ear feed anew, and keeps all else: the
rest of the plan, the announcements and both input sets, the relay selections, the booths, the turns, the receiver side,
the money side, the clock, the units and the limits. While a channel is under test, the check goes on if the channel's
source without TEST stays FALLBACK or UNUSED; otherwise the test is preempted: its open entries become PREEMPTED and the
check takes the next idle channel of its set, entering EXCLUDED for those in use before it, with 10 s of dwell, or is
DONE with CHECK_DONE behind the source notices. Above 99 the request is refused with RANGE and changes nothing. That the
check judges the later channels on the wholly new state is the model's choice (log entry 20). -/
def Obligations.SetFloorLanguage : Prop :=
  ∀ (tag n : Byte) (s : State), s.canTake ⟨0x12, tag, [n]⟩ →
    (n.toNat ≤ 99 → ∃ t, exec (.setFloorLanguage tag [n]) s = .next t ∧
      t.plan = { s.plan with floorLanguage := n.toNat } ∧ t.sourcesSettled ∧
      (t.arbiter.announcements = s.arbiter.announcements ∧ t.arbiter.inputOne = s.arbiter.inputOne ∧
        t.arbiter.inputTwo = s.arbiter.inputTwo ∧ t.arbiter.relays = s.arbiter.relays) ∧
      (t.booths = s.booths ∧ t.turns = s.turns) ∧ s.keepsFleet t ∧ s.keepsMoney t ∧ s.keepsRest t ∧
      s.answers t 0x12 tag [0x00] ∧
      s.answersSettled t 0x12 tag [0x00] (sourceNotices s t)) ∧
    (99 < n.toNat → exec (.setFloorLanguage tag [n]) s = .next (s.replied 0x12 tag [0x03]))

/-! ### Program sources, announcements and relay feeds -/

/-- The effective source of a channel: an ACTIVE announcement, else the desk live on its one serving output with
silence under cough, else autofloor, else the signature under test, else its fallback, a pivot counting only while it
holds ANNOUNCE, BOOTH or AUTOFLOOR; channel 0 holds an announcement or the floor. -/
def Obligations.SourcePrecedence : Prop :=
  ∀ (s : State) (c : Nat),
    (∀ i, s.announcement c = .active i → s.effective c = ⟨.announce i, false, .announcement i⟩) ∧
    ((∀ i, s.announcement c ≠ .active i) →
      (c = 0 → s.effective c = ⟨.floor, false, .floor⟩) ∧
      (∀ o d, c ≠ 0 → o ∈ (s.planEntry c).outputs → (s.domainOf o).liveDesk = some d →
        (s.desk o.booth d).selection = o.side →
        (∀ x ∈ (s.planEntry c).outputs, x ≠ o → s.liveOn x = none) →
        s.effective c = ⟨.booth o, (s.desk o.booth d).cough,
          if (s.desk o.booth d).cough = true then .silence else .desk ((s.desk o.booth d).port.getD 0)⟩) ∧
      (c ≠ 0 → (∀ x ∈ (s.planEntry c).outputs, s.liveOn x = none) →
        (((s.planEntry c).language ≠ 0 ∧ (s.planEntry c).autofloor = true ∧
            s.plan.floorLanguage = (s.planEntry c).language) → s.effective c = ⟨.autofloor, false, .floor⟩) ∧
        (¬((s.planEntry c).language ≠ 0 ∧ (s.planEntry c).autofloor = true ∧
            s.plan.floorLanguage = (s.planEntry c).language) →
          (s.check.current = some c → s.effective c = ⟨.test, false, .signature⟩) ∧
          (s.check.current ≠ some c →
            ((s.planEntry c).language = 0 → s.effective c = ⟨.unused, false, .silence⟩) ∧
            ((s.planEntry c).language ≠ 0 →
              ((s.planEntry c).fallback = .floor → s.effective c = ⟨.fallback, false, .floor⟩) ∧
              ((s.planEntry c).fallback = .silence → s.effective c = ⟨.fallback, false, .silence⟩) ∧
              ∀ p, (s.planEntry c).fallback = .pivot → (s.planEntry c).pivot = some p → 1 ≤ p →
                (((∃ i, (s.effective p).identity = .announce i) ∨ (∃ o, (s.effective p).identity = .booth o) ∨
                    (s.effective p).identity = .autofloor) →
                  s.effective c = ⟨.pivot p, false, (s.effective p).program⟩) ∧
                (((s.effective p).identity = .test ∨ (∃ q, (s.effective p).identity = .pivot q) ∨
                    (s.effective p).identity = .fallback ∨ (s.effective p).identity = .unused) →
                  s.effective c = ⟨.fallback, false, .floor⟩))))))

/-- START_ANNOUNCEMENT is refused by R29's checks in order; accepted, each named channel is DEFERRED while its serving
output's domain holds a requester and ACTIVE otherwise, the input runs with the set, and the reply names the deferred.
STOP_ANNOUNCEMENT on a running input ends it on every channel of its set, ACTIVE and DEFERRED alike, and forms the
sources anew; on a stopped input it answers OK and changes nothing; another input is refused with RANGE. A check whose
channel the event takes is preempted in it (log entry 20). -/
def Obligations.Announcements : Prop :=
  (∀ (tag n : Byte) (set : ChannelSet) (s : State), s.canTake ⟨0x14, tag, n :: be32 set.toNat⟩ →
     (((n ≠ 1 ∧ n ≠ 2) ∨ set = 0) →
       exec (.startAnnouncement tag (n :: be32 set.toNat)) s = .next (s.replied 0x14 tag [0x03])) ∧
     ∀ i : AnnInput, n = (match i with | .one => 1 | .two => 2 : Byte) → set ≠ 0 →
       ((s.inputSet i ≠ none ∨ ∃ c, set.getLsbD c = true ∧ s.announcement c ≠ .none) →
         exec (.startAnnouncement tag (n :: be32 set.toNat)) s = .next (s.replied 0x14 tag [0x06])) ∧
       ((s.inputSet i = none ∧ ∀ c, set.getLsbD c = true → s.announcement c = .none) →
         ∃ t, ∃ deferred : ChannelSet, exec (.startAnnouncement tag (n :: be32 set.toNat)) s = .next t ∧
           (∀ c, deferred.getLsbD c = true ↔
             set.getLsbD c = true ∧ ∃ o d, s.serving c = some (o, d) ∧ (s.domainOf o).requester ≠ none) ∧
           (∀ c, deferred.getLsbD c = true → t.announcement c = .deferred i) ∧
           (∀ c, set.getLsbD c = true → deferred.getLsbD c = false → t.announcement c = .active i) ∧
           (∀ c, set.getLsbD c = false → t.announcement c = s.announcement c) ∧
           t.inputSet i = some set ∧ (∀ j, j ≠ i → t.inputSet j = s.inputSet j) ∧
           s.sourcesFollow t ∧ t.booths = s.booths ∧ t.turns = s.turns ∧
           s.keepsFleet t ∧ s.keepsMoney t ∧ s.keepsRest t ∧
           s.answers t 0x14 tag (0x00 :: be32 deferred.toNat) ∧
           s.answersSettled t 0x14 tag (0x00 :: be32 deferred.toNat) (sourceNotices s t))) ∧
  (∀ (tag n : Byte) (s : State), s.canTake ⟨0x15, tag, [n]⟩ →
     ((n ≠ 1 ∧ n ≠ 2) → exec (.stopAnnouncement tag [n]) s = .next (s.replied 0x15 tag [0x03])) ∧
     ∀ i : AnnInput, n = (match i with | .one => 1 | .two => 2 : Byte) →
       (s.inputSet i = none → exec (.stopAnnouncement tag [n]) s = .next (s.replied 0x15 tag [0x00])) ∧
       ∀ set, s.inputSet i = some set → ∃ t, exec (.stopAnnouncement tag [n]) s = .next t ∧
         (∀ c, set.getLsbD c = true → t.announcement c = .none) ∧
         (∀ c, set.getLsbD c = false → t.announcement c = s.announcement c) ∧
         t.inputSet i = none ∧ (∀ j, j ≠ i → t.inputSet j = s.inputSet j) ∧
         s.sourcesFollow t ∧ t.booths = s.booths ∧ t.turns = s.turns ∧
         s.keepsFleet t ∧ s.keepsMoney t ∧ s.keepsRest t ∧ s.answers t 0x15 tag [0x00] ∧
         s.answersSettled t 0x15 tag [0x00] (sourceNotices s t))

/-- READ_SOURCES returns the floor language, the 32 channel records and the 24 booth records in 298 bytes as they
stand and changes no state. -/
def Obligations.ReadSources : Prop :=
  ∀ (tag : Byte) (s : State), s.canTake ⟨0x13, tag, []⟩ → ∃ body : List Byte,
    exec (.readSources tag []) s = .next (s.replied 0x13 tag body) ∧
    body =
      [0x00, byteOf s.plan.floorLanguage] ++
        (List.range 32).flatMap (fun (c : Nat) =>
          (match (s.source c).identity with
            | .announce .one => [1, 0, 0, 1, 0]
            | .announce .two => [1, 0, 0, 2, 0]
            | .booth ⟨b, .a⟩ => [2, byteOf b, 1, 0, 0]
            | .booth ⟨b, .b⟩ => [2, byteOf b, 2, 0, 0]
            | .autofloor => [3, 0, 0, 0, 0]
            | .test => [4, 0, 0, 0, 0]
            | .pivot p => [5, 0, 0, 0, byteOf p]
            | .fallback => [6, 0, 0, 0, 0]
            | .unused => [7, 0, 0, 0, 0]
            | .floor => [8, 0, 0, 0, 0] : List Byte) ++
          [(if (s.source c).muted = true then 1 else 0 : Byte),
            (match s.announcement c with
              | .none => 0
              | .active .one => 1
              | .active .two => 2
              | .deferred .one => 3
              | .deferred .two => 4 : Byte)]) ++
        (List.range' 1 24).flatMap (fun (b : Nat) =>
          [(match s.relay b with | none => 0 | some c => byteOf c : Byte),
            (match (s.feed b).relaying with | none => 0 | some c => byteOf c : Byte),
            (if (s.feed b).fallback = true then 1 else 0 : Byte)]) ∧
    body.length = 298

/-! ### Booth desks and handover -/

/-- WRITE_BOOTH is refused by R37's checks in order; accepted, the whole configuration is stored with every number held
to its range, the newly enabled positions, in ascending order, start afresh, each on the lowest port that no position
holds as its turn comes (one is always left where the ports agree with the counts), a position above the count loses its
state, its port and its record, a change of interlock leaves the booth's domains IDLE, and nothing else changes. -/
def Obligations.WriteBooth : Prop :=
  ∀ (tag b n i m w p l o : Byte) (s : State), s.canTake ⟨0x18, tag, [b, n, i, m, w, p, l, o]⟩ →
    ((b.toNat = 0 ∨ 24 < b.toNat ∨ (i ≠ 1 ∧ i ≠ 2) ∨ (m ≠ 1 ∧ m ≠ 2) ∨ (p ≠ 1 ∧ p ≠ 2)) →
      exec (.writeBooth tag [b, n, i, m, w, p, l, o]) s = .next (s.replied 0x18 tag [0x03])) ∧
    ∀ new : BoothConfig, 1 ≤ b.toNat → b.toNat ≤ 24 → i = (match new.interlock with | .single => 1 | .dual => 2 : Byte) →
      m = (match new.mode with | .override => 1 | .handshake => 2 : Byte) →
      p = (match new.policy with | .take => 1 | .lapse => 2 : Byte) →
      new.enabled = min n.toNat 4 → new.window = max 1 (min w.toNat 30) → new.turnLimit = max 5 (min l.toNat 90) →
      new.overrun = min o.toNat 30 →
      ((s.plan.hall = .session ∧ new.enabled < (s.config b.toNat).enabled) →
        exec (.writeBooth tag [b, n, i, m, w, p, l, o]) s = .next (s.replied 0x18 tag [0x10])) ∧
      (¬(s.plan.hall = .session ∧ new.enabled < (s.config b.toNat).enabled) →
        (64 < new.enabled + s.otherDesks b.toNat →
          exec (.writeBooth tag [b, n, i, m, w, p, l, o]) s = .next (s.replied 0x18 tag [0x07])) ∧
        (new.enabled + s.otherDesks b.toNat ≤ 64 →
          ((s.plan.hall = .session ∧ new.interlock ≠ (s.config b.toNat).interlock ∧
              ∃ side, s.domain b.toNat side ≠ .idle) →
            exec (.writeBooth tag [b, n, i, m, w, p, l, o]) s = .next (s.replied 0x18 tag [0x05])) ∧
          (¬(s.plan.hall = .session ∧ new.interlock ≠ (s.config b.toNat).interlock ∧
              ∃ side, s.domain b.toNat side ≠ .idle) →
            ∃ t, exec (.writeBooth tag [b, n, i, m, w, p, l, o]) s = .next t ∧
              t.config b.toNat = new ∧ (∀ x, x ≠ b.toNat → t.config x = s.config x) ∧
              (∀ d, 1 ≤ d → d ≤ 4 → (s.config b.toNat).enabled < d → d ≤ new.enabled →
                (t.desk b.toNat d).selection = .a ∧ (t.desk b.toNat d).cough = false ∧
                (t.desk b.toNat d).flash = false ∧ t.deskRecord b.toNat d = ⟨0, 0, 0, 0, 0⟩ ∧
                (s.booths.desks.canonical .disabled = true →
                  (∀ held : Nat → Prop,
                    (∀ q, held q ↔
                      ((∃ x e, e ≤ 7 ∧ (x ≠ b.toNat ∨ e ≤ (s.config b.toNat).enabled ∨ d ≤ e) ∧
                          (s.desk x e).port = some q) ∨
                        ∃ e, (s.config b.toNat).enabled < e ∧ e < d ∧ (t.desk b.toNat e).port = some q)) →
                    ∀ q, (t.desk b.toNat d).port = some q ↔
                      1 ≤ q ∧ q ≤ 64 ∧ ¬held q ∧ ∀ r, 1 ≤ r → r < q → held r) ∧
                  (s.portsAgree → (∀ x, (s.config x).enabled ≤ 4) → (t.desk b.toNat d).port ≠ none)) ∧
                ∀ e, e ≤ 4 → d < e → e ≤ new.enabled → (t.desk b.toNat e).port = none ∨
                  (t.desk b.toNat e).port ≠ (t.desk b.toNat d).port) ∧
              (∀ d, 1 ≤ d → d ≤ 4 → new.enabled < d → d ≤ (s.config b.toNat).enabled →
                t.desk b.toNat d = ⟨.a, false, false, none⟩ ∧ t.deskRecord b.toNat d = ⟨0, 0, 0, 0, 0⟩) ∧
              (∀ x d, d ≤ 7 → (x ≠ b.toNat ∨ d = 0 ∨ 4 < d ∨ (d ≤ new.enabled ∧ d ≤ (s.config b.toNat).enabled) ∨
                  (new.enabled < d ∧ (s.config b.toNat).enabled < d)) →
                t.desk x d = s.desk x d ∧ t.deskRecord x d = s.deskRecord x d) ∧
              (new.interlock = (s.config b.toNat).interlock →
                t.booths.domains = s.booths.domains ∧ t.turns.turns = s.turns.turns) ∧
              (new.interlock ≠ (s.config b.toNat).interlock →
                ∀ side, t.domain b.toNat side = .idle ∧ t.turn b.toNat side = ⟨0, none, none, false, false⟩) ∧
              (∀ x side, x ≠ b.toNat → t.domain x side = s.domain x side ∧ t.turn x side = s.turn x side) ∧
              (t.plan = s.plan ∧ t.arbiter = s.arbiter ∧ t.check = s.check) ∧
              s.keepsFleet t ∧ s.keepsMoney t ∧ s.keepsRest t ∧
              s.answeredWith t 0x18 tag
                ((if n.toNat = new.enabled ∧ w.toNat = new.window ∧ l.toNat = new.turnLimit ∧ o.toNat = new.overrun
                    then 0x00 else 0x01 : Byte) ::
                  [b, byteOf new.enabled, i, m, byteOf new.window, p, byteOf new.turnLimit, byteOf new.overrun])
                [])))

/-- READ_BOOTH returns a booth's seven configuration fields and its four ports; READ_DESKS returns the two domain
records and the four desk records of a booth, with their six steady lamps. Both change no state, and refuse a booth
outside 1 to 24 with RANGE. That a DISABLED position reports the output selection held for it, which is then output A's
code 1, is the model's choice (log entry 21). -/
def Obligations.ReadBoothAndDesks : Prop :=
  (∀ (tag b : Byte) (s : State), s.canTake ⟨0x19, tag, [b]⟩ →
     ((b.toNat = 0 ∨ 24 < b.toNat) → exec (.readBooth tag [b]) s = .next (s.replied 0x19 tag [0x03])) ∧
     ((1 ≤ b.toNat ∧ b.toNat ≤ 24) → exec (.readBooth tag [b]) s = .next (s.replied 0x19 tag
       ([0x00, b, byteOf (s.config b.toNat).enabled,
         (match (s.config b.toNat).interlock with | .single => 1 | .dual => 2 : Byte),
         (match (s.config b.toNat).mode with | .override => 1 | .handshake => 2 : Byte),
         byteOf (s.config b.toNat).window,
         (match (s.config b.toNat).policy with | .take => 1 | .lapse => 2 : Byte),
         byteOf (s.config b.toNat).turnLimit, byteOf (s.config b.toNat).overrun] ++
         [1, 2, 3, 4].map (fun (d : Nat) => (match (s.desk b.toNat d).port with | none => 0 | some q => byteOf q : Byte)))))) ∧
  (∀ (tag b : Byte) (s : State), s.canTake ⟨0x1A, tag, [b]⟩ →
     ((b.toNat = 0 ∨ 24 < b.toNat) → exec (.readDesks tag [b]) s = .next (s.replied 0x1A tag [0x03])) ∧
     ∀ (domainBytes : Domain → List Byte) (deskRecord : Nat → List Byte), 1 ≤ b.toNat → b.toNat ≤ 24 →
       (domainBytes = fun m => match m with
         | .idle => [0, 0, 0, 0, 0]
         | .live d => [1, byteOf d, 0, 0, 0]
         | .pending d e n .take => [2, byteOf d, byteOf e, byteOf n, 1]
         | .pending d e n .lapse => [2, byteOf d, byteOf e, byteOf n, 2]) →
       (deskRecord = fun d =>
         [(if s.enabled b.toNat d = true then
             (match s.deskState b.toNat d with | .idle => 1 | .live => 2 | .requesting => 3) else 0 : Byte),
           (match (s.desk b.toNat d).selection with | .a => 1 | .b => 2 : Byte),
           (if (s.desk b.toNat d).cough = true then 1 else 0 : Byte)] ++
         (if s.enabled b.toNat d = true then
           [(if s.deskState b.toNat d = .live then 1 else 0 : Byte),
             (if s.deskState b.toNat d = .requesting then 1 else 0 : Byte),
             (if s.deskState b.toNat d = .live ∧ (s.deskDomain b.toNat d).requester.isSome = true then 1 else 0 : Byte),
             (if s.deskState b.toNat d = .live ∧ (s.turn b.toNat (s.deskPlace b.toNat d)).dueRaised = true
               then 1 else 0 : Byte),
             (if s.offAir b.toNat d = true then 1 else 0 : Byte),
             (if (s.feed b.toNat).fallback = true then 1 else 0 : Byte)]
         else [0, 0, 0, 0, 0, 0])) →
       exec (.readDesks tag [b]) s = .next (s.replied 0x1A tag
         ([0x00, b] ++ domainBytes (s.domain b.toNat .a) ++
           domainBytes (if (s.config b.toNat).interlock = .single then .idle else s.domain b.toNat .b) ++
           (deskRecord 1 ++ deskRecord 2 ++ deskRecord 3 ++ deskRecord 4))))

/-- READ_DESK_RECORDS first raises the longest turn of each desk whose turn runs to its counter, and then returns the
two turn records and the four desk records of the booth in 102 bytes; it changes nothing else. A booth outside 1 to 24
is refused with RANGE. -/
def Obligations.ReadDeskRecords : Prop :=
  ∀ (tag b : Byte) (s : State), s.canTake ⟨0x1C, tag, [b]⟩ →
    ((b.toNat = 0 ∨ 24 < b.toNat) → exec (.readDeskRecords tag [b]) s = .next (s.replied 0x1C tag [0x03])) ∧
    ∀ (runs : Nat → Nat → Side → Nat) (turnBytes : TurnRecord → List Byte), 1 ≤ b.toNat → b.toNat ≤ 24 →
      (∀ side d, (s.domain b.toNat side).liveDesk = some d → d ≤ 4) →
      (runs = fun x d side =>
        if x = b.toNat ∧ (s.domain x side).liveDesk = some d then (s.turn x side).counter else 0) →
      (turnBytes = fun t => be32 t.counter ++ [(match t.limit with | none => 0 | some l => byteOf l : Byte),
        (match t.overrun with | none => 0 | some o => byteOf o : Byte), (if t.dueRaised = true then 1 else 0 : Byte),
        (if t.overrunRaised = true then 1 else 0 : Byte)]) →
      ∃ t, ∃ body : List Byte, exec (.readDeskRecords tag [b]) s = .next t ∧
        (∀ x d, d ≤ 7 → t.deskRecord x d =
          { s.deskRecord x d with
            longestTurn := max (max (s.deskRecord x d).longestTurn (runs x d .a)) (runs x d .b) }) ∧
        (t.turns.turns = s.turns.turns ∧ t.plan = s.plan ∧ t.arbiter = s.arbiter ∧ t.booths = s.booths ∧
          t.check = s.check) ∧
        s.keepsFleet t ∧ s.keepsMoney t ∧ s.keepsRest t ∧ s.answeredWith t 0x1C tag body [] ∧
        body = [0x00, b] ++ turnBytes (s.turn b.toNat .a) ++
          turnBytes (if (s.config b.toNat).interlock = .single then ⟨0, none, none, false, false⟩
            else s.turn b.toNat .b) ++
          [1, 2, 3, 4].flatMap (fun (d : Nat) =>
            if s.enabled b.toNat d = true then
              (1 : Byte) :: (be32 (t.deskRecord b.toNat d).liveA ++ be32 (t.deskRecord b.toNat d).liveB ++
                be32 (t.deskRecord b.toNat d).turnsStarted ++ be32 (t.deskRecord b.toNat d).longestTurn ++
                be32 (t.deskRecord b.toNat d).turnDue)
            else (0 : Byte) :: (be32 0 ++ be32 0 ++ be32 0 ++ be32 0 ++ be32 0)) ∧
        body.length = 102

/-- FORCE_OUTPUT_OFF on a claimed output makes its whole domain IDLE, flashes the requester and settles the change; on
an output nobody claims it answers OK and changes nothing; another booth or output is refused with RANGE. A check whose
channel the event takes is preempted in it (log entry 20). -/
def Obligations.ForceOutputOff : Prop :=
  ∀ (tag b o : Byte) (s : State), s.canTake ⟨0x1B, tag, [b, o]⟩ →
    ((b.toNat = 0 ∨ 24 < b.toNat ∨ (o ≠ 1 ∧ o ≠ 2)) →
      exec (.forceOutputOff tag [b, o]) s = .next (s.replied 0x1B tag [0x03])) ∧
    ∀ side : Side, 1 ≤ b.toNat → b.toNat ≤ 24 → o = (match side with | .a => 1 | .b => 2 : Byte) →
      (s.claimed ⟨b.toNat, side⟩ = false →
        exec (.forceOutputOff tag [b, o]) s = .next (s.replied 0x1B tag [0x00])) ∧
      ∀ place, place = s.placeOf b.toNat side → s.claimed ⟨b.toNat, side⟩ = true →
        (∀ d, ((s.domain b.toNat place).liveDesk = some d ∨ (s.domain b.toNat place).requester = some d) → d ≤ 4) →
        ∃ t, exec (.forceOutputOff tag [b, o]) s = .next t ∧
          s.domainMoved t b.toNat place .idle (s.domain b.toNat place).requester ∧ t.supervisor = s.supervisor ∧
          s.answers t 0x1B tag [0x00] ∧
          s.answersSettled t 0x1B tag [0x00]
            (s.moveNotices t b.toNat place (s.domain b.toNat place).requester.isSome)

/-- MIC_ON from an IDLE desk of a PRESENT console, in answer to its poll and in SESSION, allowed by the interlock: an
IDLE domain becomes LIVE with the desk; a LIVE one becomes LIVE with it at once under OVERRIDE, the displaced desk's
claim not counted, and PENDING with the booth's window and policy under HANDSHAKE. MIC_ON is refused with an ENGAGED
flash, and nothing else changes, in SETUP, in a PENDING domain, and where the interlock refuses; from a desk that is
LIVE or REQUESTING, and from a position that is not enabled, it has no effect. A check whose channel the event takes is
preempted in it (log entry 20). -/
def Obligations.MicrophoneOn : Prop :=
  (∀ (b e : Nat) (place : Side) (o : BoothOutput) (s : State), 1 ≤ b → b ≤ 24 → 1 ≤ e → e ≤ 4 →
     s.awaitsConsole b → (s.unit b).state = .present → s.enabled b e = true → s.deskState b e = .idle → s.plan.hall = .session →
     place = s.deskPlace b e → o = ⟨b, (s.desk b e).selection⟩ →
     (s.domain b place = .idle → s.claimable o →
       ∃ t, exec (.consoleReply b (.events [⟨e, .micOn⟩])) s = .next t ∧ s.domainMoved t b place (.live e) none ∧
         t.supervisor = (unitReply s b).supervisor ∧ s.settles t (sourceNotices s t)) ∧
     ∀ d, s.domain b place = .live d → d ≤ 4 →
       ((s.config b).mode = .override →
         (∃ c, 1 ≤ c ∧ c ≤ 31 ∧ o ∈ (s.planEntry c).outputs ∧
           (∀ q, 1 ≤ q → q ≤ 31 → o ∈ (s.planEntry q).outputs → q = c) ∧
           ∀ x ∈ (s.planEntry c).outputs, x = o ∨ s.claimed x = false ∨ (x.booth = b ∧ s.placeOf b x.side = place)) →
         ∃ t, exec (.consoleReply b (.events [⟨e, .micOn⟩])) s = .next t ∧ s.domainMoved t b place (.live e) none ∧
           t.supervisor = (unitReply s b).supervisor ∧ s.settles t (sourceNotices s t)) ∧
       ((s.config b).mode = .handshake → s.claimable o →
         ∃ t, exec (.consoleReply b (.events [⟨e, .micOn⟩])) s = .next t ∧
           s.domainMoved t b place (.pending d e (s.config b).window (s.config b).policy) none ∧
           t.supervisor = (unitReply s b).supervisor ∧ s.settles t (sourceNotices s t))) ∧
  (∀ (b e : Nat) (s : State), 1 ≤ b → b ≤ 24 → s.awaitsConsole b → (s.unit b).state = .present →
     (s.enabled b e = false → exec (.consoleReply b (.events [⟨e, .micOn⟩])) s = .next (unitReply s b)) ∧
     (s.enabled b e = true → s.deskState b e ≠ .idle →
       exec (.consoleReply b (.events [⟨e, .micOn⟩])) s = .next (unitReply s b)) ∧
     (s.enabled b e = true → s.deskState b e = .idle →
       (s.plan.hall = .setup ∨ (∃ d f n p, s.deskDomain b e = .pending d f n p) ∨
         (s.deskDomain b e = .idle ∧ s.unclaimable ⟨b, (s.desk b e).selection⟩) ∨
         ((∃ d, s.deskDomain b e = .live d) ∧ (s.config b).mode = .handshake ∧
           s.unclaimable ⟨b, (s.desk b e).selection⟩) ∨
         ((∃ d, s.deskDomain b e = .live d) ∧ (s.config b).mode = .override ∧
           (s.setDomain b (s.deskPlace b e) .idle).unclaimable ⟨b, (s.desk b e).selection⟩)) →
       exec (.consoleReply b (.events [⟨e, .micOn⟩])) s =
         .next ((unitReply s b).setDesk b e { s.desk b e with flash := true })))

/-- MIC_OFF from a PRESENT console, in answer to its poll: the live desk of a LIVE domain leaves it IDLE, the live desk
of a PENDING domain completes the handover, the requester withdraws, and an IDLE desk changes nothing. A check whose
channel the event takes is preempted in it (log entry 20). -/
def Obligations.MicrophoneOff : Prop :=
  ∀ (b x : Nat) (place : Side) (s : State), 1 ≤ b → b ≤ 24 → 1 ≤ x → x ≤ 4 → s.awaitsConsole b →
    (s.unit b).state = .present → s.enabled b x = true → place = s.deskPlace b x →
    (s.domain b place = .live x →
      ∃ t, exec (.consoleReply b (.events [⟨x, .micOff⟩])) s = .next t ∧ s.domainMoved t b place .idle none ∧
        t.supervisor = (unitReply s b).supervisor ∧ s.settles t (sourceNotices s t)) ∧
    (∀ e n p, s.domain b place = .pending x e n p → e ≠ x → e ≤ 4 →
      ∃ t, exec (.consoleReply b (.events [⟨x, .micOff⟩])) s = .next t ∧ s.domainMoved t b place (.live e) none ∧
        t.supervisor = (unitReply s b).supervisor ∧
        s.settles t (s.moveNotices t b place true)) ∧
    (∀ d n p, s.domain b place = .pending d x n p → d ≠ x → d ≤ 4 →
      ∃ t, exec (.consoleReply b (.events [⟨x, .micOff⟩])) s = .next t ∧ s.domainMoved t b place (.live d) none ∧
        t.supervisor = (unitReply s b).supervisor ∧
        s.settles t (s.moveNotices t b place true)) ∧
    (s.deskState b x = .idle → exec (.consoleReply b (.events [⟨x, .micOff⟩])) s = .next (unitReply s b))

/-- The other desk keys of a PRESENT console, in answer to its poll: cough on a LIVE desk sets or clears its flag and
settles the sources; an output key moves an IDLE desk's selection and flashes any other; a relay key is taken or refused
with a flash; SLOW raises its notice; an event not in the table is ignored. Of the events of one reply the first eight
are taken, in order, each whole: what a reply of up to eight events gives is what its last event gives in the state that
the others give, as if it alone answered that poll. A check whose channel the event takes is preempted in it (log entry
20). -/
def Obligations.DeskKeys : Prop :=
  (∀ (b : Nat) (l : List DeskEvent) (s : State),
    exec (.consoleReply b (.events l)) s = exec (.consoleReply b (.events (l.take 8))) s) ∧
  (∀ (b : Nat) (l : List DeskEvent) (e : DeskEvent) (s t : State), 1 ≤ b → b ≤ 24 → s.awaitsConsole b →
    (s.unit b).state = .present → l.length < 8 → exec (.consoleReply b (.events l)) s = .next t →
    exec (.consoleReply b (.events (l ++ [e]))) s = exec (.consoleReply b (.events [e]))
      { t with supervisor := { t.supervisor with consolePoll := s.supervisor.consolePoll } }) ∧
  ∀ (b d : Nat) (s : State), 1 ≤ b → b ≤ 24 → 1 ≤ d → d ≤ 4 → s.awaitsConsole b → (s.unit b).state = .present →
    s.enabled b d = true →
    (∀ on : Bool, s.deskState b d = .live → (s.desk b d).cough = !on →
      ∃ t, exec (.consoleReply b (.events [⟨d, if on = true then .coughOn else .coughOff⟩])) s = .next t ∧
        t.desk b d = { s.desk b d with cough := on } ∧
        (∀ x y, y ≤ 7 → (x ≠ b ∨ y ≠ d) → t.desk x y = s.desk x y) ∧ t.booths.domains = s.booths.domains ∧
        s.sourcesFollow t ∧ t.arbiter.announcements = s.arbiter.announcements ∧ t.turns = s.turns ∧
        s.keepsFleet t ∧ s.keepsMoney t ∧ t.supervisor = (unitReply s b).supervisor ∧ t.pending = s.pending ∧
        s.settles t (sourceNotices s t)) ∧
    (∀ on : Bool, (s.deskState b d ≠ .live ∨ (s.desk b d).cough = on) →
      exec (.consoleReply b (.events [⟨d, if on = true then .coughOn else .coughOff⟩])) s = .next (unitReply s b)) ∧
    (∀ side : Side, s.deskState b d = .idle →
      exec (.consoleReply b (.events [⟨d, if side = .a then .outputA else .outputB⟩])) s =
        .next ((unitReply s b).setDesk b d { s.desk b d with selection := side })) ∧
    (∀ side : Side, s.deskState b d ≠ .idle →
      exec (.consoleReply b (.events [⟨d, if side = .a then .outputA else .outputB⟩])) s =
        .next ((unitReply s b).setDesk b d { s.desk b d with flash := true })) ∧
    (∀ c : Byte, (c = 0 ∨ (1 ≤ c.toNat ∧ c.toNat ≤ 31 ∧ (s.planEntry c.toNat).language ≠ 0 ∧
        ∃ o ∈ (s.planEntry c.toNat).outputs, o.booth ≠ b)) →
      ∃ t, exec (.consoleReply b (.events [⟨d, .relay c⟩])) s = .next t ∧
        t.relay b = (if c = 0 then none else some c.toNat) ∧ (∀ x, x ≠ b → t.relay x = s.relay x) ∧
        t.sourcesSettled ∧ t.plan = s.plan ∧ t.booths = s.booths ∧ t.turns = s.turns ∧
        t.arbiter.announcements = s.arbiter.announcements ∧ s.keepsFleet t ∧ s.keepsMoney t ∧
        t.supervisor = (unitReply s b).supervisor ∧ t.pending = s.pending ∧
        s.settles t (sourceNotices s t)) ∧
    (∀ c : Byte, c ≠ 0 → (31 < c.toNat ∨ (s.planEntry c.toNat).language = 0 ∨
        ∀ o ∈ (s.planEntry c.toNat).outputs, o.booth = b) →
      exec (.consoleReply b (.events [⟨d, .relay c⟩])) s =
        .next ((unitReply s b).setDesk b d { s.desk b d with flash := true })) ∧
    exec (.consoleReply b (.events [⟨d, .slow⟩])) s = .next ((unitReply s b).raise (.deskSlow b d)) ∧
    exec (.consoleReply b (.events [⟨d, .other⟩])) s = .next (unitReply s b)

/-- HANDOVER_WINDOW_EXPIRY: a PENDING domain whose timer falls to 0 becomes LIVE with the requester under TAKE, and LIVE
with the same desk under LAPSE with a flash on the requester. That this row is the second event taken for one domain
alone, with no effect away from the expiry, is the model's choice (log entry 4). A check whose channel the event takes
is preempted in it (log entry 20). -/
def Obligations.HandoverWindowExpiry : Prop :=
  ∀ (b : Nat) (place : Side) (s : State), 1 ≤ b → b ≤ 24 →
    (∀ d e n p, s.domain b place = .pending d e n p → d ≠ e → d ≤ 4 → e ≤ 4 →
      (1 < n → exec (.handoverWindowExpiry b place) s = .next s) ∧
      (n ≤ 1 → ∃ t, exec (.handoverWindowExpiry b place) s = .next t ∧
        (p = .take → s.domainMoved t b place (.live e) none) ∧
        (p = .lapse → s.domainMoved t b place (.live d) (some e)) ∧ t.supervisor = s.supervisor ∧
        s.settles t (s.moveNotices t b place true))) ∧
    ((s.domain b place).requester = none → exec (.handoverWindowExpiry b place) s = .next s)

/-! ### Turns -/

/-- TURN_LIMIT_REACHED and OVERRUN_LIMIT_REACHED: the second that brings a running turn to its held limit, or to the
limit plus a held overrun that is not 0, is counted to the live desk on its output and raises the mark, the notice
and, for the limit, the turn-due count, once in a turn. That each row is the second event taken for one domain is the
model's choice (log entry 4). -/
def Obligations.TurnThresholds : Prop :=
  ∀ (b : Nat) (place : Side) (d l : Nat) (s : State) (live : DeskRecord → DeskRecord), 1 ≤ b → b ≤ 24 → d ≤ 4 →
    (s.domain b place).liveDesk = some d → (s.turn b place).limit = some l → (s.turn b place).counter < 4294967295 →
    (live = fun r => match (s.desk b d).selection with
      | .a => { r with liveA := min (r.liveA + 1) 4294967295 }
      | .b => { r with liveB := min (r.liveB + 1) 4294967295 }) →
    ((s.turn b place).counter + 1 = l * 60 → (s.turn b place).dueRaised = false →
      exec (.turnLimitReached b place) s =
        .next (((s.setTurn b place
            { s.turn b place with counter := (s.turn b place).counter + 1, dueRaised := true }).setDeskRecord b d
            { live (s.deskRecord b d) with
              turnDue := min ((s.deskRecord b d).turnDue + 1) 4294967295 }).raise (.turnDue b d))) ∧
    (((s.turn b place).counter + 1 ≠ l * 60 ∨ (s.turn b place).dueRaised = true) →
      exec (.turnLimitReached b place) s = .next s) ∧
    ∀ o, (s.turn b place).overrun = some o →
      ((s.turn b place).counter + 1 = (l + o) * 60 → o ≠ 0 → (s.turn b place).overrunRaised = false →
        exec (.overrunLimitReached b place) s =
          .next (((s.setTurn b place
              { s.turn b place with counter := (s.turn b place).counter + 1, overrunRaised := true }).setDeskRecord b d
              (live (s.deskRecord b d))).raise (.turnOverrun b d))) ∧
      (((s.turn b place).counter + 1 ≠ (l + o) * 60 ∨ o = 0 ∨ (s.turn b place).overrunRaised = true) →
        exec (.overrunLimitReached b place) s = .next s)

/-! ### The coverage check -/

/-- START_CHECK is refused by R73's checks in order; accepted, it stores the program of the named positions that hold
a monitor, clears the table and the flags, excludes the channels in use below the first idle one, and places the
signature on that one, or is DONE at once if none is idle. -/
def Obligations.StartCheck : Prop :=
  ∀ (tag m r : Byte) (set : ChannelSet) (seed : Code16) (held : MonitorSet) (body : List Byte) (s : State),
    body = be32 set.toNat ++ [m] ++ be16 seed.toNat ++ [r] → s.canTake ⟨0x20, tag, body⟩ →
    (∀ p, held.getLsbD p = true ↔ m.getLsbD p = true ∧ s.monitorAt p ≠ none) →
    ((set = 0 ∨ set.getLsbD 0 = true ∨ m = 0) → exec (.startCheck tag body) s = .next (s.replied 0x20 tag [0x03])) ∧
    (set ≠ 0 → set.getLsbD 0 = false → m ≠ 0 →
      (s.check.state = .running → exec (.startCheck tag body) s = .next (s.replied 0x20 tag [0x02])) ∧
      (s.check.state ≠ .running → held = 0 → exec (.startCheck tag body) s = .next (s.replied 0x20 tag [0x10])) ∧
      (s.check.state ≠ .running → held ≠ 0 → ∀ (repeats : Nat) (next : Option Nat), repeats = max 1 (min r.toNat 16) →
        next = (List.range' 1 31).find? (fun c => set.getLsbD c &&
          (decide ((s.withoutTest c).identity = .fallback) || decide ((s.withoutTest c).identity = .unused))) →
        ∃ t, exec (.startCheck tag body) s = .next t ∧ t.check.program = some ⟨set, held, seed, repeats⟩ ∧
          t.check.current = next ∧ t.check.state = (if next = none then .done else .running) ∧
          t.check.generator = next.map (fun c => seed + BitVec.ofNat 16 (257 * c)) ∧
          t.check.dwell = (if next = none then 0 else 10) ∧ (∀ p, t.progress p = ⟨0, false⟩) ∧
          (∀ c, t.failed c = false) ∧
          (∀ c p, p < 8 →
            ((set.getLsbD c = true ∧ held.getLsbD p = true ∧ ∀ n, next = some n → c < n) →
              t.result c p = .excluded) ∧
            (¬(set.getLsbD c = true ∧ held.getLsbD p = true ∧ ∀ n, next = some n → c < n) →
              t.result c p = .notRun)) ∧
          s.sourcesFollow t ∧ t.arbiter.announcements = s.arbiter.announcements ∧ t.booths = s.booths ∧
          t.turns = s.turns ∧ s.keepsFleet t ∧ s.keepsMoney t ∧ s.keepsRest t ∧
          s.answeredWith t 0x20 tag [(if r.toNat = repeats then 0x00 else 0x01 : Byte), held, byteOf repeats]
            (sourceNotices s t ++ (if next = none then [.checkDone false 0] else []))))

/-- ABORT_CHECK ends a RUNNING check with its open entries and its flags as they stand and one CHECK_DONE with the
aborted mark behind the source notices; in IDLE and DONE it answers OK and changes nothing. CHECK_DWELL_EXPIRY: the
second event that brings the dwell of the current channel to 0 fails its open entries, MISCOMPARE where a mismatch was
seen and NO_REPLY elsewhere, sets its failure flag if one was open, and takes the check to the next idle channel of
the set or to DONE. That this row is that second event for the checker alone, with no effect away from the expiry, is
the model's choice (log entry 4), and so is that it has none with no channel current (log entry 7). -/
def Obligations.CheckEnds : Prop :=
  (∀ (tag : Byte) (s : State), s.canTake ⟨0x21, tag, []⟩ →
     (s.check.state ≠ .running → exec (.abortCheck tag []) s = .next (s.replied 0x21 tag [0x00])) ∧
     (s.check.state = .running → ∃ t, exec (.abortCheck tag []) s = .next t ∧
       t.check = { s.check with state := .done, current := none, generator := none, dwell := 0, progress := [] } ∧
       s.sourcesFollow t ∧ t.arbiter.announcements = s.arbiter.announcements ∧ t.booths = s.booths ∧
       t.turns = s.turns ∧ s.keepsFleet t ∧ s.keepsMoney t ∧ s.keepsRest t ∧
       s.answeredWith t 0x21 tag [0x00] (sourceNotices s t ++
         [.checkDone true ((List.range' 1 31).filter fun c => s.failed c).length]))) ∧
  (∀ s : State, ((s.check.current = none ∨ 1 < s.check.dwell) → exec .checkDwellExpiry s = .next s) ∧
     ∀ (c : Nat) (p : CheckProgram) (next : Option Nat), s.check.current = some c → s.check.dwell ≤ 1 →
       s.check.program = some p →
       next = (List.range' 1 31).find? (fun d => decide (c < d) && p.channels.getLsbD d &&
         (decide ((s.withoutTest d).identity = .fallback) || decide ((s.withoutTest d).identity = .unused))) →
       ∃ t, exec .checkDwellExpiry s = .next t ∧ t.check.program = some p ∧ t.check.current = next ∧
         t.check.state = (if next = none then .done else s.check.state) ∧
         t.check.generator = next.map (fun d => p.seed + BitVec.ofNat 16 (257 * d)) ∧
         t.check.dwell = (if next = none then 0 else 10) ∧ (∀ m, t.progress m = ⟨0, false⟩) ∧
         (∀ m, m < 8 →
           ((p.monitors.getLsbD m = true ∧ s.result c m = .notRun) →
             t.result c m = (if (s.progress m).mismatch = true then .miscompare else .noReply)) ∧
           (¬(p.monitors.getLsbD m = true ∧ s.result c m = .notRun) → t.result c m = s.result c m)) ∧
         (∀ d m, d ≠ c → m < 8 →
           ((c < d ∧ p.channels.getLsbD d = true ∧ p.monitors.getLsbD m = true ∧ ∀ n, next = some n → d < n) →
             t.result d m = .excluded) ∧
           (¬(c < d ∧ p.channels.getLsbD d = true ∧ p.monitors.getLsbD m = true ∧ ∀ n, next = some n → d < n) →
             t.result d m = s.result d m)) ∧
         (t.failed c = true ↔
           s.failed c = true ∨ ∃ m, m < 8 ∧ p.monitors.getLsbD m = true ∧ s.result c m = .notRun) ∧
         (∀ d, d ≠ c → t.failed d = s.failed d) ∧
         s.sourcesFollow t ∧ t.arbiter.announcements = s.arbiter.announcements ∧ t.booths = s.booths ∧
         t.turns = s.turns ∧ s.keepsFleet t ∧ s.keepsMoney t ∧ s.keepsRest t ∧
         s.raised t (sourceNotices s t ++
           (if next = none then [.checkDone false ((List.range' 1 31).filter fun d => t.failed d).length] else [])))

/-- READ_CHECK returns the check state, the program, the channel under test with its dwell and polls, the result table
and the failure flags in 272 bytes and changes no state. -/
def Obligations.ReadCheck : Prop :=
  ∀ (tag : Byte) (s : State) (set flags : ChannelSet) (monitors : MonitorSet) (seed : Code16) (repeats : Nat),
    s.canTake ⟨0x22, tag, []⟩ →
    (s.check.program = none → set = 0 ∧ monitors = 0 ∧ seed = 0 ∧ repeats = 0) →
    (∀ p, s.check.program = some p →
      set = p.channels ∧ monitors = p.monitors ∧ seed = p.seed ∧ repeats = p.repeats) →
    (∀ c, flags.getLsbD c = true ↔ 1 ≤ c ∧ c ≤ 31 ∧ s.failed c = true) → ∃ body : List Byte,
      exec (.readCheck tag []) s = .next (s.replied 0x22 tag body) ∧
      body =
        [(0x00 : Byte), (match s.check.state with | .idle => 0 | .running => 1 | .done => 2 : Byte)] ++ be32 set.toNat ++
          [monitors] ++ be16 seed.toNat ++
          [byteOf repeats, (match s.check.current with | none => 0 | some c => byteOf c : Byte),
            (match s.check.current with | none => 0 | some _ => byteOf s.check.dwell : Byte)] ++
          (List.range 8).map (fun (m : Nat) =>
            (if s.check.current ≠ none ∧ monitors.getLsbD m = true then byteOf (s.progress m).polls else 0 : Byte)) ++
          (List.range' 1 31).flatMap (fun (c : Nat) => (List.range 8).map (fun (m : Nat) =>
            (match s.result c m with
              | .notRun => 0
              | .pass => 1
              | .miscompare => 2
              | .noReply => 3
              | .preempted => 4
              | .excluded => 5 : Byte))) ++
          be32 flags.toNat ∧
      body.length = 272

/-- A completed poll of a monitor whose entry on the current channel is open: the right signature passes it; another,
none, or a miss is counted, and the count that reaches the repeats fails it with the failure flag. Another entry still
open keeps the channel current. The poll that settles the last open entry ends the channel: the check takes the next
idle channel of its set, entering EXCLUDED for those in use before it, or is DONE with CHECK_DONE behind the source
notices. A poll of a channel that is no longer current, of an earlier test of it, of an entry already settled, or of a
receiver at no position is a reply or a miss to the receiver alone. That a poll belongs to one placement of its channel
is the model's reading (log entry 12). -/
def Obligations.MonitorPolls : Prop :=
  (∀ (r m n c tuned band : Nat) (p : CheckProgram) (g x : Code16) (s u : State), s.check.current = some c →
    s.check.program = some p → s.check.generator = some g →
    s.beacon.inFlight = some ⟨r, .l3, none, some ⟨c, s.check.placements⟩⟩ → r ∈ s.beacon.l3.members →
    s.positionOf r = some m → p.monitors.getLsbD m = true → s.result c m = .notRun →
    n ≠ m → n < 8 → p.monitors.getLsbD n = true → s.result c n = .notRun → tuned ≤ 31 → band ≤ 7 →
    u = (s.setInFlight none).setReceiver r
      { s.receiver r with misses := 0, band := band, lastReply := some s.clock.seconds, tuned := some tuned } →
    exec (.beaconReply r tuned band (some g)) s = .next (u.setResult c m .pass) ∧
    ((s.progress m).polls + 1 < p.repeats →
      (x ≠ g → exec (.beaconReply r tuned band (some x)) s = .next (u.setProgress m ⟨(s.progress m).polls + 1, true⟩)) ∧
      exec (.beaconReply r tuned band none) s = .next (u.setProgress m ⟨(s.progress m).polls + 1, true⟩) ∧
      exec .beaconMiss s = .next (((s.setInFlight none).setReceiver r
        { s.receiver r with misses := min ((s.receiver r).misses + 1) 15 }).setProgress m
          ⟨(s.progress m).polls + 1, (s.progress m).mismatch⟩)) ∧
    (p.repeats ≤ (s.progress m).polls + 1 →
      (x ≠ g → exec (.beaconReply r tuned band (some x)) s =
        .next (((u.setProgress m ⟨(s.progress m).polls + 1, true⟩).setResult c m .miscompare).setFailed c)) ∧
      exec (.beaconReply r tuned band none) s =
        .next (((u.setProgress m ⟨(s.progress m).polls + 1, true⟩).setResult c m .miscompare).setFailed c) ∧
      exec .beaconMiss s = .next (((((s.setInFlight none).setReceiver r
        { s.receiver r with misses := min ((s.receiver r).misses + 1) 15 }).setProgress m
          ⟨(s.progress m).polls + 1, (s.progress m).mismatch⟩).setResult c m
            (if (s.progress m).mismatch = true then .miscompare else .noReply)).setFailed c))) ∧
  (∀ (r m c tuned band : Nat) (p : CheckProgram) (g : Code16) (i : Instr) (v : CheckResult) (e : Receiver)
     (next : Option Nat) (s : State), s.check.current = some c →
     s.check.program = some p → s.check.generator = some g →
     s.beacon.inFlight = some ⟨r, .l3, none, some ⟨c, s.check.placements⟩⟩ → r ∈ s.beacon.l3.members →
     s.positionOf r = some m → m < 8 → p.monitors.getLsbD m = true → s.result c m = .notRun →
     (∀ n, n < 8 → n ≠ m → p.monitors.getLsbD n = true → s.result c n ≠ .notRun) → tuned ≤ 31 → band ≤ 7 →
     ((e = { s.receiver r with misses := 0, band := band, lastReply := some s.clock.seconds, tuned := some tuned } ∧
         ((v = .pass ∧ i = .beaconReply r tuned band (some g)) ∨
           (v = .miscompare ∧ p.repeats ≤ (s.progress m).polls + 1 ∧
             ∃ x, x ≠ some g ∧ i = .beaconReply r tuned band x))) ∨
       (e = { s.receiver r with misses := min ((s.receiver r).misses + 1) 15 } ∧
         v = (if (s.progress m).mismatch = true then .miscompare else .noReply) ∧
         p.repeats ≤ (s.progress m).polls + 1 ∧ i = .beaconMiss)) →
     next = (List.range' 1 31).find? (fun d => decide (c < d) && p.channels.getLsbD d &&
       (decide ((s.withoutTest d).identity = .fallback) || decide ((s.withoutTest d).identity = .unused))) →
     ∃ t, exec i s = .next t ∧ t.result c m = v ∧ (∀ n, n < 8 → n ≠ m → t.result c n = s.result c n) ∧
       (t.failed c = (s.failed c || decide (v ≠ .pass))) ∧ (∀ d, d ≠ c → t.failed d = s.failed d) ∧
       (∀ d n, d ≠ c → n < 8 →
         ((c < d ∧ p.channels.getLsbD d = true ∧ p.monitors.getLsbD n = true ∧ ∀ q, next = some q → d < q) →
           t.result d n = .excluded) ∧
         (¬(c < d ∧ p.channels.getLsbD d = true ∧ p.monitors.getLsbD n = true ∧ ∀ q, next = some q → d < q) →
           t.result d n = s.result d n)) ∧
       t.check.program = some p ∧ t.check.current = next ∧
       t.check.state = (if next = none then .done else s.check.state) ∧
       t.check.generator = next.map (fun d => p.seed + BitVec.ofNat 16 (257 * d)) ∧
       t.check.dwell = (if next = none then 0 else 10) ∧ (∀ n, t.progress n = ⟨0, false⟩) ∧
       t.receiver r = e ∧ (∀ q, q ≠ r → t.receiver q = s.receiver q) ∧ t.fleet.monitors = s.fleet.monitors ∧
       t.racks = s.racks ∧ t.beacon = { s.beacon with inFlight := none } ∧
       s.sourcesFollow t ∧ t.arbiter.announcements = s.arbiter.announcements ∧ t.booths = s.booths ∧
       t.turns = s.turns ∧ s.keepsMoney t ∧ s.keepsRest t ∧
       s.raised t (sourceNotices s t ++
         (if next = none then [.checkDone false ((List.range' 1 31).filter fun d => t.failed d).length] else []))) ∧
  ∀ (r tuned band : Nat) (q : DecodeRequest) (x : Option Code16) (s : State),
    s.beacon.inFlight = some ⟨r, .l3, none, some q⟩ → r ∈ s.beacon.l3.members → tuned ≤ 31 → band ≤ 7 →
    (s.check.current ≠ some q.channel ∨ s.check.placements ≠ q.placement ∨ s.positionOf r = none ∨
      ∃ m, s.positionOf r = some m ∧ s.result q.channel m ≠ .notRun) →
    exec (.beaconReply r tuned band x) s = .next ((s.setInFlight none).setReceiver r
      { s.receiver r with misses := 0, band := band, lastReply := some s.clock.seconds, tuned := some tuned }) ∧
    exec .beaconMiss s = .next ((s.setInFlight none).setReceiver r
      { s.receiver r with misses := min ((s.receiver r).misses + 1) 15 })

/-! ### Receivers and racks -/

/-- READ_RECEIVER returns the entry of a receiver 0 to 4,095 in 25 bytes, and READ_RACK a rack's unit state and its 48
slot records in 147 bytes; both change no state, and a receiver above 4,095 or a rack outside 1 to 16 is refused with
RANGE. -/
def Obligations.ReadReceiverAndRack : Prop :=
  (∀ (tag : Byte) (r : Nat) (s : State), r < 65536 → s.canTake ⟨0x28, tag, be16 r⟩ →
     (4095 < r → exec (.readReceiver tag (be16 r)) s = .next (s.replied 0x28 tag [0x03])) ∧
     ∀ (e : Receiver) (position : Byte), r ≤ 4095 → e = s.receiver r →
       (∀ p, p ≤ 7 → s.monitorAt p = some r → (∀ q, q < p → s.monitorAt q ≠ some r) → position = byteOf p) →
       ((∀ p, p ≤ 7 → s.monitorAt p ≠ some r) → position = 0xFF) → ∃ body : List Byte,
         exec (.readReceiver tag (be16 r)) s = .next (s.replied 0x28 tag body) ∧
         body =
           0x00 :: be16 r ++
             [(match e.state with
               | .unknown => 1
               | .docked => 2
               | .reserved => 3
               | .out => 4
               | .silent => 5
               | .stray => 6
               | .lost => 7
               | .monitor => 8
               | .withdrawn => 9 : Byte),
               (match e.location with | none => 0 | some l => byteOf l.rack : Byte),
               (match e.location with | none => 0 | some l => byteOf l.slot : Byte), byteOf e.band] ++
             (match e.lastReply with | none => 0 :: be32 0 | some n => 1 :: be32 n : List Byte) ++
             [(match e.tuned with | none => 0xFF | some c => byteOf c : Byte), byteOf e.misses] ++
             (match e.hire with | none => be32 0 | some n => be32 n : List Byte) ++
             (match e.silentSince with | none => 0 :: be32 0 | some n => 1 :: be32 n : List Byte) ++
             [(if e.missingReported = true then 1 else 0 : Byte), position] ∧
         body.length = 25) ∧
  (∀ (tag k : Byte) (s : State), s.canTake ⟨0x29, tag, [k]⟩ →
     ((k.toNat = 0 ∨ 16 < k.toNat) → exec (.readRack tag [k]) s = .next (s.replied 0x29 tag [0x03])) ∧
     (1 ≤ k.toNat → k.toNat ≤ 16 → ∃ body : List Byte, exec (.readRack tag [k]) s = .next (s.replied 0x29 tag body) ∧
       body =
         [0x00, k, (match (s.unit (24 + k.toNat)).state with | .unseen => 0 | .present => 1 | .lost => 2 : Byte)] ++
           (List.range' 1 48).flatMap (fun (x : Nat) =>
             (match s.slot ⟨k.toNat, x⟩ with
               | none => [0xFF, 0xFF, 0]
               | some r => be16 r ++ [byteOf (s.receiver r).band] : List Byte)) ∧
       body.length = 147))

/-- SET_MONITOR is refused by R95's checks in order; accepted, the position holds the receiver, which joins L3 as
MONITOR unless it only moved from another position, and the receiver the position held before is released to DOCKED or
UNKNOWN. CLEAR_MONITOR releases the receiver at a position to DOCKED or UNKNOWN and takes it out of L3; an empty
position gives OK with no change, a position above 7 RANGE, and a RUNNING check BUSY. That a position above 7 gives RANGE
to CLEAR_MONITOR while the check is RUNNING is the model's choice (log entry 23). -/
def Obligations.Monitors : Prop :=
  (∀ (tag p : Byte) (r : Nat) (s : State), r < 65536 → s.canTake ⟨0x2A, tag, p :: be16 r⟩ →
     ((7 < p.toNat ∨ 4095 < r) → exec (.setMonitor tag (p :: be16 r)) s = .next (s.replied 0x2A tag [0x03])) ∧
     (p.toNat ≤ 7 → r ≤ 4095 →
       (s.check.state = .running → exec (.setMonitor tag (p :: be16 r)) s = .next (s.replied 0x2A tag [0x02])) ∧
       (s.check.state ≠ .running →
         (((s.receiver r).state = .reserved ∨ (s.receiver r).state = .out ∨ (s.receiver r).state = .silent ∨
             (s.receiver r).state = .lost) →
           exec (.setMonitor tag (p :: be16 r)) s = .next (s.replied 0x2A tag [0x09])) ∧
         (((s.receiver r).state = .unknown ∨ (s.receiver r).state = .docked ∨ (s.receiver r).state = .stray ∨
             (s.receiver r).state = .monitor ∨ (s.receiver r).state = .withdrawn) →
           (s.monitorAt p.toNat = some r →
             exec (.setMonitor tag (p :: be16 r)) s = .next (s.replied 0x2A tag [0x00])) ∧
           (s.monitorAt p.toNat ≠ some r →
             ∃ t, exec (.setMonitor tag (p :: be16 r)) s = .next t ∧ t.monitorAt p.toNat = some r ∧
               (∀ q, q ≠ p.toNat → s.positionOf r ≠ some q → t.monitorAt q = s.monitorAt q) ∧
               (∀ q, s.positionOf r = some q → t.monitorAt q = none ∧ t.receiver r = s.receiver r) ∧
               (s.positionOf r = none → t.receiver r = { s.receiver r with state := .monitor, misses := 0 }) ∧
               (∀ m, s.monitorAt p.toNat = some m → t.receiver m =
                 { s.receiver m with state := if (s.receiver m).location = none then .unknown else .docked }) ∧
               (∀ q, q ≠ r → s.monitorAt p.toNat ≠ some q → t.receiver q = s.receiver q) ∧
               (∃ l3 : PollList, (s.monitorAt p.toNat = none → l3 = s.beacon.l3) ∧
                 (∀ m, s.monitorAt p.toNat = some m → s.beacon.l3.loses m l3) ∧
                 (s.positionOf r = none → l3.gains r t.beacon.l3) ∧ (s.positionOf r ≠ none → t.beacon.l3 = l3)) ∧
               ((s.positionOf r = none ∧ (s.receiver r).state = .stray) → s.beacon.l1.loses r t.beacon.l1) ∧
               (¬(s.positionOf r = none ∧ (s.receiver r).state = .stray) → t.beacon.l1 = s.beacon.l1) ∧
               (t.beacon = { s.beacon with l1 := t.beacon.l1, l3 := t.beacon.l3 } ∧ t.racks = s.racks) ∧
               s.keepsAudio t ∧ s.keepsMoney t ∧ s.keepsRest t ∧ s.answeredWith t 0x2A tag [0x00] []))))) ∧
  (∀ (tag p : Byte) (s : State), s.canTake ⟨0x2B, tag, [p]⟩ →
     (7 < p.toNat → exec (.clearMonitor tag [p]) s = .next (s.replied 0x2B tag [0x03])) ∧
     (p.toNat ≤ 7 → s.check.state = .running → exec (.clearMonitor tag [p]) s = .next (s.replied 0x2B tag [0x02])) ∧
     (p.toNat ≤ 7 → s.check.state ≠ .running →
       (s.monitorAt p.toNat = none → exec (.clearMonitor tag [p]) s = .next (s.replied 0x2B tag [0x00])) ∧
       ∀ m, s.monitorAt p.toNat = some m → ∃ t, exec (.clearMonitor tag [p]) s = .next t ∧
         t.monitorAt p.toNat = none ∧ (∀ q, q ≠ p.toNat → t.monitorAt q = s.monitorAt q) ∧
         t.receiver m = { s.receiver m with state := if (s.receiver m).location = none then .unknown else .docked } ∧
         (∀ q, q ≠ m → t.receiver q = s.receiver q) ∧
         s.beacon.l3.loses m t.beacon.l3 ∧
         (t.beacon = { s.beacon with l3 := t.beacon.l3 } ∧ t.racks = s.racks) ∧
         s.keepsAudio t ∧ s.keepsMoney t ∧ s.keepsRest t ∧ s.answeredWith t 0x2B tag [0x00] []))

/-- WITHDRAW_RECEIVER and RESTORE_RECEIVER by the receiver's state: what becomes WITHDRAWN, what leaves L1, what is
refused, and where a restored receiver stands. -/
def Obligations.WithdrawAndRestore : Prop :=
  ∀ (tag : Byte) (r : Nat) (s : State), r < 65536 →
    (s.canTake ⟨0x2C, tag, be16 r⟩ →
      (4095 < r → exec (.withdrawReceiver tag (be16 r)) s = .next (s.replied 0x2C tag [0x03])) ∧
      (r ≤ 4095 →
        (((s.receiver r).state = .unknown ∨ (s.receiver r).state = .docked ∨ (s.receiver r).state = .lost) →
          exec (.withdrawReceiver tag (be16 r)) s =
            .next ((s.setReceiver r { s.receiver r with state := .withdrawn }).replied 0x2C tag [0x00])) ∧
        ((s.receiver r).state = .stray → ∃ l1, s.beacon.l1.loses r l1 ∧
          exec (.withdrawReceiver tag (be16 r)) s =
            .next (((s.setPollList .l1 l1).setReceiver r { s.receiver r with state := .withdrawn }).replied 0x2C tag
              [0x00])) ∧
        ((s.receiver r).state = .withdrawn →
          exec (.withdrawReceiver tag (be16 r)) s = .next (s.replied 0x2C tag [0x00])) ∧
        (((s.receiver r).state = .reserved ∨ (s.receiver r).state = .out ∨ (s.receiver r).state = .silent ∨
            (s.receiver r).state = .monitor) →
          exec (.withdrawReceiver tag (be16 r)) s = .next (s.replied 0x2C tag [0x05])))) ∧
    (s.canTake ⟨0x2D, tag, be16 r⟩ →
      (4095 < r → exec (.restoreReceiver tag (be16 r)) s = .next (s.replied 0x2D tag [0x03])) ∧
      (r ≤ 4095 →
        ((s.receiver r).state = .withdrawn → exec (.restoreReceiver tag (be16 r)) s =
          .next ((s.setReceiver r { s.receiver r with
            state := if (s.receiver r).location = none then .unknown else .docked }).replied 0x2D tag [0x00])) ∧
        ((s.receiver r).state ≠ .withdrawn →
          exec (.restoreReceiver tag (be16 r)) s = .next (s.replied 0x2D tag [0x10]))))

/-- An UNDOCK from a PRESENT rack, in answer to its poll, empties the slot: a RESERVED receiver goes OUT in L0 and its
hire becomes ACTIVE with HIRE_STARTED, a DOCKED one becomes STRAY in L1 with its notice, a MONITOR or WITHDRAWN one
only loses its location; an empty slot or one out of range changes nothing. -/
def Obligations.RackUndock : Prop :=
  ∀ (k x : Nat) (l : Location) (s : State), 1 ≤ k → k ≤ 16 → l = ⟨k, x⟩ → s.awaitsRack k →
    (s.unit (24 + k)).state = .present →
    ((x = 0 ∨ 48 < x ∨ s.slot l = none) →
      exec (.rackReply k (.reports [.undock x])) s = .next (unitReply s (24 + k))) ∧
    ∀ r, 1 ≤ x → x ≤ 48 → s.slot l = some r →
      (((s.receiver r).state = .monitor ∨ (s.receiver r).state = .withdrawn) →
        exec (.rackReply k (.reports [.undock x])) s = .next (((unitReply s (24 + k)).setSlot l none).setReceiver r
          { s.receiver r with location := none })) ∧
      ((s.receiver r).state = .docked → ∃ t, exec (.rackReply k (.reports [.undock x])) s = .next t ∧
        t.racks = (s.setSlot l none).racks ∧
        t.receiver r = { s.receiver r with location := none, state := .stray, misses := 0 } ∧
        (∀ q, q ≠ r → t.receiver q = s.receiver q) ∧ t.fleet.monitors = s.fleet.monitors ∧
        s.beacon.l1.gains r t.beacon.l1 ∧ t.beacon = { s.beacon with l1 := t.beacon.l1 } ∧
        s.keepsAudio t ∧ s.keepsMoney t ∧ t.clock = s.clock ∧ t.supervisor = (unitReply s (24 + k)).supervisor ∧
        t.limits = s.limits ∧ t.pending = s.pending ∧ s.raised t [.stray r k x]) ∧
      ∀ n h w, (s.receiver r).state = .reserved → (s.receiver r).hire = some n → s.hire n = some h →
        h.state = .pending w → h.receiver = r → ∃ t, exec (.rackReply k (.reports [.undock x])) s = .next t ∧
          t.racks = (s.setSlot l none).racks ∧
          t.receiver r = { s.receiver r with location := none, state := .out, tuned := none, misses := 0 } ∧
          (∀ q, q ≠ r → t.receiver q = s.receiver q) ∧ t.fleet.monitors = s.fleet.monitors ∧
          s.beacon.l0.gains r t.beacon.l0 ∧ t.lowMark r = false ∧
          (∀ q, q ≠ r → t.lowMark q = s.lowMark q) ∧
          t.beacon = { s.beacon with l0 := t.beacon.l0, lowMarks := t.beacon.lowMarks } ∧
          t.hire n = some { h with state := .active s.clock.seconds s.clock.degradedCount } ∧
          (∀ q, q ≠ n → t.hire q = s.hire q) ∧ t.hires.next = s.hires.next ∧
          s.keepsAudio t ∧ t.money = s.money ∧ t.meters = s.meters ∧ t.clock = s.clock ∧
          t.supervisor = (unitReply s (24 + k)).supervisor ∧ t.limits = s.limits ∧ t.pending = s.pending ∧
          s.raised t [.hireStarted n r s.clock.seconds h.reconciled]

/-- A DOCK from a PRESENT rack, in answer to its poll, into an empty slot of a receiver held nowhere: an UNKNOWN, STRAY
or LOST receiver becomes DOCKED there with the notice of its state, a MONITOR or WITHDRAWN one keeps its state; a
receiver held in another slot is relocated with nothing else changed; a repeat stores the band; BATTERY stores the band
of the receiver in its slot. A DOCK into a slot that holds another receiver is an UNDOCK of that slot and then the
DOCK: a DOCKED one so displaced is STRAY in L1, and a RESERVED one is OUT in L0 with its hire ACTIVE. Of the reports of
one reply the first sixteen are taken, in order, each whole: what a reply of up to sixteen gives is what its last
report gives in the state that the others give, as if it alone answered that poll. -/
def Obligations.RackDock : Prop :=
  (∀ (k : Nat) (y : List RackReport) (s : State),
    exec (.rackReply k (.reports y)) s = exec (.rackReply k (.reports (y.take 16))) s) ∧
  (∀ (k : Nat) (y : List RackReport) (e : RackReport) (s t : State), 1 ≤ k → k ≤ 16 → s.awaitsRack k →
    (s.unit (24 + k)).state = .present → y.length < 16 → exec (.rackReply k (.reports y)) s = .next t →
    exec (.rackReply k (.reports (y ++ [e]))) s = exec (.rackReply k (.reports [e]))
      { t with supervisor := { t.supervisor with rackPoll := s.supervisor.rackPoll } }) ∧
  (∀ (k x r q band : Nat) (l : Location) (s : State), 1 ≤ k → k ≤ 16 → l = ⟨k, x⟩ → s.awaitsRack k →
    (s.unit (24 + k)).state = .present → 1 ≤ x → x ≤ 48 → r ≤ 4095 → band ≤ 7 → s.slot l = some q → q ≠ r →
    exec (.rackReply k (.reports [.dock x r band])) s =
      exec (.rackReply k (.reports [.undock x, .dock x r band])) s ∧
    ((s.receiver r).state = .unknown → (s.receiver r).location = none →
      ((s.receiver q).state = .docked → ∃ t, exec (.rackReply k (.reports [.dock x r band])) s = .next t ∧
        t.racks = (s.setSlot l (some r)).racks ∧
        t.receiver q = { s.receiver q with location := none, state := .stray, misses := 0 } ∧
        t.receiver r = { s.receiver r with location := some l, band := band, state := .docked } ∧
        (∀ y, y ≠ q → y ≠ r → t.receiver y = s.receiver y) ∧ t.fleet.monitors = s.fleet.monitors ∧
        s.beacon.l1.gains q t.beacon.l1 ∧ t.beacon = { s.beacon with l1 := t.beacon.l1 } ∧
        s.keepsAudio t ∧ s.keepsMoney t ∧ t.clock = s.clock ∧ t.supervisor = (unitReply s (24 + k)).supervisor ∧
        t.limits = s.limits ∧ t.pending = s.pending ∧ s.raised t [.stray q k x]) ∧
      ∀ n h w, (s.receiver q).state = .reserved → (s.receiver q).hire = some n → s.hire n = some h →
        h.state = .pending w → h.receiver = q → ∃ t, exec (.rackReply k (.reports [.dock x r band])) s = .next t ∧
          t.racks = (s.setSlot l (some r)).racks ∧
          t.receiver q = { s.receiver q with location := none, state := .out, tuned := none, misses := 0 } ∧
          t.receiver r = { s.receiver r with location := some l, band := band, state := .docked } ∧
          (∀ y, y ≠ q → y ≠ r → t.receiver y = s.receiver y) ∧ t.fleet.monitors = s.fleet.monitors ∧
          s.beacon.l0.gains q t.beacon.l0 ∧ t.lowMark q = false ∧
          (∀ y, y ≠ q → t.lowMark y = s.lowMark y) ∧
          t.beacon = { s.beacon with l0 := t.beacon.l0, lowMarks := t.beacon.lowMarks } ∧
          t.hire n = some { h with state := .active s.clock.seconds s.clock.degradedCount } ∧
          (∀ y, y ≠ n → t.hire y = s.hire y) ∧ t.hires.next = s.hires.next ∧
          s.keepsAudio t ∧ t.money = s.money ∧ t.meters = s.meters ∧ t.clock = s.clock ∧
          t.supervisor = (unitReply s (24 + k)).supervisor ∧ t.limits = s.limits ∧ t.pending = s.pending ∧
          s.raised t [.hireStarted n q s.clock.seconds h.reconciled])) ∧
  ∀ (k x r band : Nat) (l : Location) (s : State), 1 ≤ k → k ≤ 16 → l = ⟨k, x⟩ → s.awaitsRack k →
    (s.unit (24 + k)).state = .present →
    ((x = 0 ∨ 48 < x ∨ 4095 < r ∨ 7 < band) →
      exec (.rackReply k (.reports [.dock x r band])) s = .next (unitReply s (24 + k))) ∧
    (1 ≤ x → x ≤ 48 → r ≤ 4095 → band ≤ 7 →
      (s.slot l = some r → (s.receiver r).location = some l →
        exec (.rackReply k (.reports [.dock x r band])) s =
          .next ((unitReply s (24 + k)).setReceiver r { s.receiver r with band := band })) ∧
      (s.slot l = none →
        (∀ m, (s.receiver r).location = some m → m ≠ l → exec (.rackReply k (.reports [.dock x r band])) s =
          .next ((((unitReply s (24 + k)).setSlot m none).setSlot l (some r)).setReceiver r
            { s.receiver r with location := some l, band := band })) ∧
        ((s.receiver r).location = none →
          (((s.receiver r).state = .monitor ∨ (s.receiver r).state = .withdrawn) →
            exec (.rackReply k (.reports [.dock x r band])) s =
              .next (((unitReply s (24 + k)).setSlot l (some r)).setReceiver r
                { s.receiver r with location := some l, band := band })) ∧
          ((s.receiver r).state = .unknown → exec (.rackReply k (.reports [.dock x r band])) s =
            .next (((unitReply s (24 + k)).setSlot l (some r)).setReceiver r
              { s.receiver r with location := some l, band := band, state := .docked })) ∧
          ((s.receiver r).state = .lost → exec (.rackReply k (.reports [.dock x r band])) s =
            .next ((((unitReply s (24 + k)).setSlot l (some r)).setReceiver r
              { s.receiver r with location := some l, band := band, state := .docked }).raise (.recovered r k x))) ∧
          ((s.receiver r).state = .stray → ∃ l1, s.beacon.l1.loses r l1 ∧
            exec (.rackReply k (.reports [.dock x r band])) s =
              .next (((((unitReply s (24 + k)).setSlot l (some r)).setPollList .l1 l1).setReceiver r
                { s.receiver r with location := some l, band := band, state := .docked }).raise
                  (.strayReturned r k x)))))) ∧
    (1 ≤ x → x ≤ 48 → band ≤ 7 →
      (∀ q, s.slot l = some q → exec (.rackReply k (.reports [.battery x band])) s =
        .next ((unitReply s (24 + k)).setReceiver q { s.receiver q with band := band })) ∧
      (s.slot l = none → exec (.rackReply k (.reports [.battery x band])) s = .next (unitReply s (24 + k))))

/-- A DOCK of an OUT or SILENT receiver, in answer to its rack's poll, closes its hire at the time now, credits an OUT
one for the time since its last reply, takes the receiver out of its poll list and its listener count, and settles the
hire at the queue's tail with HIRE_SETTLED, or leaves it CLOSING while the queue is full. -/
def Obligations.DockClosesHire : Prop :=
  ∀ (k x r band n st ds : Nat) (h closed : Hire) (l : Location) (s : State), 1 ≤ k → k ≤ 16 → 1 ≤ x → x ≤ 48 →
    r ≤ 4095 → band ≤ 7 → l = ⟨k, x⟩ → s.awaitsRack k → (s.unit (24 + k)).state = .present → s.slot l = none →
    (s.receiver r).location = none → ((s.receiver r).state = .out ∨ (s.receiver r).state = .silent) →
    (s.receiver r).hire = some n → s.hire n = some h → h.number = n → h.receiver = r → h.state = .active st ds →
    closed = { h with state := .closing st ds s.clock.seconds s.clock.degradedCount } →
    ∃ t, exec (.rackReply k (.reports [.dock x r band])) s = .next t ∧ t.racks = (s.setSlot l (some r)).racks ∧
      t.receiver r = { s.receiver r with
        location := some l, band := band, state := .docked, hire := none, silentSince := none,
        missingReported := false } ∧
      (∀ q, q ≠ r → t.receiver q = s.receiver q) ∧ t.fleet.monitors = s.fleet.monitors ∧
      (∃ y : Settlement, y = settlementOf (s.tariff h.tariff) closed st ds s.clock.seconds s.clock.degradedCount ∧
        s.hireCloses t closed y ∧ s.raised t (s.settledNotices y)) ∧
      s.keepsAudio t ∧ t.clock = s.clock ∧ t.supervisor = (unitReply s (24 + k)).supervisor ∧
      t.limits = s.limits ∧ t.pending = s.pending

/-- A console that returns, in answer to its poll. With every key up and no desk LIVE the enabled desks take the
reported selections, every cough flag of the booth clears and no fault is raised. A desk held LIVE whose key is up is
taken as a MIC_OFF. Of a live desk and its requester, the key of either up is a MIC_OFF, and of both up two of them, in
ascending desk order. In SESSION, with both domains IDLE, one key down on an output that may be claimed is a MIC_ON on
the reported selection. Each gives a CONSOLE_STATE_MISMATCH of its number of corrections. A rack that returns, in
answer to its poll: an empty inventory over an empty map, and a slot that holds the receiver reported, whose band is
stored, raise RECONCILED with 0 changes alone; a RESERVED receiver gone is drawn with its hire marked RECONCILED; an
UNKNOWN receiver in an empty slot is docked; one in a slot that holds a DOCKED receiver displaces it as STRAY; an OUT
or SILENT receiver found closes its hire now, marked RECONCILED, and is docked; and a receiver that the map holds in
another rack or in a later slot, found in an empty slot, is relocated, with nothing else of it changed: each with
RECONCILED of 1 change and an INVENTORY_MISMATCH. A DOCKED receiver found in a later slot of its rack leaves its own
first, as STRAY, and returns: 2 changes. That pass 3 judges a desk IDLE as it reaches it is the model's choice (log
entry 22). A check whose channel the event takes is preempted in it (log entry 20). -/
def Obligations.ReturnsReconcile : Prop :=
  ∀ s : State,
    (∀ (b : Nat) (rep : Nat → DeskReport), 1 ≤ b → b ≤ 24 → s.awaitsConsole b → (s.unit b).state ≠ .present →
      ((∀ d, 1 ≤ d → d ≤ 4 → s.enabled b d = true → (rep d).keyDown = false) →
        ((∀ d, 1 ≤ d → d ≤ 4 → s.enabled b d = true → s.deskState b d = .idle) →
          ∃ t, exec (.consoleReply b (.report (rep 1) (rep 2) (rep 3) (rep 4))) s = .next t ∧
            t.unit b = ⟨.present, 0⟩ ∧ (∀ u, u ≠ b → t.unit u = s.unit u) ∧ t.supervisor.faults = s.supervisor.faults ∧
            (∀ d, 1 ≤ d → d ≤ 4 → t.desk b d = { s.desk b d with
              selection := if s.enabled b d = true then (rep d).selection else (s.desk b d).selection, cough := false }) ∧
            (∀ x d, d ≤ 7 → (x ≠ b ∨ d = 0 ∨ 4 < d) → t.desk x d = s.desk x d) ∧
            t.booths.domains = s.booths.domains ∧ t.turns = s.turns ∧ s.sourcesFollow t ∧
            t.arbiter.announcements = s.arbiter.announcements ∧ s.keepsFleet t ∧ s.keepsMoney t ∧ t.clock = s.clock ∧
            t.limits = s.limits ∧ t.pending = s.pending ∧
            s.settles t (sourceNotices s t)) ∧
        ∀ (x : Nat) (place : Side), 1 ≤ x → x ≤ 4 → s.enabled b x = true → place = s.deskPlace b x →
          s.domain b place = .live x →
          (∀ d, 1 ≤ d → d ≤ 4 → d ≠ x → s.enabled b d = true → s.deskState b d = .idle) →
          ∃ t, exec (.consoleReply b (.report (rep 1) (rep 2) (rep 3) (rep 4))) s = .next t ∧
            t.unit b = ⟨.present, 0⟩ ∧ (∀ u, u ≠ b → t.unit u = s.unit u) ∧
            t.turn b place = ⟨0, none, none, false, false⟩ ∧ s.turnsFollow t b place .idle ∧
            (∀ d, 1 ≤ d → d ≤ 4 → (t.desk b d).cough = false ∧ (s.enabled b d = true →
              (t.desk b d).selection = (rep d).selection)) ∧
            s.sourcesFollow t ∧ t.arbiter.announcements = s.arbiter.announcements ∧
            (s.check.current = none → t.check = s.check) ∧
            ((s.faultRecord b).fault = none → t.faultRecord b =
              ⟨some ⟨.note, .consoleStateMismatch, s.clock.seconds, 1⟩, (s.faultRecord b).overflow⟩) ∧
            (∀ e, (s.faultRecord b).fault = some e → t.faultRecord b = ⟨some e, true⟩) ∧
            (∀ u, u ≠ b → t.faultRecord u = s.faultRecord u) ∧ s.keepsFleet t ∧ s.keepsMoney t ∧
            t.clock = s.clock ∧ t.limits = s.limits ∧ t.pending = s.pending) ∧
      (∀ (d e n : Nat) (p : ExpiryPolicy) (place : Side) (new : Domain) (made : Nat), 1 ≤ d → d ≤ 4 → 1 ≤ e → e ≤ 4 →
        d ≠ e → s.enabled b d = true → s.enabled b e = true → place = s.deskPlace b d → place = s.deskPlace b e →
        s.domain b place = .pending d e n p →
        (∀ x, 1 ≤ x → x ≤ 4 → x ≠ d → x ≠ e → s.enabled b x = true →
          s.deskState b x = .idle ∧ (rep x).keyDown = false) →
        (((rep d).keyDown = false ∧ (rep e).keyDown = true ∧ new = .live e ∧ made = 1) ∨
          ((rep d).keyDown = true ∧ (rep e).keyDown = false ∧ new = .live d ∧ made = 1) ∨
          ((rep d).keyDown = false ∧ (rep e).keyDown = false ∧ new = .idle ∧ made = 2)) →
        ∃ t, exec (.consoleReply b (.report (rep 1) (rep 2) (rep 3) (rep 4))) s = .next t ∧
          t.unit b = ⟨.present, 0⟩ ∧ (∀ u, u ≠ b → t.unit u = s.unit u) ∧ t.domain b place = new ∧
          (∀ y q, (y ≠ b ∨ q ≠ place) → t.domain y q = s.domain y q ∧ t.turn y q = s.turn y q) ∧
          (∀ x, 1 ≤ x → x ≤ 4 → s.enabled b x = true → (t.desk b x).cough = false ∧ (t.desk b x).selection =
            (if new.liveDesk = some x then (s.desk b x).selection else (rep x).selection)) ∧
          s.announcementsFollow t b place new ∧ s.sourcesFollow t ∧ (s.check.current = none → t.check = s.check) ∧
          ((s.faultRecord b).fault = none → t.faultRecord b =
            ⟨some ⟨.note, .consoleStateMismatch, s.clock.seconds, made⟩, (s.faultRecord b).overflow⟩) ∧
          (∀ f, (s.faultRecord b).fault = some f → t.faultRecord b = ⟨some f, true⟩) ∧
          (∀ u, u ≠ b → t.faultRecord u = s.faultRecord u) ∧ s.keepsFleet t ∧ s.keepsMoney t ∧
          t.clock = s.clock ∧ t.limits = s.limits ∧ t.pending = s.pending) ∧
      ∀ (e : Nat) (place : Side), 1 ≤ e → e ≤ 4 → s.enabled b e = true → s.plan.hall = .session →
        (∀ side, s.domain b side = .idle) → place = s.placeOf b (rep e).selection →
        s.claimable ⟨b, (rep e).selection⟩ → (rep e).keyDown = true →
        (∀ d, 1 ≤ d → d ≤ 4 → d ≠ e → s.enabled b d = true → (rep d).keyDown = false) →
        ∃ t, exec (.consoleReply b (.report (rep 1) (rep 2) (rep 3) (rep 4))) s = .next t ∧
          t.unit b = ⟨.present, 0⟩ ∧ (∀ u, u ≠ b → t.unit u = s.unit u) ∧ t.domain b place = .live e ∧
          t.turn b place = ⟨0, some (s.config b).turnLimit, some (s.config b).overrun, false, false⟩ ∧
          (∀ y q, (y ≠ b ∨ q ≠ place) → t.domain y q = s.domain y q ∧ t.turn y q = s.turn y q) ∧
          (∀ d, 1 ≤ d → d ≤ 4 → (t.desk b d).cough = false ∧ (s.enabled b d = true →
            (t.desk b d).selection = (rep d).selection)) ∧
          t.deskRecord b e = { s.deskRecord b e with
            turnsStarted := min ((s.deskRecord b e).turnsStarted + 1) 4294967295 } ∧
          (∀ x d, d ≤ 7 → (x ≠ b ∨ d ≠ e) → t.deskRecord x d = s.deskRecord x d) ∧ s.sourcesFollow t ∧
          t.arbiter.announcements = s.arbiter.announcements ∧ (s.check.current = none → t.check = s.check) ∧
          ((s.faultRecord b).fault = none → t.faultRecord b =
            ⟨some ⟨.note, .consoleStateMismatch, s.clock.seconds, 1⟩, (s.faultRecord b).overflow⟩) ∧
          (∀ f, (s.faultRecord b).fault = some f → t.faultRecord b = ⟨some f, true⟩) ∧
          (∀ u, u ≠ b → t.faultRecord u = s.faultRecord u) ∧ s.keepsFleet t ∧ s.keepsMoney t ∧
          t.clock = s.clock ∧ t.limits = s.limits ∧ t.pending = s.pending) ∧
    ∀ k : Nat, 1 ≤ k → k ≤ 16 → s.awaitsRack k → (s.unit (24 + k)).state ≠ .present →
      ((∀ y, 1 ≤ y → y ≤ 48 → s.slot ⟨k, y⟩ = none) →
        exec (.rackReply k (.inventory (List.replicate 48 .empty))) s =
          .next ((unitReply s (24 + k)).raise (.reconciled k 0))) ∧
      (∀ (x r : Nat) (mismatch : FaultEntry), 1 ≤ x → x ≤ 48 → r ≤ 4095 →
        mismatch = ⟨.note, .inventoryMismatch, s.clock.seconds, 1⟩ →
        (∀ y, 1 ≤ y → y ≤ 48 → y ≠ x → s.slot ⟨k, y⟩ = none) →
        (∀ n h w, s.slot ⟨k, x⟩ = some r → (s.receiver r).state = .reserved → (s.receiver r).hire = some n →
          s.hire n = some h → h.state = .pending w → h.receiver = r →
          ∃ t, exec (.rackReply k (.inventory (List.replicate 48 .empty))) s = .next t ∧
            t.racks = (s.setSlot ⟨k, x⟩ none).racks ∧ t.unit (24 + k) = ⟨.present, 0⟩ ∧
            t.receiver r = { s.receiver r with location := none, state := .out, tuned := none, misses := 0 } ∧
            (∀ q, q ≠ r → t.receiver q = s.receiver q) ∧ s.beacon.l0.gains r t.beacon.l0 ∧
            t.beacon = { s.beacon with l0 := t.beacon.l0, lowMarks := t.beacon.lowMarks } ∧ t.lowMark r = false ∧
            (∀ q, q ≠ r → t.lowMark q = s.lowMark q) ∧ t.hire n = some
              { h with state := .active s.clock.seconds s.clock.degradedCount, reconciled := true } ∧
            (∀ q, q ≠ n → t.hire q = s.hire q) ∧
            ((s.faultRecord (24 + k)).fault = none →
              t.faultRecord (24 + k) = ⟨some mismatch, (s.faultRecord (24 + k)).overflow⟩ ∧
              s.raised t [.hireStarted n r s.clock.seconds true, .reconciled k 1, .fault (24 + k) mismatch]) ∧
            (∀ e, (s.faultRecord (24 + k)).fault = some e → t.faultRecord (24 + k) = ⟨some e, true⟩ ∧
              s.raised t [.hireStarted n r s.clock.seconds true, .reconciled k 1]) ∧
            s.keepsAudio t ∧ t.money = s.money ∧ t.meters = s.meters ∧ t.clock = s.clock ∧ t.limits = s.limits ∧
            t.pending = s.pending) ∧
        ∀ (band : Nat) (shown : Instr), band ≤ 7 →
          shown = .rackReply k (.inventory ((List.replicate 48 .empty).set (x - 1) (.holds r band))) →
          (s.slot ⟨k, x⟩ = some r → exec shown s =
            .next (((unitReply s (24 + k)).setReceiver r { s.receiver r with band := band }).raise (.reconciled k 0))) ∧
          ((s.receiver r).location = none → (s.receiver r).state = .unknown →
            (s.slot ⟨k, x⟩ = none → ∃ t, exec shown s = .next t ∧
              t.racks = (s.setSlot ⟨k, x⟩ (some r)).racks ∧ t.unit (24 + k) = ⟨.present, 0⟩ ∧
              t.receiver r = { s.receiver r with location := some ⟨k, x⟩, band := band, state := .docked } ∧
              (∀ q, q ≠ r → t.receiver q = s.receiver q) ∧ t.beacon = s.beacon ∧
              ((s.faultRecord (24 + k)).fault = none →
                t.faultRecord (24 + k) = ⟨some mismatch, (s.faultRecord (24 + k)).overflow⟩ ∧
                s.raised t [.reconciled k 1, .fault (24 + k) mismatch]) ∧
              s.keepsAudio t ∧ s.keepsMoney t ∧ t.clock = s.clock ∧ t.limits = s.limits ∧ t.pending = s.pending) ∧
            ∀ q, s.slot ⟨k, x⟩ = some q → q ≠ r → (s.receiver q).state = .docked → ∃ t, exec shown s = .next t ∧
              t.racks = (s.setSlot ⟨k, x⟩ (some r)).racks ∧ t.unit (24 + k) = ⟨.present, 0⟩ ∧
              t.receiver q = { s.receiver q with location := none, state := .stray, misses := 0 } ∧
              t.receiver r = { s.receiver r with location := some ⟨k, x⟩, band := band, state := .docked } ∧
              (∀ y, y ≠ q → y ≠ r → t.receiver y = s.receiver y) ∧
              s.beacon.l1.gains q t.beacon.l1 ∧ t.beacon = { s.beacon with l1 := t.beacon.l1 } ∧
              ((s.faultRecord (24 + k)).fault = none →
                t.faultRecord (24 + k) = ⟨some mismatch, (s.faultRecord (24 + k)).overflow⟩ ∧
                s.raised t [.stray q k x, .reconciled k 1, .fault (24 + k) mismatch]) ∧
              s.keepsAudio t ∧ s.keepsMoney t ∧ t.clock = s.clock ∧ t.limits = s.limits ∧ t.pending = s.pending) ∧
          ∀ (n st ds : Nat) (h closed : Hire) (y : Settlement), s.slot ⟨k, x⟩ = none → (s.receiver r).location = none →
            ((s.receiver r).state = .out ∨ (s.receiver r).state = .silent) → (s.receiver r).hire = some n →
            s.hire n = some h → h.number = n → h.receiver = r → h.state = .active st ds →
            closed = { h with
              state := .closing st ds s.clock.seconds s.clock.degradedCount, reconciled := true } →
            y = settlementOf (s.tariff h.tariff) closed st ds s.clock.seconds s.clock.degradedCount →
            ∃ t, exec shown s = .next t ∧ t.racks = (s.setSlot ⟨k, x⟩ (some r)).racks ∧
              t.unit (24 + k) = ⟨.present, 0⟩ ∧
              t.receiver r = { s.receiver r with
                location := some ⟨k, x⟩, band := band, state := .docked, hire := none, silentSince := none,
                missingReported := false } ∧
              (∀ q, q ≠ r → t.receiver q = s.receiver q) ∧ t.fleet.monitors = s.fleet.monitors ∧
              y.flags.reconciled = true ∧ s.hireCloses t closed y ∧
              ((s.faultRecord (24 + k)).fault = none →
                t.faultRecord (24 + k) = ⟨some mismatch, (s.faultRecord (24 + k)).overflow⟩ ∧
                s.raised t (s.settledNotices y ++ [.reconciled k 1, .fault (24 + k) mismatch])) ∧
              (∀ e, (s.faultRecord (24 + k)).fault = some e → t.faultRecord (24 + k) = ⟨some e, true⟩ ∧
                s.raised t (s.settledNotices y ++ [.reconciled k 1])) ∧
              s.keepsAudio t ∧ t.clock = s.clock ∧ t.limits = s.limits ∧ t.pending = s.pending) ∧
      (∀ (x r band : Nat) (m : Location) (mismatch : FaultEntry), 1 ≤ x → x ≤ 48 → r ≤ 4095 → band ≤ 7 →
        mismatch = ⟨.note, .inventoryMismatch, s.clock.seconds, 1⟩ → s.slot ⟨k, x⟩ = none →
        (s.receiver r).location = some m → m ≠ ⟨k, x⟩ →
        (∀ y, 1 ≤ y → y ≤ 48 → y ≠ x → s.slot ⟨k, y⟩ = none ∨ (x < y ∧ m = ⟨k, y⟩)) →
        ∃ t, exec (.rackReply k (.inventory ((List.replicate 48 .empty).set (x - 1) (.holds r band)))) s = .next t ∧
          t.racks = ((s.setSlot m none).setSlot ⟨k, x⟩ (some r)).racks ∧ t.unit (24 + k) = ⟨.present, 0⟩ ∧
          t.receiver r = { s.receiver r with location := some ⟨k, x⟩, band := band } ∧
          (∀ q, q ≠ r → t.receiver q = s.receiver q) ∧ t.fleet.monitors = s.fleet.monitors ∧ t.beacon = s.beacon ∧
          ((s.faultRecord (24 + k)).fault = none →
            t.faultRecord (24 + k) = ⟨some mismatch, (s.faultRecord (24 + k)).overflow⟩ ∧
            s.raised t [.reconciled k 1, .fault (24 + k) mismatch]) ∧
          (∀ e, (s.faultRecord (24 + k)).fault = some e → t.faultRecord (24 + k) = ⟨some e, true⟩ ∧
            s.raised t [.reconciled k 1]) ∧
          s.keepsAudio t ∧ s.keepsMoney t ∧ t.clock = s.clock ∧ t.limits = s.limits ∧ t.pending = s.pending) ∧
      ∀ (y x r band : Nat) (mismatch : FaultEntry), 1 ≤ y → y < x → x ≤ 48 → r ≤ 4095 → band ≤ 7 →
        mismatch = ⟨.note, .inventoryMismatch, s.clock.seconds, 2⟩ → s.slot ⟨k, y⟩ = some r →
        (s.receiver r).location = some ⟨k, y⟩ → (s.receiver r).state = .docked →
        (∀ z, 1 ≤ z → z ≤ 48 → z ≠ y → s.slot ⟨k, z⟩ = none) →
        ∃ t l1, exec (.rackReply k (.inventory ((List.replicate 48 .empty).set (x - 1) (.holds r band)))) s = .next t ∧
          t.racks = ((s.setSlot ⟨k, y⟩ none).setSlot ⟨k, x⟩ (some r)).racks ∧ t.unit (24 + k) = ⟨.present, 0⟩ ∧
          t.receiver r = { s.receiver r with location := some ⟨k, x⟩, band := band, misses := 0 } ∧
          (∀ q, q ≠ r → t.receiver q = s.receiver q) ∧ t.fleet.monitors = s.fleet.monitors ∧
          s.beacon.l1.gains r l1 ∧ l1.loses r t.beacon.l1 ∧ t.beacon = { s.beacon with l1 := t.beacon.l1 } ∧
          ((s.faultRecord (24 + k)).fault = none →
            t.faultRecord (24 + k) = ⟨some mismatch, (s.faultRecord (24 + k)).overflow⟩ ∧
            s.raised t [.stray r k y, .strayReturned r k x, .reconciled k 2, .fault (24 + k) mismatch]) ∧
          (∀ e, (s.faultRecord (24 + k)).fault = some e → t.faultRecord (24 + k) = ⟨some e, true⟩ ∧
            s.raised t [.stray r k y, .strayReturned r k x, .reconciled k 2]) ∧
          s.keepsAudio t ∧ s.keepsMoney t ∧ t.clock = s.clock ∧ t.limits = s.limits ∧ t.pending = s.pending

/-! ### The beacon -/

/-- WRITE_SCHEDULE stores the four counts, each above 63 as 63, with CLAMPED if any was changed, and keeps all else.
READ_LISTENERS returns the 32 listener counts and the lengths of the four poll lists in 73 bytes and changes no state.
-/
def Obligations.ScheduleAndListeners : Prop :=
  (∀ (tag a b c d : Byte) (k : Schedule) (s : State), s.canTake ⟨0x2E, tag, [a, b, c, d]⟩ →
     k = ⟨min a.toNat 63, min b.toNat 63, min c.toNat 63, min d.toNat 63⟩ →
     exec (.writeSchedule tag [a, b, c, d]) s =
       .next { s.replied 0x2E tag
           [(if k = ⟨a.toNat, b.toNat, c.toNat, d.toNat⟩ then 0x00 else 0x01 : Byte), byteOf k.k0, byteOf k.k1,
             byteOf k.k2, byteOf k.k3] with
         beacon := { s.beacon with counts := k } }) ∧
  (∀ (tag : Byte) (s : State), s.canTake ⟨0x2F, tag, []⟩ → ∃ body : List Byte,
     exec (.readListeners tag []) s = .next (s.replied 0x2F tag body) ∧
     body = 0x00 :: (List.range 32).flatMap (fun (c : Nat) => be16 (s.listeners c)) ++ be16 s.beacon.l0.members.length ++
       be16 s.beacon.l1.members.length ++ be16 s.beacon.l2.members.length ++ be16 s.beacon.l3.members.length ∧
     body.length = 73)

/-- BEACON_POLL_SEND while the radiator is PRESENT and no poll is in flight: a phase whose polls sent have reached the
share, the smaller of its count plus one and its list's length, ends, and so do the phases after it whose lists are
empty; in the first phase with polls left the member under the cursor is polled, and the cursor moves on. With every list
empty the phases stop at one with no poll sent; with the radiator not PRESENT, or with a poll in flight, nothing changes.
That a poll in flight makes the command have no effect is the model's reading (log entry 9). -/
def Obligations.BeaconPollSend : Prop :=
  ∀ (s : State) (after : ListId → ListId) (count share : ListId → Nat),
    (after = fun i => match i with | .l0 => .l1 | .l1 => .l2 | .l2 => .l3 | .l3 => .l0) →
    (count = fun i => match i with
      | .l0 => s.beacon.counts.k0
      | .l1 => s.beacon.counts.k1
      | .l2 => s.beacon.counts.k2
      | .l3 => s.beacon.counts.k3) →
    (share = fun i => min (count i + 1) (s.pollList i).members.length) →
    (((s.unit 41).state ≠ .present ∨ s.beacon.inFlight ≠ none) → exec .beaconPollSend s = .next s) ∧
    ((∀ i, (s.pollList i).members = []) → s.beacon.sent = 0 → exec .beaconPollSend s = .next s) ∧
    ((s.unit 41).state = .present → s.beacon.inFlight = none → (∀ i, (s.pollList i).members = []) →
      0 < s.beacon.sent → exec .beaconPollSend s =
        .next { s with beacon := { s.beacon with phase := after s.beacon.phase, sent := 0 } }) ∧
    ∀ (i : Nat) (j : ListId) (sent r : Nat) (before rest : List Nat), (s.unit 41).state = .present →
      s.beacon.inFlight = none → i ≤ 4 → j = Nat.iterate after i s.beacon.phase →
      (i = 0 → sent = s.beacon.sent) →
      (0 < i → sent = 0 ∧ share s.beacon.phase ≤ s.beacon.sent ∧
        ∀ h, 0 < h → h < i → (s.pollList (Nat.iterate after h s.beacon.phase)).members = []) →
      sent < share j → (s.pollList j).cursor = some r →
      (s.pollList j).members = before ++ r :: rest → r ∉ before →
      ∃ t, exec .beaconPollSend s = .next t ∧
        t.beacon.inFlight = some ⟨r, j,
          (if j = .l0 ∨ j = .l2 then (s.receiver r).hire else none), (if j = .l3 then s.decodeFor r else none)⟩ ∧
        t.beacon.phase = j ∧ t.beacon.sent = sent + 1 ∧
        t.pollList j = ⟨before ++ r :: rest, if rest = [] then (before ++ [r]).head? else rest.head?⟩ ∧
        (∀ i, i ≠ j → t.pollList i = s.pollList i) ∧
        (t.beacon.counts = s.beacon.counts ∧ t.beacon.listeners = s.beacon.listeners ∧
          t.beacon.lowMarks = s.beacon.lowMarks ∧ t.racks = s.racks ∧ t.fleet = s.fleet) ∧
        s.keepsAudio t ∧ s.keepsMoney t ∧ s.keepsRest t ∧ t.link = s.link

/-- A reply of the receiver polled from L0 under its hire: the credit for the channel held before it, held to the
credit cap; then miss count, band, reply time and channel set; the listener counts moved; and BATTERY_LOW once in a
hire at or below the low band. An answer of another receiver or out of range is a miss. A reply from L2 ends the
silence: the receiver is OUT at the tail of L0 with its silence over, and its channel's listener count rises by 1. A
reply from L1, or from L3 with no decode request, sets miss count, band, reply time and channel and does nothing more.
-/
def Obligations.BeaconReplies : Prop :=
  (∀ (r n q band : Nat) (x : Option Code16) (h : Hire) (s : State), s.beacon.inFlight = some ⟨r, .l0, some n, none⟩ →
     r ∈ s.beacon.l0.members → (s.receiver r).hire = some n → s.hire n = some h →
     (∀ y, (y ≠ r ∨ 31 < q ∨ 7 < band) → exec (.beaconReply y q band x) s = exec .beaconMiss s) ∧
     (q ≤ 31 → band ≤ 7 → (∀ p, (s.receiver r).tuned = some p → p < 32) →
       ∃ t, exec (.beaconReply r q band x) s = .next t ∧ t.beacon.inFlight = none ∧
         t.receiver r = { s.receiver r with
           misses := 0, band := band, lastReply := some s.clock.seconds, tuned := some q } ∧
         (∀ y, y ≠ r → t.receiver y = s.receiver y) ∧ t.fleet.monitors = s.fleet.monitors ∧ t.racks = s.racks ∧
         ((s.receiver r).tuned = some q → t.beacon.listeners = s.beacon.listeners) ∧
         ((s.receiver r).tuned ≠ some q → t.listeners q = s.listeners q + 1 ∧
           (∀ p, (s.receiver r).tuned = some p → t.listeners p = s.listeners p - 1) ∧
           ∀ c, c ≠ q → (s.receiver r).tuned ≠ some c → t.listeners c = s.listeners c) ∧
         (∀ p since, (s.receiver r).tuned = some p → (s.receiver r).lastReply = some since →
           t.listening h.delegation p =
             min (s.listening h.delegation p + min (s.clock.seconds - since) s.limits.creditCap) 4294967295) ∧
         (∀ d c, c < 32 → (d ≠ h.delegation ∨ (s.receiver r).tuned ≠ some c) → t.listening d c = s.listening d c) ∧
         ((s.receiver r).lastReply = none → t.meters = s.meters) ∧
         (t.meters.service = s.meters.service ∧ t.meters.unserved = s.meters.unserved) ∧
         ((band ≤ s.limits.lowBand ∧ s.lowMark r = false) → t.lowMark r = true ∧ s.raised t [.batteryLow r n band]) ∧
         (¬(band ≤ s.limits.lowBand ∧ s.lowMark r = false) → t.lowMark r = s.lowMark r ∧ t.link = s.link) ∧
         (∀ y, y ≠ r → t.lowMark y = s.lowMark y) ∧ (∀ i, t.pollList i = s.pollList i) ∧
         t.beacon.phase = s.beacon.phase ∧ t.beacon.sent = s.beacon.sent ∧ t.beacon.counts = s.beacon.counts ∧
         s.keepsAudio t ∧ t.hires = s.hires ∧ t.money = s.money ∧ s.keepsRest t)) ∧
  (∀ (r n q band : Nat) (x : Option Code16) (h : Hire) (s : State), s.beacon.inFlight = some ⟨r, .l2, some n, none⟩ →
     r ∈ s.beacon.l2.members → (s.receiver r).hire = some n → s.hire n = some h → q ≤ 31 → band ≤ 7 →
     (∀ p, (s.receiver r).tuned = some p → p < 32) →
     ∃ t, exec (.beaconReply r q band x) s = .next t ∧ t.beacon.inFlight = none ∧
       t.receiver r = { s.receiver r with
         misses := 0, band := band, lastReply := some s.clock.seconds, tuned := some q, state := .out,
         silentSince := none, missingReported := false } ∧
       (∀ y, y ≠ r → t.receiver y = s.receiver y) ∧ t.fleet.monitors = s.fleet.monitors ∧ t.racks = s.racks ∧
       s.beacon.l2.loses r t.beacon.l2 ∧ s.beacon.l0.gains r t.beacon.l0 ∧
       t.beacon.l1 = s.beacon.l1 ∧ t.beacon.l3 = s.beacon.l3 ∧
       t.listeners q = s.listeners q + 1 ∧ (∀ c, c ≠ q → t.listeners c = s.listeners c) ∧
       (∀ p since, (s.receiver r).tuned = some p → (s.receiver r).lastReply = some since →
         t.listening h.delegation p =
           min (s.listening h.delegation p + min (s.clock.seconds - since) s.limits.creditCap) 4294967295) ∧
       (∀ d c, c < 32 → (d ≠ h.delegation ∨ (s.receiver r).tuned ≠ some c) → t.listening d c = s.listening d c) ∧
       ((s.receiver r).lastReply = none → t.meters = s.meters) ∧
       (t.meters.service = s.meters.service ∧ t.meters.unserved = s.meters.unserved) ∧
       ((band ≤ s.limits.lowBand ∧ s.lowMark r = false) → t.lowMark r = true ∧ s.raised t [.batteryLow r n band]) ∧
       (¬(band ≤ s.limits.lowBand ∧ s.lowMark r = false) → t.lowMark r = s.lowMark r ∧ t.link = s.link) ∧
       (∀ y, y ≠ r → t.lowMark y = s.lowMark y) ∧
       t.beacon.phase = s.beacon.phase ∧ t.beacon.sent = s.beacon.sent ∧ t.beacon.counts = s.beacon.counts ∧
       s.keepsAudio t ∧ t.hires = s.hires ∧ t.money = s.money ∧ s.keepsRest t) ∧
  (∀ (r q band : Nat) (i : ListId) (hire : Option Nat) (x : Option Code16) (s : State), (i = .l1 ∨ i = .l3) →
     s.beacon.inFlight = some ⟨r, i, hire, none⟩ → r ∈ (s.pollList i).members → q ≤ 31 → band ≤ 7 →
     exec (.beaconReply r q band x) s = .next ((s.setInFlight none).setReceiver r { s.receiver r with
       misses := 0, band := band, lastReply := some s.clock.seconds, tuned := some q }))

/-- A miss of the receiver polled from L0 adds 1 to its count, held at 15. Below the miss limit it stays OUT; at or
above it, it is SILENT from now at the tail of L2 with its channel's listener count lowered and a SILENT notice, by
BEACON_MISS and by MISS_LIMIT_REACHED alike. That the second row has no effect below the limit is the model's choice
(log entry 4). A miss of a receiver polled from L1, L2 or L3 with no decode request adds 1 to its count, held at 15, and
does nothing more, whatever the limit. A poll whose receiver has left the list polled, or holds another hire, completes
with no effect on any receiver, whichever way it completes. With no poll in flight BEACON_REPLY, BEACON_MISS and
MISS_LIMIT_REACHED have no effect: the manual gives no such event, and this clause is the model's choice (log entry
7). -/
def Obligations.BeaconMisses : Prop :=
  (∀ (r n misses : Nat) (s : State), s.beacon.inFlight = some ⟨r, .l0, some n, none⟩ → r ∈ s.beacon.l0.members →
     (s.receiver r).hire = some n → misses = min ((s.receiver r).misses + 1) 15 →
     (misses < s.limits.missLimit →
       exec .beaconMiss s = .next ((s.setInFlight none).setReceiver r { s.receiver r with misses := misses }) ∧
       exec (.missLimitReached r) s = .next s) ∧
     (s.limits.missLimit ≤ misses →
       ∃ t, exec .beaconMiss s = .next t ∧ exec (.missLimitReached r) s = .next t ∧ t.beacon.inFlight = none ∧
         t.receiver r = { s.receiver r with
           misses := 0, state := .silent, silentSince := some s.clock.seconds, missingReported := false } ∧
         (∀ y, y ≠ r → t.receiver y = s.receiver y) ∧ t.fleet.monitors = s.fleet.monitors ∧ t.racks = s.racks ∧
         s.beacon.l0.loses r t.beacon.l0 ∧ s.beacon.l2.gains r t.beacon.l2 ∧
         t.beacon.l1 = s.beacon.l1 ∧ t.beacon.l3 = s.beacon.l3 ∧
         (∀ p, (s.receiver r).tuned = some p → t.listeners p = s.listeners p - 1) ∧
         (∀ c, (s.receiver r).tuned ≠ some c → t.listeners c = s.listeners c) ∧
         t.beacon.lowMarks = s.beacon.lowMarks ∧ s.keepsAudio t ∧ s.keepsMoney t ∧ s.keepsRest t ∧
         s.raised t [.silent r n])) ∧
  (∀ (r : Nat) (i : ListId) (hire : Option Nat) (s : State), i ≠ .l0 → s.beacon.inFlight = some ⟨r, i, hire, none⟩ →
     r ∈ (s.pollList i).members → (i = .l2 → (s.receiver r).hire = hire) →
     exec .beaconMiss s = .next ((s.setInFlight none).setReceiver r
       { s.receiver r with misses := min ((s.receiver r).misses + 1) 15 }) ∧
     exec (.missLimitReached r) s = .next s) ∧
  (∀ (r : Nat) (i : ListId) (hire : Option Nat) (q band : Nat) (x : Option Code16) (s : State),
     (s.beacon.inFlight = some ⟨r, i, hire, none⟩ →
       (r ∉ (s.pollList i).members ∨ ((i = .l0 ∨ i = .l2) ∧ (s.receiver r).hire ≠ hire)) →
       exec (.beaconReply r q band x) s = .next (s.setInFlight none) ∧ exec .beaconMiss s = .next (s.setInFlight none)) ∧
     (s.beacon.inFlight = none → exec (.beaconReply r q band x) s = .next s ∧ exec .beaconMiss s = .next s ∧
       exec (.missLimitReached r) s = .next s))

/-- MISSING_TIME_REACHED: at the second event at which a silence not yet reported has lasted 64 s times 2 to the
missing code, the receiver is reported missing, once. ISSUE_WINDOW_EXPIRY: the second event that brings a PENDING
hire's window to 0 removes the hire, makes its receiver DOCKED and raises HIRE_LAPSED. That each row is that second
event for one receiver or hire alone, with no effect away from it, is the model's choice (log entry 4). -/
def Obligations.TimersOfOneHire : Prop :=
  (∀ (r since : Nat) (s : State), (s.receiver r).silentSince = some since → (s.receiver r).state = .silent →
     (((s.receiver r).missingReported = true ∨
         min (s.clock.seconds + 1) 4294967295 < min (since + 64 * 2 ^ s.limits.missingCode) 4294967295) →
       exec (.missingTimeReached r) s = .next s) ∧
     ((s.receiver r).missingReported = false →
       min (since + 64 * 2 ^ s.limits.missingCode) 4294967295 ≤ min (s.clock.seconds + 1) 4294967295 →
       exec (.missingTimeReached r) s =
         .next ((s.setReceiver r { s.receiver r with missingReported := true }).raise
           (.missing r ((s.receiver r).hire.getD 0) since)))) ∧
  (∀ (n : Nat) (s : State),
     ((∀ h w, s.hire n = some h → h.state = .pending w → 1 < w) → exec (.issueWindowExpiry n) s = .next s) ∧
     ∀ h w, s.hire n = some h → h.number = n → h.state = .pending w → w ≤ 1 →
       exec (.issueWindowExpiry n) s =
         .next (((s.setHire n none).setReceiver h.receiver
           { s.receiver h.receiver with state := .docked, hire := none }).raise (.hireLapsed n h.receiver)))

/-! ### Hires and settlements -/

/-- OPEN_HIRE is refused by R121's checks in order with hire number 0 and deposit 0; accepted, it makes a PENDING
record under the next hire number, reserves the receiver under it, and moves the next hire number on by 1, and 1 after
4,294,967,295, over every number that a record or a waiting settlement still holds, to the first that none holds. -/
def Obligations.OpenHire : Prop :=
  ∀ (tag d k : Byte) (r reference asked deposit : Nat) (body : List Byte) (s : State), r < 65536 →
    reference < 4294967296 → asked < 4294967296 → deposit = min asked 999999 →
    body = be16 r ++ be32 reference ++ [d, k] ++ be32 asked → s.canTake ⟨0x30, tag, body⟩ →
    ((4095 < r ∨ 127 < d.toNat ∨ 7 < k.toNat) →
      exec (.openHire tag body) s = .next (s.replied 0x30 tag (0x03 :: be32 0 ++ be32 0))) ∧
    (r ≤ 4095 → d.toNat ≤ 127 → k.toNat ≤ 7 →
      ((s.tariff k.toNat).defined = false →
        exec (.openHire tag body) s = .next (s.replied 0x30 tag (0x0B :: be32 0 ++ be32 0))) ∧
      ((s.tariff k.toNat).defined = true →
        ((s.receiver r).state ≠ .docked →
          exec (.openHire tag body) s = .next (s.replied 0x30 tag (0x09 :: be32 0 ++ be32 0))) ∧
        ((s.receiver r).state = .docked → ∀ l, (s.receiver r).location = some l →
          ((s.unit (24 + l.rack)).state = .lost →
            exec (.openHire tag body) s = .next (s.replied 0x30 tag (0x0F :: be32 0 ++ be32 0))) ∧
          ((s.unit (24 + l.rack)).state ≠ .lost →
            ((s.receiver r).band < s.limits.issueMinimum →
              exec (.openHire tag body) s = .next (s.replied 0x30 tag (0x0A :: be32 0 ++ be32 0))) ∧
            (s.limits.issueMinimum ≤ (s.receiver r).band →
              (2048 ≤ s.hireList.length →
                exec (.openHire tag body) s = .next (s.replied 0x30 tag (0x07 :: be32 0 ++ be32 0))) ∧
              (s.hireList.length < 2048 → ∃ t, exec (.openHire tag body) s = .next t ∧
                t.hire s.hires.next = some ⟨s.hires.next, r, reference, d.toNat, k.toNat, deposit,
                  .pending s.limits.issueWindow, s.clock.seconds, false, false⟩ ∧
                (∀ n, n ≠ s.hires.next → t.hire n = s.hire n) ∧
                t.receiver r = { s.receiver r with state := .reserved, hire := some s.hires.next } ∧
                (∀ q, q ≠ r → t.receiver q = s.receiver q) ∧ t.fleet.monitors = s.fleet.monitors ∧
                (∀ (up : Nat → Nat) (held : Nat → Prop) (j : Nat),
                  (up = fun n => if n = 4294967295 then 1 else n + 1) →
                  (held = fun n => t.hire n ≠ none ∨ ∃ x ∈ t.money.queue, x.hire = n) →
                  (∀ i, 1 ≤ i → i ≤ j → held (Nat.iterate up i s.hires.next)) →
                  ¬held (Nat.iterate up (j + 1) s.hires.next) →
                  t.hires.next = Nat.iterate up (j + 1) s.hires.next) ∧
                t.money = s.money ∧ t.meters = s.meters ∧ t.racks = s.racks ∧ t.beacon = s.beacon ∧
                s.keepsAudio t ∧ s.keepsRest t ∧
                s.answeredWith t 0x30 tag
                  ((if deposit = asked then 0x00 else 0x01 : Byte) :: be32 s.hires.next ++ be32 deposit) []))))))

/-- CANCEL_HIRE removes a PENDING hire with no settlement and leaves its receiver DOCKED; an ACTIVE hire is refused
with IN_USE, a CLOSING one with WRONG_STATE and an unknown number with NOT_FOUND. DECLARE_LOST closes an ACTIVE hire
as lost: its settlement, carrying the lost charge, joins the queue with HIRE_SETTLED or the hire waits CLOSING, and
its receiver is LOST, off its poll list and its listener count, with an OUT one's final credit made. Another state is
refused with WRONG_STATE, an unknown number with NOT_FOUND. -/
def Obligations.HireEndings : Prop :=
  (∀ (tag : Byte) (n : Nat) (s : State), n < 4294967296 → s.canTake ⟨0x31, tag, be32 n⟩ →
     (s.hire n = none → exec (.cancelHire tag (be32 n)) s = .next (s.replied 0x31 tag [0x04])) ∧
     ∀ h, s.hire n = some h → h.number = n →
       (∀ w, h.state = .pending w → exec (.cancelHire tag (be32 n)) s =
         .next (((s.setHire n none).setReceiver h.receiver
           { s.receiver h.receiver with state := .docked, hire := none }).replied 0x31 tag [0x00])) ∧
       (∀ a b, h.state = .active a b → exec (.cancelHire tag (be32 n)) s = .next (s.replied 0x31 tag [0x05])) ∧
       (∀ a b c d, h.state = .closing a b c d → exec (.cancelHire tag (be32 n)) s = .next (s.replied 0x31 tag [0x10]))) ∧
  (∀ (tag : Byte) (n : Nat) (s : State), n < 4294967296 → s.canTake ⟨0x32, tag, be32 n⟩ →
     (s.hire n = none → exec (.declareLost tag (be32 n)) s = .next (s.replied 0x32 tag [0x04])) ∧
     (∀ h, s.hire n = some h → (∀ a b, h.state ≠ .active a b) →
       exec (.declareLost tag (be32 n)) s = .next (s.replied 0x32 tag [0x10])) ∧
     ∀ (h closed : Hire) (r st ds : Nat), s.hire n = some h → h.number = n → h.receiver = r → h.state = .active st ds →
       ((s.receiver r).state = .out ∨ (s.receiver r).state = .silent) →
       closed = { h with state := .closing st ds s.clock.seconds s.clock.degradedCount, lost := true } →
       ∃ t, exec (.declareLost tag (be32 n)) s = .next t ∧
         t.receiver r = { s.receiver r with
           state := .lost, hire := none, silentSince := none, missingReported := false } ∧
         (∀ q, q ≠ r → t.receiver q = s.receiver q) ∧ t.fleet.monitors = s.fleet.monitors ∧ t.racks = s.racks ∧
         (∃ y : Settlement, y = settlementOf (s.tariff h.tariff) closed st ds s.clock.seconds s.clock.degradedCount ∧
           s.hireCloses t closed y ∧ s.answeredWith t 0x32 tag [0x00] (s.settledNotices y)) ∧
         s.keepsAudio t ∧ s.keepsRest t)

/-- READ_HIRE returns a record in 43 bytes with the fields present in its state, and refuses a number no record holds
with NOT_FOUND. READ_SETTLEMENT returns the oldest settlement in its 53 bytes, flags in bits 0 to 5; an empty queue
gives EMPTY alone. Both change no state. -/
def Obligations.ReadHireAndSettlement : Prop :=
  (∀ (tag : Byte) (n : Nat) (s : State), n < 4294967296 → s.canTake ⟨0x33, tag, be32 n⟩ →
     (s.hire n = none → exec (.readHire tag (be32 n)) s = .next (s.replied 0x33 tag [0x04])) ∧
     ∀ h, s.hire n = some h → ∃ body : List Byte,
       exec (.readHire tag (be32 n)) s = .next (s.replied 0x33 tag body) ∧
       body =
         0x00 :: be32 h.number ++ be16 h.receiver ++ be32 h.reference ++ [byteOf h.delegation, byteOf h.tariff] ++
           be32 h.deposit ++
           (match h.state with
             | .pending _ =>
               [1] ++ be32 h.openTime ++ [0] ++ be32 0 ++ be32 0 ++ [0] ++ be32 0 ++ be32 0
             | .active st ds =>
               [2] ++ be32 h.openTime ++ [1] ++ be32 st ++ be32 ds ++ [0] ++ be32 0 ++ be32 0
             | .closing st ds fi de =>
               [3] ++ be32 h.openTime ++ [1] ++ be32 st ++ be32 ds ++ [1] ++ be32 fi ++ be32 de : List Byte) ++
           [(match h.lost, h.reconciled with
             | false, false => 0
             | true, false => 1
             | false, true => 2
             | true, true => 3 : Byte)] ++
           (match h.state with | .pending w => be16 w | _ => be16 0 : List Byte) ∧
       body.length = 43) ∧
  (∀ (tag : Byte) (s : State), s.canTake ⟨0x34, tag, []⟩ →
     (s.money.queue = [] → exec (.readSettlement tag []) s = .next (s.replied 0x34 tag [0x08])) ∧
     ∀ (x : Settlement) (q : List Settlement) (flags : Byte), s.money.queue = x :: q →
       (∀ i, flags.getLsbD i = (match i with
         | 0 => x.flags.grace
         | 1 => x.flags.capped
         | 2 => x.flags.saturated
         | 3 => x.flags.lost
         | 4 => x.flags.reconciled
         | 5 => x.flags.timeDegraded
         | _ => false : Bool)) → ∃ record : List Byte,
         exec (.readSettlement tag []) s = .next (s.replied 0x34 tag (0x00 :: record)) ∧
         record =
           be32 x.hire ++ be16 x.receiver ++ be32 x.reference ++ [byteOf x.delegation, byteOf x.tariff, flags] ++
             be32 x.start ++ be32 x.finish ++ be32 x.duration ++ be32 x.units ++ be32 x.usage ++ be32 x.lostCharge ++
             be32 x.total ++ be32 x.deposit ++ be32 x.refund ++ be32 x.due ∧
         record.length = 53)

/-- TAKE_SETTLEMENT removes the oldest settlement when it carries the number named, and the CLOSING hire with the
earliest end time, the lowest number among equals, settles into the place; another number gives MISMATCH and an empty
queue EMPTY. -/
def Obligations.TakeSettlement : Prop :=
  ∀ (tag : Byte) (n : Nat) (s : State), n < 4294967296 → s.canTake ⟨0x35, tag, be32 n⟩ →
    (s.money.queue = [] → exec (.takeSettlement tag (be32 n)) s = .next (s.replied 0x35 tag [0x08])) ∧
    ∀ (x : Settlement) (q : List Settlement), s.money.queue = x :: q →
      (x.hire ≠ n → exec (.takeSettlement tag (be32 n)) s = .next (s.replied 0x35 tag [0x11])) ∧
      (x.hire = n →
        ((∀ h ∈ s.hireList, ∀ a b c d, h.state ≠ .closing a b c d) →
          exec (.takeSettlement tag (be32 n)) s =
            .next { s.replied 0x35 tag [0x00] with money := { s.money with queue := q } }) ∧
        ∀ (h : Hire) (a b c d : Nat) (y : Settlement), s.hire h.number = some h → h ∈ s.hireList →
          h.state = .closing a b c d →
          (∀ g ∈ s.hireList, ∀ e f i j, g.state = .closing e f i j → c < i ∨ (c = i ∧ h.number ≤ g.number)) →
          y = settlementOf (s.tariff h.tariff) h a b c d →
          ∃ t, exec (.takeSettlement tag (be32 n)) s = .next t ∧ t.money = { s.money with queue := q ++ [y] } ∧
            t.hires = (s.setHire h.number none).hires ∧ t.meters = s.meters ∧ s.keepsFleet t ∧ s.keepsAudio t ∧
            s.keepsRest t ∧ s.answeredWith t 0x35 tag [0x00] [.hireSettled h.number h.receiver y.flags])

/-- The settlement of a hire: duration, grace, whole units, raw charge, day cap, lost charge, total, refund and due,
every figure held to 999,999,999, with the six flags. -/
def Obligations.SettlementArithmetic : Prop :=
  ∀ (k : Tariff) (h : Hire) (st ds fi de : Nat) (x : Settlement), 1 ≤ k.unit → st ≤ fi →
    x = settlementOf k h st ds fi de →
    (x.hire = h.number ∧ x.receiver = h.receiver ∧ x.reference = h.reference ∧ x.delegation = h.delegation ∧
      x.tariff = h.tariff ∧ x.start = st ∧ x.finish = fi ∧ x.deposit = h.deposit ∧ x.duration + st = fi) ∧
    (x.duration ≤ 60 * k.grace → x.flags.grace = true ∧ x.units = 0 ∧ x.usage = 0 ∧ x.flags.capped = false) ∧
    (60 * k.grace < x.duration → ∀ raw capped : Nat, raw = k.firstPrice + (x.units - 1) * k.furtherPrice →
      capped = k.dayCap * ((x.duration + 86399) / 86400) →
      x.flags.grace = false ∧ x.units = (x.duration + 60 * k.unit - 1) / (60 * k.unit) ∧ 1 ≤ x.units ∧
      (x.units - 1) * (60 * k.unit) < x.duration ∧ x.duration ≤ x.units * (60 * k.unit) ∧
      (k.dayCap = 0 → x.usage = min raw 999999999 ∧ x.flags.capped = false) ∧
      (k.dayCap ≠ 0 → (capped < min raw 999999999 → x.usage = capped ∧ x.flags.capped = true) ∧
        (min raw 999999999 ≤ capped → x.usage = min raw 999999999 ∧ x.flags.capped = false)) ∧
      (x.flags.saturated = true ↔ 999999999 < raw ∨ 999999999 < x.usage + x.lostCharge)) ∧
    (x.duration ≤ 60 * k.grace → (x.flags.saturated = true ↔ 999999999 < x.lostCharge)) ∧
    (x.lostCharge = if h.lost = true then k.lostCharge else 0) ∧
    x.total = min (x.usage + x.lostCharge) 999999999 ∧
    (x.total ≤ h.deposit → x.refund + x.total = h.deposit ∧ x.due = 0) ∧
    (h.deposit < x.total → x.refund = 0 ∧ x.due + h.deposit = x.total) ∧
    (x.flags.lost = h.lost ∧ x.flags.reconciled = h.reconciled ∧ (x.flags.timeDegraded = true ↔ de ≠ ds))

/-- WRITE_TARIFF is refused by R139's checks in order; accepted, it replaces the class with each figure held to its
range and makes it defined, and the reply gives the figures stored, CLAMPED if one was changed. FREEZE_TARIFFS makes
the tariffs frozen and keeps all else. -/
def Obligations.WriteAndFreezeTariffs : Prop :=
  (∀ (tag k g l : Byte) (f p c x : Nat) (body : List Byte) (s : State), f < 65536 → p < 65536 → c < 4294967296 →
     x < 4294967296 → body = [k, g, l] ++ be16 f ++ be16 p ++ be32 c ++ be32 x → s.canTake ⟨0x38, tag, body⟩ →
     (7 < k.toNat → exec (.writeTariff tag body) s = .next (s.replied 0x38 tag [0x03])) ∧
     (k.toNat ≤ 7 →
       (s.money.frozen = true → exec (.writeTariff tag body) s = .next (s.replied 0x38 tag [0x0C])) ∧
       (s.money.frozen = false →
         ((∃ h ∈ s.hireList, h.tariff = k.toNat) →
           exec (.writeTariff tag body) s = .next (s.replied 0x38 tag [0x05])) ∧
         ((∀ h ∈ s.hireList, h.tariff ≠ k.toNat) → ∀ new : Tariff,
           new = ⟨true, min g.toNat 60, max 1 (min l.toNat 240), f, p, min c 999999, min x 999999⟩ →
           exec (.writeTariff tag body) s = .next ((s.setTariff k.toNat new).replied 0x38 tag
             ((if g.toNat = new.grace ∧ l.toNat = new.unit ∧ c = new.dayCap ∧ x = new.lostCharge
                 then 0x00 else 0x01 : Byte) ::
               [k, byteOf new.grace, byteOf new.unit] ++ be16 f ++ be16 p ++ be32 new.dayCap ++ be32 new.lostCharge)))))) ∧
  (∀ (tag : Byte) (s : State), s.canTake ⟨0x3A, tag, []⟩ → exec (.freezeTariffs tag []) s =
     .next { s.replied 0x3A tag [0x00] with money := { s.money with frozen := true } })

/-- READ_TARIFF returns a class in 20 bytes with the freeze state and the number of records naming it and changes no
state; a class above 7 is refused with RANGE. -/
def Obligations.ReadTariff : Prop :=
  ∀ (tag k : Byte) (s : State), s.canTake ⟨0x39, tag, [k]⟩ →
      (7 < k.toNat → exec (.readTariff tag [k]) s = .next (s.replied 0x39 tag [0x03])) ∧
      (k.toNat ≤ 7 → ∃ body : List Byte, exec (.readTariff tag [k]) s = .next (s.replied 0x39 tag body) ∧
        body =
          [0x00, k, (if (s.tariff k.toNat).defined = true then 1 else 0 : Byte), byteOf (s.tariff k.toNat).grace,
            byteOf (s.tariff k.toNat).unit] ++
            be16 (s.tariff k.toNat).firstPrice ++ be16 (s.tariff k.toNat).furtherPrice ++
            be32 (s.tariff k.toNat).dayCap ++ be32 (s.tariff k.toNat).lostCharge ++
            [(if s.money.frozen = true then 1 else 0 : Byte)] ++
            be16 (s.hireList.countP fun h => decide (h.tariff = k.toNat)) ∧
        body.length = 20)

/-! ### Meters -/

/-- READ_DELEGATION returns one row in 130 bytes and changes no state; CLEAR_DELEGATION sets one row, or with 255
every row, to 0 and keeps all else; other delegations are refused with RANGE. READ_SERVICE returns the seven counts
and the unserved count of a channel in 34 bytes, or with 255 those of every channel in 1,021 bytes, and changes no
state; 32 to 254 are refused with RANGE. -/
def Obligations.DelegationsAndService : Prop :=
  (∀ (tag d : Byte) (s : State),
     (s.canTake ⟨0x3B, tag, [d]⟩ →
       (127 < d.toNat → exec (.readDelegation tag [d]) s = .next (s.replied 0x3B tag [0x03])) ∧
       (d.toNat ≤ 127 → ∃ body : List Byte, exec (.readDelegation tag [d]) s = .next (s.replied 0x3B tag body) ∧
         body = [0x00, d] ++ (List.range 32).flatMap (fun (c : Nat) => be32 (s.listening d.toNat c)) ∧
         body.length = 130)) ∧
     (s.canTake ⟨0x3C, tag, [d]⟩ →
       ((127 < d.toNat ∧ d.toNat < 255) →
         exec (.clearDelegation tag [d]) s = .next (s.replied 0x3C tag [0x03])) ∧
       ((d.toNat ≤ 127 ∨ d.toNat = 255) → ∃ t, exec (.clearDelegation tag [d]) s = .next t ∧
         (∀ e c, c < 32 → t.listening e c = if d.toNat = 255 ∨ e = d.toNat then 0 else s.listening e c) ∧
         t.meters.service = s.meters.service ∧ t.meters.unserved = s.meters.unserved ∧ t.hires = s.hires ∧
         t.money = s.money ∧ s.keepsFleet t ∧ s.keepsAudio t ∧ s.keepsRest t ∧
         s.answeredWith t 0x3C tag [0x00] []))) ∧
  (∀ (tag c : Byte) (counts : Nat → List Byte) (s : State), s.canTake ⟨0x3D, tag, [c]⟩ →
     (counts = fun n => be32 (s.serviceSeconds n 1) ++ be32 (s.serviceSeconds n 2) ++ be32 (s.serviceSeconds n 3) ++
       be32 (s.serviceSeconds n 4) ++ be32 (s.serviceSeconds n 5) ++ be32 (s.serviceSeconds n 6) ++
       be32 (s.serviceSeconds n 7)) →
     ((31 < c.toNat ∧ c.toNat < 255) → exec (.readService tag [c]) s = .next (s.replied 0x3D tag [0x03])) ∧
     (c.toNat ≤ 31 → ∃ body : List Byte, exec (.readService tag [c]) s = .next (s.replied 0x3D tag body) ∧
       body = [0x00, c] ++ counts c.toNat ++ be32 (if c.toNat = 0 then 0 else s.unserved c.toNat) ∧
       body.length = 34) ∧
     (c.toNat = 255 → ∃ body : List Byte, exec (.readService tag [c]) s = .next (s.replied 0x3D tag body) ∧
       body = [0x00] ++ counts 0 ++ (List.range' 1 31).flatMap (fun (n : Nat) => counts n ++ be32 (s.unserved n)) ∧
       body.length = 1021))

/-! ### The clock and the units -/

/-- A second event, in whatever order the blocks take it: the counter rises, a DEGRADED second is counted, a clock in
SETTLED, or one whose stable time reaches 2 s in the second, returns to the word clock with REFERENCE, and each channel
counts the second once, with its listeners unserved under FALLBACK, PIVOT or TEST. Where no handover window and no check
dwell comes to its end in the second, so that no taker changes a source, the category counted is that of the channel's
source, channel 0's floor counting as AUTOFLOOR. The operand that gives the order is the model's choice (log entry 3),
and so are the rest of the second that passes first, and a stable time that reaches 2 s with the boundary itself, which
is SETTLED behind it (log entry 6). -/
def Obligations.SecondEventCounts : Prop :=
  ∀ (order : List SecondTaker) (left seconds degraded : Nat) (s : State), left = 47999 - s.clock.subSecond →
    seconds = min (s.clock.seconds + 1) 4294967295 →
    degraded = (if s.clock.quality = .degraded then min (s.clock.degradedCount + 1) 4294967295
      else s.clock.degradedCount) →
    ∃ t, exec (.secondEvent order) s = .next t ∧
    ((s.clock.phase = .settled ∨ (s.clock.phase = .settling ∧ ∃ n, s.clock.stable = some n ∧ 96000 ≤ n + left)) →
      t.clock = { s.clock with
        seconds := seconds, subSecond := 0, degradedCount := degraded, source := .wordClock, quality := .nominal
        phase := .locked, stable := none } ∧
      (t.unit 42).state = .present ∧ (∀ u, u ≠ 42 → t.unit u = s.unit u) ∧
      t.supervisor = { s.supervisor with units := t.supervisor.units } ∧
      t.tells (.reference .nominal seconds degraded)) ∧
    (¬(s.clock.phase = .settled ∨ (s.clock.phase = .settling ∧ ∃ n, s.clock.stable = some n ∧ 96000 ≤ n + left)) →
      t.clock = { s.clock with
        seconds := seconds, subSecond := 0, degradedCount := degraded
        stable := s.clock.stable.map fun n => min (n + left + 1) 96000
        phase := if s.clock.phase = .settling ∧ (s.clock.stable.map fun n => min (n + left + 1) 96000) = some 96000
          then .settled else s.clock.phase } ∧
      t.supervisor = s.supervisor) ∧
    (∀ c, c < 32 → ∃ k, 1 ≤ k ∧ k ≤ 7 ∧
      t.serviceSeconds c k = min (s.serviceSeconds c k + 1) 4294967295 ∧
      (∀ j, j < 8 → j ≠ k → t.serviceSeconds c j = s.serviceSeconds c j) ∧
      ((c ≠ 0 ∧ (k = 4 ∨ k = 5 ∨ k = 6)) → t.unserved c = min (s.unserved c + s.listeners c) 4294967295) ∧
      (¬(c ≠ 0 ∧ (k = 4 ∨ k = 5 ∨ k = 6)) → t.unserved c = s.unserved c)) ∧
    ((∀ b side d e n p, 1 ≤ b → b ≤ 24 → s.domain b side = .pending d e n p → 1 < n) →
      (s.check.current = none ∨ 1 < s.check.dwell) →
      ∀ c k, c < 32 → k = (match (s.source c).identity with
        | .announce _ => 1
        | .booth _ => 2
        | .autofloor => 3
        | .test => 4
        | .pivot _ => 5
        | .fallback => 6
        | .unused => 7
        | .floor => 3 : Nat) →
        t.source c = s.source c ∧ t.serviceSeconds c k = min (s.serviceSeconds c k + 1) 4294967295 ∧
        (∀ j, j < 8 → j ≠ k → t.serviceSeconds c j = s.serviceSeconds c j) ∧
        ((c ≠ 0 ∧ (k = 4 ∨ k = 5 ∨ k = 6)) → t.unserved c = min (s.unserved c + s.listeners c) 4294967295) ∧
        (¬(c ≠ 0 ∧ (k = 4 ∨ k = 5 ∨ k = 6)) → t.unserved c = s.unserved c)) ∧
    (t.plan = s.plan ∧ t.racks = s.racks ∧ t.beacon = s.beacon ∧ t.money = s.money ∧
      t.meters.listening = s.meters.listening ∧ t.limits = s.limits ∧ t.pending = s.pending ∧
      t.booths.configs = s.booths.configs ∧ t.fleet.monitors = s.fleet.monitors)

/-- A second event, in whatever order and from a state whose hires and receivers agree. An IDLE domain stays as it is; a
LIVE domain's turn, and a PENDING one's whose window has more than 1 s left, counts 1, comes due and overruns at its
thresholds, with the live seconds and the turn-due count of its desk, and the notices in ascending booth order, output
A's domain before output B's; such a window falls by 1, and one in its last second ends: the requester is live under
TAKE, the live desk stays under LAPSE. The dwell of a check falls by 1 and at its end expires as CHECK_DWELL_EXPIRY
does, where no window ends in that second; a channel placed in the second has its whole 10 s left (log entry 24). An
issue window with more than 1 s left falls by 1 with its hire and receiver kept and one with no more lapses with
HIRE_LAPSED, in ascending hire number order; a silence is reported with MISSING when its missing time is reached, in
ascending receiver order; and other hires and receivers are kept. A notice that finds the queue full is discarded. That
an operand gives the order is the model's choice (log entry 3). That the three orders of R66 are nested, so that a
TURN_OVERRUN of an earlier domain goes ahead of a TURN_DUE of a later one, is the model's reading (log entry 11). -/
def Obligations.SecondEventTimers : Prop :=
  ∀ (order : List SecondTaker) (s : State), s.hiresAgree → s.hires.records.canonical none = true →
    s.fleet.receivers.canonical .unseen = true → ∃ t, exec (.secondEvent order) s = .next t ∧
    (∀ b side, 1 ≤ b → b ≤ 24 →
      (s.domain b side = .idle → t.domain b side = .idle ∧ t.turn b side = s.turn b side) ∧
      (∀ d e n p, s.domain b side = .pending d e n p → n ≤ 1 →
        (p = .lapse → t.domain b side = .live d ∧
          (t.turn b side).counter = min ((s.turn b side).counter + 1) 4294967295 ∧
          (t.turn b side).limit = (s.turn b side).limit ∧ (t.turn b side).overrun = (s.turn b side).overrun) ∧
        (p = .take → t.domain b side = .live e ∧ (d ≠ e → (t.turn b side).counter ≤ 1 ∧
          (t.turn b side).limit = some (s.config b).turnLimit ∧
          (t.turn b side).overrun = some (s.config b).overrun))) ∧
      ∀ (d counter : Nat) (due late : Bool) (live : DeskRecord → DeskRecord), s.livesOn b side d →
        counter = s.nextCounter b side → (due = true ↔ s.fallsDue b side) → (late = true ↔ s.overruns b side) →
        (live = fun r => match (s.desk b d).selection with
          | .a => { r with liveA := min (r.liveA + 1) 4294967295 }
          | .b => { r with liveB := min (r.liveB + 1) 4294967295 }) →
        t.domain b side = (match s.domain b side with
          | .pending d e n p => .pending d e (n - 1) p
          | m => m) ∧
        t.turn b side = { s.turn b side with
          counter := counter, dueRaised := (s.turn b side).dueRaised || due
          overrunRaised := (s.turn b side).overrunRaised || late } ∧
        (due = true → t.tells (.turnDue b d)) ∧ (late = true → t.tells (.turnOverrun b d)) ∧
        (s.namesPositions →
          (∀ x, x ≠ side → (s.domain b x).liveDesk ≠ some d ∧ (s.domain b x).requester ≠ some d) →
          t.deskRecord b d = { live (s.deskRecord b d) with
            turnDue := if due = true then min ((s.deskRecord b d).turnDue + 1) 4294967295
              else (s.deskRecord b d).turnDue })) ∧
    (∀ b c x y n m, 1 ≤ b → b ≤ 24 → 1 ≤ c → c ≤ 24 → placeBefore b x c y → s.turnRaises b x n → s.turnRaises c y m →
      t.tellsInOrder n m) ∧
    (s.check.current = none → t.check = s.check) ∧
    (t.check.current ≠ none →
      t.check.dwell = if t.check.placements = s.check.placements then s.check.dwell - 1 else 10) ∧
    ((∀ b side d e n p, 1 ≤ b → b ≤ 24 → s.domain b side = .pending d e n p → 1 < n) → s.check.current ≠ none →
      (1 < s.check.dwell → t.check = { s.check with dwell := s.check.dwell - 1 }) ∧
      (s.check.dwell ≤ 1 → ∃ u, exec .checkDwellExpiry s = .next u ∧ t.check = u.check ∧
        ∀ c, c < 32 → t.source c = u.source c)) ∧
    (∀ n h, s.hire n = some h →
      (∀ w, h.state = .pending w → 1 < w → t.hire n = some { h with state := .pending (w - 1) } ∧
        t.receiver h.receiver = s.receiver h.receiver) ∧
      (∀ w, h.state = .pending w → w ≤ 1 → t.hire n = none ∧
        t.receiver h.receiver = { s.receiver h.receiver with state := .docked, hire := none }) ∧
      ((∀ w, h.state ≠ .pending w) → t.hire n = some h)) ∧
    (∀ n, s.hire n = none → t.hire n = none) ∧
    (∀ n m, s.lapses n m → t.tells m) ∧
    (∀ n q m p, n < q → s.lapses n m → s.lapses q p → t.tellsInOrder m p) ∧
    (∀ r m, s.goesMissing r m → t.tells m) ∧
    (∀ r q m p, r < q → s.goesMissing r m → s.goesMissing q p → t.tellsInOrder m p) ∧
    (∀ r since, (s.receiver r).state = .silent → (s.receiver r).silentSince = some since →
      t.receiver r = { s.receiver r with missingReported := ((s.receiver r).missingReported ||
        decide (min (since + 64 * 2 ^ s.limits.missingCode) 4294967295 ≤ min (s.clock.seconds + 1) 4294967295)) }) ∧
    (∀ r, (s.receiver r).state ≠ .silent → (s.receiver r).state ≠ .reserved → t.receiver r = s.receiver r)

/-- SET_TIME stores the counter in SETUP with no record in the hire table, and is refused with WRONG_STATE or IN_USE
and the counter as it stands otherwise; nothing else changes. WRITE_LIMITS stores the seven limits together, each held
to its range, with CLAMPED if one was changed; READ_LIMITS returns them in the same layout; nothing else changes. -/
def Obligations.TimeAndLimits : Prop :=
  (∀ (tag : Byte) (n : Nat) (s : State), n < 4294967296 → s.canTake ⟨0x05, tag, be32 n⟩ →
     (s.plan.hall = .session → exec (.setTime tag (be32 n)) s =
       .next (s.replied 0x05 tag (0x10 :: be32 s.clock.seconds))) ∧
     (s.plan.hall = .setup → s.hireList ≠ [] → exec (.setTime tag (be32 n)) s =
       .next (s.replied 0x05 tag (0x05 :: be32 s.clock.seconds))) ∧
     (s.plan.hall = .setup → s.hireList = [] → exec (.setTime tag (be32 n)) s =
       .next { s.replied 0x05 tag (0x00 :: be32 n) with clock := { s.clock with seconds := n } })) ∧
  (∀ (tag k m c i b f : Byte) (w : Nat) (new : Machine.Limits) (s : State), w < 65536 →
     new = ⟨max 1 k.toNat, max 1 (min m.toNat 15), min c.toNat 10, max 10 (min w 600), min i.toNat 7, min b.toNat 7,
       max 2 (min f.toNat 15)⟩ →
     (s.canTake ⟨0x06, tag, [k, m, c] ++ be16 w ++ [i, b, f]⟩ →
       exec (.writeLimits tag ([k, m, c] ++ be16 w ++ [i, b, f])) s =
         .next { s.replied 0x06 tag
             ((if new = ⟨k.toNat, m.toNat, c.toNat, w, i.toNat, b.toNat, f.toNat⟩ then 0x00 else 0x01 : Byte) ::
               [byteOf new.creditCap, byteOf new.missLimit, byteOf new.missingCode] ++ be16 new.issueWindow ++
               [byteOf new.issueMinimum, byteOf new.lowBand, byteOf new.failureLimit]) with
           limits := new }) ∧
     (s.canTake ⟨0x07, tag, []⟩ → exec (.readLimits tag []) s =
       .next (s.replied 0x07 tag
         (0x00 :: [byteOf s.limits.creditCap, byteOf s.limits.missLimit, byteOf s.limits.missingCode] ++
           be16 s.limits.issueWindow ++
           [byteOf s.limits.issueMinimum, byteOf s.limits.lowBand, byteOf s.limits.failureLimit]))))

/-- READ_FAULT returns a unit's state, failure count and fault record in 16 bytes and changes no state; CLEAR_FAULT
gives the same reply and empties the record; a unit outside 1 to 42 is refused with RANGE. -/
def Obligations.ReadAndClearFault : Prop :=
  ∀ (tag u : Byte) (s : State) (body : List Byte),
    (body = [0x00, u, (match (s.unit u.toNat).state with | .unseen => 0 | .present => 1 | .lost => 2 : Byte),
        (if u = 42 then 0 else byteOf (s.unit u.toNat).failures : Byte),
        (if (s.faultRecord u.toNat).fault = none then 0 else 1 : Byte),
        (if (s.faultRecord u.toNat).overflow = true then 1 else 0 : Byte)] ++
      (match (s.faultRecord u.toNat).fault with
        | none => [0, 0] ++ be32 0 ++ be32 0
        | some e =>
          [(match e.severity with | .note => 1 | .degraded => 2 | .lost => 3 : Byte),
            (match e.cause with
              | .unitLost => 1
              | .referenceLost => 2
              | .inventoryMismatch => 3
              | .consoleStateMismatch => 4 : Byte)] ++ be32 e.time ++ be32 e.detail : List Byte)) →
    (s.canTake ⟨0x08, tag, [u]⟩ →
      ((u.toNat = 0 ∨ 42 < u.toNat) → exec (.readFault tag [u]) s = .next (s.replied 0x08 tag [0x03])) ∧
      (1 ≤ u.toNat → u.toNat ≤ 42 → exec (.readFault tag [u]) s = .next (s.replied 0x08 tag body) ∧
        body.length = 16)) ∧
    (s.canTake ⟨0x09, tag, [u]⟩ →
      ((u.toNat = 0 ∨ 42 < u.toNat) → exec (.clearFault tag [u]) s = .next (s.replied 0x09 tag [0x03])) ∧
      (1 ≤ u.toNat → u.toNat ≤ 42 → exec (.clearFault tag [u]) s =
        .next ((s.setFaultRecord u.toNat ⟨none, false⟩).replied 0x09 tag body)))

/-- A miss of the poll of a unit that is under way raises its failure count, held at 15, and ends the poll; a PRESENT
unit whose count so reaches the failure limit is LOST, its owning block takes the loss, and UNIT_LOST is recorded over
an empty record or one of lower rank with a FAULT notice, or leaves the overflow mark. The pending flashes of a LOST
console are dropped (the model's reading, log entry 10). UNIT_DECLARED_LOST is that miss and nothing below the limit
(log entry 4); RADIATOR_REPLY makes the radiator PRESENT. With no poll of the unit under way these rows have no effect
(log entry 8).
The polls: a console's carries the lamps of its four positions and then drops their flashes, a console's and a rack's
carries a return request unless the unit is PRESENT, and each link goes on to its next unit in address order once its
poll is complete; one commanded before that has no effect (log entry 8, which also chooses the first address). A reply
of another form than its poll calls for, and one that names another unit, is a miss of the unit polled. -/
def Obligations.UnitPolling : Prop :=
  (∀ (u n : Nat) (s : State), 1 ≤ u → u ≤ 41 → n = min ((s.unit u).failures + 1) 15 →
     (s.polls u = false → exec (.unitPollMiss u) s = .next s ∧ exec (.unitDeclaredLost u) s = .next s) ∧
     (s.polls u = true → ((s.unit u).state ≠ .present ∨ n < s.limits.failureLimit) →
       exec (.unitDeclaredLost u) s = .next s ∧ ∃ t, exec (.unitPollMiss u) s = .next t ∧ t.polls u = false ∧
         t.unit u = ⟨(s.unit u).state, n⟩ ∧ (∀ x, x ≠ u → t.unit x = s.unit x) ∧
         t.supervisor.faults = s.supervisor.faults ∧ s.keepsAudio t ∧ s.keepsFleet t ∧ s.keepsMoney t ∧
         t.clock = s.clock ∧ t.limits = s.limits ∧ t.pending = s.pending ∧ t.link = s.link) ∧
     (s.polls u = true → (s.unit u).state = .present → s.limits.failureLimit ≤ n →
       ∃ t, exec (.unitPollMiss u) s = .next t ∧ exec (.unitDeclaredLost u) s = .next t ∧ t.polls u = false ∧
         t.unit u = ⟨.lost, n⟩ ∧ (∀ x, x ≠ u → t.unit x = s.unit x) ∧
         (∀ x, x ≠ u → t.faultRecord x = s.faultRecord x) ∧
         (((s.faultRecord u).fault = none ∨ ∃ e, (s.faultRecord u).fault = some e ∧ e.severity ≠ .lost) →
           t.faultRecord u = ⟨some ⟨.lost, .unitLost, s.clock.seconds, n⟩, (s.faultRecord u).overflow⟩ ∧
           s.raised t [.fault u ⟨.lost, .unitLost, s.clock.seconds, n⟩]) ∧
         (∀ e, (s.faultRecord u).fault = some e → e.severity = .lost →
           t.faultRecord u = ⟨some e, true⟩ ∧ t.link = s.link) ∧
         (u = 41 → t.beacon = { s.beacon with inFlight := none }) ∧ (u ≠ 41 → t.beacon = s.beacon) ∧
         (∀ x d, d ≤ 7 → t.desk x d = { s.desk x d with
           flash := (s.desk x d).flash && !(decide (x = u) && decide (1 ≤ d) && decide (d ≤ 4) && decide (u ≤ 24)) }) ∧
         (t.booths.domains = s.booths.domains ∧ t.booths.configs = s.booths.configs ∧ t.plan = s.plan ∧
           t.arbiter = s.arbiter ∧ t.turns = s.turns ∧ t.check = s.check ∧ t.racks = s.racks ∧ t.fleet = s.fleet) ∧
         s.keepsMoney t ∧ t.clock = s.clock ∧ t.limits = s.limits ∧ t.pending = s.pending) ∧
     (s.polls 41 = false → exec .radiatorReply s = .next s) ∧
     (s.polls 41 = true → ∃ t, exec .radiatorReply s = .next t ∧ t.polls 41 = false ∧
       t.unit 41 = ⟨.present, 0⟩ ∧ (∀ x, x ≠ 41 → t.unit x = s.unit x) ∧
       t.supervisor.faults = s.supervisor.faults ∧ s.keepsAudio t ∧
       s.keepsFleet t ∧ s.keepsMoney t ∧ t.clock = s.clock ∧ t.limits = s.limits ∧ t.pending = s.pending ∧
       t.link = s.link)) ∧
  (∀ s : State,
     (s.supervisor.consolePoll ≠ none → exec .consolePoll s = .next s) ∧
     (s.supervisor.consolePoll = none → ∀ b, s.supervisor.nextConsole = b → ∃ t, exec .consolePoll s = .next t ∧
       t.supervisor = { s.supervisor with
         consolePoll := some ⟨b, decide ((s.unit b).state ≠ .present), [s.lamps b 1, s.lamps b 2, s.lamps b 3, s.lamps b 4]⟩
         nextConsole := if b < 24 then b + 1 else 1 } ∧
       (∀ x d, d ≤ 7 → t.desk x d = { s.desk x d with
         flash := (s.desk x d).flash && !(decide (x = b) && decide (1 ≤ d) && decide (d ≤ 4)) }) ∧
       (t.booths.domains = s.booths.domains ∧ t.booths.configs = s.booths.configs ∧ t.plan = s.plan ∧
         t.arbiter = s.arbiter ∧ t.turns = s.turns ∧ t.check = s.check) ∧
       s.keepsFleet t ∧ s.keepsMoney t ∧ t.clock = s.clock ∧ t.limits = s.limits ∧ t.pending = s.pending ∧
       t.link = s.link) ∧
     (s.supervisor.rackPoll ≠ none → exec .rackPoll s = .next s) ∧
     (s.supervisor.rackPoll = none → ∀ k, s.supervisor.nextRack = k →
       exec .rackPoll s = .next { s with supervisor := { s.supervisor with
         rackPoll := some ⟨k, decide ((s.unit (24 + k)).state ≠ .present)⟩
         nextRack := if k < 16 then k + 1 else 1 } }) ∧
     exec .radiatorStatusPoll s = .next { s with supervisor := { s.supervisor with radiatorPoll := true } } ∧
     (∀ b, 1 ≤ b → b ≤ 24 →
       (s.supervisor.consolePoll = none → ∀ c, exec (.consoleReply b c) s = .next s) ∧
       (∀ x, x ≠ b → s.awaitsConsole b → ∀ c, exec (.consoleReply x c) s = exec (.unitPollMiss b) s) ∧
       (s.awaitsConsole b → (s.unit b).state ≠ .present → ∀ l,
         exec (.consoleReply b (.events l)) s = exec (.unitPollMiss b) s) ∧
       (s.awaitsConsole b → (s.unit b).state = .present → ∀ d1 d2 d3 d4,
         exec (.consoleReply b (.report d1 d2 d3 d4)) s = exec (.unitPollMiss b) s)) ∧
     ∀ k, 1 ≤ k → k ≤ 16 →
       (s.supervisor.rackPoll = none → ∀ c, exec (.rackReply k c) s = .next s) ∧
       (∀ x, x ≠ k → s.awaitsRack k → ∀ c, exec (.rackReply x c) s = exec (.unitPollMiss (24 + k)) s) ∧
       (s.awaitsRack k → (s.unit (24 + k)).state ≠ .present → ∀ l,
         exec (.rackReply k (.reports l)) s = exec (.unitPollMiss (24 + k)) s) ∧
       (s.awaitsRack k → (s.unit (24 + k)).state = .present → ∀ l,
         exec (.rackReply k (.inventory l)) s = exec (.unitPollMiss (24 + k)) s))

/-- The reference supervisor: a gap in LOCKED loses the reference, with the clock on the oscillator, unit 42 LOST, a
REFERENCE_LOST fault ahead of the REFERENCE notice; a gap in SETTLING or SETTLED only returns to ABSENT; edges move
ABSENT to SETTLING; a stable time of 2 s moves SETTLING to SETTLED. One period of the counting source raises the
sub-second count, and the stable time where one is held; the period that would make the count 48,000 is a second event.
The model's choices (log entry 6): a period passes when no command waits, and with an edge that arrives in LOCKED;
STABLE_TIME_REACHED carries the periods up to its event, and has no effect where a second boundary stands before it; and
SECOND_EVENT carries the rest of its second. The order at a boundary that no command names is free (log entry 3). -/
def Obligations.ReferenceSupervision : Prop :=
  (∀ s : State,
     (s.clock.phase = .locked → ∃ t, exec .referenceGap s = .next t ∧
       t.clock = { s.clock with source := .oscillator, quality := .degraded, phase := .absent, stable := none } ∧
       (t.unit 42).state = .lost ∧ (∀ u, u ≠ 42 → t.unit u = s.unit u) ∧
       (∀ u, u ≠ 42 → t.faultRecord u = s.faultRecord u) ∧
       (((s.faultRecord 42).fault = none ∨ ∃ e, (s.faultRecord 42).fault = some e ∧ e.severity = .note) →
         t.faultRecord 42 = ⟨some ⟨.degraded, .referenceLost, s.clock.seconds, s.clock.degradedCount⟩,
           (s.faultRecord 42).overflow⟩ ∧
         s.raised t [.fault 42 ⟨.degraded, .referenceLost, s.clock.seconds, s.clock.degradedCount⟩,
           .reference .degraded s.clock.seconds s.clock.degradedCount]) ∧
       (∀ e, (s.faultRecord 42).fault = some e → e.severity ≠ .note → t.faultRecord 42 = ⟨some e, true⟩ ∧
         s.raised t [.reference .degraded s.clock.seconds s.clock.degradedCount]) ∧
       s.keepsAudio t ∧ s.keepsFleet t ∧ s.keepsMoney t ∧ t.limits = s.limits ∧ t.pending = s.pending) ∧
     (s.clock.phase = .absent → exec .referenceGap s = .next s ∧
       exec .referenceEdgesResume s = .next { s with clock := { s.clock with phase := .settling, stable := some 0 } }) ∧
     ((s.clock.phase = .settling ∨ s.clock.phase = .settled) → exec .referenceEdgesResume s = .next s ∧
       exec .referenceGap s = .next { s with clock := { s.clock with phase := .absent, stable := none } }) ∧
     (∀ n, s.clock.phase = .settling → s.clock.stable = some n →
       (96000 - n ≤ 47999 - s.clock.subSecond → exec .stableTimeReached s =
         .next { s with clock := { s.clock with
           subSecond := s.clock.subSecond + (96000 - n), phase := .settled, stable := some 96000 } }) ∧
       (47999 - s.clock.subSecond < 96000 - n → exec .stableTimeReached s = .next s)) ∧
     (s.clock.phase ≠ .settling → exec .stableTimeReached s = .next s)) ∧
  ∀ (s : State) (tick : Host.Outcome State Fault Refusal) (stable : Option Nat),
    ((tick = step s ∧ s.pending = []) ∨ (tick = exec .referenceEdgesResume s ∧ s.clock.phase = .locked)) →
    stable = s.clock.stable.map (fun n => min (n + 1) 96000) →
    (s.clock.subSecond + 1 < 48000 → tick = .next { s with clock := { s.clock with
      subSecond := s.clock.subSecond + 1, stable := stable
      phase := if s.clock.phase = .settling ∧ stable = some 96000 then .settled else s.clock.phase } }) ∧
    (48000 ≤ s.clock.subSecond + 1 → ∃ order, tick = exec (.secondEvent order)
      { s with clock := { s.clock with boundaries := s.clock.boundaries + 1 } })

/-! ### What every step keeps -/

/-- Every step keeps the queues within their places, the tables in their canonical form, and what the host writes
within its ranges: plan entries, floor language, booth configurations, tariff classes, schedule counts and limits; the
control link with nothing left to send when its transmitter is idle, and with the hold full only behind a full reply
room; the clock and the reference supervisor in agreement; the polls of the links at units of theirs; and the check
RUNNING exactly while a channel of its program is under test with its own signature. That the tables have one canonical
form is the model's way to hold them (log entry 18). -/
def Obligations.StoresStaySound : Prop :=
  (∀ s t : State, s.queuesBounded → s.tablesCanonical → s.valuesFit → step s = .next t →
    t.queuesBounded ∧ t.tablesCanonical ∧ t.valuesFit) ∧
  ∀ s t : State, step s = .next t →
    (s.linkFits → t.linkFits) ∧ (s.clockFits → t.clockFits) ∧ (s.pollsFit → t.pollsFit) ∧ (s.checkFits → t.checkFits)

/-- Every step keeps the booths sound: no domain leaves IDLE in SETUP, an IDLE domain holds an IDLE turn, each desk a
domain names is enabled and stands on an assigned output of it, no output is in two channels, and of a channel's outputs
at most one is claimed; and each enabled desk holds a port of its own, of the 64, which no other position holds. -/
def Obligations.BoothsStaySound : Prop :=
  (∀ s t : State, s.valuesFit → s.setupQuiet → s.turnsFit → s.claimsAgree → step s = .next t →
    t.setupQuiet ∧ t.turnsFit ∧ t.claimsAgree) ∧
  ∀ s t : State, s.tablesCanonical → s.valuesFit → s.portsAgree → step s = .next t → t.portsAgree

/-- Every step leaves every source and every ear feed as R18, R19 and R34 form it from the state as it then stands, and
the source without TEST of the channel under test FALLBACK or UNUSED. -/
def Obligations.SourcesStaySettled : Prop :=
  (∀ s t : State, s.valuesFit → s.setupQuiet → s.claimsAgree → s.sourcesSettled → step s = .next t → t.sourcesSettled) ∧
  ∀ s t : State, s.valuesFit → s.setupQuiet → s.claimsAgree → s.testSound → step s = .next t → t.testSound

/-- Every step keeps the receiver fleet in agreement with itself: slots and locations, states and poll lists, monitors
and their positions, hires and receivers, silences; and it keeps the listener counts equal to the numbers of OUT
receivers by tuned channel. -/
def Obligations.FleetStaysAgreed : Prop :=
  (∀ s t : State, s.queuesBounded → s.tablesCanonical → s.fleetAgrees → step s = .next t → t.fleetAgrees) ∧
  (∀ s t : State, s.queuesBounded → s.tablesCanonical → s.fleetAgrees → s.listenersAgree → step s = .next t →
     t.listenersAgree)

/-- The state after power-on reset meets every invariant that the steps keep. -/
def Obligations.InvariantsHoldAtReset : Prop :=
  State.reset.queuesBounded ∧ State.reset.tablesCanonical ∧ State.reset.valuesFit ∧ State.reset.setupQuiet ∧
    State.reset.turnsFit ∧ State.reset.claimsAgree ∧ State.reset.portsAgree ∧ State.reset.sourcesSettled ∧
    State.reset.testSound ∧
    State.reset.fleetAgrees ∧ State.reset.listenersAgree ∧ State.reset.linkFits ∧ State.reset.clockFits ∧
    State.reset.pollsFit ∧ State.reset.checkFits
end

