-- ==== Sys2Proof/Laws/Table.lean ====
section
/-! SUPPORT. What reading and writing a sparse table do, and that every table operation keeps the canonical form. -/

namespace Sys2Proof.Machine

variable {α : Type}

@[simp] theorem Table.read_nil (d : α) (k : Nat) : Table.read d [] k = d := rfl

theorem Table.read_erase_same (d : α) (t : Table α) (k : Nat) : (t.erase k).read d k = d := by
  induction t with
  | nil => rfl
  | cons e t ih =>
    obtain ⟨j, v⟩ := e
    by_cases h : j = k <;> simp [Table.erase, h, Table.read, ih]

theorem Table.read_erase_ne (d : α) (t : Table α) {k j : Nat} (h : j ≠ k) : (t.erase k).read d j = t.read d j := by
  induction t with
  | nil => rfl
  | cons e t ih =>
    obtain ⟨i, v⟩ := e
    by_cases hi : i = k
    · subst hi
      have hne : ¬ i = j := fun e => h e.symm
      simp [Table.erase, Table.read, hne, ih]
    · simp [Table.erase, hi, Table.read, ih]

theorem Table.read_insert_ne (d : α) (t : Table α) {k j : Nat} (v : α) (h : j ≠ k) :
    (t.insert k v).read d j = t.read d j := by
  induction t with
  | nil =>
    have hne : ¬ k = j := fun e => h e.symm
    simp [Table.insert, Table.read, hne]
  | cons e t ih =>
    obtain ⟨i, w⟩ := e
    have hne : ¬ k = j := fun e => h e.symm
    by_cases hi : k < i
    · simp [Table.insert, hi, Table.read, hne]
    · simp [Table.insert, hi, Table.read, ih]

/-- No entry of the table is listed under `k`. -/
def Table.lacks (k : Nat) (t : Table α) : Prop := ∀ e ∈ t, e.1 ≠ k

theorem Table.lacks_erase (t : Table α) (k : Nat) : (t.erase k).lacks k := by
  induction t with
  | nil => intro e he; cases he
  | cons e t ih =>
    obtain ⟨j, v⟩ := e
    by_cases h : j = k
    · simpa [Table.erase, h] using ih
    · intro x hx
      simp only [Table.erase, h, if_false] at hx
      rcases List.mem_cons.mp hx with rfl | hx
      · exact h
      · exact ih x hx

theorem Table.read_insert_same (d : α) (t : Table α) (k : Nat) (v : α) (h : t.lacks k) :
    (t.insert k v).read d k = v := by
  induction t with
  | nil => simp [Table.insert, Table.read]
  | cons e t ih =>
    obtain ⟨i, w⟩ := e
    have hi : i ≠ k := h (i, w) (by simp)
    have ht : Table.lacks k t := fun x hx => h x (List.mem_cons_of_mem _ hx)
    by_cases hlt : k < i
    · simp [Table.insert, hlt, Table.read]
    · simp [Table.insert, hlt, Table.read, hi, ih ht]

variable [DecidableEq α]

/-- A key just written reads as the value written. -/
@[simp] theorem Table.read_write_same (d : α) (t : Table α) (k : Nat) (v : α) : (t.write d k v).read d k = v := by
  by_cases h : v = d
  · simp [Table.write, h, Table.read_erase_same]
  · simp [Table.write, h, Table.read_insert_same _ _ _ _ (Table.lacks_erase t k)]

/-- A write leaves every other key as it was. -/
theorem Table.read_write_ne (d : α) (t : Table α) {k j : Nat} (v : α) (h : j ≠ k) :
    (t.write d k v).read d j = t.read d j := by
  by_cases hv : v = d
  · simp [Table.write, hv, Table.read_erase_ne _ _ h]
  · simp [Table.write, hv, Table.read_insert_ne _ _ _ h, Table.read_erase_ne _ _ h]

/-- What every key reads as after a write. -/
theorem Table.read_write (d : α) (t : Table α) (k j : Nat) (v : α) :
    (t.write d k v).read d j = if j = k then v else t.read d j := by
  by_cases h : j = k
  · simp [h]
  · simp [h, Table.read_write_ne _ _ _ h]

/-! ### The canonical form -/

/-- Every key of the table is above `k`. -/
def Table.above (k : Nat) (t : Table α) : Prop := ∀ e ∈ t, k < e.1

/-- The canonical form, unfolded one entry at a time. -/
theorem Table.canonical_cons (d : α) (k : Nat) (v : α) (t : Table α) :
    Table.canonical d ((k, v) :: t) = true ↔ v ≠ d ∧ Table.above k t ∧ Table.canonical d t = true := by
  induction t generalizing k v with
  | nil => simp [Table.canonical, Table.above]
  | cons e t ih =>
    obtain ⟨j, w⟩ := e
    have := ih j w
    simp only [Table.canonical, Bool.and_eq_true, decide_eq_true_eq, bne_iff_ne, ne_eq] at this ⊢
    constructor
    · rintro ⟨⟨hlt, hv⟩, hc⟩
      refine ⟨hv, ?_, hc⟩
      intro x hx
      rcases List.mem_cons.mp hx with rfl | hx
      · exact hlt
      · exact lt_trans hlt ((ih j w).mp hc |>.2.1 x hx)
    · rintro ⟨hv, ha, hc⟩
      exact ⟨⟨ha (j, w) (by simp), hv⟩, hc⟩

omit [DecidableEq α] in
theorem Table.above_erase {k j : Nat} {t : Table α} (h : Table.above j t) : Table.above j (t.erase k) := by
  induction t with
  | nil => exact h
  | cons e t ih =>
    obtain ⟨i, v⟩ := e
    have ht : Table.above j t := fun x hx => h x (List.mem_cons_of_mem _ hx)
    by_cases hi : i = k
    · simpa [Table.erase, hi] using ih ht
    · intro x hx
      simp only [Table.erase, hi, if_false] at hx
      rcases List.mem_cons.mp hx with rfl | hx
      · exact h _ (by simp)
      · exact ih ht x hx

omit [DecidableEq α] in
theorem Table.above_insert {k j : Nat} {v : α} {t : Table α} (h : Table.above j t) (hk : j < k) :
    Table.above j (t.insert k v) := by
  induction t with
  | nil => intro x hx; simp only [Table.insert, List.mem_singleton] at hx; subst hx; exact hk
  | cons e t ih =>
    obtain ⟨i, w⟩ := e
    have ht : Table.above j t := fun x hx => h x (List.mem_cons_of_mem _ hx)
    intro x hx
    by_cases hlt : k < i
    · simp only [Table.insert, hlt, if_true] at hx
      rcases List.mem_cons.mp hx with rfl | hx
      · exact hk
      · exact h x hx
    · simp only [Table.insert, hlt, if_false] at hx
      rcases List.mem_cons.mp hx with rfl | hx
      · exact h _ (by simp)
      · exact ih ht x hx

theorem Table.canonical_erase (d : α) (t : Table α) (k : Nat) (h : t.canonical d = true) :
    (t.erase k).canonical d = true := by
  induction t with
  | nil => rfl
  | cons e t ih =>
    obtain ⟨j, v⟩ := e
    obtain ⟨hv, ha, hc⟩ := (Table.canonical_cons d j v t).mp h
    by_cases hj : j = k
    · simpa [Table.erase, hj] using ih hc
    · simp only [Table.erase, hj, if_false]
      exact (Table.canonical_cons d j v _).mpr ⟨hv, Table.above_erase ha, ih hc⟩

theorem Table.canonical_insert (d : α) (t : Table α) (k : Nat) (v : α) (hv : v ≠ d) (hl : t.lacks k)
    (h : t.canonical d = true) : (t.insert k v).canonical d = true := by
  induction t with
  | nil => simp [Table.insert, Table.canonical, hv]
  | cons e t ih =>
    obtain ⟨j, w⟩ := e
    obtain ⟨hw, ha, hc⟩ := (Table.canonical_cons d j w t).mp h
    have hj : j ≠ k := hl (j, w) (by simp)
    have ht : Table.lacks k t := fun x hx => hl x (List.mem_cons_of_mem _ hx)
    by_cases hlt : k < j
    · simp only [Table.insert, hlt, if_true]
      refine (Table.canonical_cons d k v _).mpr ⟨hv, ?_, h⟩
      intro x hx
      rcases List.mem_cons.mp hx with rfl | hx
      · exact hlt
      · exact lt_trans hlt (ha x hx)
    · simp only [Table.insert, hlt, if_false]
      exact (Table.canonical_cons d j w _).mpr
        ⟨hw, Table.above_insert ha (by omega), ih ht hc⟩

/-- A write keeps the canonical form. -/
theorem Table.canonical_write (d : α) (t : Table α) (k : Nat) (v : α) (h : t.canonical d = true) :
    (t.write d k v).canonical d = true := by
  by_cases hv : v = d
  · simpa [Table.write, hv] using Table.canonical_erase d t k h
  · simpa [Table.write, hv] using
      Table.canonical_insert d _ k v hv (Table.lacks_erase t k) (Table.canonical_erase d t k h)

end Sys2Proof.Machine
end

