-- ==== Sys2Proof/Laws/State.lean ====
section
/-! SUPPORT. The updates of the state, one lemma for each field they leave alone, and what each entry reads as after
each write: cite these instead of unfolding a record update. -/

namespace Sys2Proof.Machine

variable (s : State)

/-! setPlanEntry -/

@[simp] theorem State.setPlanEntry_link (c : Nat) (e : PlanEntry) : (s.setPlanEntry c e).link = s.link := rfl
@[simp] theorem State.setPlanEntry_arbiter (c : Nat) (e : PlanEntry) : (s.setPlanEntry c e).arbiter = s.arbiter := rfl
@[simp] theorem State.setPlanEntry_booths (c : Nat) (e : PlanEntry) : (s.setPlanEntry c e).booths = s.booths := rfl
@[simp] theorem State.setPlanEntry_turns (c : Nat) (e : PlanEntry) : (s.setPlanEntry c e).turns = s.turns := rfl
@[simp] theorem State.setPlanEntry_check (c : Nat) (e : PlanEntry) : (s.setPlanEntry c e).check = s.check := rfl
@[simp] theorem State.setPlanEntry_racks (c : Nat) (e : PlanEntry) : (s.setPlanEntry c e).racks = s.racks := rfl
@[simp] theorem State.setPlanEntry_fleet (c : Nat) (e : PlanEntry) : (s.setPlanEntry c e).fleet = s.fleet := rfl
@[simp] theorem State.setPlanEntry_beacon (c : Nat) (e : PlanEntry) : (s.setPlanEntry c e).beacon = s.beacon := rfl
@[simp] theorem State.setPlanEntry_hires (c : Nat) (e : PlanEntry) : (s.setPlanEntry c e).hires = s.hires := rfl
@[simp] theorem State.setPlanEntry_money (c : Nat) (e : PlanEntry) : (s.setPlanEntry c e).money = s.money := rfl
@[simp] theorem State.setPlanEntry_meters (c : Nat) (e : PlanEntry) : (s.setPlanEntry c e).meters = s.meters := rfl
@[simp] theorem State.setPlanEntry_clock (c : Nat) (e : PlanEntry) : (s.setPlanEntry c e).clock = s.clock := rfl
@[simp] theorem State.setPlanEntry_supervisor (c : Nat) (e : PlanEntry) : (s.setPlanEntry c e).supervisor = s.supervisor := rfl
@[simp] theorem State.setPlanEntry_limits (c : Nat) (e : PlanEntry) : (s.setPlanEntry c e).limits = s.limits := rfl
@[simp] theorem State.setPlanEntry_pending (c : Nat) (e : PlanEntry) : (s.setPlanEntry c e).pending = s.pending := rfl
@[simp] theorem State.setPlanEntry_plan_floorLanguage (c : Nat) (e : PlanEntry) : (s.setPlanEntry c e).plan.floorLanguage = s.plan.floorLanguage := rfl
@[simp] theorem State.setPlanEntry_plan_hall (c : Nat) (e : PlanEntry) : (s.setPlanEntry c e).plan.hall = s.plan.hall := rfl

/-! setAnnouncement -/

@[simp] theorem State.setAnnouncement_link (c : Nat) (a : AnnState) : (s.setAnnouncement c a).link = s.link := rfl
@[simp] theorem State.setAnnouncement_plan (c : Nat) (a : AnnState) : (s.setAnnouncement c a).plan = s.plan := rfl
@[simp] theorem State.setAnnouncement_booths (c : Nat) (a : AnnState) : (s.setAnnouncement c a).booths = s.booths := rfl
@[simp] theorem State.setAnnouncement_turns (c : Nat) (a : AnnState) : (s.setAnnouncement c a).turns = s.turns := rfl
@[simp] theorem State.setAnnouncement_check (c : Nat) (a : AnnState) : (s.setAnnouncement c a).check = s.check := rfl
@[simp] theorem State.setAnnouncement_racks (c : Nat) (a : AnnState) : (s.setAnnouncement c a).racks = s.racks := rfl
@[simp] theorem State.setAnnouncement_fleet (c : Nat) (a : AnnState) : (s.setAnnouncement c a).fleet = s.fleet := rfl
@[simp] theorem State.setAnnouncement_beacon (c : Nat) (a : AnnState) : (s.setAnnouncement c a).beacon = s.beacon := rfl
@[simp] theorem State.setAnnouncement_hires (c : Nat) (a : AnnState) : (s.setAnnouncement c a).hires = s.hires := rfl
@[simp] theorem State.setAnnouncement_money (c : Nat) (a : AnnState) : (s.setAnnouncement c a).money = s.money := rfl
@[simp] theorem State.setAnnouncement_meters (c : Nat) (a : AnnState) : (s.setAnnouncement c a).meters = s.meters := rfl
@[simp] theorem State.setAnnouncement_clock (c : Nat) (a : AnnState) : (s.setAnnouncement c a).clock = s.clock := rfl
@[simp] theorem State.setAnnouncement_supervisor (c : Nat) (a : AnnState) : (s.setAnnouncement c a).supervisor = s.supervisor := rfl
@[simp] theorem State.setAnnouncement_limits (c : Nat) (a : AnnState) : (s.setAnnouncement c a).limits = s.limits := rfl
@[simp] theorem State.setAnnouncement_pending (c : Nat) (a : AnnState) : (s.setAnnouncement c a).pending = s.pending := rfl
@[simp] theorem State.setAnnouncement_arbiter_sources (c : Nat) (a : AnnState) : (s.setAnnouncement c a).arbiter.sources = s.arbiter.sources := rfl
@[simp] theorem State.setAnnouncement_arbiter_inputOne (c : Nat) (a : AnnState) : (s.setAnnouncement c a).arbiter.inputOne = s.arbiter.inputOne := rfl
@[simp] theorem State.setAnnouncement_arbiter_inputTwo (c : Nat) (a : AnnState) : (s.setAnnouncement c a).arbiter.inputTwo = s.arbiter.inputTwo := rfl
@[simp] theorem State.setAnnouncement_arbiter_relays (c : Nat) (a : AnnState) : (s.setAnnouncement c a).arbiter.relays = s.arbiter.relays := rfl
@[simp] theorem State.setAnnouncement_arbiter_feeds (c : Nat) (a : AnnState) : (s.setAnnouncement c a).arbiter.feeds = s.arbiter.feeds := rfl

/-! setInput -/

@[simp] theorem State.setInput_link (i : AnnInput) (set : Option ChannelSet) : (s.setInput i set).link = s.link := rfl
@[simp] theorem State.setInput_plan (i : AnnInput) (set : Option ChannelSet) : (s.setInput i set).plan = s.plan := rfl
@[simp] theorem State.setInput_booths (i : AnnInput) (set : Option ChannelSet) : (s.setInput i set).booths = s.booths := rfl
@[simp] theorem State.setInput_turns (i : AnnInput) (set : Option ChannelSet) : (s.setInput i set).turns = s.turns := rfl
@[simp] theorem State.setInput_check (i : AnnInput) (set : Option ChannelSet) : (s.setInput i set).check = s.check := rfl
@[simp] theorem State.setInput_racks (i : AnnInput) (set : Option ChannelSet) : (s.setInput i set).racks = s.racks := rfl
@[simp] theorem State.setInput_fleet (i : AnnInput) (set : Option ChannelSet) : (s.setInput i set).fleet = s.fleet := rfl
@[simp] theorem State.setInput_beacon (i : AnnInput) (set : Option ChannelSet) : (s.setInput i set).beacon = s.beacon := rfl
@[simp] theorem State.setInput_hires (i : AnnInput) (set : Option ChannelSet) : (s.setInput i set).hires = s.hires := rfl
@[simp] theorem State.setInput_money (i : AnnInput) (set : Option ChannelSet) : (s.setInput i set).money = s.money := rfl
@[simp] theorem State.setInput_meters (i : AnnInput) (set : Option ChannelSet) : (s.setInput i set).meters = s.meters := rfl
@[simp] theorem State.setInput_clock (i : AnnInput) (set : Option ChannelSet) : (s.setInput i set).clock = s.clock := rfl
@[simp] theorem State.setInput_supervisor (i : AnnInput) (set : Option ChannelSet) : (s.setInput i set).supervisor = s.supervisor := rfl
@[simp] theorem State.setInput_limits (i : AnnInput) (set : Option ChannelSet) : (s.setInput i set).limits = s.limits := rfl
@[simp] theorem State.setInput_pending (i : AnnInput) (set : Option ChannelSet) : (s.setInput i set).pending = s.pending := rfl
@[simp] theorem State.setInput_arbiter_sources (i : AnnInput) (set : Option ChannelSet) : (s.setInput i set).arbiter.sources = s.arbiter.sources := by cases i <;> rfl
@[simp] theorem State.setInput_arbiter_announcements (i : AnnInput) (set : Option ChannelSet) : (s.setInput i set).arbiter.announcements = s.arbiter.announcements := by cases i <;> rfl
@[simp] theorem State.setInput_arbiter_relays (i : AnnInput) (set : Option ChannelSet) : (s.setInput i set).arbiter.relays = s.arbiter.relays := by cases i <;> rfl
@[simp] theorem State.setInput_arbiter_feeds (i : AnnInput) (set : Option ChannelSet) : (s.setInput i set).arbiter.feeds = s.arbiter.feeds := by cases i <;> rfl

/-! setRelay -/

@[simp] theorem State.setRelay_link (b : Nat) (c : Option Nat) : (s.setRelay b c).link = s.link := rfl
@[simp] theorem State.setRelay_plan (b : Nat) (c : Option Nat) : (s.setRelay b c).plan = s.plan := rfl
@[simp] theorem State.setRelay_booths (b : Nat) (c : Option Nat) : (s.setRelay b c).booths = s.booths := rfl
@[simp] theorem State.setRelay_turns (b : Nat) (c : Option Nat) : (s.setRelay b c).turns = s.turns := rfl
@[simp] theorem State.setRelay_check (b : Nat) (c : Option Nat) : (s.setRelay b c).check = s.check := rfl
@[simp] theorem State.setRelay_racks (b : Nat) (c : Option Nat) : (s.setRelay b c).racks = s.racks := rfl
@[simp] theorem State.setRelay_fleet (b : Nat) (c : Option Nat) : (s.setRelay b c).fleet = s.fleet := rfl
@[simp] theorem State.setRelay_beacon (b : Nat) (c : Option Nat) : (s.setRelay b c).beacon = s.beacon := rfl
@[simp] theorem State.setRelay_hires (b : Nat) (c : Option Nat) : (s.setRelay b c).hires = s.hires := rfl
@[simp] theorem State.setRelay_money (b : Nat) (c : Option Nat) : (s.setRelay b c).money = s.money := rfl
@[simp] theorem State.setRelay_meters (b : Nat) (c : Option Nat) : (s.setRelay b c).meters = s.meters := rfl
@[simp] theorem State.setRelay_clock (b : Nat) (c : Option Nat) : (s.setRelay b c).clock = s.clock := rfl
@[simp] theorem State.setRelay_supervisor (b : Nat) (c : Option Nat) : (s.setRelay b c).supervisor = s.supervisor := rfl
@[simp] theorem State.setRelay_limits (b : Nat) (c : Option Nat) : (s.setRelay b c).limits = s.limits := rfl
@[simp] theorem State.setRelay_pending (b : Nat) (c : Option Nat) : (s.setRelay b c).pending = s.pending := rfl
@[simp] theorem State.setRelay_arbiter_sources (b : Nat) (c : Option Nat) : (s.setRelay b c).arbiter.sources = s.arbiter.sources := rfl
@[simp] theorem State.setRelay_arbiter_announcements (b : Nat) (c : Option Nat) : (s.setRelay b c).arbiter.announcements = s.arbiter.announcements := rfl
@[simp] theorem State.setRelay_arbiter_inputOne (b : Nat) (c : Option Nat) : (s.setRelay b c).arbiter.inputOne = s.arbiter.inputOne := rfl
@[simp] theorem State.setRelay_arbiter_inputTwo (b : Nat) (c : Option Nat) : (s.setRelay b c).arbiter.inputTwo = s.arbiter.inputTwo := rfl
@[simp] theorem State.setRelay_arbiter_feeds (b : Nat) (c : Option Nat) : (s.setRelay b c).arbiter.feeds = s.arbiter.feeds := rfl

/-! setConfig -/

@[simp] theorem State.setConfig_link (b : Nat) (c : BoothConfig) : (s.setConfig b c).link = s.link := rfl
@[simp] theorem State.setConfig_plan (b : Nat) (c : BoothConfig) : (s.setConfig b c).plan = s.plan := rfl
@[simp] theorem State.setConfig_arbiter (b : Nat) (c : BoothConfig) : (s.setConfig b c).arbiter = s.arbiter := rfl
@[simp] theorem State.setConfig_turns (b : Nat) (c : BoothConfig) : (s.setConfig b c).turns = s.turns := rfl
@[simp] theorem State.setConfig_check (b : Nat) (c : BoothConfig) : (s.setConfig b c).check = s.check := rfl
@[simp] theorem State.setConfig_racks (b : Nat) (c : BoothConfig) : (s.setConfig b c).racks = s.racks := rfl
@[simp] theorem State.setConfig_fleet (b : Nat) (c : BoothConfig) : (s.setConfig b c).fleet = s.fleet := rfl
@[simp] theorem State.setConfig_beacon (b : Nat) (c : BoothConfig) : (s.setConfig b c).beacon = s.beacon := rfl
@[simp] theorem State.setConfig_hires (b : Nat) (c : BoothConfig) : (s.setConfig b c).hires = s.hires := rfl
@[simp] theorem State.setConfig_money (b : Nat) (c : BoothConfig) : (s.setConfig b c).money = s.money := rfl
@[simp] theorem State.setConfig_meters (b : Nat) (c : BoothConfig) : (s.setConfig b c).meters = s.meters := rfl
@[simp] theorem State.setConfig_clock (b : Nat) (c : BoothConfig) : (s.setConfig b c).clock = s.clock := rfl
@[simp] theorem State.setConfig_supervisor (b : Nat) (c : BoothConfig) : (s.setConfig b c).supervisor = s.supervisor := rfl
@[simp] theorem State.setConfig_limits (b : Nat) (c : BoothConfig) : (s.setConfig b c).limits = s.limits := rfl
@[simp] theorem State.setConfig_pending (b : Nat) (c : BoothConfig) : (s.setConfig b c).pending = s.pending := rfl
@[simp] theorem State.setConfig_booths_desks (b : Nat) (c : BoothConfig) : (s.setConfig b c).booths.desks = s.booths.desks := rfl
@[simp] theorem State.setConfig_booths_domains (b : Nat) (c : BoothConfig) : (s.setConfig b c).booths.domains = s.booths.domains := rfl

/-! setDesk -/

@[simp] theorem State.setDesk_link (b d : Nat) (k : Desk) : (s.setDesk b d k).link = s.link := rfl
@[simp] theorem State.setDesk_plan (b d : Nat) (k : Desk) : (s.setDesk b d k).plan = s.plan := rfl
@[simp] theorem State.setDesk_arbiter (b d : Nat) (k : Desk) : (s.setDesk b d k).arbiter = s.arbiter := rfl
@[simp] theorem State.setDesk_turns (b d : Nat) (k : Desk) : (s.setDesk b d k).turns = s.turns := rfl
@[simp] theorem State.setDesk_check (b d : Nat) (k : Desk) : (s.setDesk b d k).check = s.check := rfl
@[simp] theorem State.setDesk_racks (b d : Nat) (k : Desk) : (s.setDesk b d k).racks = s.racks := rfl
@[simp] theorem State.setDesk_fleet (b d : Nat) (k : Desk) : (s.setDesk b d k).fleet = s.fleet := rfl
@[simp] theorem State.setDesk_beacon (b d : Nat) (k : Desk) : (s.setDesk b d k).beacon = s.beacon := rfl
@[simp] theorem State.setDesk_hires (b d : Nat) (k : Desk) : (s.setDesk b d k).hires = s.hires := rfl
@[simp] theorem State.setDesk_money (b d : Nat) (k : Desk) : (s.setDesk b d k).money = s.money := rfl
@[simp] theorem State.setDesk_meters (b d : Nat) (k : Desk) : (s.setDesk b d k).meters = s.meters := rfl
@[simp] theorem State.setDesk_clock (b d : Nat) (k : Desk) : (s.setDesk b d k).clock = s.clock := rfl
@[simp] theorem State.setDesk_supervisor (b d : Nat) (k : Desk) : (s.setDesk b d k).supervisor = s.supervisor := rfl
@[simp] theorem State.setDesk_limits (b d : Nat) (k : Desk) : (s.setDesk b d k).limits = s.limits := rfl
@[simp] theorem State.setDesk_pending (b d : Nat) (k : Desk) : (s.setDesk b d k).pending = s.pending := rfl
@[simp] theorem State.setDesk_booths_configs (b d : Nat) (k : Desk) : (s.setDesk b d k).booths.configs = s.booths.configs := rfl
@[simp] theorem State.setDesk_booths_domains (b d : Nat) (k : Desk) : (s.setDesk b d k).booths.domains = s.booths.domains := rfl

/-! setDomain -/

@[simp] theorem State.setDomain_link (b : Nat) (side : Side) (m : Domain) : (s.setDomain b side m).link = s.link := rfl
@[simp] theorem State.setDomain_plan (b : Nat) (side : Side) (m : Domain) : (s.setDomain b side m).plan = s.plan := rfl
@[simp] theorem State.setDomain_arbiter (b : Nat) (side : Side) (m : Domain) : (s.setDomain b side m).arbiter = s.arbiter := rfl
@[simp] theorem State.setDomain_turns (b : Nat) (side : Side) (m : Domain) : (s.setDomain b side m).turns = s.turns := rfl
@[simp] theorem State.setDomain_check (b : Nat) (side : Side) (m : Domain) : (s.setDomain b side m).check = s.check := rfl
@[simp] theorem State.setDomain_racks (b : Nat) (side : Side) (m : Domain) : (s.setDomain b side m).racks = s.racks := rfl
@[simp] theorem State.setDomain_fleet (b : Nat) (side : Side) (m : Domain) : (s.setDomain b side m).fleet = s.fleet := rfl
@[simp] theorem State.setDomain_beacon (b : Nat) (side : Side) (m : Domain) : (s.setDomain b side m).beacon = s.beacon := rfl
@[simp] theorem State.setDomain_hires (b : Nat) (side : Side) (m : Domain) : (s.setDomain b side m).hires = s.hires := rfl
@[simp] theorem State.setDomain_money (b : Nat) (side : Side) (m : Domain) : (s.setDomain b side m).money = s.money := rfl
@[simp] theorem State.setDomain_meters (b : Nat) (side : Side) (m : Domain) : (s.setDomain b side m).meters = s.meters := rfl
@[simp] theorem State.setDomain_clock (b : Nat) (side : Side) (m : Domain) : (s.setDomain b side m).clock = s.clock := rfl
@[simp] theorem State.setDomain_supervisor (b : Nat) (side : Side) (m : Domain) : (s.setDomain b side m).supervisor = s.supervisor := rfl
@[simp] theorem State.setDomain_limits (b : Nat) (side : Side) (m : Domain) : (s.setDomain b side m).limits = s.limits := rfl
@[simp] theorem State.setDomain_pending (b : Nat) (side : Side) (m : Domain) : (s.setDomain b side m).pending = s.pending := rfl
@[simp] theorem State.setDomain_booths_configs (b : Nat) (side : Side) (m : Domain) : (s.setDomain b side m).booths.configs = s.booths.configs := rfl
@[simp] theorem State.setDomain_booths_desks (b : Nat) (side : Side) (m : Domain) : (s.setDomain b side m).booths.desks = s.booths.desks := rfl

/-! setTurn -/

@[simp] theorem State.setTurn_link (b : Nat) (side : Side) (t : TurnRecord) : (s.setTurn b side t).link = s.link := rfl
@[simp] theorem State.setTurn_plan (b : Nat) (side : Side) (t : TurnRecord) : (s.setTurn b side t).plan = s.plan := rfl
@[simp] theorem State.setTurn_arbiter (b : Nat) (side : Side) (t : TurnRecord) : (s.setTurn b side t).arbiter = s.arbiter := rfl
@[simp] theorem State.setTurn_booths (b : Nat) (side : Side) (t : TurnRecord) : (s.setTurn b side t).booths = s.booths := rfl
@[simp] theorem State.setTurn_check (b : Nat) (side : Side) (t : TurnRecord) : (s.setTurn b side t).check = s.check := rfl
@[simp] theorem State.setTurn_racks (b : Nat) (side : Side) (t : TurnRecord) : (s.setTurn b side t).racks = s.racks := rfl
@[simp] theorem State.setTurn_fleet (b : Nat) (side : Side) (t : TurnRecord) : (s.setTurn b side t).fleet = s.fleet := rfl
@[simp] theorem State.setTurn_beacon (b : Nat) (side : Side) (t : TurnRecord) : (s.setTurn b side t).beacon = s.beacon := rfl
@[simp] theorem State.setTurn_hires (b : Nat) (side : Side) (t : TurnRecord) : (s.setTurn b side t).hires = s.hires := rfl
@[simp] theorem State.setTurn_money (b : Nat) (side : Side) (t : TurnRecord) : (s.setTurn b side t).money = s.money := rfl
@[simp] theorem State.setTurn_meters (b : Nat) (side : Side) (t : TurnRecord) : (s.setTurn b side t).meters = s.meters := rfl
@[simp] theorem State.setTurn_clock (b : Nat) (side : Side) (t : TurnRecord) : (s.setTurn b side t).clock = s.clock := rfl
@[simp] theorem State.setTurn_supervisor (b : Nat) (side : Side) (t : TurnRecord) : (s.setTurn b side t).supervisor = s.supervisor := rfl
@[simp] theorem State.setTurn_limits (b : Nat) (side : Side) (t : TurnRecord) : (s.setTurn b side t).limits = s.limits := rfl
@[simp] theorem State.setTurn_pending (b : Nat) (side : Side) (t : TurnRecord) : (s.setTurn b side t).pending = s.pending := rfl
@[simp] theorem State.setTurn_turns_records (b : Nat) (side : Side) (t : TurnRecord) : (s.setTurn b side t).turns.records = s.turns.records := rfl

/-! setDeskRecord -/

@[simp] theorem State.setDeskRecord_link (b d : Nat) (r : DeskRecord) : (s.setDeskRecord b d r).link = s.link := rfl
@[simp] theorem State.setDeskRecord_plan (b d : Nat) (r : DeskRecord) : (s.setDeskRecord b d r).plan = s.plan := rfl
@[simp] theorem State.setDeskRecord_arbiter (b d : Nat) (r : DeskRecord) : (s.setDeskRecord b d r).arbiter = s.arbiter := rfl
@[simp] theorem State.setDeskRecord_booths (b d : Nat) (r : DeskRecord) : (s.setDeskRecord b d r).booths = s.booths := rfl
@[simp] theorem State.setDeskRecord_check (b d : Nat) (r : DeskRecord) : (s.setDeskRecord b d r).check = s.check := rfl
@[simp] theorem State.setDeskRecord_racks (b d : Nat) (r : DeskRecord) : (s.setDeskRecord b d r).racks = s.racks := rfl
@[simp] theorem State.setDeskRecord_fleet (b d : Nat) (r : DeskRecord) : (s.setDeskRecord b d r).fleet = s.fleet := rfl
@[simp] theorem State.setDeskRecord_beacon (b d : Nat) (r : DeskRecord) : (s.setDeskRecord b d r).beacon = s.beacon := rfl
@[simp] theorem State.setDeskRecord_hires (b d : Nat) (r : DeskRecord) : (s.setDeskRecord b d r).hires = s.hires := rfl
@[simp] theorem State.setDeskRecord_money (b d : Nat) (r : DeskRecord) : (s.setDeskRecord b d r).money = s.money := rfl
@[simp] theorem State.setDeskRecord_meters (b d : Nat) (r : DeskRecord) : (s.setDeskRecord b d r).meters = s.meters := rfl
@[simp] theorem State.setDeskRecord_clock (b d : Nat) (r : DeskRecord) : (s.setDeskRecord b d r).clock = s.clock := rfl
@[simp] theorem State.setDeskRecord_supervisor (b d : Nat) (r : DeskRecord) : (s.setDeskRecord b d r).supervisor = s.supervisor := rfl
@[simp] theorem State.setDeskRecord_limits (b d : Nat) (r : DeskRecord) : (s.setDeskRecord b d r).limits = s.limits := rfl
@[simp] theorem State.setDeskRecord_pending (b d : Nat) (r : DeskRecord) : (s.setDeskRecord b d r).pending = s.pending := rfl
@[simp] theorem State.setDeskRecord_turns_turns (b d : Nat) (r : DeskRecord) : (s.setDeskRecord b d r).turns.turns = s.turns.turns := rfl

/-! setResult -/

@[simp] theorem State.setResult_link (c m : Nat) (r : CheckResult) : (s.setResult c m r).link = s.link := rfl
@[simp] theorem State.setResult_plan (c m : Nat) (r : CheckResult) : (s.setResult c m r).plan = s.plan := rfl
@[simp] theorem State.setResult_arbiter (c m : Nat) (r : CheckResult) : (s.setResult c m r).arbiter = s.arbiter := rfl
@[simp] theorem State.setResult_booths (c m : Nat) (r : CheckResult) : (s.setResult c m r).booths = s.booths := rfl
@[simp] theorem State.setResult_turns (c m : Nat) (r : CheckResult) : (s.setResult c m r).turns = s.turns := rfl
@[simp] theorem State.setResult_racks (c m : Nat) (r : CheckResult) : (s.setResult c m r).racks = s.racks := rfl
@[simp] theorem State.setResult_fleet (c m : Nat) (r : CheckResult) : (s.setResult c m r).fleet = s.fleet := rfl
@[simp] theorem State.setResult_beacon (c m : Nat) (r : CheckResult) : (s.setResult c m r).beacon = s.beacon := rfl
@[simp] theorem State.setResult_hires (c m : Nat) (r : CheckResult) : (s.setResult c m r).hires = s.hires := rfl
@[simp] theorem State.setResult_money (c m : Nat) (r : CheckResult) : (s.setResult c m r).money = s.money := rfl
@[simp] theorem State.setResult_meters (c m : Nat) (r : CheckResult) : (s.setResult c m r).meters = s.meters := rfl
@[simp] theorem State.setResult_clock (c m : Nat) (r : CheckResult) : (s.setResult c m r).clock = s.clock := rfl
@[simp] theorem State.setResult_supervisor (c m : Nat) (r : CheckResult) : (s.setResult c m r).supervisor = s.supervisor := rfl
@[simp] theorem State.setResult_limits (c m : Nat) (r : CheckResult) : (s.setResult c m r).limits = s.limits := rfl
@[simp] theorem State.setResult_pending (c m : Nat) (r : CheckResult) : (s.setResult c m r).pending = s.pending := rfl
@[simp] theorem State.setResult_check_state (c m : Nat) (r : CheckResult) : (s.setResult c m r).check.state = s.check.state := rfl
@[simp] theorem State.setResult_check_program (c m : Nat) (r : CheckResult) : (s.setResult c m r).check.program = s.check.program := rfl
@[simp] theorem State.setResult_check_failed (c m : Nat) (r : CheckResult) : (s.setResult c m r).check.failed = s.check.failed := rfl
@[simp] theorem State.setResult_check_current (c m : Nat) (r : CheckResult) : (s.setResult c m r).check.current = s.check.current := rfl
@[simp] theorem State.setResult_check_generator (c m : Nat) (r : CheckResult) : (s.setResult c m r).check.generator = s.check.generator := rfl
@[simp] theorem State.setResult_check_dwell (c m : Nat) (r : CheckResult) : (s.setResult c m r).check.dwell = s.check.dwell := rfl
@[simp] theorem State.setResult_check_progress (c m : Nat) (r : CheckResult) : (s.setResult c m r).check.progress = s.check.progress := rfl
@[simp] theorem State.setResult_check_placements (c m : Nat) (r : CheckResult) : (s.setResult c m r).check.placements = s.check.placements := rfl

/-! setFailed -/

@[simp] theorem State.setFailed_link (c : Nat) : (s.setFailed c).link = s.link := rfl
@[simp] theorem State.setFailed_plan (c : Nat) : (s.setFailed c).plan = s.plan := rfl
@[simp] theorem State.setFailed_arbiter (c : Nat) : (s.setFailed c).arbiter = s.arbiter := rfl
@[simp] theorem State.setFailed_booths (c : Nat) : (s.setFailed c).booths = s.booths := rfl
@[simp] theorem State.setFailed_turns (c : Nat) : (s.setFailed c).turns = s.turns := rfl
@[simp] theorem State.setFailed_racks (c : Nat) : (s.setFailed c).racks = s.racks := rfl
@[simp] theorem State.setFailed_fleet (c : Nat) : (s.setFailed c).fleet = s.fleet := rfl
@[simp] theorem State.setFailed_beacon (c : Nat) : (s.setFailed c).beacon = s.beacon := rfl
@[simp] theorem State.setFailed_hires (c : Nat) : (s.setFailed c).hires = s.hires := rfl
@[simp] theorem State.setFailed_money (c : Nat) : (s.setFailed c).money = s.money := rfl
@[simp] theorem State.setFailed_meters (c : Nat) : (s.setFailed c).meters = s.meters := rfl
@[simp] theorem State.setFailed_clock (c : Nat) : (s.setFailed c).clock = s.clock := rfl
@[simp] theorem State.setFailed_supervisor (c : Nat) : (s.setFailed c).supervisor = s.supervisor := rfl
@[simp] theorem State.setFailed_limits (c : Nat) : (s.setFailed c).limits = s.limits := rfl
@[simp] theorem State.setFailed_pending (c : Nat) : (s.setFailed c).pending = s.pending := rfl
@[simp] theorem State.setFailed_check_state (c : Nat) : (s.setFailed c).check.state = s.check.state := rfl
@[simp] theorem State.setFailed_check_program (c : Nat) : (s.setFailed c).check.program = s.check.program := rfl
@[simp] theorem State.setFailed_check_results (c : Nat) : (s.setFailed c).check.results = s.check.results := rfl
@[simp] theorem State.setFailed_check_current (c : Nat) : (s.setFailed c).check.current = s.check.current := rfl
@[simp] theorem State.setFailed_check_generator (c : Nat) : (s.setFailed c).check.generator = s.check.generator := rfl
@[simp] theorem State.setFailed_check_dwell (c : Nat) : (s.setFailed c).check.dwell = s.check.dwell := rfl
@[simp] theorem State.setFailed_check_progress (c : Nat) : (s.setFailed c).check.progress = s.check.progress := rfl
@[simp] theorem State.setFailed_check_placements (c : Nat) : (s.setFailed c).check.placements = s.check.placements := rfl

/-! setProgress -/

@[simp] theorem State.setProgress_link (m : Nat) (p : Progress) : (s.setProgress m p).link = s.link := rfl
@[simp] theorem State.setProgress_plan (m : Nat) (p : Progress) : (s.setProgress m p).plan = s.plan := rfl
@[simp] theorem State.setProgress_arbiter (m : Nat) (p : Progress) : (s.setProgress m p).arbiter = s.arbiter := rfl
@[simp] theorem State.setProgress_booths (m : Nat) (p : Progress) : (s.setProgress m p).booths = s.booths := rfl
@[simp] theorem State.setProgress_turns (m : Nat) (p : Progress) : (s.setProgress m p).turns = s.turns := rfl
@[simp] theorem State.setProgress_racks (m : Nat) (p : Progress) : (s.setProgress m p).racks = s.racks := rfl
@[simp] theorem State.setProgress_fleet (m : Nat) (p : Progress) : (s.setProgress m p).fleet = s.fleet := rfl
@[simp] theorem State.setProgress_beacon (m : Nat) (p : Progress) : (s.setProgress m p).beacon = s.beacon := rfl
@[simp] theorem State.setProgress_hires (m : Nat) (p : Progress) : (s.setProgress m p).hires = s.hires := rfl
@[simp] theorem State.setProgress_money (m : Nat) (p : Progress) : (s.setProgress m p).money = s.money := rfl
@[simp] theorem State.setProgress_meters (m : Nat) (p : Progress) : (s.setProgress m p).meters = s.meters := rfl
@[simp] theorem State.setProgress_clock (m : Nat) (p : Progress) : (s.setProgress m p).clock = s.clock := rfl
@[simp] theorem State.setProgress_supervisor (m : Nat) (p : Progress) : (s.setProgress m p).supervisor = s.supervisor := rfl
@[simp] theorem State.setProgress_limits (m : Nat) (p : Progress) : (s.setProgress m p).limits = s.limits := rfl
@[simp] theorem State.setProgress_pending (m : Nat) (p : Progress) : (s.setProgress m p).pending = s.pending := rfl
@[simp] theorem State.setProgress_check_state (m : Nat) (p : Progress) : (s.setProgress m p).check.state = s.check.state := rfl
@[simp] theorem State.setProgress_check_program (m : Nat) (p : Progress) : (s.setProgress m p).check.program = s.check.program := rfl
@[simp] theorem State.setProgress_check_results (m : Nat) (p : Progress) : (s.setProgress m p).check.results = s.check.results := rfl
@[simp] theorem State.setProgress_check_failed (m : Nat) (p : Progress) : (s.setProgress m p).check.failed = s.check.failed := rfl
@[simp] theorem State.setProgress_check_current (m : Nat) (p : Progress) : (s.setProgress m p).check.current = s.check.current := rfl
@[simp] theorem State.setProgress_check_generator (m : Nat) (p : Progress) : (s.setProgress m p).check.generator = s.check.generator := rfl
@[simp] theorem State.setProgress_check_dwell (m : Nat) (p : Progress) : (s.setProgress m p).check.dwell = s.check.dwell := rfl
@[simp] theorem State.setProgress_check_placements (m : Nat) (p : Progress) : (s.setProgress m p).check.placements = s.check.placements := rfl

/-! setSlot -/

@[simp] theorem State.setSlot_link (l : Location) (r : Option Nat) : (s.setSlot l r).link = s.link := rfl
@[simp] theorem State.setSlot_plan (l : Location) (r : Option Nat) : (s.setSlot l r).plan = s.plan := rfl
@[simp] theorem State.setSlot_arbiter (l : Location) (r : Option Nat) : (s.setSlot l r).arbiter = s.arbiter := rfl
@[simp] theorem State.setSlot_booths (l : Location) (r : Option Nat) : (s.setSlot l r).booths = s.booths := rfl
@[simp] theorem State.setSlot_turns (l : Location) (r : Option Nat) : (s.setSlot l r).turns = s.turns := rfl
@[simp] theorem State.setSlot_check (l : Location) (r : Option Nat) : (s.setSlot l r).check = s.check := rfl
@[simp] theorem State.setSlot_fleet (l : Location) (r : Option Nat) : (s.setSlot l r).fleet = s.fleet := rfl
@[simp] theorem State.setSlot_beacon (l : Location) (r : Option Nat) : (s.setSlot l r).beacon = s.beacon := rfl
@[simp] theorem State.setSlot_hires (l : Location) (r : Option Nat) : (s.setSlot l r).hires = s.hires := rfl
@[simp] theorem State.setSlot_money (l : Location) (r : Option Nat) : (s.setSlot l r).money = s.money := rfl
@[simp] theorem State.setSlot_meters (l : Location) (r : Option Nat) : (s.setSlot l r).meters = s.meters := rfl
@[simp] theorem State.setSlot_clock (l : Location) (r : Option Nat) : (s.setSlot l r).clock = s.clock := rfl
@[simp] theorem State.setSlot_supervisor (l : Location) (r : Option Nat) : (s.setSlot l r).supervisor = s.supervisor := rfl
@[simp] theorem State.setSlot_limits (l : Location) (r : Option Nat) : (s.setSlot l r).limits = s.limits := rfl
@[simp] theorem State.setSlot_pending (l : Location) (r : Option Nat) : (s.setSlot l r).pending = s.pending := rfl

/-! setReceiver -/

@[simp] theorem State.setReceiver_link (r : Nat) (e : Receiver) : (s.setReceiver r e).link = s.link := rfl
@[simp] theorem State.setReceiver_plan (r : Nat) (e : Receiver) : (s.setReceiver r e).plan = s.plan := rfl
@[simp] theorem State.setReceiver_arbiter (r : Nat) (e : Receiver) : (s.setReceiver r e).arbiter = s.arbiter := rfl
@[simp] theorem State.setReceiver_booths (r : Nat) (e : Receiver) : (s.setReceiver r e).booths = s.booths := rfl
@[simp] theorem State.setReceiver_turns (r : Nat) (e : Receiver) : (s.setReceiver r e).turns = s.turns := rfl
@[simp] theorem State.setReceiver_check (r : Nat) (e : Receiver) : (s.setReceiver r e).check = s.check := rfl
@[simp] theorem State.setReceiver_racks (r : Nat) (e : Receiver) : (s.setReceiver r e).racks = s.racks := rfl
@[simp] theorem State.setReceiver_beacon (r : Nat) (e : Receiver) : (s.setReceiver r e).beacon = s.beacon := rfl
@[simp] theorem State.setReceiver_hires (r : Nat) (e : Receiver) : (s.setReceiver r e).hires = s.hires := rfl
@[simp] theorem State.setReceiver_money (r : Nat) (e : Receiver) : (s.setReceiver r e).money = s.money := rfl
@[simp] theorem State.setReceiver_meters (r : Nat) (e : Receiver) : (s.setReceiver r e).meters = s.meters := rfl
@[simp] theorem State.setReceiver_clock (r : Nat) (e : Receiver) : (s.setReceiver r e).clock = s.clock := rfl
@[simp] theorem State.setReceiver_supervisor (r : Nat) (e : Receiver) : (s.setReceiver r e).supervisor = s.supervisor := rfl
@[simp] theorem State.setReceiver_limits (r : Nat) (e : Receiver) : (s.setReceiver r e).limits = s.limits := rfl
@[simp] theorem State.setReceiver_pending (r : Nat) (e : Receiver) : (s.setReceiver r e).pending = s.pending := rfl
@[simp] theorem State.setReceiver_fleet_monitors (r : Nat) (e : Receiver) : (s.setReceiver r e).fleet.monitors = s.fleet.monitors := rfl

/-! setMonitorAt -/

@[simp] theorem State.setMonitorAt_link (p : Nat) (r : Option Nat) : (s.setMonitorAt p r).link = s.link := rfl
@[simp] theorem State.setMonitorAt_plan (p : Nat) (r : Option Nat) : (s.setMonitorAt p r).plan = s.plan := rfl
@[simp] theorem State.setMonitorAt_arbiter (p : Nat) (r : Option Nat) : (s.setMonitorAt p r).arbiter = s.arbiter := rfl
@[simp] theorem State.setMonitorAt_booths (p : Nat) (r : Option Nat) : (s.setMonitorAt p r).booths = s.booths := rfl
@[simp] theorem State.setMonitorAt_turns (p : Nat) (r : Option Nat) : (s.setMonitorAt p r).turns = s.turns := rfl
@[simp] theorem State.setMonitorAt_check (p : Nat) (r : Option Nat) : (s.setMonitorAt p r).check = s.check := rfl
@[simp] theorem State.setMonitorAt_racks (p : Nat) (r : Option Nat) : (s.setMonitorAt p r).racks = s.racks := rfl
@[simp] theorem State.setMonitorAt_beacon (p : Nat) (r : Option Nat) : (s.setMonitorAt p r).beacon = s.beacon := rfl
@[simp] theorem State.setMonitorAt_hires (p : Nat) (r : Option Nat) : (s.setMonitorAt p r).hires = s.hires := rfl
@[simp] theorem State.setMonitorAt_money (p : Nat) (r : Option Nat) : (s.setMonitorAt p r).money = s.money := rfl
@[simp] theorem State.setMonitorAt_meters (p : Nat) (r : Option Nat) : (s.setMonitorAt p r).meters = s.meters := rfl
@[simp] theorem State.setMonitorAt_clock (p : Nat) (r : Option Nat) : (s.setMonitorAt p r).clock = s.clock := rfl
@[simp] theorem State.setMonitorAt_supervisor (p : Nat) (r : Option Nat) : (s.setMonitorAt p r).supervisor = s.supervisor := rfl
@[simp] theorem State.setMonitorAt_limits (p : Nat) (r : Option Nat) : (s.setMonitorAt p r).limits = s.limits := rfl
@[simp] theorem State.setMonitorAt_pending (p : Nat) (r : Option Nat) : (s.setMonitorAt p r).pending = s.pending := rfl
@[simp] theorem State.setMonitorAt_fleet_receivers (p : Nat) (r : Option Nat) : (s.setMonitorAt p r).fleet.receivers = s.fleet.receivers := rfl

/-! setPollList -/

@[simp] theorem State.setPollList_link (i : ListId) (l : PollList) : (s.setPollList i l).link = s.link := rfl
@[simp] theorem State.setPollList_plan (i : ListId) (l : PollList) : (s.setPollList i l).plan = s.plan := rfl
@[simp] theorem State.setPollList_arbiter (i : ListId) (l : PollList) : (s.setPollList i l).arbiter = s.arbiter := rfl
@[simp] theorem State.setPollList_booths (i : ListId) (l : PollList) : (s.setPollList i l).booths = s.booths := rfl
@[simp] theorem State.setPollList_turns (i : ListId) (l : PollList) : (s.setPollList i l).turns = s.turns := rfl
@[simp] theorem State.setPollList_check (i : ListId) (l : PollList) : (s.setPollList i l).check = s.check := rfl
@[simp] theorem State.setPollList_racks (i : ListId) (l : PollList) : (s.setPollList i l).racks = s.racks := rfl
@[simp] theorem State.setPollList_fleet (i : ListId) (l : PollList) : (s.setPollList i l).fleet = s.fleet := rfl
@[simp] theorem State.setPollList_hires (i : ListId) (l : PollList) : (s.setPollList i l).hires = s.hires := rfl
@[simp] theorem State.setPollList_money (i : ListId) (l : PollList) : (s.setPollList i l).money = s.money := rfl
@[simp] theorem State.setPollList_meters (i : ListId) (l : PollList) : (s.setPollList i l).meters = s.meters := rfl
@[simp] theorem State.setPollList_clock (i : ListId) (l : PollList) : (s.setPollList i l).clock = s.clock := rfl
@[simp] theorem State.setPollList_supervisor (i : ListId) (l : PollList) : (s.setPollList i l).supervisor = s.supervisor := rfl
@[simp] theorem State.setPollList_limits (i : ListId) (l : PollList) : (s.setPollList i l).limits = s.limits := rfl
@[simp] theorem State.setPollList_pending (i : ListId) (l : PollList) : (s.setPollList i l).pending = s.pending := rfl
@[simp] theorem State.setPollList_beacon_counts (i : ListId) (l : PollList) : (s.setPollList i l).beacon.counts = s.beacon.counts := by cases i <;> rfl
@[simp] theorem State.setPollList_beacon_phase (i : ListId) (l : PollList) : (s.setPollList i l).beacon.phase = s.beacon.phase := by cases i <;> rfl
@[simp] theorem State.setPollList_beacon_sent (i : ListId) (l : PollList) : (s.setPollList i l).beacon.sent = s.beacon.sent := by cases i <;> rfl
@[simp] theorem State.setPollList_beacon_inFlight (i : ListId) (l : PollList) : (s.setPollList i l).beacon.inFlight = s.beacon.inFlight := by cases i <;> rfl
@[simp] theorem State.setPollList_beacon_listeners (i : ListId) (l : PollList) : (s.setPollList i l).beacon.listeners = s.beacon.listeners := by cases i <;> rfl
@[simp] theorem State.setPollList_beacon_lowMarks (i : ListId) (l : PollList) : (s.setPollList i l).beacon.lowMarks = s.beacon.lowMarks := by cases i <;> rfl

/-! setListeners -/

@[simp] theorem State.setListeners_link (c n : Nat) : (s.setListeners c n).link = s.link := rfl
@[simp] theorem State.setListeners_plan (c n : Nat) : (s.setListeners c n).plan = s.plan := rfl
@[simp] theorem State.setListeners_arbiter (c n : Nat) : (s.setListeners c n).arbiter = s.arbiter := rfl
@[simp] theorem State.setListeners_booths (c n : Nat) : (s.setListeners c n).booths = s.booths := rfl
@[simp] theorem State.setListeners_turns (c n : Nat) : (s.setListeners c n).turns = s.turns := rfl
@[simp] theorem State.setListeners_check (c n : Nat) : (s.setListeners c n).check = s.check := rfl
@[simp] theorem State.setListeners_racks (c n : Nat) : (s.setListeners c n).racks = s.racks := rfl
@[simp] theorem State.setListeners_fleet (c n : Nat) : (s.setListeners c n).fleet = s.fleet := rfl
@[simp] theorem State.setListeners_hires (c n : Nat) : (s.setListeners c n).hires = s.hires := rfl
@[simp] theorem State.setListeners_money (c n : Nat) : (s.setListeners c n).money = s.money := rfl
@[simp] theorem State.setListeners_meters (c n : Nat) : (s.setListeners c n).meters = s.meters := rfl
@[simp] theorem State.setListeners_clock (c n : Nat) : (s.setListeners c n).clock = s.clock := rfl
@[simp] theorem State.setListeners_supervisor (c n : Nat) : (s.setListeners c n).supervisor = s.supervisor := rfl
@[simp] theorem State.setListeners_limits (c n : Nat) : (s.setListeners c n).limits = s.limits := rfl
@[simp] theorem State.setListeners_pending (c n : Nat) : (s.setListeners c n).pending = s.pending := rfl
@[simp] theorem State.setListeners_beacon_l0 (c n : Nat) : (s.setListeners c n).beacon.l0 = s.beacon.l0 := rfl
@[simp] theorem State.setListeners_beacon_l1 (c n : Nat) : (s.setListeners c n).beacon.l1 = s.beacon.l1 := rfl
@[simp] theorem State.setListeners_beacon_l2 (c n : Nat) : (s.setListeners c n).beacon.l2 = s.beacon.l2 := rfl
@[simp] theorem State.setListeners_beacon_l3 (c n : Nat) : (s.setListeners c n).beacon.l3 = s.beacon.l3 := rfl
@[simp] theorem State.setListeners_beacon_counts (c n : Nat) : (s.setListeners c n).beacon.counts = s.beacon.counts := rfl
@[simp] theorem State.setListeners_beacon_phase (c n : Nat) : (s.setListeners c n).beacon.phase = s.beacon.phase := rfl
@[simp] theorem State.setListeners_beacon_sent (c n : Nat) : (s.setListeners c n).beacon.sent = s.beacon.sent := rfl
@[simp] theorem State.setListeners_beacon_inFlight (c n : Nat) : (s.setListeners c n).beacon.inFlight = s.beacon.inFlight := rfl
@[simp] theorem State.setListeners_beacon_lowMarks (c n : Nat) : (s.setListeners c n).beacon.lowMarks = s.beacon.lowMarks := rfl

/-! setLowMark -/

@[simp] theorem State.setLowMark_link (r : Nat) (mark : Bool) : (s.setLowMark r mark).link = s.link := rfl
@[simp] theorem State.setLowMark_plan (r : Nat) (mark : Bool) : (s.setLowMark r mark).plan = s.plan := rfl
@[simp] theorem State.setLowMark_arbiter (r : Nat) (mark : Bool) : (s.setLowMark r mark).arbiter = s.arbiter := rfl
@[simp] theorem State.setLowMark_booths (r : Nat) (mark : Bool) : (s.setLowMark r mark).booths = s.booths := rfl
@[simp] theorem State.setLowMark_turns (r : Nat) (mark : Bool) : (s.setLowMark r mark).turns = s.turns := rfl
@[simp] theorem State.setLowMark_check (r : Nat) (mark : Bool) : (s.setLowMark r mark).check = s.check := rfl
@[simp] theorem State.setLowMark_racks (r : Nat) (mark : Bool) : (s.setLowMark r mark).racks = s.racks := rfl
@[simp] theorem State.setLowMark_fleet (r : Nat) (mark : Bool) : (s.setLowMark r mark).fleet = s.fleet := rfl
@[simp] theorem State.setLowMark_hires (r : Nat) (mark : Bool) : (s.setLowMark r mark).hires = s.hires := rfl
@[simp] theorem State.setLowMark_money (r : Nat) (mark : Bool) : (s.setLowMark r mark).money = s.money := rfl
@[simp] theorem State.setLowMark_meters (r : Nat) (mark : Bool) : (s.setLowMark r mark).meters = s.meters := rfl
@[simp] theorem State.setLowMark_clock (r : Nat) (mark : Bool) : (s.setLowMark r mark).clock = s.clock := rfl
@[simp] theorem State.setLowMark_supervisor (r : Nat) (mark : Bool) : (s.setLowMark r mark).supervisor = s.supervisor := rfl
@[simp] theorem State.setLowMark_limits (r : Nat) (mark : Bool) : (s.setLowMark r mark).limits = s.limits := rfl
@[simp] theorem State.setLowMark_pending (r : Nat) (mark : Bool) : (s.setLowMark r mark).pending = s.pending := rfl
@[simp] theorem State.setLowMark_beacon_l0 (r : Nat) (mark : Bool) : (s.setLowMark r mark).beacon.l0 = s.beacon.l0 := rfl
@[simp] theorem State.setLowMark_beacon_l1 (r : Nat) (mark : Bool) : (s.setLowMark r mark).beacon.l1 = s.beacon.l1 := rfl
@[simp] theorem State.setLowMark_beacon_l2 (r : Nat) (mark : Bool) : (s.setLowMark r mark).beacon.l2 = s.beacon.l2 := rfl
@[simp] theorem State.setLowMark_beacon_l3 (r : Nat) (mark : Bool) : (s.setLowMark r mark).beacon.l3 = s.beacon.l3 := rfl
@[simp] theorem State.setLowMark_beacon_counts (r : Nat) (mark : Bool) : (s.setLowMark r mark).beacon.counts = s.beacon.counts := rfl
@[simp] theorem State.setLowMark_beacon_phase (r : Nat) (mark : Bool) : (s.setLowMark r mark).beacon.phase = s.beacon.phase := rfl
@[simp] theorem State.setLowMark_beacon_sent (r : Nat) (mark : Bool) : (s.setLowMark r mark).beacon.sent = s.beacon.sent := rfl
@[simp] theorem State.setLowMark_beacon_inFlight (r : Nat) (mark : Bool) : (s.setLowMark r mark).beacon.inFlight = s.beacon.inFlight := rfl
@[simp] theorem State.setLowMark_beacon_listeners (r : Nat) (mark : Bool) : (s.setLowMark r mark).beacon.listeners = s.beacon.listeners := rfl

/-! setInFlight -/

@[simp] theorem State.setInFlight_link (p : Option InFlight) : (s.setInFlight p).link = s.link := rfl
@[simp] theorem State.setInFlight_plan (p : Option InFlight) : (s.setInFlight p).plan = s.plan := rfl
@[simp] theorem State.setInFlight_arbiter (p : Option InFlight) : (s.setInFlight p).arbiter = s.arbiter := rfl
@[simp] theorem State.setInFlight_booths (p : Option InFlight) : (s.setInFlight p).booths = s.booths := rfl
@[simp] theorem State.setInFlight_turns (p : Option InFlight) : (s.setInFlight p).turns = s.turns := rfl
@[simp] theorem State.setInFlight_check (p : Option InFlight) : (s.setInFlight p).check = s.check := rfl
@[simp] theorem State.setInFlight_racks (p : Option InFlight) : (s.setInFlight p).racks = s.racks := rfl
@[simp] theorem State.setInFlight_fleet (p : Option InFlight) : (s.setInFlight p).fleet = s.fleet := rfl
@[simp] theorem State.setInFlight_hires (p : Option InFlight) : (s.setInFlight p).hires = s.hires := rfl
@[simp] theorem State.setInFlight_money (p : Option InFlight) : (s.setInFlight p).money = s.money := rfl
@[simp] theorem State.setInFlight_meters (p : Option InFlight) : (s.setInFlight p).meters = s.meters := rfl
@[simp] theorem State.setInFlight_clock (p : Option InFlight) : (s.setInFlight p).clock = s.clock := rfl
@[simp] theorem State.setInFlight_supervisor (p : Option InFlight) : (s.setInFlight p).supervisor = s.supervisor := rfl
@[simp] theorem State.setInFlight_limits (p : Option InFlight) : (s.setInFlight p).limits = s.limits := rfl
@[simp] theorem State.setInFlight_pending (p : Option InFlight) : (s.setInFlight p).pending = s.pending := rfl
@[simp] theorem State.setInFlight_beacon_l0 (p : Option InFlight) : (s.setInFlight p).beacon.l0 = s.beacon.l0 := rfl
@[simp] theorem State.setInFlight_beacon_l1 (p : Option InFlight) : (s.setInFlight p).beacon.l1 = s.beacon.l1 := rfl
@[simp] theorem State.setInFlight_beacon_l2 (p : Option InFlight) : (s.setInFlight p).beacon.l2 = s.beacon.l2 := rfl
@[simp] theorem State.setInFlight_beacon_l3 (p : Option InFlight) : (s.setInFlight p).beacon.l3 = s.beacon.l3 := rfl
@[simp] theorem State.setInFlight_beacon_counts (p : Option InFlight) : (s.setInFlight p).beacon.counts = s.beacon.counts := rfl
@[simp] theorem State.setInFlight_beacon_phase (p : Option InFlight) : (s.setInFlight p).beacon.phase = s.beacon.phase := rfl
@[simp] theorem State.setInFlight_beacon_sent (p : Option InFlight) : (s.setInFlight p).beacon.sent = s.beacon.sent := rfl
@[simp] theorem State.setInFlight_inFlight (p : Option InFlight) : (s.setInFlight p).beacon.inFlight = p := rfl
@[simp] theorem State.setInFlight_beacon_listeners (p : Option InFlight) : (s.setInFlight p).beacon.listeners = s.beacon.listeners := rfl
@[simp] theorem State.setInFlight_beacon_lowMarks (p : Option InFlight) : (s.setInFlight p).beacon.lowMarks = s.beacon.lowMarks := rfl

/-! setHire -/

@[simp] theorem State.setHire_link (n : Nat) (h : Option Hire) : (s.setHire n h).link = s.link := rfl
@[simp] theorem State.setHire_plan (n : Nat) (h : Option Hire) : (s.setHire n h).plan = s.plan := rfl
@[simp] theorem State.setHire_arbiter (n : Nat) (h : Option Hire) : (s.setHire n h).arbiter = s.arbiter := rfl
@[simp] theorem State.setHire_booths (n : Nat) (h : Option Hire) : (s.setHire n h).booths = s.booths := rfl
@[simp] theorem State.setHire_turns (n : Nat) (h : Option Hire) : (s.setHire n h).turns = s.turns := rfl
@[simp] theorem State.setHire_check (n : Nat) (h : Option Hire) : (s.setHire n h).check = s.check := rfl
@[simp] theorem State.setHire_racks (n : Nat) (h : Option Hire) : (s.setHire n h).racks = s.racks := rfl
@[simp] theorem State.setHire_fleet (n : Nat) (h : Option Hire) : (s.setHire n h).fleet = s.fleet := rfl
@[simp] theorem State.setHire_beacon (n : Nat) (h : Option Hire) : (s.setHire n h).beacon = s.beacon := rfl
@[simp] theorem State.setHire_money (n : Nat) (h : Option Hire) : (s.setHire n h).money = s.money := rfl
@[simp] theorem State.setHire_meters (n : Nat) (h : Option Hire) : (s.setHire n h).meters = s.meters := rfl
@[simp] theorem State.setHire_clock (n : Nat) (h : Option Hire) : (s.setHire n h).clock = s.clock := rfl
@[simp] theorem State.setHire_supervisor (n : Nat) (h : Option Hire) : (s.setHire n h).supervisor = s.supervisor := rfl
@[simp] theorem State.setHire_limits (n : Nat) (h : Option Hire) : (s.setHire n h).limits = s.limits := rfl
@[simp] theorem State.setHire_pending (n : Nat) (h : Option Hire) : (s.setHire n h).pending = s.pending := rfl
@[simp] theorem State.setHire_hires_next (n : Nat) (h : Option Hire) : (s.setHire n h).hires.next = s.hires.next := rfl

/-! setTariff -/

@[simp] theorem State.setTariff_link (k : Nat) (t : Tariff) : (s.setTariff k t).link = s.link := rfl
@[simp] theorem State.setTariff_plan (k : Nat) (t : Tariff) : (s.setTariff k t).plan = s.plan := rfl
@[simp] theorem State.setTariff_arbiter (k : Nat) (t : Tariff) : (s.setTariff k t).arbiter = s.arbiter := rfl
@[simp] theorem State.setTariff_booths (k : Nat) (t : Tariff) : (s.setTariff k t).booths = s.booths := rfl
@[simp] theorem State.setTariff_turns (k : Nat) (t : Tariff) : (s.setTariff k t).turns = s.turns := rfl
@[simp] theorem State.setTariff_check (k : Nat) (t : Tariff) : (s.setTariff k t).check = s.check := rfl
@[simp] theorem State.setTariff_racks (k : Nat) (t : Tariff) : (s.setTariff k t).racks = s.racks := rfl
@[simp] theorem State.setTariff_fleet (k : Nat) (t : Tariff) : (s.setTariff k t).fleet = s.fleet := rfl
@[simp] theorem State.setTariff_beacon (k : Nat) (t : Tariff) : (s.setTariff k t).beacon = s.beacon := rfl
@[simp] theorem State.setTariff_hires (k : Nat) (t : Tariff) : (s.setTariff k t).hires = s.hires := rfl
@[simp] theorem State.setTariff_meters (k : Nat) (t : Tariff) : (s.setTariff k t).meters = s.meters := rfl
@[simp] theorem State.setTariff_clock (k : Nat) (t : Tariff) : (s.setTariff k t).clock = s.clock := rfl
@[simp] theorem State.setTariff_supervisor (k : Nat) (t : Tariff) : (s.setTariff k t).supervisor = s.supervisor := rfl
@[simp] theorem State.setTariff_limits (k : Nat) (t : Tariff) : (s.setTariff k t).limits = s.limits := rfl
@[simp] theorem State.setTariff_pending (k : Nat) (t : Tariff) : (s.setTariff k t).pending = s.pending := rfl
@[simp] theorem State.setTariff_money_frozen (k : Nat) (t : Tariff) : (s.setTariff k t).money.frozen = s.money.frozen := rfl
@[simp] theorem State.setTariff_money_queue (k : Nat) (t : Tariff) : (s.setTariff k t).money.queue = s.money.queue := rfl

/-! setListening -/

@[simp] theorem State.setListening_link (d c n : Nat) : (s.setListening d c n).link = s.link := rfl
@[simp] theorem State.setListening_plan (d c n : Nat) : (s.setListening d c n).plan = s.plan := rfl
@[simp] theorem State.setListening_arbiter (d c n : Nat) : (s.setListening d c n).arbiter = s.arbiter := rfl
@[simp] theorem State.setListening_booths (d c n : Nat) : (s.setListening d c n).booths = s.booths := rfl
@[simp] theorem State.setListening_turns (d c n : Nat) : (s.setListening d c n).turns = s.turns := rfl
@[simp] theorem State.setListening_check (d c n : Nat) : (s.setListening d c n).check = s.check := rfl
@[simp] theorem State.setListening_racks (d c n : Nat) : (s.setListening d c n).racks = s.racks := rfl
@[simp] theorem State.setListening_fleet (d c n : Nat) : (s.setListening d c n).fleet = s.fleet := rfl
@[simp] theorem State.setListening_beacon (d c n : Nat) : (s.setListening d c n).beacon = s.beacon := rfl
@[simp] theorem State.setListening_hires (d c n : Nat) : (s.setListening d c n).hires = s.hires := rfl
@[simp] theorem State.setListening_money (d c n : Nat) : (s.setListening d c n).money = s.money := rfl
@[simp] theorem State.setListening_clock (d c n : Nat) : (s.setListening d c n).clock = s.clock := rfl
@[simp] theorem State.setListening_supervisor (d c n : Nat) : (s.setListening d c n).supervisor = s.supervisor := rfl
@[simp] theorem State.setListening_limits (d c n : Nat) : (s.setListening d c n).limits = s.limits := rfl
@[simp] theorem State.setListening_pending (d c n : Nat) : (s.setListening d c n).pending = s.pending := rfl
@[simp] theorem State.setListening_meters_service (d c n : Nat) : (s.setListening d c n).meters.service = s.meters.service := rfl
@[simp] theorem State.setListening_meters_unserved (d c n : Nat) : (s.setListening d c n).meters.unserved = s.meters.unserved := rfl

/-! setServiceSeconds -/

@[simp] theorem State.setServiceSeconds_link (c k n : Nat) : (s.setServiceSeconds c k n).link = s.link := rfl
@[simp] theorem State.setServiceSeconds_plan (c k n : Nat) : (s.setServiceSeconds c k n).plan = s.plan := rfl
@[simp] theorem State.setServiceSeconds_arbiter (c k n : Nat) : (s.setServiceSeconds c k n).arbiter = s.arbiter := rfl
@[simp] theorem State.setServiceSeconds_booths (c k n : Nat) : (s.setServiceSeconds c k n).booths = s.booths := rfl
@[simp] theorem State.setServiceSeconds_turns (c k n : Nat) : (s.setServiceSeconds c k n).turns = s.turns := rfl
@[simp] theorem State.setServiceSeconds_check (c k n : Nat) : (s.setServiceSeconds c k n).check = s.check := rfl
@[simp] theorem State.setServiceSeconds_racks (c k n : Nat) : (s.setServiceSeconds c k n).racks = s.racks := rfl
@[simp] theorem State.setServiceSeconds_fleet (c k n : Nat) : (s.setServiceSeconds c k n).fleet = s.fleet := rfl
@[simp] theorem State.setServiceSeconds_beacon (c k n : Nat) : (s.setServiceSeconds c k n).beacon = s.beacon := rfl
@[simp] theorem State.setServiceSeconds_hires (c k n : Nat) : (s.setServiceSeconds c k n).hires = s.hires := rfl
@[simp] theorem State.setServiceSeconds_money (c k n : Nat) : (s.setServiceSeconds c k n).money = s.money := rfl
@[simp] theorem State.setServiceSeconds_clock (c k n : Nat) : (s.setServiceSeconds c k n).clock = s.clock := rfl
@[simp] theorem State.setServiceSeconds_supervisor (c k n : Nat) : (s.setServiceSeconds c k n).supervisor = s.supervisor := rfl
@[simp] theorem State.setServiceSeconds_limits (c k n : Nat) : (s.setServiceSeconds c k n).limits = s.limits := rfl
@[simp] theorem State.setServiceSeconds_pending (c k n : Nat) : (s.setServiceSeconds c k n).pending = s.pending := rfl
@[simp] theorem State.setServiceSeconds_meters_listening (c k n : Nat) : (s.setServiceSeconds c k n).meters.listening = s.meters.listening := rfl
@[simp] theorem State.setServiceSeconds_meters_unserved (c k n : Nat) : (s.setServiceSeconds c k n).meters.unserved = s.meters.unserved := rfl

/-! setUnserved -/

@[simp] theorem State.setUnserved_link (c n : Nat) : (s.setUnserved c n).link = s.link := rfl
@[simp] theorem State.setUnserved_plan (c n : Nat) : (s.setUnserved c n).plan = s.plan := rfl
@[simp] theorem State.setUnserved_arbiter (c n : Nat) : (s.setUnserved c n).arbiter = s.arbiter := rfl
@[simp] theorem State.setUnserved_booths (c n : Nat) : (s.setUnserved c n).booths = s.booths := rfl
@[simp] theorem State.setUnserved_turns (c n : Nat) : (s.setUnserved c n).turns = s.turns := rfl
@[simp] theorem State.setUnserved_check (c n : Nat) : (s.setUnserved c n).check = s.check := rfl
@[simp] theorem State.setUnserved_racks (c n : Nat) : (s.setUnserved c n).racks = s.racks := rfl
@[simp] theorem State.setUnserved_fleet (c n : Nat) : (s.setUnserved c n).fleet = s.fleet := rfl
@[simp] theorem State.setUnserved_beacon (c n : Nat) : (s.setUnserved c n).beacon = s.beacon := rfl
@[simp] theorem State.setUnserved_hires (c n : Nat) : (s.setUnserved c n).hires = s.hires := rfl
@[simp] theorem State.setUnserved_money (c n : Nat) : (s.setUnserved c n).money = s.money := rfl
@[simp] theorem State.setUnserved_clock (c n : Nat) : (s.setUnserved c n).clock = s.clock := rfl
@[simp] theorem State.setUnserved_supervisor (c n : Nat) : (s.setUnserved c n).supervisor = s.supervisor := rfl
@[simp] theorem State.setUnserved_limits (c n : Nat) : (s.setUnserved c n).limits = s.limits := rfl
@[simp] theorem State.setUnserved_pending (c n : Nat) : (s.setUnserved c n).pending = s.pending := rfl
@[simp] theorem State.setUnserved_meters_listening (c n : Nat) : (s.setUnserved c n).meters.listening = s.meters.listening := rfl
@[simp] theorem State.setUnserved_meters_service (c n : Nat) : (s.setUnserved c n).meters.service = s.meters.service := rfl

/-! setUnit -/

@[simp] theorem State.setUnit_link (u : Nat) (e : UnitEntry) : (s.setUnit u e).link = s.link := rfl
@[simp] theorem State.setUnit_plan (u : Nat) (e : UnitEntry) : (s.setUnit u e).plan = s.plan := rfl
@[simp] theorem State.setUnit_arbiter (u : Nat) (e : UnitEntry) : (s.setUnit u e).arbiter = s.arbiter := rfl
@[simp] theorem State.setUnit_booths (u : Nat) (e : UnitEntry) : (s.setUnit u e).booths = s.booths := rfl
@[simp] theorem State.setUnit_turns (u : Nat) (e : UnitEntry) : (s.setUnit u e).turns = s.turns := rfl
@[simp] theorem State.setUnit_check (u : Nat) (e : UnitEntry) : (s.setUnit u e).check = s.check := rfl
@[simp] theorem State.setUnit_racks (u : Nat) (e : UnitEntry) : (s.setUnit u e).racks = s.racks := rfl
@[simp] theorem State.setUnit_fleet (u : Nat) (e : UnitEntry) : (s.setUnit u e).fleet = s.fleet := rfl
@[simp] theorem State.setUnit_beacon (u : Nat) (e : UnitEntry) : (s.setUnit u e).beacon = s.beacon := rfl
@[simp] theorem State.setUnit_hires (u : Nat) (e : UnitEntry) : (s.setUnit u e).hires = s.hires := rfl
@[simp] theorem State.setUnit_money (u : Nat) (e : UnitEntry) : (s.setUnit u e).money = s.money := rfl
@[simp] theorem State.setUnit_meters (u : Nat) (e : UnitEntry) : (s.setUnit u e).meters = s.meters := rfl
@[simp] theorem State.setUnit_clock (u : Nat) (e : UnitEntry) : (s.setUnit u e).clock = s.clock := rfl
@[simp] theorem State.setUnit_limits (u : Nat) (e : UnitEntry) : (s.setUnit u e).limits = s.limits := rfl
@[simp] theorem State.setUnit_pending (u : Nat) (e : UnitEntry) : (s.setUnit u e).pending = s.pending := rfl
@[simp] theorem State.setUnit_supervisor_faults (u : Nat) (e : UnitEntry) : (s.setUnit u e).supervisor.faults = s.supervisor.faults := rfl
@[simp] theorem State.setUnit_supervisor_nextConsole (u : Nat) (e : UnitEntry) : (s.setUnit u e).supervisor.nextConsole = s.supervisor.nextConsole := rfl
@[simp] theorem State.setUnit_supervisor_consolePoll (u : Nat) (e : UnitEntry) : (s.setUnit u e).supervisor.consolePoll = s.supervisor.consolePoll := rfl
@[simp] theorem State.setUnit_supervisor_nextRack (u : Nat) (e : UnitEntry) : (s.setUnit u e).supervisor.nextRack = s.supervisor.nextRack := rfl
@[simp] theorem State.setUnit_supervisor_rackPoll (u : Nat) (e : UnitEntry) : (s.setUnit u e).supervisor.rackPoll = s.supervisor.rackPoll := rfl
@[simp] theorem State.setUnit_supervisor_radiatorPoll (u : Nat) (e : UnitEntry) : (s.setUnit u e).supervisor.radiatorPoll = s.supervisor.radiatorPoll := rfl

/-! setFaultRecord -/

@[simp] theorem State.setFaultRecord_link (u : Nat) (f : FaultRecord) : (s.setFaultRecord u f).link = s.link := rfl
@[simp] theorem State.setFaultRecord_plan (u : Nat) (f : FaultRecord) : (s.setFaultRecord u f).plan = s.plan := rfl
@[simp] theorem State.setFaultRecord_arbiter (u : Nat) (f : FaultRecord) : (s.setFaultRecord u f).arbiter = s.arbiter := rfl
@[simp] theorem State.setFaultRecord_booths (u : Nat) (f : FaultRecord) : (s.setFaultRecord u f).booths = s.booths := rfl
@[simp] theorem State.setFaultRecord_turns (u : Nat) (f : FaultRecord) : (s.setFaultRecord u f).turns = s.turns := rfl
@[simp] theorem State.setFaultRecord_check (u : Nat) (f : FaultRecord) : (s.setFaultRecord u f).check = s.check := rfl
@[simp] theorem State.setFaultRecord_racks (u : Nat) (f : FaultRecord) : (s.setFaultRecord u f).racks = s.racks := rfl
@[simp] theorem State.setFaultRecord_fleet (u : Nat) (f : FaultRecord) : (s.setFaultRecord u f).fleet = s.fleet := rfl
@[simp] theorem State.setFaultRecord_beacon (u : Nat) (f : FaultRecord) : (s.setFaultRecord u f).beacon = s.beacon := rfl
@[simp] theorem State.setFaultRecord_hires (u : Nat) (f : FaultRecord) : (s.setFaultRecord u f).hires = s.hires := rfl
@[simp] theorem State.setFaultRecord_money (u : Nat) (f : FaultRecord) : (s.setFaultRecord u f).money = s.money := rfl
@[simp] theorem State.setFaultRecord_meters (u : Nat) (f : FaultRecord) : (s.setFaultRecord u f).meters = s.meters := rfl
@[simp] theorem State.setFaultRecord_clock (u : Nat) (f : FaultRecord) : (s.setFaultRecord u f).clock = s.clock := rfl
@[simp] theorem State.setFaultRecord_limits (u : Nat) (f : FaultRecord) : (s.setFaultRecord u f).limits = s.limits := rfl
@[simp] theorem State.setFaultRecord_pending (u : Nat) (f : FaultRecord) : (s.setFaultRecord u f).pending = s.pending := rfl
@[simp] theorem State.setFaultRecord_supervisor_units (u : Nat) (f : FaultRecord) : (s.setFaultRecord u f).supervisor.units = s.supervisor.units := rfl
@[simp] theorem State.setFaultRecord_supervisor_nextConsole (u : Nat) (f : FaultRecord) : (s.setFaultRecord u f).supervisor.nextConsole = s.supervisor.nextConsole := rfl
@[simp] theorem State.setFaultRecord_supervisor_consolePoll (u : Nat) (f : FaultRecord) : (s.setFaultRecord u f).supervisor.consolePoll = s.supervisor.consolePoll := rfl
@[simp] theorem State.setFaultRecord_supervisor_nextRack (u : Nat) (f : FaultRecord) : (s.setFaultRecord u f).supervisor.nextRack = s.supervisor.nextRack := rfl
@[simp] theorem State.setFaultRecord_supervisor_rackPoll (u : Nat) (f : FaultRecord) : (s.setFaultRecord u f).supervisor.rackPoll = s.supervisor.rackPoll := rfl
@[simp] theorem State.setFaultRecord_supervisor_radiatorPoll (u : Nat) (f : FaultRecord) : (s.setFaultRecord u f).supervisor.radiatorPoll = s.supervisor.radiatorPoll := rfl

@[simp] theorem State.raise_plan (n : Notice) : (s.raise n).plan = s.plan := rfl
@[simp] theorem State.raise_arbiter (n : Notice) : (s.raise n).arbiter = s.arbiter := rfl
@[simp] theorem State.raise_booths (n : Notice) : (s.raise n).booths = s.booths := rfl
@[simp] theorem State.raise_turns (n : Notice) : (s.raise n).turns = s.turns := rfl
@[simp] theorem State.raise_check (n : Notice) : (s.raise n).check = s.check := rfl
@[simp] theorem State.raise_racks (n : Notice) : (s.raise n).racks = s.racks := rfl
@[simp] theorem State.raise_fleet (n : Notice) : (s.raise n).fleet = s.fleet := rfl
@[simp] theorem State.raise_beacon (n : Notice) : (s.raise n).beacon = s.beacon := rfl
@[simp] theorem State.raise_hires (n : Notice) : (s.raise n).hires = s.hires := rfl
@[simp] theorem State.raise_money (n : Notice) : (s.raise n).money = s.money := rfl
@[simp] theorem State.raise_meters (n : Notice) : (s.raise n).meters = s.meters := rfl
@[simp] theorem State.raise_clock (n : Notice) : (s.raise n).clock = s.clock := rfl
@[simp] theorem State.raise_supervisor (n : Notice) : (s.raise n).supervisor = s.supervisor := rfl
@[simp] theorem State.raise_limits (n : Notice) : (s.raise n).limits = s.limits := rfl
@[simp] theorem State.raise_pending (n : Notice) : (s.raise n).pending = s.pending := rfl

@[simp] theorem State.freeHold_plan : (s.freeHold).plan = s.plan := rfl
@[simp] theorem State.freeHold_arbiter : (s.freeHold).arbiter = s.arbiter := rfl
@[simp] theorem State.freeHold_booths : (s.freeHold).booths = s.booths := rfl
@[simp] theorem State.freeHold_turns : (s.freeHold).turns = s.turns := rfl
@[simp] theorem State.freeHold_check : (s.freeHold).check = s.check := rfl
@[simp] theorem State.freeHold_racks : (s.freeHold).racks = s.racks := rfl
@[simp] theorem State.freeHold_fleet : (s.freeHold).fleet = s.fleet := rfl
@[simp] theorem State.freeHold_beacon : (s.freeHold).beacon = s.beacon := rfl
@[simp] theorem State.freeHold_hires : (s.freeHold).hires = s.hires := rfl
@[simp] theorem State.freeHold_money : (s.freeHold).money = s.money := rfl
@[simp] theorem State.freeHold_meters : (s.freeHold).meters = s.meters := rfl
@[simp] theorem State.freeHold_clock : (s.freeHold).clock = s.clock := rfl
@[simp] theorem State.freeHold_supervisor : (s.freeHold).supervisor = s.supervisor := rfl
@[simp] theorem State.freeHold_limits : (s.freeHold).limits = s.limits := rfl
@[simp] theorem State.freeHold_pending : (s.freeHold).pending = s.pending := rfl

@[simp] theorem State.putReply_plan (f : Frame) (body : List Byte) : (s.putReply f body).plan = s.plan := rfl
@[simp] theorem State.putReply_arbiter (f : Frame) (body : List Byte) : (s.putReply f body).arbiter = s.arbiter := rfl
@[simp] theorem State.putReply_booths (f : Frame) (body : List Byte) : (s.putReply f body).booths = s.booths := rfl
@[simp] theorem State.putReply_turns (f : Frame) (body : List Byte) : (s.putReply f body).turns = s.turns := rfl
@[simp] theorem State.putReply_check (f : Frame) (body : List Byte) : (s.putReply f body).check = s.check := rfl
@[simp] theorem State.putReply_racks (f : Frame) (body : List Byte) : (s.putReply f body).racks = s.racks := rfl
@[simp] theorem State.putReply_fleet (f : Frame) (body : List Byte) : (s.putReply f body).fleet = s.fleet := rfl
@[simp] theorem State.putReply_beacon (f : Frame) (body : List Byte) : (s.putReply f body).beacon = s.beacon := rfl
@[simp] theorem State.putReply_hires (f : Frame) (body : List Byte) : (s.putReply f body).hires = s.hires := rfl
@[simp] theorem State.putReply_money (f : Frame) (body : List Byte) : (s.putReply f body).money = s.money := rfl
@[simp] theorem State.putReply_meters (f : Frame) (body : List Byte) : (s.putReply f body).meters = s.meters := rfl
@[simp] theorem State.putReply_clock (f : Frame) (body : List Byte) : (s.putReply f body).clock = s.clock := rfl
@[simp] theorem State.putReply_supervisor (f : Frame) (body : List Byte) : (s.putReply f body).supervisor = s.supervisor := rfl
@[simp] theorem State.putReply_limits (f : Frame) (body : List Byte) : (s.putReply f body).limits = s.limits := rfl
@[simp] theorem State.putReply_pending (f : Frame) (body : List Byte) : (s.putReply f body).pending = s.pending := rfl

end Sys2Proof.Machine
end

