-- ==== Sys2Proof/Laws/Arbiter.lean ====
section
/-! SUPPORT. What the source arbiter's operations do: the frame of each, and that after the end of an event every source
record and every ear feed is the one R18, R19 and R34 form. -/

namespace Sys2Proof.Machine

/-! ### Notices -/

/-- What raising notices leaves: everything but the notice queue and the overflow flag. -/
theorem State.raiseAll_frame (ns : List Notice) (s : State) :
    (s.raiseAll ns) = { s with link := (s.raiseAll ns).link } := by
  induction ns generalizing s with
  | nil => rfl
  | cons n ns ih =>
    have h : s.raiseAll (n :: ns) = (s.raise n).raiseAll ns := rfl
    rw [h, ih]
    rfl

theorem Link.enqueue_frame (l : Link) (n : Notice) :
    (l.enqueue n).framer = l.framer ∧ (l.enqueue n).hold = l.hold ∧ (l.enqueue n).replyRoom = l.replyRoom ∧
      (l.enqueue n).sending = l.sending ∧ (l.enqueue n).receiving = l.receiving := by
  unfold Link.enqueue; split <;> simp

/-- A notice raised while a frame is being sent joins the queue. -/
theorem Link.raise_sending {l : Link} {f : Frame} (h : l.sending = some f) (n : Notice) : l.raise n = l.enqueue n := by
  simp [Link.raise, h]

/-- A notice raised while the reply room is full joins the queue. -/
theorem Link.raise_room {l : Link} {r : Frame} (h : l.replyRoom = some r) (n : Notice) : l.raise n = l.enqueue n := by
  simp [Link.raise, h]

theorem Link.raise_frame (l : Link) (n : Notice) :
    (l.raise n).framer = l.framer ∧ (l.raise n).hold = l.hold ∧ (l.raise n).replyRoom = l.replyRoom := by
  unfold Link.raise
  split
  · exact ⟨rfl, rfl, rfl⟩
  · exact ⟨(l.enqueue_frame n).1, (l.enqueue_frame n).2.1, (l.enqueue_frame n).2.2.1⟩

/-- Raising notices touches neither the framer, the hold nor the reply room. -/
theorem State.raiseAll_link (ns : List Notice) (s : State) :
    (s.raiseAll ns).link.framer = s.link.framer ∧ (s.raiseAll ns).link.hold = s.link.hold ∧
      (s.raiseAll ns).link.replyRoom = s.link.replyRoom := by
  induction ns generalizing s with
  | nil => simp [State.raiseAll]
  | cons n ns ih =>
    have h : s.raiseAll (n :: ns) = (s.raise n).raiseAll ns := rfl
    obtain ⟨a, b, c⟩ := ih (s.raise n)
    obtain ⟨a', b', c'⟩ := s.link.raise_frame n
    rw [h]
    exact ⟨a.trans a', b.trans b', c.trans c'⟩

/-! ### Recomputation -/

/-- A fold of writes at the keys of a list leaves at a key of the list the value written there. -/
theorem Table.read_foldl_write {α : Type} [DecidableEq α] (d : α) (f : Nat → α) (ks : List Nat) (t : Table α) (k : Nat) :
    (ks.foldl (fun t c => t.write d c (f c)) t).read d k = if k ∈ ks then f k else t.read d k := by
  induction ks generalizing t with
  | nil => simp
  | cons c ks ih =>
    rw [List.foldl_cons, ih, Table.read_write]
    by_cases h : k ∈ ks
    · simp [h]
    · by_cases hk : k = c <;> simp [h, hk]

theorem Table.canonical_foldl_write {α : Type} [DecidableEq α] (d : α) (f : Nat → α) (ks : List Nat) (t : Table α)
    (h : t.canonical d = true) : (ks.foldl (fun t c => t.write d c (f c)) t).canonical d = true := by
  induction ks generalizing t with
  | nil => exact h
  | cons c ks ih => exact ih _ (Table.canonical_write d t c (f c) h)

/-- Recomputation changes source records and ear feeds alone. -/
theorem State.recompute_frame (s : State) :
    s.recompute = { s with arbiter := { s.arbiter with
      sources := s.recompute.arbiter.sources, feeds := s.recompute.arbiter.feeds } } := rfl

/-- What a channel's source is formed from does not change with the source records and the ear feeds. -/
theorem State.effective_recompute (s : State) (c : Nat) : s.recompute.effective c = s.effective c := rfl

theorem State.withoutTest_recompute (s : State) (c : Nat) : s.recompute.withoutTest c = s.withoutTest c := rfl

/-- After recomputation a channel's record is the one R18 and R19 form. -/
theorem State.source_recompute (s : State) {c : Nat} (h : c < 32) : s.recompute.source c = s.effective c := by
  have : s.recompute.arbiter.sources =
      allChannels.foldl (fun t c => t.write .unused c (s.effective c)) s.arbiter.sources := rfl
  rw [State.source, this, Table.read_foldl_write]
  simp [allChannels, h]

/-- After recomputation a booth's ear feed is the one R34 forms. -/
theorem State.feed_recompute (s : State) {b : Nat} (h1 : 1 ≤ b) (h2 : b ≤ 24) : s.recompute.feed b = s.recompute.formFeed b := by
  have : s.recompute.arbiter.feeds =
      allBooths.foldl (fun t b => t.write .floor b (s.recomputeSources.formFeed b)) s.arbiter.feeds := rfl
  rw [State.feed, this, Table.read_foldl_write]
  have hm : b ∈ allBooths := by simp [allBooths]; omega
  rw [if_pos hm]
  rfl

/-! ### The checker's advance -/

theorem State.enterResults_frame (s : State) (c : Nat) (p : CheckResult → Bool) (r : CheckResult) :
    ∃ t, s.enterResults c p r = { s with check := { s.check with results := t } } := by
  unfold State.enterResults
  generalize positionsOf s.checkMonitors = ms
  induction ms generalizing s with
  | nil => exact ⟨_, rfl⟩
  | cons m ms ih =>
    simp only [List.foldl_cons]
    split
    · obtain ⟨t, ht⟩ := ih (s.setResult c m r)
      exact ⟨t, ht⟩
    · exact ih s

/-- The advance of a check changes the checker alone. -/
theorem takeNextChannel_frame (s : State) (cs : List Nat) :
    (takeNextChannel s cs).1 = { s with check := (takeNextChannel s cs).1.check } := by
  induction cs generalizing s with
  | nil => rfl
  | cons c cs ih =>
    unfold takeNextChannel
    split
    · rfl
    · obtain ⟨t, ht⟩ := s.enterResults_frame c (fun _ => true) .excluded
      rw [ht, ih]

theorem endChannel_frame (s : State) (c : Nat) :
    (endChannel s c).1 = { s with check := (endChannel s c).1.check } := by
  unfold endChannel
  rw [takeNextChannel_frame]
  rfl

theorem preemptCheck_frame (s : State) : (preemptCheck s).1 = { s with check := (preemptCheck s).1.check } := by
  unfold preemptCheck
  split
  · rfl
  · split
    · rfl
    · rename_i c _ _
      obtain ⟨t, ht⟩ := s.enterResults_frame c (fun r => decide (r = .notRun)) .preempted
      rw [ht, endChannel_frame]

/-! ### The end of an event -/

/-- The end of an event changes the source records, the ear feeds, the checker and the notices alone. -/
theorem settleEvent_frame (before : State) (early late : List Notice) (s : State) :
    settleEvent before early late s =
      { s with
        link := (settleEvent before early late s).link
        check := (settleEvent before early late s).check
        arbiter :=
          { s.arbiter with
            sources := (settleEvent before early late s).arbiter.sources
            feeds := (settleEvent before early late s).arbiter.feeds } } := by
  unfold settleEvent
  rw [State.raiseAll_frame, State.recompute_frame, preemptCheck_frame]

section
variable (before : State) (early late : List Notice) (s : State)

@[simp] theorem settleEvent_plan : (settleEvent before early late s).plan = s.plan := by rw [settleEvent_frame]
@[simp] theorem settleEvent_booths : (settleEvent before early late s).booths = s.booths := by rw [settleEvent_frame]
@[simp] theorem settleEvent_turns : (settleEvent before early late s).turns = s.turns := by rw [settleEvent_frame]
@[simp] theorem settleEvent_racks : (settleEvent before early late s).racks = s.racks := by rw [settleEvent_frame]
@[simp] theorem settleEvent_fleet : (settleEvent before early late s).fleet = s.fleet := by rw [settleEvent_frame]
@[simp] theorem settleEvent_beacon : (settleEvent before early late s).beacon = s.beacon := by rw [settleEvent_frame]
@[simp] theorem settleEvent_hires : (settleEvent before early late s).hires = s.hires := by rw [settleEvent_frame]
@[simp] theorem settleEvent_money : (settleEvent before early late s).money = s.money := by rw [settleEvent_frame]
@[simp] theorem settleEvent_meters : (settleEvent before early late s).meters = s.meters := by rw [settleEvent_frame]
@[simp] theorem settleEvent_clock : (settleEvent before early late s).clock = s.clock := by rw [settleEvent_frame]
@[simp] theorem settleEvent_supervisor : (settleEvent before early late s).supervisor = s.supervisor := by
  rw [settleEvent_frame]
@[simp] theorem settleEvent_limits : (settleEvent before early late s).limits = s.limits := by rw [settleEvent_frame]
@[simp] theorem settleEvent_pending : (settleEvent before early late s).pending = s.pending := by rw [settleEvent_frame]
@[simp] theorem settleEvent_announcements :
    (settleEvent before early late s).arbiter.announcements = s.arbiter.announcements := by rw [settleEvent_frame]
@[simp] theorem settleEvent_inputOne : (settleEvent before early late s).arbiter.inputOne = s.arbiter.inputOne := by
  rw [settleEvent_frame]
@[simp] theorem settleEvent_inputTwo : (settleEvent before early late s).arbiter.inputTwo = s.arbiter.inputTwo := by
  rw [settleEvent_frame]
@[simp] theorem settleEvent_relays : (settleEvent before early late s).arbiter.relays = s.arbiter.relays := by
  rw [settleEvent_frame]

/-- The end of an event touches neither the framer, the hold nor the reply room. -/
theorem settleEvent_link :
    (settleEvent before early late s).link.framer = s.link.framer ∧
      (settleEvent before early late s).link.hold = s.link.hold ∧
      (settleEvent before early late s).link.replyRoom = s.link.replyRoom := by
  have h : (preemptCheck s).1.recompute.link = s.link := by rw [State.recompute_frame, preemptCheck_frame]
  unfold settleEvent
  simpa [h] using State.raiseAll_link _ (preemptCheck s).1.recompute

/-- Once an event has been taken, every channel's record is the one R18 and R19 form. -/
theorem settleEvent_source {c : Nat} (h : c < 32) :
    (settleEvent before early late s).source c = (settleEvent before early late s).effective c := by
  unfold settleEvent
  rw [State.raiseAll_frame]
  exact State.source_recompute _ h

/-- Once an event has been taken, every booth's ear feed is the one R34 forms. -/
theorem settleEvent_feed {b : Nat} (h1 : 1 ≤ b) (h2 : b ≤ 24) :
    (settleEvent before early late s).feed b = (settleEvent before early late s).formFeed b := by
  unfold settleEvent
  rw [State.raiseAll_frame]
  exact State.feed_recompute _ h1 h2
end

end Sys2Proof.Machine
end

