-- ==== Sys2Proof/Laws/Ops.lean ====
section
/-! SUPPORT. What the shared operations do, said once: taking a request, the order of a reply and its notices, and what
each entry of the state reads as after it is written. -/

namespace Sys2Proof.Machine

/-! ### Requests -/

theorem State.admits_of {s : State} {f : Frame} (h : s.canTake f) : s.admits f = true := by
  obtain ⟨hr, hroom, hh⟩ := h
  rcases hh with hh | hh <;> simp [State.admits, hr, hroom, hh]

/-- A request that can be taken is served with the reply room kept for it, and answered after every change it caused. -/
theorem takeRequest_taken {s : State} {f : Frame} (h : s.canTake f) (serve : State → Served) :
    takeRequest s f serve = (serve (s.reserve f)).1.putReply f (serve (s.reserve f)).2 := by
  unfold takeRequest; rw [s.admits_of h]; rfl

/-- A frame that cannot be taken, for want of the reply room, waits in the hold if it is free. -/
theorem State.await_eq {s : State} {f : Frame} (hr : s.link.receiving = true) :
    s.await f = if s.link.hold = none then { s with link := { s.link with hold := some f } } else s := by
  unfold State.await Link.offer
  rw [if_pos hr]
  split <;> rfl

/-- A request that cannot be taken, for want of the reply room, waits in the hold if it is free. -/
theorem takeRequest_waits {s : State} {f : Frame} (hr : s.link.receiving = true) (hroom : s.link.replyRoom ≠ none)
    (serve : State → Served) :
    takeRequest s f serve = if s.link.hold = none then { s with link := { s.link with hold := some f } } else s := by
  have h : s.admits f = false := by simp [State.admits, hroom]
  unfold takeRequest
  rw [h]
  exact State.await_eq hr

/-- Serving that changes nothing is a reply and no more. -/
theorem reserve_putReply (s : State) (k t : Byte) (b body : List Byte) :
    (s.reserve ⟨k, t, b⟩).putReply ⟨k, t, b⟩ body = s.replied k t body := by
  by_cases h : s.link.sending = none <;>
    simp [State.putReply, State.replied, State.reserve, Link.putReply, Frame.reply, h]

/-! ### A reply and the notices behind it -/

theorem Link.enqueue_putReply (l : Link) (n : Notice) (r : Frame) :
    (l.enqueue n).putReply r = (l.putReply r).enqueue n := by
  unfold Link.enqueue Link.putReply
  by_cases h : l.notices.length < Config.noticePlaces <;> by_cases hs : l.sending = none <;> simp [h, hs]

theorem Link.putReply_sending (l : Link) (r : Frame) : ∃ f, (l.putReply r).sending = some f := by
  unfold Link.putReply
  by_cases hs : l.sending = none
  · exact ⟨r, by simp [hs]⟩
  · exact ⟨_, by simpa [hs] using (Option.ne_none_iff_exists'.mp hs).choose_spec⟩

/-- Notices raised while the reply room is kept stand behind the reply: a reply formed last stands as if formed first. -/
theorem Link.foldl_raise_putReply (ns : List Notice) {l : Link} {q : Frame} (h : l.replyRoom = some q) (r : Frame) :
    (ns.foldl Link.raise l).putReply r = ns.foldl Link.raise (l.putReply r) := by
  induction ns generalizing l with
  | nil => rfl
  | cons n ns ih =>
    obtain ⟨f, hf⟩ := l.putReply_sending r
    have hroom : (l.enqueue n).replyRoom = some q := (l.enqueue_frame n).2.2.1.trans h
    rw [List.foldl_cons, List.foldl_cons, Link.raise_room h, Link.raise_sending hf, ih hroom, Link.enqueue_putReply]

theorem State.raiseAll_cons (s : State) (n : Notice) (ns : List Notice) :
    s.raiseAll (n :: ns) = (s.raise n).raiseAll ns := rfl

theorem State.raiseAll_nil (s : State) : s.raiseAll [] = s := rfl

theorem State.raiseAll_append (s : State) (ns ms : List Notice) :
    s.raiseAll (ns ++ ms) = (s.raiseAll ns).raiseAll ms := by simp [State.raiseAll]

/-- What the control link becomes when notices are raised, from the link alone. -/
theorem State.raiseAll_link_eq (s : State) (ns : List Notice) : (s.raiseAll ns).link = ns.foldl Link.raise s.link := by
  induction ns generalizing s with
  | nil => rfl
  | cons n ns ih => rw [State.raiseAll_cons, ih]; rfl

/-- A served request whose event raised notices is answered with them behind the reply. -/
theorem State.answeredWith_of {s x : State} {k t : Byte} {b body : List Byte} {ns : List Notice}
    (h : x.link = ns.foldl Link.raise (s.reserve ⟨k, t, b⟩).link) :
    s.answeredWith (x.putReply ⟨k, t, b⟩ body) k t body ns := by
  have hr := congrArg State.link (reserve_putReply s k t b body)
  unfold State.answeredWith
  rw [State.raiseAll_link_eq, ← hr]
  show x.link.putReply _ = _
  rw [h]
  exact Link.foldl_raise_putReply ns rfl _

/-- A served request is answered, in whatever way its event changed the rest of the link. -/
theorem State.answers_of {s x : State} {k t : Byte} {b body : List Byte} (hh : x.link.hold = none)
    (hs : x.link.sending = s.link.sending) : s.answers (x.putReply ⟨k, t, b⟩ body) k t body := by
  show (x.link.putReply _).hold = none ∧ (_ → (x.link.putReply _).sending = _ ∧ (x.link.putReply _).replyRoom = _) ∧
    ∀ f, _ → (x.link.putReply _).sending = _ ∧ (x.link.putReply _).replyRoom = _
  unfold Link.putReply
  rw [hs]
  refine ⟨?_, fun h => ?_, fun f h => ?_⟩
  · split <;> exact hh
  · rw [if_pos h]; exact ⟨rfl, rfl⟩
  · rw [if_neg (by simp [h])]; exact ⟨h, rfl⟩

/-! ### The transmitter and the hold (R171, R172) -/

/-- READY, raised at an idle link with an empty queue, begins to be sent at once and with it the framer hunts: the link
after power-on reset (R174). -/
theorem Link.raise_ready :
    ({ Link.reset with receiving := false, sending := none } : Link).raise .ready = Link.reset := by decide

/-- A frame of a request that is passed on while it can be taken is served by the owner of its kind (R171). -/
theorem passFrame_taken {s : State} {f : Frame} (hk : isReplyKind f.kind = false) (h : s.canTake f) :
    passFrame s f = (serveFrame f (s.reserve f)).1.putReply f (serveFrame f (s.reserve f)).2 := by
  unfold passFrame; rw [hk]; exact takeRequest_taken h _

/-- A frame passed on while the reply room is full waits in a free hold and is discarded at an occupied one (R171). -/
theorem passFrame_waits {s : State} {f : Frame} (hr : s.link.receiving = true) (hroom : s.link.replyRoom ≠ none) :
    passFrame s f = if s.link.hold = none then { s with link := { s.link with hold := some f } } else s := by
  unfold passFrame
  split
  · have h : s.admits f = false := by simp [State.admits, hroom]
    unfold discardFrame
    rw [h]
    exact State.await_eq hr
  · exact takeRequest_waits hr hroom _

/-- With no frame in the hold the end of a frame sent changes the link alone (R172). -/
theorem takeHeld_free {s : State} (h : s.link.hold = none) : takeHeld s = s := by unfold takeHeld; rw [h]

/-- A held frame is taken as soon as the reply room is empty (R171). -/
theorem takeHeld_taken {s : State} {f : Frame} (h : s.link.hold = some f) (hroom : s.link.replyRoom = none) :
    takeHeld s = passFrame s f := by unfold takeHeld; rw [h]; exact if_pos hroom

/-! ### The clock (R160, R161) -/

/-- A period away from the second boundary raises the sub-second count, and the stable time of a run of edges. -/
theorem clockPeriod_within {s : State} (h : s.clock.subSecond + 1 < 48000) :
    clockPeriod s = s.onClock (·.run 1) := if_pos h

/-- The period whose count would reach 48,000 brings a second event, in the order of the free value. -/
theorem clockPeriod_boundary {s : State} (h : 48000 ≤ s.clock.subSecond + 1) :
    clockPeriod s =
      secondEvent (s.onClock fun c => { c with boundaries := c.boundaries + 1 }) (Config.secondOrder s.clock.boundaries) :=
  if_neg (Nat.not_lt.mpr h)

@[simp] theorem Clock.run_seconds (c : Clock) (n : Nat) : (c.run n).seconds = c.seconds := rfl
@[simp] theorem Clock.run_source (c : Clock) (n : Nat) : (c.run n).source = c.source := rfl
@[simp] theorem Clock.run_quality (c : Clock) (n : Nat) : (c.run n).quality = c.quality := rfl
@[simp] theorem Clock.run_degradedCount (c : Clock) (n : Nat) : (c.run n).degradedCount = c.degradedCount := rfl
@[simp] theorem Clock.run_boundaries (c : Clock) (n : Nat) : (c.run n).boundaries = c.boundaries := rfl
@[simp] theorem Clock.run_subSecond (c : Clock) (n : Nat) : (c.run n).subSecond = c.subSecond + n := rfl
@[simp] theorem Clock.run_stable (c : Clock) (n : Nat) :
    (c.run n).stable = c.stable.map fun m => min (m + n) settledTime := rfl

/-- Periods that pass move the phase from SETTLING to SETTLED alone, and only when the stable time reaches 2 s. -/
theorem Clock.run_phase (c : Clock) (n : Nat) :
    (c.run n).phase =
      if c.phase = .settling ∧ c.stable.map (fun m => min (m + n) settledTime) = some settledTime then .settled
      else c.phase := rfl

/-! ### Events -/

/-- An event whose link is the old one with notices raised. -/
theorem State.raised_of {s t : State} {ns : List Notice} (h : t.link = ns.foldl Link.raise s.link) : s.raised t ns := by
  unfold State.raised; rw [State.raiseAll_link_eq]; exact h

/-! ### Entries after they are written -/

section
variable (s : State)

theorem deskKey_inj {b d x y : Nat} (hd : d ≤ 7) (hy : y ≤ 7) : deskKey b d = deskKey x y ↔ b = x ∧ d = y := by
  unfold deskKey; omega

theorem deskKey_inj_booth {b d y : Nat} : deskKey b d = deskKey b y ↔ d = y := by unfold deskKey; omega

theorem domainKey_inj {b x : Nat} {p q : Side} : domainKey b p = domainKey x q ↔ b = x ∧ p = q := by
  cases p <;> cases q <;> simp [domainKey, sideIndex] <;> omega

theorem resultKey_inj {c m d n : Nat} (hm : m < 8) (hn : n < 8) : resultKey c m = resultKey d n ↔ c = d ∧ m = n := by
  unfold resultKey; omega

theorem delegationKey_inj {d c e x : Nat} (hc : c < 32) (hx : x < 32) :
    delegationKey d c = delegationKey e x ↔ d = e ∧ c = x := by unfold delegationKey; omega

theorem serviceKey_inj {c k d j : Nat} (hk : k < 8) (hj : j < 8) : serviceKey c k = serviceKey d j ↔ c = d ∧ k = j := by
  unfold serviceKey; omega

theorem State.planEntry_setPlanEntry (c d : Nat) (e : PlanEntry) (h : c ≠ 0) :
    (s.setPlanEntry c e).planEntry d = if d = c then e else s.planEntry d := by
  simp only [State.planEntry, State.setPlanEntry, Table.read_write]
  by_cases hd : d = 0
  · subst hd; simp [Ne.symm h]
  · simp [hd]

theorem State.announcement_setAnnouncement (c d : Nat) (a : AnnState) :
    (s.setAnnouncement c a).announcement d = if d = c then a else s.announcement d := by
  simp [State.announcement, State.setAnnouncement, Table.read_write]

theorem State.inputSet_setInput (i j : AnnInput) (set : Option ChannelSet) :
    (s.setInput i set).inputSet j = if j = i then set else s.inputSet j := by
  cases i <;> cases j <;> rfl

theorem State.relay_setRelay (b x : Nat) (c : Option Nat) :
    (s.setRelay b c).relay x = if x = b then c else s.relay x := by
  simp [State.relay, State.setRelay, Table.read_write]

theorem State.config_setConfig (b x : Nat) (c : BoothConfig) :
    (s.setConfig b c).config x = if x = b then c else s.config x := by
  simp [State.config, State.setConfig, Table.read_write]

theorem State.desk_setDesk (b d x y : Nat) (k : Desk) (hd : d ≤ 7) (hy : y ≤ 7) :
    (s.setDesk b d k).desk x y = if x = b ∧ y = d then k else s.desk x y := by
  simp only [State.desk, State.setDesk, Table.read_write, deskKey_inj hy hd]

theorem State.desk_setDesk_booth (b d y : Nat) (k : Desk) :
    (s.setDesk b d k).desk b y = if y = d then k else s.desk b y := by
  simp only [State.desk, State.setDesk, Table.read_write, deskKey_inj_booth]

theorem State.domain_setDomain (b x : Nat) (p q : Side) (m : Domain) :
    (s.setDomain b p m).domain x q = if x = b ∧ q = p then m else s.domain x q := by
  simp only [State.domain, State.setDomain, Table.read_write, domainKey_inj]

theorem State.turn_setTurn (b x : Nat) (p q : Side) (r : TurnRecord) :
    (s.setTurn b p r).turn x q = if x = b ∧ q = p then r else s.turn x q := by
  simp only [State.turn, State.setTurn, Table.read_write, domainKey_inj]

theorem State.deskRecord_setDeskRecord (b d x y : Nat) (r : DeskRecord) (hd : d ≤ 7) (hy : y ≤ 7) :
    (s.setDeskRecord b d r).deskRecord x y = if x = b ∧ y = d then r else s.deskRecord x y := by
  simp only [State.deskRecord, State.setDeskRecord, Table.read_write, deskKey_inj hy hd]

theorem State.deskRecord_setDeskRecord_booth (b d y : Nat) (r : DeskRecord) :
    (s.setDeskRecord b d r).deskRecord b y = if y = d then r else s.deskRecord b y := by
  simp only [State.deskRecord, State.setDeskRecord, Table.read_write, deskKey_inj_booth]

theorem State.result_setResult (c m d n : Nat) (r : CheckResult) (hm : m < 8) (hn : n < 8) :
    (s.setResult c m r).result d n = if d = c ∧ n = m then r else s.result d n := by
  simp only [State.result, State.setResult, Table.read_write, resultKey_inj hn hm]

theorem State.failed_setFailed (c d : Nat) : (s.setFailed c).failed d = if d = c then true else s.failed d := by
  simp only [State.failed, State.setFailed, Table.read_write]

theorem State.progress_setProgress (m n : Nat) (p : Progress) :
    (s.setProgress m p).progress n = if n = m then p else s.progress n := by
  simp only [State.progress, State.setProgress, Table.read_write]

theorem State.receiver_setReceiver (r q : Nat) (e : Receiver) :
    (s.setReceiver r e).receiver q = if q = r then e else s.receiver q := by
  simp only [State.receiver, State.setReceiver, Table.read_write]

theorem State.monitorAt_setMonitorAt (p q : Nat) (r : Option Nat) :
    (s.setMonitorAt p r).monitorAt q = if q = p then r else s.monitorAt q := by
  simp only [State.monitorAt, State.setMonitorAt, Table.read_write]

theorem State.pollList_setPollList (i j : ListId) (l : PollList) :
    (s.setPollList i l).pollList j = if j = i then l else s.pollList j := by
  cases i <;> cases j <;> rfl

theorem State.listeners_setListeners (c d n : Nat) :
    (s.setListeners c n).listeners d = if d = c then n else s.listeners d := by
  simp only [State.listeners, State.setListeners, Table.read_write]

theorem State.lowMark_setLowMark (r q : Nat) (m : Bool) :
    (s.setLowMark r m).lowMark q = if q = r then m else s.lowMark q := by
  simp only [State.lowMark, State.setLowMark, Table.read_write]

theorem State.hire_setHire (n m : Nat) (h : Option Hire) :
    (s.setHire n h).hire m = if m = n then h else s.hire m := by
  simp only [State.hire, State.setHire, Table.read_write]

theorem State.tariff_setTariff (k j : Nat) (t : Tariff) :
    (s.setTariff k t).tariff j = if j = k then t else s.tariff j := by
  simp only [State.tariff, State.setTariff, Table.read_write]

theorem State.listening_setListening (d c e x n : Nat) (hc : c < 32) (hx : x < 32) :
    (s.setListening d c n).listening e x = if e = d ∧ x = c then n else s.listening e x := by
  simp only [State.listening, State.setListening, Table.read_write, delegationKey_inj hx hc]

theorem State.serviceSeconds_setServiceSeconds (c k d j n : Nat) (hk : k < 8) (hj : j < 8) :
    (s.setServiceSeconds c k n).serviceSeconds d j = if d = c ∧ j = k then n else s.serviceSeconds d j := by
  simp only [State.serviceSeconds, State.setServiceSeconds, Table.read_write, serviceKey_inj hj hk]

theorem State.unserved_setUnserved (c d n : Nat) :
    (s.setUnserved c n).unserved d = if d = c then n else s.unserved d := by
  simp only [State.unserved, State.setUnserved, Table.read_write]

theorem State.unit_setUnit (u x : Nat) (e : UnitEntry) : (s.setUnit u e).unit x = if x = u then e else s.unit x := by
  simp only [State.unit, State.setUnit, Table.read_write]

theorem State.faultRecord_setFaultRecord (u x : Nat) (f : FaultRecord) :
    (s.setFaultRecord u f).faultRecord x = if x = u then f else s.faultRecord x := by
  simp only [State.faultRecord, State.setFaultRecord, Table.read_write]
end

/-! ### Writing one key twice -/

theorem Table.erase_lacks {α : Type} {k : Nat} {t : Table α} (h : t.lacks k) : t.erase k = t := by
  induction t with
  | nil => rfl
  | cons e t ih =>
    obtain ⟨j, v⟩ := e
    have hj : j ≠ k := h (j, v) (by simp)
    have ht : Table.lacks k t := fun x hx => h x (List.mem_cons_of_mem _ hx)
    simp [Table.erase, hj, ih ht]

theorem Table.erase_insert {α : Type} {k : Nat} (v : α) {t : Table α} (h : t.lacks k) : (t.insert k v).erase k = t := by
  induction t with
  | nil => simp [Table.insert, Table.erase]
  | cons e t ih =>
    obtain ⟨j, w⟩ := e
    have hj : j ≠ k := h (j, w) (by simp)
    have ht : Table.lacks k t := fun x hx => h x (List.mem_cons_of_mem _ hx)
    by_cases hlt : k < j
    · simp [Table.insert, hlt, Table.erase, hj, Table.erase_lacks ht]
    · simp [Table.insert, hlt, Table.erase, hj, ih ht]

/-- The later of two writes of one key is the one that stands. -/
@[simp] theorem Table.write_write {α : Type} [DecidableEq α] (d : α) (t : Table α) (k : Nat) (v w : α) :
    (t.write d k v).write d k w = t.write d k w := by
  have h : (t.write d k v).erase k = t.erase k := by
    by_cases hv : v = d
    · simp [Table.write, hv, Table.erase_lacks (Table.lacks_erase t k)]
    · simp [Table.write, hv, Table.erase_insert v (Table.lacks_erase t k)]
  unfold Table.write at h ⊢
  rw [h]

/-! ### What a raised notice tells (R172) -/

/-- A notice raised joins the line at its end, or is discarded with the queue full and the overflow flag set. -/
theorem State.line_raise (s : State) (n : Notice) :
    (s.raise n).line = s.line ++ [n.frame] ∨ (s.raise n).line = s.line ∧ (s.raise n).overflowed := by
  show (s.link.raise n).sending.toList ++ (s.link.raise n).notices.map Notice.frame = _ ∨
    (s.link.raise n).sending.toList ++ (s.link.raise n).notices.map Notice.frame = _ ∧
      (s.link.raise n).overflow = true ∧ 64 ≤ (s.link.raise n).notices.length
  unfold Link.raise State.line
  split
  · rename_i h
    left; simp [Link.beginNotice, h.1, h.2.2]
  · unfold Link.enqueue
    split
    · left; simp
    · rename_i h
      exact .inr ⟨rfl, rfl, Nat.not_lt.mp h⟩

/-- A queue that has discarded a notice stays full as more are raised. -/
theorem State.overflowed_raise {s : State} (h : s.overflowed) (n : Notice) : (s.raise n).overflowed := by
  obtain ⟨h1, h2⟩ := h
  show (s.link.raise n).overflow = true ∧ 64 ≤ (s.link.raise n).notices.length
  unfold Link.raise
  rw [if_neg (by rintro ⟨-, -, x⟩; rw [x] at h2; exact absurd h2 (by decide))]
  unfold Link.enqueue
  rw [if_neg (show ¬s.link.notices.length < Config.noticePlaces from Nat.not_lt.mpr h2)]
  exact ⟨rfl, h2⟩

theorem State.tells_raise (s : State) (n : Notice) : (s.raise n).tells n := by
  rcases s.line_raise n with h | ⟨-, h⟩
  · exact .inl (by rw [h]; simp)
  · exact .inr h

/-- What has been told stays told as more notices are raised. -/
theorem State.tells_raise_of {s : State} {m : Notice} (h : s.tells m) (n : Notice) : (s.raise n).tells m := by
  rcases h with h | h
  · rcases s.line_raise n with e | ⟨e, -⟩
    · exact .inl (by rw [e]; exact List.mem_append_left _ h)
    · exact .inl (e ▸ h)
  · exact .inr (s.overflowed_raise h n)

/-- A notice raised behind one that has been told stands behind it. -/
theorem State.tellsInOrder_raise {s : State} {m : Notice} (h : s.tells m) (n : Notice) : (s.raise n).tellsInOrder m n := by
  rcases h with h | h
  · rcases s.line_raise n with e | ⟨-, e⟩
    · exact .inl (by rw [e]; exact (List.singleton_sublist.mpr h).append (List.Sublist.refl [n.frame]))
    · exact .inr e
  · exact .inr (s.overflowed_raise h n)

/-- Two notices told in order stay so as more are raised. -/
theorem State.tellsInOrder_raise_of {s : State} {m p : Notice} (h : s.tellsInOrder m p) (n : Notice) :
    (s.raise n).tellsInOrder m p := by
  rcases h with h | h
  · rcases s.line_raise n with e | ⟨e, -⟩
    · exact .inl (by rw [e]; exact h.trans (List.sublist_append_left _ _))
    · exact .inl (e ▸ h)
  · exact .inr (s.overflowed_raise h n)

end Sys2Proof.Machine
end

