-- ==== Sys2Proof/Laws/Coverage.lean ====
section
/-! SUPPORT. What the check's advance does, said once, and that the check follows the event it is settled with: a test goes
on, or is preempted and the check takes its next channel (R75, R78, R80). -/

namespace Sys2Proof.Machine

/-! ### Entering results -/

theorem mem_positionsOf (set : MonitorSet) (m : Nat) : m ∈ positionsOf set ↔ m < 8 ∧ set.getLsbD m = true := by
  simp [positionsOf, monitorPositions]

/-- What entering a result on channel `c` leaves in the table: that result for each position of the program where `only`
allows it, and every other entry. -/
theorem State.enterResults_result (s : State) (c : Nat) (only : CheckResult → Bool) (r : CheckResult) (d m : Nat)
    (hm : m < 8) :
    (s.enterResults c only r).result d m =
      if d = c ∧ s.checkMonitors.getLsbD m = true ∧ only (s.result c m) = true then r else s.result d m := by
  have key : ∀ (ms : List Nat) (u : State), ms.Nodup → (∀ n ∈ ms, n < 8) →
      (ms.foldl (fun t n => if only (t.result c n) then t.setResult c n r else t) u).result d m =
        if d = c ∧ m ∈ ms ∧ only (u.result c m) = true then r else u.result d m := by
    intro ms
    induction ms with
    | nil => intro u _ _; simp
    | cons n ms ih =>
      intro u hn h8
      obtain ⟨hnot, hn⟩ := List.nodup_cons.mp hn
      have hn8 := h8 n List.mem_cons_self
      have hu : ∀ x, (if only (u.result c n) then u.setResult c n r else u).result x m =
          if x = c ∧ m = n ∧ only (u.result c n) = true then r else u.result x m := by
        intro x
        by_cases ho : only (u.result c n) = true
        · rw [if_pos ho, State.result_setResult u c n x m r hn8 hm]; simp [ho]
        · rw [if_neg ho]; simp [ho]
      rw [List.foldl_cons, ih _ hn fun x hx => h8 x (List.mem_cons_of_mem _ hx), hu, hu]
      by_cases hmn : m = n
      · subst hmn; simp [hnot]
      · simp [hmn]
  have hms : ∀ n, n ∈ positionsOf s.checkMonitors ↔ n < 8 ∧ s.checkMonitors.getLsbD n = true := mem_positionsOf _
  have e := key (positionsOf s.checkMonitors) s (List.Nodup.filter _ (by decide)) fun n hn => ((hms n).mp hn).1
  simp only [hms, hm, true_and] at e
  exact e

/-! ### The advance (R75, R78) -/

/-- In a rising list the members before the first that `T` takes are those below it, or all if it takes none. -/
theorem mem_takeWhile_find (T : Nat → Bool) (cs : List Nat) (h : cs.Pairwise (· < ·)) (d : Nat) :
    d ∈ cs.takeWhile (fun x => !T x) ↔ d ∈ cs ∧ ∀ n, cs.find? T = some n → d < n := by
  induction cs with
  | nil => simp
  | cons c cs ih =>
    obtain ⟨hc, hcs⟩ := List.pairwise_cons.mp h
    by_cases ht : T c = true
    · simp only [List.takeWhile_cons, ht, List.find?_cons, List.mem_cons]
      constructor
      · intro h; simp at h
      · rintro ⟨rfl | h, h2⟩
        · exact absurd (h2 d rfl) (Nat.lt_irrefl d)
        · exact absurd (hc d h) (Nat.not_lt.mpr (Nat.le_of_lt (h2 c rfl)))
    · simp only [Bool.not_eq_true] at ht
      simp only [List.takeWhile_cons, ht, List.find?_cons, List.mem_cons, Bool.not_false, if_true, ih hcs]
      constructor
      · rintro (rfl | ⟨h1, h2⟩)
        · exact ⟨.inl rfl, fun n hn => hc n (List.mem_of_find?_eq_some hn)⟩
        · exact ⟨.inr h1, h2⟩
      · rintro ⟨rfl | h1, h2⟩
        · exact .inl rfl
        · exact .inr ⟨h1, h2⟩

/-- What the advance over a list of channels does: the first that may be under test is placed with a fresh dwell, those
before it are EXCLUDED for each position of the program, and with none left the check is DONE. -/
theorem takeNextChannel_spec (s : State) (cs : List Nat) :
    ((takeNextChannel s cs).2 =
        if cs.find? (fun d => (s.withoutTest d).testable) = none then [.checkDone false s.failedCount] else []) ∧
      ((takeNextChannel s cs).1.check.program = s.check.program ∧
        (takeNextChannel s cs).1.check.failed = s.check.failed) ∧
      (cs.find? (fun d => (s.withoutTest d).testable) = none →
        (takeNextChannel s cs).1.check.current = s.check.current ∧ (takeNextChannel s cs).1.check.state = .done ∧
        (takeNextChannel s cs).1.check.generator = s.check.generator ∧
        (takeNextChannel s cs).1.check.dwell = s.check.dwell ∧
        (takeNextChannel s cs).1.check.progress = s.check.progress) ∧
      (∀ n, cs.find? (fun d => (s.withoutTest d).testable) = some n →
        (takeNextChannel s cs).1.check.current = some n ∧ (takeNextChannel s cs).1.check.state = s.check.state ∧
        (takeNextChannel s cs).1.check.generator = s.check.program.map (fun p => p.signature n) ∧
        (takeNextChannel s cs).1.check.dwell = 10 ∧ (takeNextChannel s cs).1.check.progress = []) ∧
      ∀ d m, m < 8 → (takeNextChannel s cs).1.result d m =
        if d ∈ cs.takeWhile (fun d => !(s.withoutTest d).testable) ∧ s.checkMonitors.getLsbD m = true then .excluded
        else s.result d m := by
  induction cs generalizing s with
  | nil => exact ⟨rfl, ⟨rfl, rfl⟩, fun _ => ⟨rfl, rfl, rfl, rfl, rfl⟩, nofun, fun d m _ => by simp [takeNextChannel]; rfl⟩
  | cons c cs ih =>
    by_cases ht : (s.withoutTest c).testable = true
    · have e : takeNextChannel s (c :: cs) = (s.placeSignature c, []) := by unfold takeNextChannel; rw [if_pos ht]
      rw [e, show (c :: cs).find? (fun d => (s.withoutTest d).testable) = some c by simp [ht]]
      refine ⟨rfl, ⟨rfl, rfl⟩, nofun, fun n hn => ?_, fun d m _ => ?_⟩
      · cases hn; exact ⟨rfl, rfl, rfl, rfl, rfl⟩
      · simp [ht]; rfl
    · simp only [Bool.not_eq_true] at ht
      have e : takeNextChannel s (c :: cs) = takeNextChannel (s.enterResults c (fun _ => true) .excluded) cs := by
        rw [takeNextChannel]; simp [ht]
      have hf : (c :: cs).find? (fun d => (s.withoutTest d).testable) =
          cs.find? (fun d => (s.withoutTest d).testable) := by simp [ht]
      have hr := fun d m hm => s.enterResults_result c (fun _ => true) .excluded d m hm
      obtain ⟨u, hu⟩ := s.enterResults_frame c (fun _ => true) .excluded
      obtain ⟨h1, h2, h3, h4, h5⟩ := ih (s.enterResults c (fun _ => true) .excluded)
      have hw : ∀ d, (s.enterResults c (fun _ => true) .excluded).withoutTest d = s.withoutTest d := by
        intro d; rw [hu]; rfl
      have hm' : (s.enterResults c (fun _ => true) .excluded).checkMonitors = s.checkMonitors := by rw [hu]; rfl
      have hc : (s.enterResults c (fun _ => true) .excluded).check = { s.check with results := u } := by rw [hu]
      have hfc : (s.enterResults c (fun _ => true) .excluded).failedCount = s.failedCount := by rw [hu]; rfl
      simp only [hw, hfc, hc] at h1 h2 h3 h4
      rw [e, hf]
      refine ⟨h1, h2, h3, h4, fun d m hm => ?_⟩
      rw [h5 d m hm, hm', hr d m hm]
      simp only [hw, List.takeWhile_cons, ht, Bool.not_false, if_true, List.mem_cons]
      by_cases hd : d = c
      · subst hd; by_cases hb : s.checkMonitors.getLsbD m = true <;> simp [hb]
      · simp [hd]

/-- The channels above `c` of a set, as the check takes them, are rising. -/
theorem channelsAbove_rising (set : ChannelSet) (c : Nat) :
    ((channelsOf set).filter fun d => decide (c < d)).Pairwise (· < ·) :=
  List.Pairwise.filter _ (List.Pairwise.filter _ (by decide))

theorem mem_channelsAbove (set : ChannelSet) (c d : Nat) :
    d ∈ (channelsOf set).filter (fun d => decide (c < d)) ↔ c < d ∧ set.getLsbD d = true := by
  simp only [channelsOf, allChannels, List.mem_filter, List.mem_range, decide_eq_true_eq]
  constructor
  · exact fun h => ⟨h.2, h.1.2⟩
  · exact fun h => ⟨⟨by by_contra hd; simp [BitVec.getLsbD_of_ge set d (by omega)] at h, h.2⟩, h.1⟩

/-- The first channel above `c` of a set that `T` takes, searched as R75 and R78 search it. -/
theorem find_channelsAbove (set : ChannelSet) (c : Nat) (T : Nat → Bool) :
    ((channelsOf set).filter fun d => decide (c < d)).find? T =
      (List.range' 1 31).find? fun d => decide (c < d) && set.getLsbD d && T d := by
  have h32 : allChannels = 0 :: List.range' 1 31 := by decide
  have hT : (fun d => decide (set.getLsbD d = true ∧ decide (decide (c < d) = true ∧ T d = true) = true)) =
      fun d => decide (c < d) && set.getLsbD d && T d := by
    funext d
    cases decide (c < d) <;> cases set.getLsbD d <;> cases T d <;> rfl
  unfold channelsOf
  rw [List.find?_filter, List.find?_filter, hT, h32, List.find?_cons]
  simp

theorem State.openToTest_iff (s : State) (c : Nat) : s.openToTest c ↔ (s.withoutTest c).testable = true := by
  simp [State.openToTest, Source.testable]

/-- What the preemption judged at the end of an event does to the check, and the notices it is due (R22, R80). -/
theorem preemptCheck_follows (s t : State) (hcheck : t.check = (preemptCheck s).1.check)
    (htest : ∀ c, t.withoutTest c = s.withoutTest c) : s.checkFollows t (preemptCheck s).2 := by
  refine ⟨fun h => ?_, fun c p hc hp => ⟨fun h => ?_, fun h => ?_⟩⟩
  · rw [hcheck, preemptCheck, h]; exact ⟨rfl, rfl⟩
  · rw [State.openToTest_iff, htest] at h
    rw [hcheck, preemptCheck, hc]; simp [h]
  · rw [State.openToTest_iff, htest] at h
    have e : preemptCheck s = endChannel (s.enterResults c (fun r => decide (r = .notRun)) .preempted) c := by
      rw [preemptCheck, hc]; simp [h]
    obtain ⟨u, hu⟩ := s.enterResults_frame c (fun r => decide (r = .notRun)) .preempted
    have hr := fun d m hm => s.enterResults_result c (fun r => decide (r = .notRun)) .preempted d m hm
    generalize hv : s.enterResults c (fun r => decide (r = .notRun)) .preempted = v at *
    have hmon : s.checkMonitors = p.monitors := by unfold State.checkMonitors; rw [hp]; rfl
    have hset : v.checkChannels = p.channels := by rw [hu]; unfold State.checkChannels; rw [hp]; rfl
    obtain ⟨h1, h2, h3, h4, h5⟩ :=
      takeNextChannel_spec v.liftSignature ((channelsOf p.channels).filter fun d => decide (c < d))
    have hw : ∀ d, v.liftSignature.withoutTest d = s.withoutTest d := by intro d; rw [hu]; rfl
    have hlm : v.liftSignature.checkMonitors = p.monitors := by rw [hu, ← hmon]; rfl
    have hfc : v.liftSignature.failedCount = s.failedCount := by rw [hu]; rfl
    have hlc : v.liftSignature.check =
        { s.check with results := u, current := none, generator := none, dwell := 0, progress := [] } := by rw [hu]; rfl
    have hlr : ∀ d m, v.liftSignature.result d m = v.result d m := fun _ _ => rfl
    rw [e, endChannel, hset] at hcheck ⊢
    simp only [hw, hfc, hlc, hp, find_channelsAbove] at h1 h2 h3 h4
    have hnext : (List.range' 1 31).find? (fun d => decide (c < d) && p.channels.getLsbD d && (s.withoutTest d).testable) =
        (List.range' 1 31).find? (fun d => decide (c < d) && p.channels.getLsbD d &&
          (decide ((t.withoutTest d).identity = .fallback) || decide ((t.withoutTest d).identity = .unused))) := by
      congr 1; funext d; rw [htest]; rfl
    refine ⟨_, ⟨rfl, ?_, fun m hm => ?_, fun d m hd hm => ?_⟩, ?_⟩
    · rw [← hnext, hcheck]
      simp only [State.progress, hcheck]
      cases hf : (List.range' 1 31).find?
          (fun d => decide (c < d) && p.channels.getLsbD d && (s.withoutTest d).testable) with
      | none =>
        obtain ⟨g1, g2, g3, g4, g5⟩ := h3 hf
        exact ⟨h2.1, g1, h2.2, g2, g3, g4, fun m => by rw [g5]; rfl⟩
      | some n =>
        obtain ⟨g1, g2, g3, g4, g5⟩ := h4 n hf
        exact ⟨h2.1, g1, h2.2, by rw [g2]; rfl, by rw [g3]; rfl, g4, fun m => by rw [g5]; rfl⟩
    · have hno : c ∉ ((channelsOf p.channels).filter fun d => decide (c < d)).takeWhile
          (fun d => !(s.withoutTest d).testable) := fun hx =>
        Nat.lt_irrefl c ((mem_channelsAbove _ c c).mp ((List.takeWhile_subset _) hx)).1
      have ht : t.result c m = v.result c m := by
        show Table.read _ t.check.results _ = _
        rw [hcheck]
        refine (h5 c m hm).trans ?_
        simp only [hw, hno, false_and, if_false]; rfl
      rw [ht, hr c m hm, hmon]
      exact ⟨fun ⟨x, y⟩ => by rw [if_pos ⟨rfl, x, by simp [y]⟩],
        fun x => by rw [if_neg (by rintro ⟨-, y, z⟩; exact x ⟨y, by simpa using z⟩)]⟩
    · have ht : t.result d m = if d ∈ ((channelsOf p.channels).filter fun d => decide (c < d)).takeWhile
          (fun d => !(s.withoutTest d).testable) ∧ p.monitors.getLsbD m = true then .excluded else s.result d m := by
        show Table.read _ t.check.results _ = _
        rw [hcheck]
        refine (h5 d m hm).trans ?_
        simp only [hw, hlm, hlr, hr d m hm, hd, false_and, if_false]
      have hin := mem_takeWhile_find (fun d => (s.withoutTest d).testable) _ (channelsAbove_rising p.channels c) d
      rw [mem_channelsAbove, find_channelsAbove, hnext] at hin
      rw [ht]
      exact ⟨fun ⟨x, y, z, w⟩ => if_pos ⟨hin.mpr ⟨⟨x, y⟩, w⟩, z⟩,
        fun x => if_neg fun ⟨y, k⟩ => x ⟨(hin.mp y).1.1, (hin.mp y).1.2, k, (hin.mp y).2⟩⟩
    · rw [← hnext, h1]; rfl

/-- The end of an event in which only the check's advance raises late notices: the check follows it, and its notices stand
behind the early ones and the SOURCE_CHANGE notices (R26, R78, R80). -/
theorem settleEvent_follows (before : State) (early : List Notice) (s : State) (h : s.check = before.check) :
    ∃ late, before.checkFollows (settleEvent before early [] s) late ∧
      (settleEvent before early [] s).link =
        (early ++ sourceNotices before (settleEvent before early [] s) ++ late).foldl Link.raise s.link := by
  have hn : sourceNotices before (settleEvent before early [] s) = sourceNotices before (preemptCheck s).1.recompute := by
    unfold settleEvent; rw [State.raiseAll_frame]; rfl
  refine ⟨(preemptCheck s).2, ?_, ?_⟩
  · have hf : s.checkFollows (settleEvent before early [] s) (preemptCheck s).2 := by
      refine preemptCheck_follows s _ ?_ fun c => ?_
      · unfold settleEvent; rw [State.raiseAll_frame]; rfl
      · rw [settleEvent_frame]; rfl
    have hs : ∀ t late, s.checkFollows t late → before.checkFollows t late := by
      intro t late
      unfold State.checkFollows State.preempted State.result State.failed
      rw [h]; exact id
    exact hs _ _ hf
  · rw [hn]
    unfold settleEvent
    rw [State.raiseAll_link_eq, show (preemptCheck s).1.recompute.link = s.link by
      rw [State.recompute_frame, preemptCheck_frame]]
    simp

end Sys2Proof.Machine
end

