-- ==== Sys2Proof/Laws/Booths.lean ====
section
/-! SUPPORT. What the booth controller's and the turn meter's shared operations do: turns that change hands, a domain that
takes its new state, announcements that become ACTIVE, and the whole event of a domain change (R51). -/

namespace Sys2Proof.Machine

/-! ### Turns -/

/-- A change of turns touches the turn meter alone. -/
theorem turnChange_frame (s : State) (b : Nat) (p : Side) (old new : Option Nat) :
    turnChange s b p old new = { s with turns := (turnChange s b p old new).turns } := by
  unfold turnChange
  split
  · rfl
  · cases old <;> cases new <;> rfl

/-- A turn that goes on is left as it was. -/
theorem turnChange_same (s : State) (b : Nat) (p : Side) (d : Option Nat) : turnChange s b p d d = s := by
  unfold turnChange; rw [if_pos rfl]

/-- The turn records after a change of turns: the domain's own follows its new live desk, every other is kept. -/
theorem turnChange_turn (s : State) (b : Nat) (p : Side) (old new : Option Nat) (h : old ≠ new) (x : Nat) (q : Side) :
    (turnChange s b p old new).turn x q =
      if x = b ∧ q = p then
        new.elim .idle fun _ => ⟨0, some (s.config b).turnLimit, some (s.config b).overrun, false, false⟩
      else s.turn x q := by
  have hs : ∀ (u : State) (e : Nat), (startTurn u b p e).turn x q =
      if x = b ∧ q = p then ⟨0, some (u.config b).turnLimit, some (u.config b).overrun, false, false⟩ else u.turn x q :=
    fun u _ => State.turn_setTurn u b x p q ⟨0, some (u.config b).turnLimit, some (u.config b).overrun, false, false⟩
  unfold turnChange
  rw [if_neg h]
  rcases old with _ | d <;> rcases new with _ | e
  · exact absurd rfl h
  · exact hs s e
  · exact State.turn_setTurn (endTurn s b p d) b x p q _
  · exact hs (endTurn s b p d) e

/-- The desk records of the booth after a change of turns: the outgoing desk's longest turn, the incoming desk's turns
started. -/
theorem turnChange_deskRecord_booth (s : State) (b : Nat) (p : Side) (old new : Option Nat) (h : old ≠ new) (y : Nat) :
    (turnChange s b p old new).deskRecord b y =
      { s.deskRecord b y with
        longestTurn := if old = some y then max (s.deskRecord b y).longestTurn (s.turn b p).counter
          else (s.deskRecord b y).longestTurn
        turnsStarted := if new = some y then satAdd (s.deskRecord b y).turnsStarted 1
          else (s.deskRecord b y).turnsStarted } := by
  unfold turnChange
  rw [if_neg h]
  have hs : ∀ (u : State) (e : Nat), (startTurn u b p e).deskRecord b y =
      if y = e then { u.deskRecord b e with turnsStarted := satAdd (u.deskRecord b e).turnsStarted 1 }
      else u.deskRecord b y :=
    fun u e => State.deskRecord_setDeskRecord_booth _ b e y
      { u.deskRecord b e with turnsStarted := satAdd (u.deskRecord b e).turnsStarted 1 }
  have he : ∀ d z, (endTurn s b p d).deskRecord b z =
      if z = d then
        { s.deskRecord b d with longestTurn := max (s.deskRecord b d).longestTurn (s.turn b p).counter }
      else s.deskRecord b z :=
    fun d z => State.deskRecord_setDeskRecord_booth s b d z
      { s.deskRecord b d with longestTurn := max (s.deskRecord b d).longestTurn (s.turn b p).counter }
  rcases old with _ | d <;> rcases new with _ | e
  · exact absurd rfl h
  · rw [hs]
    by_cases hy : y = e
    · subst hy; simp
    · simp [hy, Ne.symm hy]
  · show (endTurn s b p d).deskRecord b y = _
    rw [he]
    by_cases hy : y = d
    · subst hy; simp
    · simp [hy, Ne.symm hy]
  · have hde : d ≠ e := fun q => h (by rw [q])
    rw [hs, he, he]
    by_cases hy : y = e
    · subst hy; simp [hde, Ne.symm hde]
    · by_cases hyd : y = d
      · subst hyd; simp [hde, Ne.symm hde]
      · simp [hy, hyd, Ne.symm hy, Ne.symm hyd]

/-- The desk records of other booths after a change of turns are kept. -/
theorem turnChange_deskRecord_ne (s : State) (b : Nat) (p : Side) (old new : Option Nat) {x y : Nat}
    (ho : ∀ d, old = some d → d ≤ 7) (hn : ∀ d, new = some d → d ≤ 7) (hy : y ≤ 7) (hx : x ≠ b) :
    (turnChange s b p old new).deskRecord x y = s.deskRecord x y := by
  have key : ∀ (u : State) (d : Nat) (r : DeskRecord), d ≤ 7 → (u.setDeskRecord b d r).deskRecord x y = u.deskRecord x y :=
    fun u d r hd => by rw [State.deskRecord_setDeskRecord u b d x y r hd hy, if_neg (fun c => hx c.1)]
  unfold turnChange
  split
  · rfl
  · rcases old with _ | d <;> rcases new with _ | e
    · rfl
    · show (State.setDeskRecord _ b e _).deskRecord x y = _
      rw [key _ _ _ (hn e rfl)]; rfl
    · show (State.setDeskRecord s b d _).deskRecord x y = _
      rw [key _ _ _ (ho d rfl)]
    · show (State.setDeskRecord (State.setTurn (endTurn s b p d) b p _) b e _).deskRecord x y = _
      rw [key _ _ _ (hn e rfl)]
      show (State.setDeskRecord s b d _).deskRecord x y = _
      rw [key _ _ _ (ho d rfl)]

/-! ### A domain takes its new state -/

/-- A domain's new state touches the booth controller and the turn meter alone. -/
theorem setDomainState_frame (s : State) (b : Nat) (p : Side) (new : Domain) :
    setDomainState s b p new =
      { s with
        booths := { s.booths with
          desks := (setDomainState s b p new).booths.desks, domains := (s.setDomain b p new).booths.domains }
        turns := (setDomainState s b p new).turns } := by
  unfold setDomainState
  dsimp only
  rw [turnChange_frame]
  split
  · rfl
  · cases (s.domain b p).liveDesk <;> cases new.liveDesk <;> rfl

theorem setDomainState_turns (s : State) (b : Nat) (p : Side) (new : Domain) :
    (setDomainState s b p new).turns = (turnChange (s.setDomain b p new) b p (s.domain b p).liveDesk new.liveDesk).turns := by
  unfold setDomainState
  dsimp only
  split
  · rfl
  · cases (s.domain b p).liveDesk <;> cases new.liveDesk <;> rfl

/-- The domains after one takes its new state. -/
theorem setDomainState_domain (s : State) (b x : Nat) (p q : Side) (new : Domain) :
    (setDomainState s b p new).domain x q = if x = b ∧ q = p then new else s.domain x q := by
  rw [setDomainState_frame]
  exact State.domain_setDomain s b x p q new

/-- The desks of the booth after a domain takes its new state: the desk that leaves LIVE and the desk that becomes LIVE
hold no cough. -/
theorem setDomainState_desk_booth (s : State) (b : Nat) (p : Side) (new : Domain) (y : Nat) :
    (setDomainState s b p new).desk b y =
      if (s.domain b p).liveDesk ≠ new.liveDesk ∧ ((s.domain b p).liveDesk = some y ∨ new.liveDesk = some y) then
        { s.desk b y with cough := false } else s.desk b y := by
  have hc : ∀ (u : State) (d : Nat), (setCough u b d false).desk b y =
      if y = d then { u.desk b d with cough := false } else u.desk b y := fun u d => State.desk_setDesk_booth u b d y _
  have ht : ∀ (o n : Option Nat), (turnChange (s.setDomain b p new) b p o n).desk b = s.desk b := by
    intro o n; funext z; rw [turnChange_frame]; rfl
  unfold setDomainState
  dsimp only
  by_cases h : (s.domain b p).liveDesk = new.liveDesk
  · rw [if_pos h, if_neg (fun c => c.1 h), ht]
  · rw [if_neg h]
    rcases ho : (s.domain b p).liveDesk with _ | d <;> rcases hn : new.liveDesk with _ | e
    · rw [ho, hn] at h; exact absurd rfl h
    · dsimp only
      rw [hc, ht]
      by_cases hy : y = e
      · subst hy; simp
      · rw [if_neg hy, if_neg]; rintro ⟨-, c | c⟩ <;> simp at c; exact hy c.symm
    · dsimp only
      rw [hc, ht]
      by_cases hy : y = d
      · subst hy; simp
      · rw [if_neg hy, if_neg]; rintro ⟨-, c | c⟩ <;> simp at c; exact hy c.symm
    · have hde : d ≠ e := fun q => h (by rw [ho, hn, q])
      have hne : (some d : Option Nat) ≠ some e := by simpa using hde
      dsimp only
      rw [hc]
      by_cases hy : y = e
      · subst hy
        rw [if_pos rfl, if_pos ⟨hne, Or.inr rfl⟩]
        have : (setCough (turnChange (s.setDomain b p new) b p (some d) (some y)) b d false).desk b y = s.desk b y := by
          rw [hc, if_neg (Ne.symm hde), ht]
        rw [this]
      · rw [if_neg hy, hc, ht]
        by_cases hyd : y = d
        · subst hyd; rw [if_pos rfl, if_pos ⟨hne, Or.inl rfl⟩]
        · rw [if_neg hyd, if_neg]; rintro ⟨-, c | c⟩ <;> simp at c
          · exact hyd c.symm
          · exact hy c.symm

/-- The desks of other booths after a domain takes its new state are kept. -/
theorem setDomainState_desk_ne (s : State) (b : Nat) (p : Side) (new : Domain) {x y : Nat}
    (ho : ∀ d, (s.domain b p).liveDesk = some d → d ≤ 7) (hn : ∀ d, new.liveDesk = some d → d ≤ 7) (hy : y ≤ 7)
    (hx : x ≠ b) : (setDomainState s b p new).desk x y = s.desk x y := by
  have hc : ∀ (u : State) (d : Nat), d ≤ 7 → (setCough u b d false).desk x y = u.desk x y :=
    fun u d hd => by
      unfold setCough; rw [State.desk_setDesk u b d x y _ hd hy, if_neg (fun c => hx c.1)]
  have ht : ∀ (o n : Option Nat), (turnChange (s.setDomain b p new) b p o n).desk x y = s.desk x y := by
    intro o n; rw [turnChange_frame]; rfl
  unfold setDomainState
  dsimp only
  split
  · exact ht _ _
  · rcases h1 : (s.domain b p).liveDesk with _ | d <;> rcases h2 : new.liveDesk with _ | e <;> dsimp only
    · exact ht _ _
    · rw [hc _ _ (hn e h2), ht]
    · rw [hc _ _ (ho d h1), ht]
    · rw [hc _ _ (hn e h2), hc _ _ (ho d h1), ht]

/-! ### Announcements that waited -/

theorem activate_frame (s : State) (cs : List (Nat × AnnInput)) :
    activate s cs = { s with arbiter := { s.arbiter with announcements := (activate s cs).arbiter.announcements } } := by
  unfold activate
  induction cs generalizing s with
  | nil => rfl
  | cons c cs ih =>
    rw [List.foldl_cons, ih]
    rfl

/-- The announcements after channels become ACTIVE, when each channel of the list is given one input. -/
theorem activate_announcement (s : State) (cs : List (Nat × AnnInput)) (c : Nat)
    (hu : ∀ i j, (c, i) ∈ cs → (c, j) ∈ cs → i = j) :
    (∀ i, (c, i) ∈ cs → (activate s cs).announcement c = .active i) ∧
      ((∀ i, (c, i) ∉ cs) → (activate s cs).announcement c = s.announcement c) := by
  unfold activate
  induction cs generalizing s with
  | nil => simp
  | cons e cs ih =>
    obtain ⟨d, j⟩ := e
    have hu' : ∀ i j, (c, i) ∈ cs → (c, j) ∈ cs → i = j :=
      fun i k hi hk => hu i k (List.mem_cons_of_mem _ hi) (List.mem_cons_of_mem _ hk)
    obtain ⟨h1, h2⟩ := ih (s.setAnnouncement d (.active j)) hu'
    constructor
    · intro i hi
      by_cases hmem : ∃ k, (c, k) ∈ cs
      · obtain ⟨k, hk⟩ := hmem
        have : i = k := hu i k hi (List.mem_cons_of_mem _ hk)
        subst this
        exact h1 i hk
      · have hno : ∀ k, (c, k) ∉ cs := fun k hk => hmem ⟨k, hk⟩
        rw [List.foldl_cons, h2 hno, State.announcement_setAnnouncement]
        rcases List.mem_cons.mp hi with hi | hi
        · injection hi with hc hj; subst hc; subst hj; simp
        · exact absurd hi (hno i)
    · intro hno
      rw [List.foldl_cons, h2 (fun i hi => hno i (List.mem_cons_of_mem _ hi)), State.announcement_setAnnouncement]
      have : c ≠ d := fun hc => hno j (by rw [hc]; exact List.mem_cons_self)
      rw [if_neg this]

/-- The channels that wait for a domain, as the list of them names them. -/
theorem State.mem_deferredBy (s : State) (b : Nat) (p : Side) (c : Nat) (i : AnnInput) :
    (c, i) ∈ s.deferredBy b p ↔ c < 32 ∧ s.waitsFor b p c i := by
  unfold State.deferredBy State.waitsFor
  simp only [List.mem_filterMap, allChannels, List.mem_range]
  constructor
  · rintro ⟨a, ha, h⟩
    split at h
    · rename_i j o d h1 h2
      split at h
      · rename_i hc
        simp only [Option.some.injEq, Prod.mk.injEq] at h
        obtain ⟨rfl, rfl⟩ := h
        exact ⟨ha, h1, o, d, h2, hc.1, hc.2⟩
      · exact absurd h (by simp)
    · exact absurd h (by simp)
  · rintro ⟨hc, h1, o, d, h2, ho, hp⟩
    refine ⟨c, hc, ?_⟩
    simp [h1, h2, ho, hp]

/-! ### The whole event (R51) -/

theorem changeDomain_eq (s : State) (b : Nat) (p : Side) (new : Domain) :
    changeDomain s b p new =
      settleEvent s
        ((if (s.domain b p).requester.isSome && new.requester.isNone then s.deferredBy b p else []).map fun q =>
          .announcementTaken q.1 q.2) []
        (activate (setDomainState s b p new)
          (if (s.domain b p).requester.isSome && new.requester.isNone then s.deferredBy b p else [])) := rfl

/-- The turns, desks and announcements of a settled event are those before it was settled. -/
theorem settleEvent_turn (before : State) (e l : List Notice) (s : State) (x : Nat) (q : Side) :
    (settleEvent before e l s).turn x q = s.turn x q := by rw [settleEvent_frame]; rfl
theorem settleEvent_domain (before : State) (e l : List Notice) (s : State) (x : Nat) (q : Side) :
    (settleEvent before e l s).domain x q = s.domain x q := by rw [settleEvent_frame]; rfl
theorem settleEvent_desk (before : State) (e l : List Notice) (s : State) (x d : Nat) :
    (settleEvent before e l s).desk x d = s.desk x d := by rw [settleEvent_frame]; rfl
theorem settleEvent_deskRecord (before : State) (e l : List Notice) (s : State) (x d : Nat) :
    (settleEvent before e l s).deskRecord x d = s.deskRecord x d := by rw [settleEvent_frame]; rfl
theorem settleEvent_announcement (before : State) (e l : List Notice) (s : State) (c : Nat) :
    (settleEvent before e l s).announcement c = s.announcement c := by rw [settleEvent_frame]; rfl
theorem settleEvent_inputSet (before : State) (e l : List Notice) (s : State) (i : AnnInput) :
    (settleEvent before e l s).inputSet i = s.inputSet i := by rw [settleEvent_frame]; cases i <;> rfl

/-- A settled event leaves every source and feed formed from the state as it stands. -/
theorem settleEvent_settled (before : State) (e l : List Notice) (s : State) :
    (settleEvent before e l s).sourcesSettled :=
  ⟨fun _ h => settleEvent_source before e l s h, fun _ h1 h2 => settleEvent_feed before e l s h1 h2⟩

/-- While no channel is under test an event has no test to preempt. -/
theorem preemptCheck_none {s : State} (h : s.check.current = none) : preemptCheck s = (s, []) := by
  unfold preemptCheck; rw [h]

/-- While no channel is under test a settled event keeps the checker. -/
theorem settleEvent_check_none (before : State) (e l : List Notice) {s : State} (h : s.check.current = none) :
    (settleEvent before e l s).check = s.check := by
  unfold settleEvent; rw [preemptCheck_none h, State.raiseAll_frame]; rfl

/-- The source records do not change as notices are raised, so the notices of an event can be read off its end. -/
theorem sourceNotices_raiseAll (before s : State) (ns : List Notice) :
    sourceNotices before (s.raiseAll ns) = sourceNotices before s := by
  rw [State.raiseAll_frame]; rfl

/-- While no channel is under test, the notices of a settled event: the early ones, the SOURCE_CHANGE notices, the late
ones. -/
theorem settleEvent_link_none (before : State) (e l : List Notice) {s : State} (h : s.check.current = none) :
    (settleEvent before e l s).link =
      (e ++ sourceNotices before (settleEvent before e l s) ++ l).foldl Link.raise s.link := by
  have key : settleEvent before e l s = s.recompute.raiseAll (e ++ sourceNotices before s.recompute ++ l) := by
    unfold settleEvent; rw [preemptCheck_none h]; simp
  have h2 : sourceNotices before (settleEvent before e l s) = sourceNotices before s.recompute := by
    rw [key, sourceNotices_raiseAll]
  rw [h2, key, State.raiseAll_link_eq]; rfl

/-! ### What a domain change does (R51) -/

section
variable {s : State} {b : Nat} {p : Side} {new : Domain}

theorem changeDomain_domain (x : Nat) (q : Side) :
    (changeDomain s b p new).domain x q = if x = b ∧ q = p then new else s.domain x q := by
  rw [changeDomain_eq, settleEvent_domain, activate_frame]
  exact setDomainState_domain s b x p q new

theorem changeDomain_turns :
    (changeDomain s b p new).turns =
      (turnChange (s.setDomain b p new) b p (s.domain b p).liveDesk new.liveDesk).turns := by
  rw [changeDomain_eq, settleEvent_turns, activate_frame]
  exact setDomainState_turns s b p new

theorem changeDomain_desk (x d : Nat) : (changeDomain s b p new).desk x d = (setDomainState s b p new).desk x d := by
  rw [changeDomain_eq, settleEvent_desk, activate_frame]; rfl

/-- The turn meter follows a domain change (R51, R62, R69). -/
theorem changeDomain_turnsFollow (ho : ∀ d, (s.domain b p).liveDesk = some d → d ≤ 7)
    (hn : ∀ d, new.liveDesk = some d → d ≤ 7) : s.turnsFollow (changeDomain s b p new) b p new := by
  have hturn : ∀ x q, (changeDomain s b p new).turn x q =
      (turnChange (s.setDomain b p new) b p (s.domain b p).liveDesk new.liveDesk).turn x q := by
    intro x q; unfold State.turn; rw [changeDomain_turns]
  have hrec : ∀ x d, (changeDomain s b p new).deskRecord x d =
      (turnChange (s.setDomain b p new) b p (s.domain b p).liveDesk new.liveDesk).deskRecord x d := by
    intro x d; unfold State.deskRecord; rw [changeDomain_turns]
  refine ⟨⟨?_, ?_⟩, ?_, ?_, ?_, ?_, ?_, ?_⟩
  · rw [changeDomain_domain, if_pos ⟨rfl, rfl⟩]
  · intro x y hxy
    have hne : ¬(x = b ∧ y = p) := by rintro ⟨h1, h2⟩; rcases hxy with h | h; exacts [h h1, h h2]
    refine ⟨by rw [changeDomain_domain, if_neg hne], ?_⟩
    rw [hturn]
    by_cases h : (s.domain b p).liveDesk = new.liveDesk
    · rw [h, turnChange_same]; rfl
    · rw [turnChange_turn _ _ _ _ _ h, if_neg hne]; rfl
  · intro h
    rw [changeDomain_turns, not_not.mp h, turnChange_same]; rfl
  · intro h hl
    rw [hturn, turnChange_turn _ _ _ _ _ h, if_pos ⟨rfl, rfl⟩, hl]; rfl
  · intro h hl
    obtain ⟨e, he⟩ := Option.ne_none_iff_exists'.mp hl
    rw [hturn, turnChange_turn _ _ _ _ _ h, if_pos ⟨rfl, rfl⟩, he]; rfl
  · intro d h hd
    rw [hrec, turnChange_deskRecord_booth _ _ _ _ _ h, if_pos hd, if_neg (fun c => h (hd.trans c.symm))]; rfl
  · intro d h hd
    rw [hrec, turnChange_deskRecord_booth _ _ _ _ _ h, if_pos hd, if_neg (fun c => h (c.trans hd.symm))]; rfl
  · intro x d hd hx
    rw [hrec]
    by_cases hxb : x = b
    · subst hxb
      obtain ⟨h1, h2⟩ := hx.resolve_left (fun c => c rfl)
      by_cases h : (s.domain x p).liveDesk = new.liveDesk
      · rw [h, turnChange_same]; rfl
      · rw [turnChange_deskRecord_booth _ _ _ _ _ h, if_neg h1, if_neg h2]; rfl
    · exact turnChange_deskRecord_ne _ _ _ _ _ ho hn hd hxb

/-- The desks follow a domain change (R50, R54). -/
theorem changeDomain_desksFollow (ho : ∀ d, (s.domain b p).liveDesk = some d → d ≤ 7)
    (hn : ∀ d, new.liveDesk = some d → d ≤ 7) : s.desksFollow (changeDomain s b p new) b p new none := by
  intro x d hd
  rw [changeDomain_desk]
  by_cases hx : x = b
  · subst hx
    rw [setDomainState_desk_booth]
    by_cases h : (s.domain x p).liveDesk ≠ new.liveDesk ∧ ((s.domain x p).liveDesk = some d ∨ new.liveDesk = some d)
    · rw [if_pos h]
      exact ⟨rfl, rfl, fun _ => rfl, fun c => absurd ⟨rfl, h⟩ c, fun c => absurd c.2.1 (by simp), fun _ => rfl⟩
    · rw [if_neg h]
      exact ⟨rfl, rfl, fun c => absurd c.2 h, fun _ => rfl, fun c => absurd c.2.1 (by simp), fun _ => rfl⟩
  · rw [setDomainState_desk_ne s b p new ho hn hd hx]
    exact ⟨rfl, rfl, fun c => absurd c.1 hx, fun _ => rfl, fun c => absurd c.1 hx, fun _ => rfl⟩

/-- The announcements follow a domain change (R30). -/
theorem changeDomain_announcementsFollow : s.announcementsFollow (changeDomain s b p new) b p new := by
  have hbase : ∀ c, (setDomainState s b p new).announcement c = s.announcement c := by
    intro c; rw [setDomainState_frame]; rfl
  have hend : ((s.domain b p).requester.isSome && new.requester.isNone) = true ↔ s.endsRequest b p new := by
    unfold State.endsRequest
    cases (s.domain b p).requester <;> cases new.requester <;> simp
  have hu : ∀ c i j, (c, i) ∈ s.deferredBy b p → (c, j) ∈ s.deferredBy b p → i = j := by
    intro c i j hi hj
    have h1 := ((State.mem_deferredBy s b p c i).mp hi).2.1
    have h2 := ((State.mem_deferredBy s b p c j).mp hj).2.1
    rw [h1] at h2; injection h2
  refine ⟨?_, ?_, ?_⟩
  · intro c i hc he hw
    rw [changeDomain_eq, settleEvent_announcement, if_pos (hend.mpr he)]
    exact (activate_announcement _ _ c (hu c)).1 i ((State.mem_deferredBy s b p c i).mpr ⟨hc, hw⟩)
  · intro c hc
    rw [changeDomain_eq, settleEvent_announcement]
    by_cases he : s.endsRequest b p new
    · have hno := hc.resolve_left (fun h => h he)
      rw [if_pos (hend.mpr he), (activate_announcement _ _ c (hu c)).2, hbase]
      exact fun i hi => hno i ((State.mem_deferredBy s b p c i).mp hi).2
    · rw [if_neg (fun h => he (hend.mp h))]; exact hbase c
  · intro i
    rw [changeDomain_eq, settleEvent_inputSet, activate_frame]
    cases i <;> rw [setDomainState_frame] <;> rfl

/-- A domain change leaves the audio side following it and every other block as it was. -/
theorem changeDomain_moved (ho : ∀ d, (s.domain b p).liveDesk = some d → d ≤ 7)
    (hn : ∀ d, new.liveDesk = some d → d ≤ 7) : s.domainMoved (changeDomain s b p new) b p new none := by
  have hf : ∀ cs, activate (setDomainState s b p new) cs =
      { s with
        booths := { s.booths with
          desks := (setDomainState s b p new).booths.desks, domains := (s.setDomain b p new).booths.domains }
        turns := (setDomainState s b p new).turns
        arbiter := { s.arbiter with announcements := (activate (setDomainState s b p new) cs).arbiter.announcements } } := by
    intro cs; rw [activate_frame, setDomainState_frame]
  refine ⟨changeDomain_turnsFollow ho hn, changeDomain_desksFollow ho hn, changeDomain_announcementsFollow, ?_, ?_, ?_,
    ?_, ?_, ?_⟩
  · refine ⟨settleEvent_settled _ _ _ _, ?_, ?_, ?_⟩ <;> rw [changeDomain_eq] <;> simp only [settleEvent_plan,
      settleEvent_relays, settleEvent_booths] <;> rw [hf]
  · refine ⟨?_, ?_, ?_⟩ <;> rw [changeDomain_eq] <;> simp only [settleEvent_racks, settleEvent_fleet,
      settleEvent_beacon] <;> rw [hf]
  · refine ⟨?_, ?_, ?_⟩ <;> rw [changeDomain_eq] <;> simp only [settleEvent_hires, settleEvent_money,
      settleEvent_meters] <;> rw [hf]
  · rw [changeDomain_eq, settleEvent_clock, hf]
  · rw [changeDomain_eq, settleEvent_limits, hf]
  · rw [changeDomain_eq, settleEvent_pending, hf]

theorem changeDomain_supervisor : (changeDomain s b p new).supervisor = s.supervisor := by
  rw [changeDomain_eq, settleEvent_supervisor, activate_frame, setDomainState_frame]

/-- The notices of a domain change, with the check following it (R26, R30, R80). -/
theorem changeDomain_settles :
    s.settles (changeDomain s b p new)
      (s.moveNotices (changeDomain s b p new) b p ((s.domain b p).requester.isSome && new.requester.isNone)) := by
  have hf : ∀ cs, (activate (setDomainState s b p new) cs).check = s.check ∧
      (activate (setDomainState s b p new) cs).link = s.link := by
    intro cs; rw [activate_frame, setDomainState_frame]; exact ⟨rfl, rfl⟩
  rw [changeDomain_eq]
  obtain ⟨late, h1, h2⟩ := settleEvent_follows s _ _ (hf _).1
  refine ⟨late, h1, State.raised_of ?_⟩
  rw [h2, (hf _).2]
  unfold State.moveNotices
  split <;> simp

/-- The notices of a domain change while no channel is under test (R26, R30). -/
theorem changeDomain_raised (h : s.check.current = none) :
    s.raised (changeDomain s b p new)
      (s.moveNotices (changeDomain s b p new) b p ((s.domain b p).requester.isSome && new.requester.isNone)) := by
  obtain ⟨late, h1, h2⟩ := changeDomain_settles (s := s) (b := b) (p := p) (new := new)
  rw [(h1.1 h).2, List.append_nil] at h2
  exact h2

end

end Sys2Proof.Machine
end

