-- ==== Sys2Proof/Laws/Bytes.lean ====
section
/-! SUPPORT. Byte order: what a number sent high byte first is read back as, and the sizes of the layouts. -/

namespace Sys2Proof.Machine

@[simp] theorem byteOf_toNat (n : Nat) : (byteOf n).toNat = n % 256 := by simp [byteOf]

@[simp] theorem byteOf_of_toNat (b : Byte) : byteOf b.toNat = b := by simp [byteOf]

@[simp] theorem be16_length (n : Nat) : (be16 n).length = 2 := rfl
@[simp] theorem be32_length (n : Nat) : (be32 n).length = 4 := rfl

/-- Two bytes sent high byte first are read back as the number sent. -/
theorem nat16_be16 {n : Nat} (h : n < 65536) : nat16 (byteOf (n / 256)) (byteOf n) = n := by
  simp [nat16]; omega

/-- Four bytes sent high byte first are read back as the number sent. -/
theorem nat32_be32 {n : Nat} (h : n < 4294967296) :
    nat32 (byteOf (n / 16777216)) (byteOf (n / 65536)) (byteOf (n / 256)) (byteOf n) = n := by
  simp [nat32]; omega

/-- A channel set sent as four bytes is read back as the set sent. -/
theorem setOfBytes_be32 (set : ChannelSet) :
    setOfBytes (byteOf (set.toNat / 16777216)) (byteOf (set.toNat / 65536)) (byteOf (set.toNat / 256))
      (byteOf set.toNat) = set := by
  rw [setOfBytes, nat32_be32 set.isLt]; simp

/-- A number of one byte is the byte that codes it. -/
theorem byteOf_eq_iff {n : Nat} {b : Byte} (h : n < 256) : byteOf n = b ↔ n = b.toNat := by
  constructor
  · rintro rfl; simp; omega
  · rintro rfl; simp

theorem byteOf_inj {n m : Nat} (hn : n < 256) (hm : m < 256) : byteOf n = byteOf m ↔ n = m := by
  rw [byteOf_eq_iff hn]; simp; omega

/-- Numbers of two bytes are equal when their bytes are. -/
theorem be16_inj {n m : Nat} (hn : n < 65536) (hm : m < 65536) : be16 n = be16 m ↔ n = m := by
  constructor
  · intro h
    simp only [be16, List.cons.injEq, and_true] at h
    rw [← nat16_be16 hn, ← nat16_be16 hm, h.1, h.2]
  · rintro rfl; rfl

/-- Numbers of four bytes are equal when their bytes are. -/
theorem be32_inj {n m : Nat} (hn : n < 4294967296) (hm : m < 4294967296) : be32 n = be32 m ↔ n = m := by
  constructor
  · intro h
    simp only [be32, List.cons.injEq, and_true] at h
    rw [← nat32_be32 hn, ← nat32_be32 hm, h.1, h.2.1, h.2.2.1, h.2.2.2]
  · rintro rfl; rfl

end Sys2Proof.Machine
end

