-- ==== Sys2Proof/Laws/Fleet.lean ====
section
/-! SUPPORT. What joining and leaving a poll list do, in the terms of the claims (R102, R103). -/

namespace Sys2Proof.Machine

theorem PollList.join_gains (l : PollList) (r : Nat) : l.gains r (l.join r) := ⟨rfl, rfl⟩

/-- The member after `r` is the one that stands behind its first place. -/
theorem successorIn_append (r : Nat) (before rest : List Nat) (h : r ∉ before) :
    successorIn r (before ++ r :: rest) = rest.head? := by
  induction before with
  | nil => simp [successorIn]
  | cons x xs ih =>
    obtain ⟨hx, hxs⟩ : r ≠ x ∧ r ∉ xs := by simpa using h
    simp [successorIn, Ne.symm hx, ih hxs]

theorem PollList.leave_loses (l : PollList) (r : Nat) : l.loses r (l.leave r) := by
  have hcur : (l.leave r).cursor = if (l.leave r).members = [] then none else
      if l.cursor = some r then
        match successorIn r l.members with
        | some x => some x
        | none => (l.leave r).members.head?
      else l.cursor := rfl
  refine ⟨rfl, fun h => ?_, fun h hne => ?_, fun before rest hc hm hb hr => ?_⟩
  · rw [hcur, if_pos h]
  · rw [hcur, if_neg hne, if_neg h]
  · have hf : (l.leave r).members = before ++ rest := by
      show l.members.filter (fun x => decide (x ≠ r)) = _
      rw [hm, List.filter_append, List.filter_cons_of_neg (by simp)]
      congr 1 <;> rw [List.filter_eq_self] <;> intro x hx <;> simp <;> rintro rfl
      exacts [hb hx, hr hx]
    rw [hcur, hf, if_pos hc, hm, successorIn_append r before rest hb]
    cases rest <;> cases before <;> simp

end Sys2Proof.Machine
end

