-- ==== Sys2Proof/Laws/PerInstr.lean ====
section
/-! SUPPORT. A statement made command by command: the frame a request carries names that request, so no two requests
share a frame (R169, R171). -/

namespace Sys2Proof.Laws

open Sys2Proof Sys2Proof.Machine

/-- The request a frame stands for by the index of section 12.5, a reply kind being discarded and any other kind unknown
(R171). -/
def requestOf (f : Frame) : Instr :=
  if f.kind = 0x01 then .readStatus f.tag f.body else
  if f.kind = 0x02 then .openSession f.tag f.body else
  if f.kind = 0x03 then .closeSession f.tag f.body else
  if f.kind = 0x04 then .resetAudio f.tag f.body else
  if f.kind = 0x05 then .setTime f.tag f.body else
  if f.kind = 0x06 then .writeLimits f.tag f.body else
  if f.kind = 0x07 then .readLimits f.tag f.body else
  if f.kind = 0x08 then .readFault f.tag f.body else
  if f.kind = 0x09 then .clearFault f.tag f.body else
  if f.kind = 0x10 then .writeChannel f.tag f.body else
  if f.kind = 0x11 then .readChannel f.tag f.body else
  if f.kind = 0x12 then .setFloorLanguage f.tag f.body else
  if f.kind = 0x13 then .readSources f.tag f.body else
  if f.kind = 0x14 then .startAnnouncement f.tag f.body else
  if f.kind = 0x15 then .stopAnnouncement f.tag f.body else
  if f.kind = 0x18 then .writeBooth f.tag f.body else
  if f.kind = 0x19 then .readBooth f.tag f.body else
  if f.kind = 0x1A then .readDesks f.tag f.body else
  if f.kind = 0x1B then .forceOutputOff f.tag f.body else
  if f.kind = 0x1C then .readDeskRecords f.tag f.body else
  if f.kind = 0x20 then .startCheck f.tag f.body else
  if f.kind = 0x21 then .abortCheck f.tag f.body else
  if f.kind = 0x22 then .readCheck f.tag f.body else
  if f.kind = 0x28 then .readReceiver f.tag f.body else
  if f.kind = 0x29 then .readRack f.tag f.body else
  if f.kind = 0x2A then .setMonitor f.tag f.body else
  if f.kind = 0x2B then .clearMonitor f.tag f.body else
  if f.kind = 0x2C then .withdrawReceiver f.tag f.body else
  if f.kind = 0x2D then .restoreReceiver f.tag f.body else
  if f.kind = 0x2E then .writeSchedule f.tag f.body else
  if f.kind = 0x2F then .readListeners f.tag f.body else
  if f.kind = 0x30 then .openHire f.tag f.body else
  if f.kind = 0x31 then .cancelHire f.tag f.body else
  if f.kind = 0x32 then .declareLost f.tag f.body else
  if f.kind = 0x33 then .readHire f.tag f.body else
  if f.kind = 0x34 then .readSettlement f.tag f.body else
  if f.kind = 0x35 then .takeSettlement f.tag f.body else
  if f.kind = 0x38 then .writeTariff f.tag f.body else
  if f.kind = 0x39 then .readTariff f.tag f.body else
  if f.kind = 0x3A then .freezeTariffs f.tag f.body else
  if f.kind = 0x3B then .readDelegation f.tag f.body else
  if f.kind = 0x3C then .clearDelegation f.tag f.body else
  if f.kind = 0x3D then .readService f.tag f.body else
  if isReplyKind f.kind then .replyKindDiscarded f.kind f.tag f.body else .unknownKind f.kind f.tag f.body

theorem namesRequest_of_reply {k : Byte} (h : isReplyKind k = true) : namesRequest k = false := by
  revert h; revert k; decide +kernel

theorem requestOf_unnamed {k t : Byte} {b : List Byte} (h : namesRequest k = false) :
    requestOf ⟨k, t, b⟩ = if isReplyKind k then .replyKindDiscarded k t b else .unknownKind k t b := by
  have ne : ∀ j, namesRequest j = true → k ≠ j := fun j hj e => by subst e; simp [h] at hj
  unfold requestOf
  dsimp only
  rw [if_neg (ne 0x01 rfl)]
  rw [if_neg (ne 0x02 rfl)]
  rw [if_neg (ne 0x03 rfl)]
  rw [if_neg (ne 0x04 rfl)]
  rw [if_neg (ne 0x05 rfl)]
  rw [if_neg (ne 0x06 rfl)]
  rw [if_neg (ne 0x07 rfl)]
  rw [if_neg (ne 0x08 rfl)]
  rw [if_neg (ne 0x09 rfl)]
  rw [if_neg (ne 0x10 rfl)]
  rw [if_neg (ne 0x11 rfl)]
  rw [if_neg (ne 0x12 rfl)]
  rw [if_neg (ne 0x13 rfl)]
  rw [if_neg (ne 0x14 rfl)]
  rw [if_neg (ne 0x15 rfl)]
  rw [if_neg (ne 0x18 rfl)]
  rw [if_neg (ne 0x19 rfl)]
  rw [if_neg (ne 0x1A rfl)]
  rw [if_neg (ne 0x1B rfl)]
  rw [if_neg (ne 0x1C rfl)]
  rw [if_neg (ne 0x20 rfl)]
  rw [if_neg (ne 0x21 rfl)]
  rw [if_neg (ne 0x22 rfl)]
  rw [if_neg (ne 0x28 rfl)]
  rw [if_neg (ne 0x29 rfl)]
  rw [if_neg (ne 0x2A rfl)]
  rw [if_neg (ne 0x2B rfl)]
  rw [if_neg (ne 0x2C rfl)]
  rw [if_neg (ne 0x2D rfl)]
  rw [if_neg (ne 0x2E rfl)]
  rw [if_neg (ne 0x2F rfl)]
  rw [if_neg (ne 0x30 rfl)]
  rw [if_neg (ne 0x31 rfl)]
  rw [if_neg (ne 0x32 rfl)]
  rw [if_neg (ne 0x33 rfl)]
  rw [if_neg (ne 0x34 rfl)]
  rw [if_neg (ne 0x35 rfl)]
  rw [if_neg (ne 0x38 rfl)]
  rw [if_neg (ne 0x39 rfl)]
  rw [if_neg (ne 0x3A rfl)]
  rw [if_neg (ne 0x3B rfl)]
  rw [if_neg (ne 0x3C rfl)]
  rw [if_neg (ne 0x3D rfl)]

/-- The frame a well-formed command carries, if it carries one, stands for that command. -/
def RequestForm.Statement (i : Instr) : Prop := ∀ f, i.wellFormed = true → i.frame? = some f → requestOf f = i

theorem RequestForm.powerOnReset : RequestForm.Statement .powerOnReset := fun _ _ h => by cases h
theorem RequestForm.frameReceived (bytes : List LineByte) : RequestForm.Statement (.frameReceived bytes) :=
  fun _ _ h => by cases h
theorem RequestForm.framerGapTimeout : RequestForm.Statement .framerGapTimeout := fun _ _ h => by cases h
theorem RequestForm.unknownKind (kind tag : Byte) (body : List Byte) : RequestForm.Statement (.unknownKind kind tag body) := by
  intro f hw h
  cases h
  simp only [Instr.wellFormed, Instr.operandsFit, Bool.and_eq_true, Bool.not_eq_true'] at hw
  obtain ⟨⟨h1, h2⟩, -⟩ := hw
  rw [requestOf_unnamed h2, if_neg (by simp [h1])]
theorem RequestForm.frameSent : RequestForm.Statement .frameSent := fun _ _ h => by cases h
theorem RequestForm.readStatus (tag : Byte) (body : List Byte) : RequestForm.Statement (.readStatus tag body) :=
  fun _ _ h => by cases h; rfl
theorem RequestForm.openSession (tag : Byte) (body : List Byte) : RequestForm.Statement (.openSession tag body) :=
  fun _ _ h => by cases h; rfl
theorem RequestForm.closeSession (tag : Byte) (body : List Byte) : RequestForm.Statement (.closeSession tag body) :=
  fun _ _ h => by cases h; rfl
theorem RequestForm.resetAudio (tag : Byte) (body : List Byte) : RequestForm.Statement (.resetAudio tag body) :=
  fun _ _ h => by cases h; rfl
theorem RequestForm.setTime (tag : Byte) (body : List Byte) : RequestForm.Statement (.setTime tag body) :=
  fun _ _ h => by cases h; rfl
theorem RequestForm.writeLimits (tag : Byte) (body : List Byte) : RequestForm.Statement (.writeLimits tag body) :=
  fun _ _ h => by cases h; rfl
theorem RequestForm.readLimits (tag : Byte) (body : List Byte) : RequestForm.Statement (.readLimits tag body) :=
  fun _ _ h => by cases h; rfl
theorem RequestForm.readFault (tag : Byte) (body : List Byte) : RequestForm.Statement (.readFault tag body) :=
  fun _ _ h => by cases h; rfl
theorem RequestForm.clearFault (tag : Byte) (body : List Byte) : RequestForm.Statement (.clearFault tag body) :=
  fun _ _ h => by cases h; rfl
theorem RequestForm.writeChannel (tag : Byte) (body : List Byte) : RequestForm.Statement (.writeChannel tag body) :=
  fun _ _ h => by cases h; rfl
theorem RequestForm.readChannel (tag : Byte) (body : List Byte) : RequestForm.Statement (.readChannel tag body) :=
  fun _ _ h => by cases h; rfl
theorem RequestForm.setFloorLanguage (tag : Byte) (body : List Byte) : RequestForm.Statement (.setFloorLanguage tag body) :=
  fun _ _ h => by cases h; rfl
theorem RequestForm.readSources (tag : Byte) (body : List Byte) : RequestForm.Statement (.readSources tag body) :=
  fun _ _ h => by cases h; rfl
theorem RequestForm.startAnnouncement (tag : Byte) (body : List Byte) : RequestForm.Statement (.startAnnouncement tag body) :=
  fun _ _ h => by cases h; rfl
theorem RequestForm.stopAnnouncement (tag : Byte) (body : List Byte) : RequestForm.Statement (.stopAnnouncement tag body) :=
  fun _ _ h => by cases h; rfl
theorem RequestForm.writeBooth (tag : Byte) (body : List Byte) : RequestForm.Statement (.writeBooth tag body) :=
  fun _ _ h => by cases h; rfl
theorem RequestForm.readBooth (tag : Byte) (body : List Byte) : RequestForm.Statement (.readBooth tag body) :=
  fun _ _ h => by cases h; rfl
theorem RequestForm.readDesks (tag : Byte) (body : List Byte) : RequestForm.Statement (.readDesks tag body) :=
  fun _ _ h => by cases h; rfl
theorem RequestForm.forceOutputOff (tag : Byte) (body : List Byte) : RequestForm.Statement (.forceOutputOff tag body) :=
  fun _ _ h => by cases h; rfl
theorem RequestForm.readDeskRecords (tag : Byte) (body : List Byte) : RequestForm.Statement (.readDeskRecords tag body) :=
  fun _ _ h => by cases h; rfl
theorem RequestForm.startCheck (tag : Byte) (body : List Byte) : RequestForm.Statement (.startCheck tag body) :=
  fun _ _ h => by cases h; rfl
theorem RequestForm.abortCheck (tag : Byte) (body : List Byte) : RequestForm.Statement (.abortCheck tag body) :=
  fun _ _ h => by cases h; rfl
theorem RequestForm.readCheck (tag : Byte) (body : List Byte) : RequestForm.Statement (.readCheck tag body) :=
  fun _ _ h => by cases h; rfl
theorem RequestForm.readReceiver (tag : Byte) (body : List Byte) : RequestForm.Statement (.readReceiver tag body) :=
  fun _ _ h => by cases h; rfl
theorem RequestForm.readRack (tag : Byte) (body : List Byte) : RequestForm.Statement (.readRack tag body) :=
  fun _ _ h => by cases h; rfl
theorem RequestForm.setMonitor (tag : Byte) (body : List Byte) : RequestForm.Statement (.setMonitor tag body) :=
  fun _ _ h => by cases h; rfl
theorem RequestForm.clearMonitor (tag : Byte) (body : List Byte) : RequestForm.Statement (.clearMonitor tag body) :=
  fun _ _ h => by cases h; rfl
theorem RequestForm.withdrawReceiver (tag : Byte) (body : List Byte) : RequestForm.Statement (.withdrawReceiver tag body) :=
  fun _ _ h => by cases h; rfl
theorem RequestForm.restoreReceiver (tag : Byte) (body : List Byte) : RequestForm.Statement (.restoreReceiver tag body) :=
  fun _ _ h => by cases h; rfl
theorem RequestForm.writeSchedule (tag : Byte) (body : List Byte) : RequestForm.Statement (.writeSchedule tag body) :=
  fun _ _ h => by cases h; rfl
theorem RequestForm.readListeners (tag : Byte) (body : List Byte) : RequestForm.Statement (.readListeners tag body) :=
  fun _ _ h => by cases h; rfl
theorem RequestForm.openHire (tag : Byte) (body : List Byte) : RequestForm.Statement (.openHire tag body) :=
  fun _ _ h => by cases h; rfl
theorem RequestForm.cancelHire (tag : Byte) (body : List Byte) : RequestForm.Statement (.cancelHire tag body) :=
  fun _ _ h => by cases h; rfl
theorem RequestForm.declareLost (tag : Byte) (body : List Byte) : RequestForm.Statement (.declareLost tag body) :=
  fun _ _ h => by cases h; rfl
theorem RequestForm.readHire (tag : Byte) (body : List Byte) : RequestForm.Statement (.readHire tag body) :=
  fun _ _ h => by cases h; rfl
theorem RequestForm.readSettlement (tag : Byte) (body : List Byte) : RequestForm.Statement (.readSettlement tag body) :=
  fun _ _ h => by cases h; rfl
theorem RequestForm.takeSettlement (tag : Byte) (body : List Byte) : RequestForm.Statement (.takeSettlement tag body) :=
  fun _ _ h => by cases h; rfl
theorem RequestForm.writeTariff (tag : Byte) (body : List Byte) : RequestForm.Statement (.writeTariff tag body) :=
  fun _ _ h => by cases h; rfl
theorem RequestForm.readTariff (tag : Byte) (body : List Byte) : RequestForm.Statement (.readTariff tag body) :=
  fun _ _ h => by cases h; rfl
theorem RequestForm.freezeTariffs (tag : Byte) (body : List Byte) : RequestForm.Statement (.freezeTariffs tag body) :=
  fun _ _ h => by cases h; rfl
theorem RequestForm.readDelegation (tag : Byte) (body : List Byte) : RequestForm.Statement (.readDelegation tag body) :=
  fun _ _ h => by cases h; rfl
theorem RequestForm.clearDelegation (tag : Byte) (body : List Byte) : RequestForm.Statement (.clearDelegation tag body) :=
  fun _ _ h => by cases h; rfl
theorem RequestForm.readService (tag : Byte) (body : List Byte) : RequestForm.Statement (.readService tag body) :=
  fun _ _ h => by cases h; rfl
theorem RequestForm.consoleReply (booth : Nat) (content : ConsoleContent) : RequestForm.Statement (.consoleReply booth content) :=
  fun _ _ h => by cases h
theorem RequestForm.rackReply (rack : Nat) (content : RackContent) : RequestForm.Statement (.rackReply rack content) :=
  fun _ _ h => by cases h
theorem RequestForm.radiatorStatusPoll : RequestForm.Statement .radiatorStatusPoll := fun _ _ h => by cases h
theorem RequestForm.radiatorReply : RequestForm.Statement .radiatorReply := fun _ _ h => by cases h
theorem RequestForm.unitPollMiss (unit : Nat) : RequestForm.Statement (.unitPollMiss unit) := fun _ _ h => by cases h
theorem RequestForm.unitDeclaredLost (unit : Nat) : RequestForm.Statement (.unitDeclaredLost unit) :=
  fun _ _ h => by cases h
theorem RequestForm.beaconPollSend : RequestForm.Statement .beaconPollSend := fun _ _ h => by cases h
theorem RequestForm.beaconReply (receiver tuned band : Nat) (signature : Option Code16) : RequestForm.Statement (.beaconReply receiver tuned band signature) :=
  fun _ _ h => by cases h
theorem RequestForm.beaconMiss : RequestForm.Statement .beaconMiss := fun _ _ h => by cases h
theorem RequestForm.missLimitReached (receiver : Nat) : RequestForm.Statement (.missLimitReached receiver) :=
  fun _ _ h => by cases h
theorem RequestForm.secondEvent (order : List SecondTaker) : RequestForm.Statement (.secondEvent order) :=
  fun _ _ h => by cases h
theorem RequestForm.turnLimitReached (booth : Nat) (domain : Side) : RequestForm.Statement (.turnLimitReached booth domain) :=
  fun _ _ h => by cases h
theorem RequestForm.overrunLimitReached (booth : Nat) (domain : Side) : RequestForm.Statement (.overrunLimitReached booth domain) :=
  fun _ _ h => by cases h
theorem RequestForm.handoverWindowExpiry (booth : Nat) (domain : Side) : RequestForm.Statement (.handoverWindowExpiry booth domain) :=
  fun _ _ h => by cases h
theorem RequestForm.issueWindowExpiry (hire : Nat) : RequestForm.Statement (.issueWindowExpiry hire) :=
  fun _ _ h => by cases h
theorem RequestForm.missingTimeReached (receiver : Nat) : RequestForm.Statement (.missingTimeReached receiver) :=
  fun _ _ h => by cases h
theorem RequestForm.checkDwellExpiry : RequestForm.Statement .checkDwellExpiry := fun _ _ h => by cases h
theorem RequestForm.referenceGap : RequestForm.Statement .referenceGap := fun _ _ h => by cases h
theorem RequestForm.stableTimeReached : RequestForm.Statement .stableTimeReached := fun _ _ h => by cases h
theorem RequestForm.referenceEdgesResume : RequestForm.Statement .referenceEdgesResume := fun _ _ h => by cases h
theorem RequestForm.consolePoll : RequestForm.Statement .consolePoll := fun _ _ h => by cases h
theorem RequestForm.rackPoll : RequestForm.Statement .rackPoll := fun _ _ h => by cases h
theorem RequestForm.replyKindDiscarded (kind tag : Byte) (body : List Byte) : RequestForm.Statement (.replyKindDiscarded kind tag body) := by
  intro f hw h
  cases h
  simp only [Instr.wellFormed, Instr.operandsFit, Bool.and_eq_true] at hw
  obtain ⟨h1, -⟩ := hw
  rw [requestOf_unnamed (namesRequest_of_reply h1), if_pos h1]

end Sys2Proof.Laws
end

