-- ==== Sys2Proof/Tests/Slice0.lean ====
section
/-! SUPPORT. Tests: ill-formed commands that the check refuses, worked figures and layouts of the manual, one small step
for the commands most likely to be wrong, and for every statement a state and operands that meet its premises. -/

namespace Sys2Proof.Tests

open Sys2Proof Sys2Proof.Machine

-- One theorem at a time: each kernel evaluation on a thread of its own would ask for more stack than a run may have.
set_option Elab.async false

/-! ### Small states -/

/-- The part once READY has gone out: the transmitter is idle, and hold, reply room and notice queue are empty. -/
def ready : State := { State.reset with link := { Link.reset with sending := none } }

/-- A part that is like `ready` at the control link takes any request. -/
theorem takes {s : State} (h : s.link = ready.link) (f : Frame) : s.canTake f := by
  unfold State.canTake; rw [h]; exact ⟨rfl, rfl, .inl rfl⟩

/-- The state a command gives. -/
def after (o : Answer) : State :=
  match o with
  | .next t => t
  | .fault _ => State.reset
  | .refused _ => State.reset

/-- `s` with a poll of console `b`, of rack `k` and of the radiator under way. -/
def asking (b k : Nat) (s : State) : State :=
  { s with supervisor := { s.supervisor with
    consolePoll := some ⟨b, false, []⟩, rackPoll := some ⟨k, false⟩, radiatorPoll := true } }

/-- `ready` in SESSION, with all units of the links PRESENT, and console 24 and rack 1 polled. -/
def hall : State :=
  asking 24 1 { ready with
    plan := { ready.plan with hall := .session }
    supervisor := { ready.supervisor with units := allUnits.map fun u => (u, { state := .present, failures := 0 }) } }

/-- An entry of a language with one output. -/
def served (language : Nat) (o : BoothOutput) : PlanEntry := { PlanEntry.unused with language := language, first := some o }

/-- A desk position that holds a port and selects output A. -/
def deskAt (port : Nat) : Desk := { selection := .a, cough := false, flash := false, port := some port }

/-- Booth 24 at work under SINGLE and HANDSHAKE: channel 31 is served by its output A; desks 1 and 4 hold ports. -/
def booth24 : State :=
  (((hall.setPlanEntry 31 (served 99 ⟨24, .a⟩)).setConfig 24 { BoothConfig.default with enabled := 4 }).setDesk 24 1
    (deskAt 1)).setDesk 24 4 (deskAt 64)

/-- Booth 1 at work under DUAL and OVERRIDE: channel 1 is served by its output A; desks 1 and 2 hold ports. -/
def booth1 : State :=
  ((((asking 1 1 hall).setPlanEntry 1 (served 1 ⟨1, .a⟩)).setConfig 1
    { BoothConfig.default with enabled := 2, interlock := .dual, mode := .override }).setDesk 1 1 (deskAt 2)).setDesk 1 2
    (deskAt 3)

/-- What holds of every channel 1 to 31, from what holds of each number below 32. -/
theorem lang {P : Nat → Prop} (h : ∀ d, d < 32 → 1 ≤ d → P d) : ∀ d, 1 ≤ d → d ≤ 31 → P d :=
  fun d h1 h2 => h d (by omega) h1

/-! ### Ill-formed commands are refused -/

theorem test_wf_kind_of_request : (Instr.unknownKind 0x01 0 []).wellFormed = false := by decide
theorem test_wf_kind_of_reply : (Instr.unknownKind 0x80 0 []).wellFormed = false := by decide
theorem test_wf_reply_kind : (Instr.replyKindDiscarded 0x7F 0 []).wellFormed = false := by decide
theorem test_wf_body : (Instr.readStatus 0 (List.replicate 1025 0)).wellFormed = false := by decide +kernel
theorem test_wf_console : (Instr.consoleReply 25 (.events [])).wellFormed = false := by decide
theorem test_wf_rack : (Instr.rackReply 17 (.reports [])).wellFormed = false := by decide
theorem test_wf_inventory : (Instr.rackReply 1 (.inventory (List.replicate 47 .empty))).wellFormed = false := by decide
theorem test_wf_miss : (Instr.unitPollMiss 42).wellFormed = false := by decide
theorem test_wf_lost : (Instr.unitDeclaredLost 0).wellFormed = false := by decide
theorem test_wf_receiver : (Instr.missLimitReached 4096).wellFormed = false := by decide
theorem test_wf_missing : (Instr.missingTimeReached 4096).wellFormed = false := by decide
theorem test_wf_order : (Instr.secondEvent [.turnMeter, .turnMeter]).wellFormed = false := by decide
theorem test_wf_turn : (Instr.turnLimitReached 0 .a).wellFormed = false := by decide
theorem test_wf_overrun : (Instr.overrunLimitReached 25 .b).wellFormed = false := by decide
theorem test_wf_window : (Instr.handoverWindowExpiry 25 .a).wellFormed = false := by decide
theorem test_wf_issue : (Instr.issueWindowExpiry 0).wellFormed = false := by decide
theorem test_wf_good : (Instr.secondEvent allTakers).wellFormed = true := by decide

/-! ### No word of the table has bits -/

theorem test_no_word : decodeTableWord 16 0 = none ∧ ready.withFetchWord 16 0 = ready := ⟨rfl, rfl⟩

/-! ### Figures and layouts of the manual -/

/-- The check of the nine digits (R169). -/
theorem test_check : crc16 [0x31, 0x32, 0x33, 0x34, 0x35, 0x36, 0x37, 0x38, 0x39] = 0x29B1 := by decide +kernel

/-- The class of cases 1 to 9 of section 9.4. -/
def classOf94 : Tariff :=
  { defined := true, grace := 10, unit := 60, firstPrice := 500, furtherPrice := 300, dayCap := 2000, lostCharge := 12000 }

/-- A hire of section 9.4 with its deposit and LOST flag. -/
def hireOf94 (deposit : Nat) (lost : Bool) : Hire :=
  { number := 1, receiver := 2, reference := 3, delegation := 4, tariff := 5, deposit := deposit, state := .active 0 0
    openTime := 0, lost := lost, reconciled := false }

/-- The units, usage, total, refund, due and flags of a duration. -/
def figures (d : Nat) (lost : Bool) : List Nat :=
  let x := settlementOf classOf94 (hireOf94 5000 lost) 1000 0 (1000 + d) 0
  [x.units, x.usage, x.total, x.refund, x.due, x.flags.byte.toNat]

/-- Cases 1 to 9 of section 9.4, with the flag bytes of R176 for cases 4 and 9. -/
theorem test_settlement_case_1 : figures 30875 false = [9, 2000, 2000, 3000, 0, 2] := by decide
theorem test_settlement_case_2 : figures 600 false = [0, 0, 0, 5000, 0, 1] := by decide
theorem test_settlement_case_3 : figures 601 false = [1, 500, 500, 4500, 0, 0] := by decide
theorem test_settlement_case_4 : figures 100000 true = [28, 4000, 16000, 0, 11000, 0x0A] := by decide
theorem test_settlement_case_6 : figures 20000 false = [6, 2000, 2000, 3000, 0, 0] := by decide
theorem test_settlement_case_8 : figures 86401 false = [25, 4000, 4000, 1000, 0, 2] := by decide
theorem test_settlement_case_9 : figures 300 true = [0, 0, 12000, 0, 7000, 9] := by decide

/-- The saturated settlement of section 9.4. -/
theorem test_settlement_saturated :
    let x := settlementOf ⟨true, 0, 1, 65535, 65535, 0, 999999⟩ (hireOf94 999999 true) 40000 0 1040000 0
    x.units = 16667 ∧ x.usage = 999999999 ∧ x.total = 999999999 ∧ x.due = 999000000 ∧ x.flags.saturated = true := by
  decide

/-- Case B of section 9.4: 45 DEGRADED seconds inside a hire. -/
theorem test_settlement_degraded :
    let x := settlementOf ⟨true, 0, 30, 200, 150, 0, 0⟩ (hireOf94 1000 false) 71000 12 76500 57
    x.units = 4 ∧ x.usage = 650 ∧ x.refund = 350 ∧ x.flags.timeDegraded = true := by decide

/-- The output bytes of R175. -/
theorem test_output_bytes :
    outputOfByte 0x39 = some (some ⟨7, .a⟩) ∧ outputOfByte 0xC2 = some (some ⟨24, .b⟩) ∧ outputOfByte 0xCA = none := by
  decide

/-- The sizes the manual gives its reports (R27, R70, R82, R99, R100, R159, R173). -/
theorem test_report_sizes :
    (statusBody ready).length = 60 ∧ (serveReadSources [] ready).2.length = 298 ∧
      (serveReadDeskRecords [1] ready).2.length = 102 ∧ (checkBody ready).length = 272 ∧
      (receiverBody ready 0).length = 25 ∧ (serveReadRack [1] ready).2.length = 147 ∧
      (serveReadService [255] ready).2.length = 1021 := by decide +kernel

/-- A settlement takes 53 bytes (R176). -/
theorem test_settlement_size :
    (settlementOf classOf94 (hireOf94 5000 false) 0 0 0 0).bytes.length = 53 := by decide

/-- The signatures of the worked check of section 5.9: seed 1,000, channel 5. -/
theorem test_signature : (CheckProgram.mk 0 0 1000 3).signature 5 = 2285 := by decide

/-! ### One step -/

/-- An empty queue counts one period of the counting source (log entry 6). -/
theorem test_step_idle : (after (step ready)).clock.subSecond = 1 := by decide

/-- The period that would make the count 48,000 is a second event, which counts the second and returns it to 0 (R160). -/
theorem test_step_second :
    (let s : State := { ready with clock := { ready.clock with subSecond := 47999 } };
      step s = exec (.secondEvent (Config.secondOrder 0)) { s with clock := { s.clock with boundaries := 1 } }) ∧
      (after (exec (.secondEvent []) { ready with clock := { ready.clock with subSecond := 47999 } })).clock =
        ⟨1, 0, .oscillator, .degraded, 1, .absent, none, 0⟩ := ⟨rfl, by decide +kernel⟩

/-- The period that brings the stable time to 2 s makes the phase SETTLED (R161). -/
theorem test_step_settled :
    (after (step { ready with clock := { ready.clock with phase := .settling, stable := some 95999 } })).clock.phase =
      .settled := by decide

/-- A request of the queue's front is answered, and an idle transmitter begins the reply (R171 to R173). -/
theorem test_step_front :
    (after (step { ready with pending := [.readLimits 7 [], .frameSent] })).link.sending =
      some ⟨0x87, 7, [0, 30, 5, 3, 0, 120, 4, 1, 4]⟩ := by decide

/-- READY is being sent after power-on reset, and a reply waits behind it (R172, R174). -/
theorem test_ready_first :
    State.reset.link.sending = some Notice.ready.frame ∧
      (after (exec (.readLimits 7 []) State.reset)).link.replyRoom = some ⟨0x87, 7, [0, 30, 5, 3, 0, 120, 4, 1, 4]⟩ := by
  decide

/-- `ready` while a reply is sent and a second waits in the reply room. -/
def replying : State :=
  { ready with link := { ready.link with sending := some ⟨0x80, 0, []⟩, replyRoom := some ⟨0x81, 0, []⟩ } }

/-- A frame that completes is taken at once, or waits in the hold until FRAME_SENT has emptied the reply room (R171). -/
theorem test_frame_taken :
    let frame : List LineByte := (Frame.bytes ⟨0x12, 5, [100]⟩).map fun b => ⟨b, true⟩
    let held := after (exec (.frameReceived frame) replying)
    (after (exec (.frameReceived frame) ready)).link.sending = some ⟨0x92, 5, [3]⟩ ∧
      held.link.hold = some ⟨0x12, 5, [100]⟩ ∧
      (after (exec .frameSent held)).link.replyRoom = some ⟨0x92, 5, [3]⟩ ∧ (after (exec .frameSent held)).link.hold = none :=
  by decide +kernel

/-- A reply that names another console than the one polled is a miss of that one (R165). -/
theorem test_other_console :
    ((after (exec (.consoleReply 1 (.events [])) hall)).unit 24).failures = 1 := by decide +kernel

/-- A desk takes the microphone of an idle domain, and its port goes out on the channel (R19, R46). -/
theorem test_mic_on :
    ((after (exec (.consoleReply 24 (.events [⟨4, .micOn⟩])) booth24)).source 31).program = .desk 64 := by decide +kernel

/-- A second desk asks under HANDSHAKE and the domain is PENDING with the window (R48). -/
theorem test_mic_asked :
    (after (exec (.consoleReply 24 (.events [⟨4, .micOn⟩])) (booth24.setDomain 24 .a (.live 1)))).domain 24 .a =
      .pending 1 4 5 .take := by decide +kernel

/-- The same second event reaches the turn limit and counts (R64). -/
theorem test_turn_due :
    ((after (exec (.turnLimitReached 24 .a)
      ((booth24.setDomain 24 .a (.live 1)).setTurn 24 .a ⟨1799, some 30, some 5, false, false⟩))).turn 24 .a) =
      ⟨1800, some 30, some 5, true, false⟩ := by decide +kernel

/-- A count above 63 is stored as 63 with CLAMPED (R104). -/
theorem test_schedule_clamped :
    (after (exec (.writeSchedule 0 [64, 63, 0, 255]) ready)).link.sending = some ⟨0xAE, 0, [1, 63, 63, 0, 63]⟩ := by
  decide

/-- The last hire number is followed by 1 (R120). -/
theorem test_next_number : succNumber 4294967295 = 1 ∧ succNumber 1 = 2 := by decide

/-! ### Witnesses: states and operands that meet the premises of each statement, clause by clause

The statements with no premises (FrontCommandRuns, EveryCommandCompletes, PowerOnReset, InvariantsHoldAtReset) have none
here. -/

/-- `ready` with a frame in the hold. -/
def holding : State := { ready with link := { ready.link with hold := some ⟨0x01, 0, []⟩ } }

/-- `s` with `n` notices waiting. -/
def noted (n : Nat) (s : State) : State := { s with link := { s.link with notices := List.replicate n .ready } }

/-- A check that tests channel 5 of the channels of `set` for the monitors at positions 0 and 7, receivers 10 and 4095. -/
def testing (set : ChannelSet) (dwell : Nat) : State :=
  { (((((ready.setMonitorAt 0 (some 10)).setMonitorAt 7 (some 4095)).setReceiver 10
      { Receiver.unseen with state := .monitor }).setReceiver 4095 { Receiver.unseen with state := .monitor }).setPollList
      .l3 ⟨[10, 4095], some 10⟩) with
    check := { Check.reset with
      state := .running, program := some ⟨set, 0x81, 1000, 3⟩, current := some 5, generator := some 2285, dwell := dwell,
      placements := 1 } }

theorem test_witness_FrameIsReceivedWhole :
    (let i : Instr := .readStatus 0 (List.replicate 1024 0);
      i.wellFormed = true ∧ i.frame? = some ⟨0x01, 0, List.replicate 1024 0⟩) ∧
      (Instr.unknownKind 0x7F 0 []).wellFormed = true ∧ (Instr.replyKindDiscarded 0xFF 0 []).wellFormed = true ∧
      ready.link.receiving = true ∧ ready.link.framer = .hunt ∧ holding.link.receiving = true ∧
      holding.link.framer = .hunt ∧ ([] : List Byte).length ≤ 1024 ∧ (0 : Code16) ≠ crc16 (Frame.covered ⟨0x01, 0, []⟩) :=
  by decide +kernel

theorem test_witness_FramerAndKinds :
    (let s : State := { ready with link := { ready.link with framer := .header [4] } };
      s.link.receiving = true ∧ s.link.framer = .header [4] ∧ 1024 < (4 : Byte).toNat * 256 + (1 : Byte).toNat) ∧
      ({ ready with link := { ready.link with receiving := false } } : State).link.receiving = false ∧
      ((0x7F : Byte).toNat < 128 ∧ (∀ e ∈ requestIndex, e.1 ≠ 0x7F) ∧ (0x00 : Byte).toNat < 128 ∧
        (∀ e ∈ requestIndex, e.1 ≠ 0x00) ∧ ready.canTake ⟨0x7F, 1, [2]⟩) ∧
      128 ≤ (0x80 : Byte).toNat ∧ ready.canTake ⟨0x80, 1, [2]⟩ :=
  ⟨by decide, rfl, ⟨by decide, by decide, by decide, by decide, takes rfl _⟩, by decide, takes rfl _⟩

theorem test_witness_TransmitterOrder :
    (replying.link.replyRoom = some ⟨0x81, 0, []⟩ ∧ replying.link.hold = none) ∧
      (let s : State := { replying with link := { replying.link with hold := some ⟨0x01, 3, []⟩ } };
        s.link.replyRoom = some ⟨0x81, 0, []⟩ ∧ s.link.hold = some ⟨0x01, 3, []⟩ ∧
          (Instr.readStatus 3 []).wellFormed = true ∧ (Instr.readStatus 3 []).frame? = some ⟨0x01, 3, []⟩) ∧
      ((noted 2 ready).link.replyRoom = none ∧ (noted 2 ready).link.hold = none ∧
        (noted 2 ready).link.notices = .ready :: [.ready]) ∧
      (ready.link.sending = none ∧ ready.link.replyRoom = none ∧ ready.link.notices = []) ∧
      (replying.link.sending ≠ none ∧ replying.link.notices.length < 64) ∧
      ((noted 63 ready).link.notices ≠ [] ∧ (noted 63 ready).link.notices.length < 64) ∧
      (noted 64 ready).link.notices.length = 64 := by decide +kernel

theorem test_witness_RequestsRefusedAndWaiting :
    (let i : Instr := .readStatus 3 [0];
      i.wellFormed = true ∧ i.frame? = some ⟨0x01, 3, [0]⟩ ∧ ((0x01, 0) : Byte × Nat) ∈ requestIndex ∧
        ([0] : List Byte).length ≠ 0 ∧ ready.canTake ⟨0x01, 3, [0]⟩) ∧
      (let i : Instr := .readService 3 [];
        i.wellFormed = true ∧ i.frame? = some ⟨0x3D, 3, []⟩ ∧ replying.link.receiving = true ∧
          replying.link.replyRoom ≠ none) :=
  ⟨⟨rfl, rfl, by decide, by decide, takes rfl _⟩, rfl, rfl, rfl, by decide⟩

/-- A state that can take a request with an empty body, which ReadStatus, ReadSources, ReadLimits, ReadListeners and
FreezeTariffs ask alone. -/
theorem test_witness_ReadStatus :
    ready.canTake ⟨0x01, 9, []⟩ ∧ ready.canTake ⟨0x13, 9, []⟩ ∧ ready.canTake ⟨0x2F, 9, []⟩ ∧
      ready.canTake ⟨0x3A, 9, []⟩ := ⟨takes rfl _, takes rfl _, takes rfl _, takes rfl _⟩

theorem test_witness_OpenAndCloseSession :
    ready.canTake ⟨0x02, 9, []⟩ ∧ ready.plan.hall = .setup ∧ ready.canTake ⟨0x03, 9, []⟩ ∧
      (∀ s, s = booth24.setDomain 24 .a (.pending 1 4 5 .take) → s.canTake ⟨0x03, 9, []⟩ ∧ s.canTake ⟨0x02, 9, []⟩ ∧
        s.canTake ⟨0x04, 9, []⟩ ∧ s.plan.hall = .session ∧ s.turnsFit ∧ s.namesPositions ∧ s.testSound ∧
        (s.domain 24 .a).liveDesk = some 1 ∧ (s.domain 24 .a).requester = some 4) ∧
      (testing 0x20 3).testSound ∧ (testing 0x20 3).check.current = some 5 :=
  ⟨takes rfl _, rfl, takes rfl _, fun s h => by
    subst h
    refine ⟨takes rfl _, takes rfl _, takes rfl _, rfl, fun _ _ _ => rfl, fun b side d _ _ h => ?_,
      fun c h => (by cases h), rfl, rfl⟩
    unfold State.domain at h
    by_cases k : 48 = domainKey b side
    · rw [← k] at h
      rcases h with h | h <;> cases h <;> decide
    · rw [show Table.read Domain.idle (booth24.setDomain 24 .a (.pending 1 4 5 .take)).booths.domains (domainKey b side) =
        .idle from if_neg k] at h
      rcases h with h | h <;> (cases h),
    fun c h => by cases h; exact .inr (by decide +kernel), rfl⟩

theorem test_witness_ResetAudio :
    (hall.canTake ⟨0x04, 9, []⟩ ∧ (hall.check.state ≠ .running → hall.check.current = none)) ∧
      (testing 0x20 3).canTake ⟨0x04, 9, []⟩ ∧
      ((testing 0x20 3).check.state ≠ .running → (testing 0x20 3).check.current = none) ∧
      (testing 0x20 3).check.state = .running := ⟨⟨takes rfl _, fun _ => rfl⟩, takes rfl _, fun h => absurd rfl h, rfl⟩

/-- The entry language 99, output 24B, fallback PIVOT to channel 1. -/
def pivoting : PlanEntry := { PlanEntry.unused with
  language := 99, first := some ⟨24, .b⟩, fallback := .pivot, pivot := some 1 }

theorem test_witness_WriteChannel :
    hall.canTake ⟨0x10, 9, [31, 99, 0xC2, 0, 0, 3, 1]⟩ ∧ channelWrite 31 99 0xC2 0 0 3 1 = some (31, pivoting) ∧
      (pivoting.fallback = .pivot ↔ pivoting.pivot ≠ none) ∧ pivoting.pivot ≠ some 31 ∧
      (pivoting.language = 0 ∨ ∀ d, 1 ≤ d → d ≤ 31 → d ≠ 31 → (hall.planEntry d).language ≠ pivoting.language) ∧
      pivoting.outputs.Nodup ∧
      (∀ d o, 1 ≤ d → d ≤ 31 → d ≠ 31 → o ∈ pivoting.outputs → o ∉ (hall.planEntry d).outputs) ∧
      (hall.plan.hall = .setup ∨
        ∀ o ∈ (hall.planEntry 31).outputs, o ∈ pivoting.outputs ∨ hall.claimed o = false) ∧
      hall.check.current = none :=
  ⟨takes rfl _, by decide, by decide, by decide,
    .inr (lang (P := fun d => d ≠ 31 → (hall.planEntry d).language ≠ pivoting.language) (by decide +kernel)),
    by decide,
    fun d o h1 h2 h3 => lang (P := fun d => d ≠ 31 → ∀ o ∈ pivoting.outputs, o ∉ (hall.planEntry d).outputs)
      (by decide +kernel) d h1 h2 h3 o, .inr (by decide +kernel), rfl⟩

/-- Each refusal of WRITE_CHANNEL: out of range, a pivot to itself, a language taken, an output taken, an output that
would leave while claimed. -/
theorem test_witness_WriteChannel_refused :
    channelWrite 0 99 0 0 0 1 0 = none ∧ channelWrite 32 99 0 0 0 1 0 = none ∧
      (∃ e, channelWrite 1 0 0 0 0 3 1 = some (1, e) ∧
        ¬((e.fallback = .pivot ↔ e.pivot ≠ none) ∧ e.pivot ≠ some 1)) ∧
      (∃ d, 1 ≤ d ∧ d ≤ 31 ∧ d ≠ 1 ∧ pivoting.language ≠ 0 ∧ (booth24.planEntry d).language = pivoting.language) ∧
      (∃ e d o, channelWrite 1 0 0xC1 0 0 1 0 = some (1, e) ∧ e.language = 0 ∧ 1 ≤ d ∧ d ≤ 31 ∧ d ≠ 1 ∧
        o ∈ e.outputs ∧ o ∈ (booth24.planEntry d).outputs) ∧
      ((booth24.setDomain 24 .a (.live 1)).plan.hall = .session ∧
        ∃ o ∈ ((booth24.setDomain 24 .a (.live 1)).planEntry 31).outputs, o ∉ PlanEntry.unused.outputs ∧
          (booth24.setDomain 24 .a (.live 1)).claimed o = true) :=
  ⟨by decide, by decide, ⟨_, rfl, by decide⟩, ⟨31, by decide +kernel⟩, ⟨_, 31, ⟨24, .a⟩, rfl, by decide +kernel⟩,
    by decide +kernel⟩

/-- Channel 5 under test: an entry that leaves it FALLBACK, and one that puts the floor on it, with channel 6 next and with
none next. -/
theorem test_witness_WriteChannel_underTest :
    let s (set : ChannelSet) (n : Nat) : State :=
      { testing set 3 with plan := { (testing set 3).plan with floorLanguage := n } }
    let t (set : ChannelSet) (n : Nat) : State := after (exec (.writeChannel 9 [5, 99, 0, 0, 1, 1, 0]) (s set n))
    (∀ set n, (s set n).canTake ⟨0x10, 9, [5, 99, 0, 0, 1, 1, 0]⟩ ∧ (s set n).check.current = some 5 ∧
        (s set n).check.program = some ⟨set, 0x81, 1000, 3⟩ ∧ (s set n).plan.hall = .setup) ∧
      ((t 0x60 98).openToTest 5 ∧ (t 0x60 98).check.current = some 5) ∧
      (¬(t 0x60 99).openToTest 5 ∧ (t 0x60 99).check.current = some 6) ∧
      (¬(t 0x20 99).openToTest 5 ∧ (t 0x20 99).check.current = none ∧ (t 0x20 99).check.state = .done) := by
  refine ⟨fun _ _ => ⟨takes rfl _, rfl, rfl, rfl⟩, ?_, ?_, ?_⟩ <;> unfold State.openToTest <;> decide +kernel

theorem test_witness_ReadChannel :
    ((1 : Nat) ≤ 31 ∧ pivoting.language ≤ 99 ∧ (∀ o ∈ pivoting.outputs, 1 ≤ o.booth ∧ o.booth ≤ 24) ∧
      ∀ q, pivoting.pivot = some q → 1 ≤ q ∧ q ≤ 31) ∧
      channelWrite 31 99 0xC2 0 0 3 1 = some (31, pivoting) ∧ ready.canTake ⟨0x11, 9, [31]⟩ ∧
      (31 : Byte).toNat ≤ 31 ∧ 31 < (32 : Byte).toNat :=
  ⟨⟨by decide, by decide, by decide, fun q h => by cases h; decide⟩, by decide, takes rfl _, by decide, by decide⟩

/-- `testing` with an entry on channel 5 that floor language 99 takes by autofloor, and then floor language `n`. -/
def floorTest (set : ChannelSet) (n : Nat) : State :=
  { (testing set 3).setPlanEntry 5 { PlanEntry.unused with language := 99, autofloor := true } with
    plan := { ((testing set 3).setPlanEntry 5 { PlanEntry.unused with language := 99, autofloor := true }).plan with
      floorLanguage := n } }

/-- Without a test; with channel 5 under test and open to it still; and taken from the test, with channel 6 next and with
none next. -/
theorem test_witness_SetFloorLanguage :
    let t (set : ChannelSet) (n : Byte) : State := after (exec (.setFloorLanguage 9 [n]) (floorTest set 0))
    (ready.canTake ⟨0x12, 9, [99]⟩ ∧ ready.check.current = none ∧ (99 : Byte).toNat ≤ 99 ∧ 99 < (100 : Byte).toNat) ∧
      (∀ set n, (floorTest set 0).canTake ⟨0x12, 9, [n]⟩ ∧ (floorTest set 0).check.current = some 5 ∧
        (floorTest set 0).check.program = some ⟨set, 0x81, 1000, 3⟩) ∧
      (t 0x20 98).openToTest 5 ∧ (¬(t 0x60 99).openToTest 5 ∧ (t 0x60 99).check.current = some 6) ∧
      ¬(t 0x20 99).openToTest 5 ∧ (t 0x20 99).check.state = .done := by
  refine ⟨⟨takes rfl _, rfl, by decide, by decide⟩, fun _ _ => ⟨takes rfl _, rfl, rfl⟩, ?_⟩
  unfold State.openToTest
  decide +kernel

/-- `booth24` with desk `d` live, and channels 0 and 1 held by an announcement. -/
def live24 (d : Nat) : State :=
  { ((booth24.setDomain 24 .a (.live d)).setAnnouncement 0 (.active .one)).setAnnouncement 1 (.active .one) with
    arbiter := { ((booth24.setAnnouncement 0 (.active .one)).setAnnouncement 1 (.active .one)).arbiter with
      inputOne := some 3 } }

/-- `booth24` with desk 1 live, desk 4 asking, and `n` s left. -/
def asked24 (n : Nat) (p : ExpiryPolicy) : State := booth24.setDomain 24 .a (.pending 1 4 n p)

theorem test_witness_SourcePrecedence_highest :
    (live24 1).announcement 0 = .active .one ∧ (live24 1).announcement 1 = .active .one ∧
      (∀ i, booth24.announcement 0 ≠ .active i) ∧
      ((∀ i, (live24 1).announcement 31 ≠ .active i) ∧ (⟨24, .a⟩ : BoothOutput) ∈ ((live24 1).planEntry 31).outputs ∧
        ((live24 1).domainOf ⟨24, .a⟩).liveDesk = some 1 ∧ ((live24 1).desk 24 1).selection = .a ∧
        ∀ x ∈ ((live24 1).planEntry 31).outputs, x ≠ ⟨24, .a⟩ → (live24 1).liveOn x = none) :=
  ⟨by decide, by decide, by intro i; cases i <;> decide, by intro i; cases i <;> decide, by decide +kernel,
    by decide +kernel, by decide +kernel, by decide +kernel⟩

/-- A part with no output live: entry `e` on channel 31, floor language `f`, and `u` on channel 30. -/
def plain (e u : PlanEntry) (f : Nat) : State :=
  { (ready.setPlanEntry 31 e).setPlanEntry 30 u with
    plan := { ((ready.setPlanEntry 31 e).setPlanEntry 30 u).plan with floorLanguage := f } }

theorem test_witness_SourcePrecedence_lowest :
    ((∀ e u f i, (plain e u f).announcement 31 ≠ .active i) ∧
      ∀ e u f, ∀ x ∈ ((plain e u f).planEntry 31).outputs, (plain e u f).liveOn x = none) ∧
      (let s : State := plain { PlanEntry.unused with language := 99, autofloor := true } .unused 99;
        (s.planEntry 31).language ≠ 0 ∧ (s.planEntry 31).autofloor = true ∧
          s.plan.floorLanguage = (s.planEntry 31).language) ∧
      ((∀ x ∈ ((testing 0x20 1).planEntry 5).outputs, (testing 0x20 1).liveOn x = none) ∧
        (testing 0x20 1).check.current = some 5 ∧ ((testing 0x20 1).planEntry 5).language = 0) ∧
      (let s (f : Fallback) (p : Option Nat) (u : PlanEntry) : State :=
          plain { PlanEntry.unused with language := 1, fallback := f, pivot := p } u 2;
        ((s .floor none .unused).planEntry 31).fallback = .floor ∧
        ((s .silence none .unused).planEntry 31).fallback = .silence ∧
        ((s .pivot (some 30) .unused).planEntry 31).pivot = some 30 ∧
        ((s .pivot (some 30) { PlanEntry.unused with language := 2, autofloor := true }).effective 30).identity =
          .autofloor ∧
        ((s .pivot (some 30) .unused).effective 30).identity = .unused) :=
  ⟨⟨fun _ _ _ i => by cases i <;> (intro h; cases h),
      fun _ _ _ x _ => rfl⟩,
    by decide +kernel, by decide +kernel, by decide +kernel⟩

theorem test_witness_Announcements :
    (ready.canTake ⟨0x14, 9, 0 :: be32 (1 : ChannelSet).toNat⟩ ∧ ((0 : Byte) ≠ 1 ∧ (0 : Byte) ≠ 2)) ∧
      (let s : State := live24 1; s.canTake ⟨0x14, 9, 1 :: be32 (0x80000000 : ChannelSet).toNat⟩ ∧ s.inputSet .one ≠ none ∧
        s.canTake ⟨0x14, 9, 2 :: be32 (2 : ChannelSet).toNat⟩ ∧
        (∃ c, (2 : ChannelSet).getLsbD c = true ∧ s.announcement c ≠ .none) ∧ s.inputSet .one = some 3 ∧
        s.inputSet .two = none ∧ s.canTake ⟨0x15, 9, [1]⟩ ∧ s.canTake ⟨0x15, 9, [2]⟩ ∧ s.check.current = none) ∧
      (let s : State := asked24 5 .take; s.canTake ⟨0x14, 9, 1 :: be32 (0x80000001 : ChannelSet).toNat⟩ ∧
        s.inputSet .one = none ∧ (∀ c, (0x80000001 : ChannelSet).getLsbD c = true → s.announcement c = .none) ∧
        s.check.current = none ∧
        (∃ o d, s.serving 31 = some (o, d) ∧ (s.domainOf o).requester ≠ none)) :=
  ⟨⟨takes rfl _, by decide⟩,
    ⟨takes rfl _, by decide, takes rfl _, ⟨1, by decide⟩, rfl, rfl, takes rfl _, takes rfl _, rfl⟩, takes rfl _, rfl,
    fun _ _ => rfl, rfl, ⟨24, .a⟩, 1, by decide +kernel, by decide +kernel⟩

/-- `ready` with booths 1 to `n` of four desks each, in SESSION. -/
def crowded (n : Nat) : State :=
  (List.range' 1 n).foldl (fun s b => s.setConfig b { BoothConfig.default with enabled := 4 }) hall

/-- A booth out of range and a code of no value; a lower count in SESSION; 65 desks and 64; an interlock changed under a
live desk; and the same configuration stored. -/
theorem test_witness_WriteBooth :
    ready.canTake ⟨0x18, 9, [25, 5, 1, 1, 31, 1, 4, 31]⟩ ∧ 24 < (25 : Byte).toNat ∧ ((0 : Byte).toNat = 0) ∧
      (let new (n : Nat) (i : Interlock) : BoothConfig := ⟨n, i, .override, 30, .take, 5, 30⟩;
        (1 ≤ (24 : Byte).toNat ∧ (24 : Byte).toNat ≤ 24 ∧ (new 4 .dual).enabled = min (5 : Byte).toNat 4 ∧
          (new 4 .dual).window = max 1 (min (31 : Byte).toNat 30) ∧
          (new 4 .dual).turnLimit = max 5 (min (4 : Byte).toNat 90) ∧
          (new 4 .dual).overrun = min (31 : Byte).toNat 30) ∧
        (booth24.plan.hall = .session ∧ (new 3 .single).enabled < (booth24.config 24).enabled) ∧
        (¬((crowded 16).plan.hall = .session ∧ (new 1 .single).enabled < ((crowded 16).config 24).enabled) ∧
          64 < (new 1 .single).enabled + (crowded 16).otherDesks 24) ∧
        (new 4 .single).enabled + (crowded 15).otherDesks 24 ≤ 64 ∧
        ((live24 1).plan.hall = .session ∧ (new 4 .dual).interlock ≠ ((live24 1).config 24).interlock ∧
          (live24 1).domain 24 .a ≠ .idle) ∧
        ¬((live24 1).plan.hall = .session ∧ (new 4 .dual).enabled < ((live24 1).config 24).enabled) ∧
        (new 4 .dual).enabled + (live24 1).otherDesks 24 ≤ 64 ∧
        ¬(booth24.plan.hall = .session ∧ (new 4 .single).interlock ≠ (booth24.config 24).interlock)) ∧
      (crowded 15).link = ready.link :=
  ⟨takes rfl _, by decide, rfl, by decide +kernel, rfl⟩

/-- Booth 24 with one desk, which holds port 2; no other booth has one. -/
def ported : State := (ready.setConfig 24 { BoothConfig.default with enabled := 1 }).setDesk 24 1 (deskAt 2)

theorem ported_desk (b d : Nat) (hd : d ≤ 7) :
    ported.desk b d = if b = 24 ∧ d = 1 then deskAt 2 else .disabled := by
  show Table.read _ [(193, deskAt 2)] (b * 8 + d) = _
  by_cases h : b = 24 ∧ d = 1
  · obtain ⟨rfl, rfl⟩ := h; rfl
  · rw [if_neg h]
    exact if_neg fun k => h (by omega)

theorem ported_config (b : Nat) :
    ported.config b = if b = 24 then { BoothConfig.default with enabled := 1 } else .default := by
  show Table.read _ [(24, { BoothConfig.default with enabled := 1 })] b = _
  by_cases h : b = 24
  · subst h; rfl
  · rw [if_neg h]
    exact if_neg fun k => h k.symm

theorem ported_agrees : ported.portsAgree := by
  refine ⟨fun b d hd => ?_, fun b d p hd h => ?_, fun b d x e p hd he h1 h2 => ?_, fun b h => ?_, by decide +kernel⟩
  · unfold State.enabled
    rw [ported_desk b d hd, ported_config]
    by_cases h : b = 24
    · subst h
      by_cases h1 : d = 1
      · subst h1; decide
      · simp [h1, BoothConfig.default, Desk.disabled]; omega
    · simp [h, BoothConfig.default, Desk.disabled]; omega
  · rw [ported_desk b d hd] at h
    split at h <;> cases h; decide
  · rw [ported_desk b d hd] at h1
    rw [ported_desk x e he] at h2
    split at h1 <;> split at h2 <;> simp_all [deskAt, Desk.disabled]
  · rw [ported_config, if_neg (by omega)]; rfl

/-- The three positions that a write enables take the lowest ports free as their turn comes (R38). -/
theorem test_ports :
    let t := after (exec (.writeBooth 9 [24, 4, 1, 2, 5, 1, 30, 5]) ported)
    [1, 2, 3, 4].map (fun d => (t.desk 24 d).port) = [some 2, some 1, some 3, some 4] := by decide +kernel

theorem test_witness_WriteBooth_ports :
    ported.canTake ⟨0x18, 9, [24, 4, 1, 2, 5, 1, 30, 5]⟩ ∧ ported.booths.desks.canonical .disabled = true ∧
      ported.portsAgree ∧ (∀ x, (ported.config x).enabled ≤ 4) ∧ 4 + ported.otherDesks 24 ≤ 64 ∧
      (ported.config 24).enabled < 2 ∧ (ported.desk 24 1).port = some 2 :=
  ⟨takes rfl _, by decide, ported_agrees, fun x => by rw [ported_config]; split <;> decide, by decide +kernel⟩

theorem test_witness_ReadBoothAndDesks :
    (∀ b, booth24.canTake ⟨0x19, 9, [b]⟩ ∧ booth24.canTake ⟨0x1A, 9, [b]⟩) ∧ (0 : Byte).toNat = 0 ∧
      24 < (25 : Byte).toNat ∧ 1 ≤ (1 : Byte).toNat ∧ (24 : Byte).toNat ≤ 24 :=
  ⟨fun _ => ⟨takes rfl _, takes rfl _⟩, by decide⟩

theorem test_witness_ReadDeskRecords :
    (∀ b, (live24 4).canTake ⟨0x1C, 9, [b]⟩) ∧ (1 ≤ (24 : Byte).toNat ∧ (24 : Byte).toNat ≤ 24) ∧
      (∀ side d, ((live24 4).domain 24 side).liveDesk = some d → d ≤ 4) ∧
      ((live24 4).domain 24 .a).liveDesk = some 4 ∧ (0 : Byte).toNat = 0 ∧ 24 < (25 : Byte).toNat :=
  ⟨fun _ => takes rfl _, by decide, fun side d h => by cases side <;> cases h; decide, rfl, by decide⟩

theorem test_witness_ForceOutputOff :
    (∀ b o, (asked24 5 .take).canTake ⟨0x1B, 9, [b, o]⟩) ∧ (1 ≤ (24 : Byte).toNat ∧ (24 : Byte).toNat ≤ 24) ∧
      (1 : Byte) = (match Side.a with | .a => 1 | .b => 2 : Byte) ∧ (asked24 5 .take).claimed ⟨24, .b⟩ = false ∧
      Side.a = (asked24 5 .take).placeOf 24 .a ∧ (asked24 5 .take).claimed ⟨24, .a⟩ = true ∧
      (∀ d, (((asked24 5 .take).domain 24 .a).liveDesk = some d ∨ ((asked24 5 .take).domain 24 .a).requester = some d) →
        d ≤ 4) ∧
      (asked24 5 .take).check.current = none ∧ ((3 : Byte) ≠ 1 ∧ (3 : Byte) ≠ 2) :=
  ⟨fun _ _ => takes rfl _, by decide, rfl, by decide, rfl, by decide, fun d h => by rcases h with h | h <;> cases h <;>
    decide, rfl, by decide⟩

/-- Output 24A is claimable for desk 4 in `s`, because channel 31 alone holds it. -/
theorem claimable24 {s : State} (hp : s.plan = booth24.plan) : s.claimable ⟨24, .a⟩ := by
  have e : ∀ c, s.planEntry c = booth24.planEntry c := fun c => by unfold State.planEntry; rw [hp]
  refine ⟨31, by decide, by decide, ?_, fun d h1 h2 h => ?_, ?_⟩
  · rw [e]; decide
  · rw [e] at h
    exact lang (P := fun d => ⟨24, .a⟩ ∈ (booth24.planEntry d).outputs → d = 31) (by decide +kernel) d h1 h2 h
  · rw [e]; intro x hx; left; revert x; decide

/-- What a key of desk `e` of booth 24 needs of the console and the desk in `s`. -/
abbrev keyed24 (s : State) (e : Nat) : Prop :=
  1 ≤ e ∧ e ≤ 4 ∧ s.supervisor.consolePoll.map (·.booth) = some 24 ∧ (s.unit 24).state = .present ∧ s.enabled 24 e = true ∧ s.plan.hall = .session ∧
    Side.a = s.deskPlace 24 e ∧ (s.desk 24 e).selection = .a

/-- The idle domain; the live one under HANDSHAKE and under OVERRIDE. -/
theorem test_witness_MicrophoneOn :
    (keyed24 booth24 4 ∧ booth24.deskState 24 4 = .idle ∧ booth24.domain 24 .a = .idle ∧
        booth24.claimable ⟨24, .a⟩) ∧
      (keyed24 (live24 1) 4 ∧ (live24 1).deskState 24 4 = .idle ∧ (live24 1).domain 24 .a = .live 1 ∧
        ((live24 1).config 24).mode = .handshake ∧ (live24 1).claimable ⟨24, .a⟩) ∧
      (let s : State := (live24 1).setConfig 24 { BoothConfig.default with enabled := 4, mode := .override };
        keyed24 s 4 ∧ s.deskState 24 4 = .idle ∧ s.domain 24 .a = .live 1 ∧ (s.config 24).mode = .override ∧
          s.claimable ⟨24, .a⟩ ∧ s.check.current = none) :=
  ⟨⟨by decide +kernel, by decide +kernel, rfl, claimable24 rfl⟩,
    ⟨by decide +kernel, by decide +kernel, rfl, rfl, claimable24 rfl⟩, by decide +kernel, by decide +kernel, rfl,
    rfl, claimable24 rfl, rfl⟩

/-- No channel of `s` holds output 1B, which then is unclaimable. -/
theorem unclaimable1B {s : State} (hp : s.plan = booth1.plan) : s.unclaimable ⟨1, .b⟩ :=
  .inl (lang (P := fun c => ⟨1, .b⟩ ∉ (s.planEntry c).outputs)
    (by unfold State.planEntry; rw [hp]; decide +kernel))

/-- A position that is not enabled, a live desk, and the refusals: SETUP, a pending domain, an output of no channel with
its domain idle, and live under OVERRIDE and HANDSHAKE. -/
theorem test_witness_MicrophoneOn_refused :
    (booth1.enabled 1 3 = false ∧ booth1.supervisor.consolePoll.map (·.booth) = some 1 ∧
        (booth1.unit 1).state = .present) ∧ (live24 1).deskState 24 1 ≠ .idle ∧
      (let s : State := { booth24 with plan := { booth24.plan with hall := .setup } };
        s.plan.hall = .setup ∧ s.awaitsConsole 24 ∧ s.enabled 24 4 = true ∧ s.deskState 24 4 = .idle ∧ (s.unit 24).state = .present) ∧
      ((asked24 5 .take).deskDomain 24 2 = .pending 1 4 5 .take ∧ (asked24 5 .take).deskState 24 2 = .idle ∧
        (asked24 5 .take).enabled 24 2 = true) ∧
      (let s (mode : HandoverMode) (m : Domain) : State :=
          (((booth1.setConfig 1 { BoothConfig.default with enabled := 2, interlock := .dual, mode := mode }).setDesk 1 1
            { deskAt 2 with selection := .b }).setDesk 1 2 { deskAt 3 with selection := .b }).setDomain 1 .b m;
        ((s .handshake .idle).deskDomain 1 2 = .idle ∧ (s .handshake .idle).unclaimable ⟨1, .b⟩) ∧
        ((s .handshake (.live 1)).deskDomain 1 2 = .live 1 ∧ (s .handshake (.live 1)).unclaimable ⟨1, .b⟩) ∧
        ((s .override (.live 1)).deskDomain 1 2 = .live 1 ∧ (s .override (.live 1)).deskState 1 2 = .idle ∧
          ((s .override (.live 1)).setDomain 1 .b .idle).unclaimable ⟨1, .b⟩)) :=
  ⟨by decide +kernel, by decide +kernel, ⟨rfl, rfl, by decide +kernel⟩, by decide +kernel,
    ⟨by decide +kernel, unclaimable1B rfl⟩, ⟨by decide +kernel, unclaimable1B rfl⟩, by decide +kernel, by decide +kernel, unclaimable1B rfl⟩

theorem test_witness_MicrophoneOff :
    (keyed24 (live24 1) 1 ∧ (live24 1).domain 24 .a = .live 1) ∧
      (keyed24 (asked24 5 .take) 1 ∧ (asked24 5 .take).domain 24 .a = .pending 1 4 5 .take ∧ (4 : Nat) ≠ 1) ∧
      (keyed24 (asked24 5 .take) 4 ∧ (asked24 5 .take).deskState 24 2 = .idle) ∧
      (asked24 5 .take).check.current = none := by decide +kernel

/-- A reply of no event, and every key's premises, on a live desk, on an idle one, and with channel 1 relayed from booth 24. -/
theorem test_witness_DeskKeys : ([] : List DeskEvent).length < 8 ∧ (List.replicate 7 (⟨4, .micOn⟩ : DeskEvent)).length < 8 ∧
    (let s : State := (live24 1).setPlanEntry 1 (served 1 ⟨1, .a⟩);
      keyed24 s 1 ∧ s.deskState 24 1 = .live ∧ (s.desk 24 1).cough = !true ∧ (s.desk 24 1).cough = false ∧
        ((s.setDesk 24 1 { deskAt 1 with cough := true }).deskState 24 1 = .live ∧
          ((s.setDesk 24 1 { deskAt 1 with cough := true }).desk 24 1).cough = !false) ∧
        keyed24 s 4 ∧ s.deskState 24 4 = .idle ∧
        ((s.planEntry (1 : Byte).toNat).language ≠ 0 ∧
          ∃ o ∈ (s.planEntry (1 : Byte).toNat).outputs, o.booth ≠ 24) ∧
        (31 : Byte) ≠ 0 ∧ (∀ o ∈ (s.planEntry (31 : Byte).toNat).outputs, o.booth = 24) ∧ 31 < (32 : Byte).toNat ∧
        (s.planEntry (2 : Byte).toNat).language = 0 ∧ s.check.current = none) := by decide +kernel

theorem test_witness_HandoverWindowExpiry :
    (∀ n p, (asked24 n p).domain 24 .a = .pending 1 4 n p ∧ (asked24 n p).check.current = none) ∧
      (1 : Nat) ≠ 4 ∧ 1 < 2 ∧ 1 ≤ 1 ∧ ((live24 1).domain 24 .a).requester = none :=
  ⟨fun _ _ => ⟨rfl, rfl⟩, by decide, by decide, by decide, rfl⟩

theorem test_witness_TurnThresholds :
    (let s (n : Nat) (due late : Bool) : State := (live24 1).setTurn 24 .a ⟨n, some 30, some 5, due, late⟩;
      ∀ due late : Bool, ((s 1799 due late).domain 24 .a).liveDesk = some 1 ∧
        ((s 1799 due late).turn 24 .a).limit = some 30 ∧ ((s 1799 due late).turn 24 .a).overrun = some 5 ∧
        ((s 1799 due late).turn 24 .a).counter + 1 = 30 * 60 ∧
        ((s 1799 due late).turn 24 .a).dueRaised = due ∧ ((s 1799 due late).turn 24 .a).counter + 1 ≠ (30 + 5) * 60 ∧
        ((s 2099 due late).turn 24 .a).counter + 1 = (30 + 5) * 60 ∧
        ((s 2099 due late).turn 24 .a).counter + 1 ≠ 30 * 60 ∧
        ((s 2099 due late).turn 24 .a).overrunRaised = late ∧ ((s 2099 due late).turn 24 .a).counter < 4294967295) := by
  intro s due late; cases due <;> cases late <;> decide +kernel

/-- The whole set of positions 0 to 7 that hold a monitor in `testing`, among those that `m` names. -/
theorem heldIn (m held : MonitorSet) (h : held = m &&& 0x81) :
    ∀ p, held.getLsbD p = true ↔ m.getLsbD p = true ∧ (testing 0x20 3).monitorAt p ≠ none := by
  intro p
  subst h
  have e : (testing 0x20 3).monitorAt p = if p = 0 then some 10 else if p = 7 then some 4095 else none := by
    by_cases h0 : p = 0
    · subst h0; rfl
    · by_cases h7 : p = 7
      · subst h7; rfl
      · have h1 : ¬ 0 = p := fun x => h0 x.symm
        have h2 : ¬ 7 = p := fun x => h7 x.symm
        simp [testing, State.monitorAt, State.setPollList, State.setReceiver, State.setMonitorAt, ready, State.reset,
          Fleet.reset, Table.write, Table.insert, Table.erase, Table.read, h0, h7, h1, h2]
  rw [e, BitVec.getLsbD_and]
  have bit : (0x81 : MonitorSet).getLsbD p = decide (p = 0 ∨ p = 7) := by
    by_cases hp : p < 8
    · clear e; revert hp; revert p; decide
    · rw [BitVec.getLsbD_of_ge _ _ (by omega)]; symm; exact decide_eq_false (by omega)
  rw [bit]
  by_cases h0 : p = 0
  · simp [h0]
  · by_cases h7 : p = 7
    · simp [h7]
    · simp [h0, h7]

/-- `testing` once its check is DONE. -/
def tested : State := { testing 0x20 3 with check := { (testing 0x20 3).check with state := .done, current := none } }

/-- Out of range; BUSY; no monitor; accepted with channel 6 first; and accepted with no channel idle. -/
theorem test_witness_StartCheck :
    (∀ body, tested.canTake ⟨0x20, 9, body⟩ ∧ (testing 0x20 3).canTake ⟨0x20, 9, body⟩) ∧
      (∀ p, (0x81 : MonitorSet).getLsbD p = true ↔
        (0xFF : MonitorSet).getLsbD p = true ∧ tested.monitorAt p ≠ none) ∧
      (∀ p, (0 : MonitorSet).getLsbD p = true ↔ (2 : MonitorSet).getLsbD p = true ∧ tested.monitorAt p ≠ none) ∧
      ((0x60 : ChannelSet) ≠ 0 ∧ (0x60 : ChannelSet).getLsbD 0 = false ∧ (0xFF : MonitorSet) ≠ 0 ∧
        (0x81 : MonitorSet) ≠ 0) ∧
      (0x61 : ChannelSet).getLsbD 0 = true ∧ (testing 0x20 3).check.state = .running ∧ tested.check.state ≠ .running ∧
      (16 : Nat) = max 1 (min (17 : Byte).toNat 16) ∧ (1 : Nat) = max 1 (min (0 : Byte).toNat 16) ∧
      some 6 = (List.range' 1 31).find? (fun c => (0x40 : ChannelSet).getLsbD c &&
        (decide ((tested.withoutTest c).identity = .fallback) || decide ((tested.withoutTest c).identity = .unused))) ∧
      none = (List.range' 1 31).find? (fun c => (0x80000000 : ChannelSet).getLsbD c &&
        (decide (((live24 1).withoutTest c).identity = .fallback) ||
          decide (((live24 1).withoutTest c).identity = .unused))) :=
  ⟨fun _ => ⟨takes rfl _, takes rfl _⟩, heldIn 0xFF 0x81 rfl, heldIn 2 0 rfl, by decide +kernel⟩

/-- Not running and running; a dwell above 1 and at 1; channel 6 next and none next. -/
theorem test_witness_CheckEnds :
    (ready.canTake ⟨0x21, 9, []⟩ ∧ ready.check.state ≠ .running ∧ (testing 0x20 1).canTake ⟨0x21, 9, []⟩ ∧
        (testing 0x20 1).check.state = .running) ∧
      ready.check.current = none ∧ 1 < (testing 0x20 2).check.dwell ∧
      (∀ set, (testing set 1).check.current = some 5 ∧ (testing set 1).check.dwell ≤ 1 ∧
        (testing set 1).check.program = some ⟨set, 0x81, 1000, 3⟩) ∧
      some 6 = (List.range' 1 31).find? (fun d => decide (5 < d) && (0x60 : ChannelSet).getLsbD d &&
        (decide (((testing 0x60 1).withoutTest d).identity = .fallback) ||
          decide (((testing 0x60 1).withoutTest d).identity = .unused))) ∧
      none = (List.range' 1 31).find? (fun d => decide (5 < d) && (0x20 : ChannelSet).getLsbD d &&
        (decide (((testing 0x20 1).withoutTest d).identity = .fallback) ||
          decide (((testing 0x20 1).withoutTest d).identity = .unused))) :=
  ⟨⟨takes rfl _, by decide, takes rfl _, rfl⟩, rfl, by decide, fun _ => ⟨rfl, Nat.le_refl _, rfl⟩, by decide +kernel⟩

theorem test_witness_ReadCheck :
    ready.canTake ⟨0x22, 9, []⟩ ∧ (testing 0x20 3).canTake ⟨0x22, 9, []⟩ ∧ ready.check.program = none ∧
      (testing 0x20 3).check.program = some ⟨0x20, 0x81, 1000, 3⟩ ∧
      ∀ c, (0 : ChannelSet).getLsbD c = true ↔ 1 ≤ c ∧ c ≤ 31 ∧ ready.failed c = true :=
  ⟨takes rfl _, takes rfl _, rfl, rfl, fun c => ⟨fun h => by simp at h, fun h => by cases h.2.2⟩⟩

/-- The monitor at position 0 polled on channel 5 with the other entry open, below its repeats and at them; with the other
entry settled, channel 6 next and none next; and a poll of another channel, of an earlier test, and of a settled entry. -/
theorem test_witness_MonitorPolls :
    (let s (polls : Nat) : State :=
        ((testing 0x20 3).setProgress 0 ⟨polls, true⟩).setInFlight (some ⟨10, .l3, none, some ⟨5, 1⟩⟩);
      (s 2).check.current = some 5 ∧ (s 2).check.program = some ⟨0x20, 0x81, 1000, 3⟩ ∧
        (s 2).check.generator = some 2285 ∧
        (s 2).beacon.inFlight = some ⟨10, .l3, none, some ⟨5, (s 2).check.placements⟩⟩ ∧ 10 ∈ (s 2).beacon.l3.members ∧
        (s 2).positionOf 10 = some 0 ∧ (0x81 : MonitorSet).getLsbD 0 = true ∧ (s 2).result 5 0 = .notRun ∧
        (7 : Nat) ≠ 0 ∧ 7 < 8 ∧ (0x81 : MonitorSet).getLsbD 7 = true ∧ (s 2).result 5 7 = .notRun ∧
        (2284 : Code16) ≠ 2285 ∧ ((s 1).progress 0).polls + 1 < 3 ∧ 3 ≤ ((s 2).progress 0).polls + 1) ∧
      (let s (set : ChannelSet) : State := (((testing set 3).setProgress 0 ⟨2, true⟩).setResult 5 7 .pass).setInFlight
          (some ⟨10, .l3, none, some ⟨5, 1⟩⟩);
        (s 0x20).check.program = some ⟨0x20, 0x81, 1000, 3⟩ ∧ (s 0x20).result 5 0 = .notRun ∧
          (∀ n, n < 8 → n ≠ 0 → (0x81 : MonitorSet).getLsbD n = true → (s 0x20).result 5 n ≠ .notRun) ∧
          3 ≤ ((s 0x20).progress 0).polls + 1 ∧ (none : Option Code16) ≠ some 2285 ∧
          some 6 = (List.range' 1 31).find? (fun d => decide (5 < d) && (0x60 : ChannelSet).getLsbD d &&
            (decide (((s 0x60).withoutTest d).identity = .fallback) ||
              decide (((s 0x60).withoutTest d).identity = .unused))) ∧
          none = (List.range' 1 31).find? (fun d => decide (5 < d) && (0x20 : ChannelSet).getLsbD d &&
            (decide (((s 0x20).withoutTest d).identity = .fallback) ||
              decide (((s 0x20).withoutTest d).identity = .unused))) ∧
          (s 0x20).check.current ≠ some 4 ∧ (s 0x20).check.placements ≠ 0 ∧
          (∃ m, (s 0x20).positionOf 4095 = some m ∧ (s 0x20).result 5 m ≠ .notRun) ∧
          (s 0x20).positionOf 11 = none) :=
  ⟨by decide +kernel, by decide +kernel, by decide +kernel, by decide +kernel, by decide +kernel, by decide,
    by decide +kernel, by decide +kernel, by decide +kernel, by decide +kernel, ⟨7, by decide +kernel⟩, by decide +kernel⟩

/-! The receiver side -/

/-- The cursor of a list whose member under it leaves: the successor, the head after the tail, none of an empty list; and a
cursor elsewhere stays (R103). -/
theorem test_leave :
    (⟨[8, 2, 9], some 2⟩ : PollList).leave 2 = ⟨[8, 9], some 9⟩ ∧ (⟨[8, 9], some 9⟩ : PollList).leave 9 = ⟨[8], some 8⟩ ∧
      (⟨[8], some 8⟩ : PollList).leave 8 = ⟨[], none⟩ ∧ (⟨[8, 9], some 9⟩ : PollList).leave 8 = ⟨[9], some 9⟩ := by decide

/-- A hire of receiver `r` under number `n` and class 7. -/
def hireOf (n r : Nat) (state : HireState) : Hire := ⟨n, r, 77, 127, 7, 5000, state, 10, false, false⟩

/-- A hall whose receivers stand in every state: 4095 DOCKED, 1 RESERVED, 2 OUT, 3 SILENT, 5 STRAY, 6 LOST, 10 MONITOR at
position 7, 7 WITHDRAWN, all others UNKNOWN; hires 1 to 3 open, 4 CLOSING; class 7 is defined. -/
def fleet : State :=
  let u : Receiver := Receiver.unseen
  { hall with
    racks := { slots := [(65, some 1), (66, some 7), (1072, some 4095)] }
    fleet := {
      receivers := [
        (1, { u with state := .reserved, location := some ⟨1, 1⟩, band := 4, hire := some 1 }),
        (2, { u with state := .out, hire := some 2, tuned := some 31, lastReply := some 150, misses := 4 }),
        (3, { u with state := .silent, hire := some 3, tuned := some 0, silentSince := some 100 }),
        (5, { u with state := .stray }), (6, { u with state := .lost }),
        (7, { u with state := .withdrawn, location := some ⟨1, 2⟩ }), (10, { u with state := .monitor }),
        (4095, { u with state := .docked, location := some ⟨16, 48⟩, band := 7 })]
      monitors := [(7, some 10)] }
    beacon := { hall.beacon with
      l0 := ⟨[2], some 2⟩, l1 := ⟨[5], some 5⟩, l2 := ⟨[3], some 3⟩, l3 := ⟨[10], some 10⟩, listeners := [(31, 1)] }
    hires := {
      records := [(1, some (hireOf 1 1 (.pending 1))), (2, some (hireOf 2 2 (.active 50 0))),
        (3, some (hireOf 3 3 (.active 60 0))), (4, some (hireOf 4 20 (.closing 20 0 90 0)))]
      next := 5 }
    money := { hall.money with tariffs := [(7, classOf94)] }
    clock := { hall.clock with seconds := 200 } }

/-- `fleet` with a poll of receiver `r` from list `i` under `hire` in flight. -/
def polled (r : Nat) (i : ListId) (hire : Option Nat) : State := fleet.setInFlight (some ⟨r, i, hire, none⟩)

theorem test_witness_ReadReceiverAndRack :
    (∀ body, fleet.canTake ⟨0x28, 9, body⟩ ∧ fleet.canTake ⟨0x29, 9, body⟩) ∧ 4095 < 4096 ∧ 4096 < 65536 ∧
      (∀ p, p ≤ 7 → fleet.monitorAt p = some 10 → (∀ q, q < p → fleet.monitorAt q ≠ some 10) → (7 : Byte) = byteOf p) ∧
      (∀ p, p ≤ 7 → fleet.monitorAt p ≠ some 4095) ∧ (0 : Byte).toNat = 0 ∧ 16 < (17 : Byte).toNat ∧
      1 ≤ (1 : Byte).toNat ∧ (16 : Byte).toNat ≤ 16 :=
  ⟨fun _ => ⟨takes rfl _, takes rfl _⟩, by decide, by decide,
    fun p hp h _ => by revert h; revert p; decide, by decide, by decide⟩

/-- Every clause of SET_MONITOR and CLEAR_MONITOR: ranges, a running check, each state, moved, replaced and new. -/
theorem test_witness_Monitors :
    (∀ body, fleet.canTake ⟨0x2A, 9, body⟩ ∧ fleet.canTake ⟨0x2B, 9, body⟩ ∧ (testing 1 1).canTake ⟨0x2A, 9, body⟩ ∧
        (testing 1 1).canTake ⟨0x2B, 9, body⟩) ∧
      7 < (8 : Byte).toNat ∧ (7 : Byte).toNat ≤ 7 ∧ (testing 1 1).check.state = .running ∧
      fleet.check.state ≠ .running ∧ ((fleet.receiver 1).state = .reserved ∧ (fleet.receiver 2).state = .out ∧
        (fleet.receiver 3).state = .silent ∧ (fleet.receiver 6).state = .lost) ∧
      ((fleet.receiver 0).state = .unknown ∧ (fleet.receiver 4095).state = .docked ∧
        (fleet.receiver 5).state = .stray ∧ (fleet.receiver 10).state = .monitor ∧
        (fleet.receiver 7).state = .withdrawn) ∧
      (fleet.monitorAt 7 = some 10 ∧ fleet.monitorAt 0 ≠ some 10 ∧ fleet.positionOf 10 = some 7 ∧
        fleet.monitorAt 7 ≠ some 4095 ∧ fleet.positionOf 4095 = none ∧ fleet.monitorAt 0 = none) :=
  ⟨fun _ => ⟨takes rfl _, takes rfl _, takes rfl _, takes rfl _⟩, by decide +kernel⟩

theorem test_witness_WithdrawAndRestore :
    (∀ body, fleet.canTake ⟨0x2C, 9, body⟩ ∧ fleet.canTake ⟨0x2D, 9, body⟩) ∧ 4095 < 4096 ∧
      ((fleet.receiver 0).state = .unknown ∧ (fleet.receiver 4095).state = .docked ∧ (fleet.receiver 6).state = .lost ∧
        (fleet.receiver 5).state = .stray ∧ (fleet.receiver 7).state = .withdrawn ∧
        (fleet.receiver 1).state = .reserved ∧ (fleet.receiver 10).state = .monitor) :=
  ⟨fun _ => ⟨takes rfl _, takes rfl _⟩, by decide +kernel⟩

/-- `fleet` with rack 1 polled, and with rack 16 polled. -/
theorem fleet_asked : fleet.awaitsRack 1 ∧ (asking 24 16 fleet).awaitsRack 16 ∧ (fleet.unit 25).state = .present ∧
    ((asking 24 16 fleet).unit 40).state = .present := ⟨rfl, rfl, by decide +kernel⟩

theorem test_witness_RackUndock :
    ((fleet.unit 25).state = .present ∧ (fleet.unit 40).state = .present) ∧ fleet.slot ⟨1, 3⟩ = none ∧
      (fleet.slot ⟨1, 2⟩ = some 7 ∧ (fleet.receiver 7).state = .withdrawn) ∧
      (fleet.slot ⟨16, 48⟩ = some 4095 ∧ (fleet.receiver 4095).state = .docked) ∧
      (fleet.slot ⟨1, 1⟩ = some 1 ∧ (fleet.receiver 1).state = .reserved ∧ (fleet.receiver 1).hire = some 1 ∧
        fleet.hire 1 = some (hireOf 1 1 (.pending 1)) ∧ (hireOf 1 1 (.pending 1)).receiver = 1) := by decide +kernel

/-- Each receiver state over an empty slot, a repeat, a relocation, a battery report and a report out of range; a DOCKED
and a RESERVED receiver displaced by receiver 0; and a reply of fifteen reports. -/
theorem test_witness_RackDock :
    ((fleet.unit 25).state = .present ∧ (fleet.unit 40).state = .present) ∧ 48 < 49 ∧ 4095 < 4096 ∧
      (fleet.slot ⟨16, 48⟩ = some 4095 ∧ (fleet.receiver 4095).location = some ⟨16, 48⟩) ∧
      (fleet.slot ⟨1, 48⟩ = none ∧ (⟨16, 48⟩ : Location) ≠ ⟨1, 48⟩) ∧
      ((fleet.receiver 10).location = none ∧ (fleet.receiver 10).state = .monitor) ∧
      ((fleet.receiver 0).location = none ∧ (fleet.receiver 0).state = .unknown) ∧
      ((fleet.receiver 6).location = none ∧ (fleet.receiver 6).state = .lost) ∧
      ((fleet.receiver 5).location = none ∧ (fleet.receiver 5).state = .stray) ∧
      ((fleet.receiver 4095).state = .docked ∧ (4095 : Nat) ≠ 0) ∧
      (fleet.slot ⟨1, 1⟩ = some 1 ∧ (fleet.receiver 1).state = .reserved ∧ (fleet.receiver 1).hire = some 1 ∧
        fleet.hire 1 = some (hireOf 1 1 (.pending 1)) ∧ (hireOf 1 1 (.pending 1)).receiver = 1) ∧
      (List.replicate 15 (RackReport.undock 1)).length < 16 := by decide +kernel

/-- An OUT and a SILENT receiver over an empty slot, with room in the settlement queue and with none. -/
theorem test_witness_DockClosesHire :
    (fleet.unit 25).state = .present ∧ fleet.slot ⟨1, 48⟩ = none ∧
      ((fleet.receiver 2).location = none ∧ (fleet.receiver 2).state = .out ∧ (fleet.receiver 2).hire = some 2 ∧
        fleet.hire 2 = some (hireOf 2 2 (.active 50 0)) ∧ (fleet.receiver 2).tuned = some 31 ∧
        (fleet.receiver 2).lastReply = some 150) ∧
      ((fleet.receiver 3).location = none ∧ (fleet.receiver 3).state = .silent ∧ (fleet.receiver 3).hire = some 3 ∧
        fleet.hire 3 = some (hireOf 3 3 (.active 60 0))) ∧
      fleet.money.queue.length < 256 ∧
      256 ≤ (List.replicate 256 (settlementOf classOf94 (hireOf 9 9 (.active 0 0)) 0 0 1 0)).length := by decide +kernel

/-- `fleet` after its consoles and racks were lost, with desk 1 of booth 24 live. -/
def outage : State :=
  { fleet with
    plan := booth24.plan
    booths := (booth24.setDomain 24 .a (.live 1)).booths
    supervisor := { fleet.supervisor with units := allUnits.map fun u => (u, { state := .lost, failures := 4 }) } }

/-- A console with no desk live, with one, and with one and its requester; one with both domains idle and an output that
may be claimed; a rack with an empty map, one with the reserved receiver alone, an unknown receiver over an empty map, and
slot 48 of rack 16, which holds receiver 4095 alone, shown with it and with receiver 0; the OUT receiver 2 and the SILENT
receiver 3, and receiver 4095 of rack 16, found in a slot of rack 2; and receiver 4095 moved up and down in a rack. -/
theorem test_witness_ReturnsReconcile :
    ((asking 1 2 outage).awaitsConsole 1 ∧ outage.awaitsConsole 24 ∧ (asking 1 2 outage).awaitsRack 2 ∧
        outage.awaitsRack 1 ∧ (asking 1 16 outage).awaitsRack 16) ∧
      ((outage.unit 1).state ≠ .present ∧ ∀ d, 1 ≤ d → d ≤ 4 → outage.enabled 1 d = true → outage.deskState 1 d = .idle) ∧
      ((outage.unit 24).state ≠ .present ∧ outage.enabled 24 1 = true ∧ Side.a = outage.deskPlace 24 1 ∧
        outage.domain 24 .a = .live 1 ∧
        ∀ d, d < 5 → 1 ≤ d → d ≠ 1 → outage.enabled 24 d = true → outage.deskState 24 d = .idle) ∧
      (let s : State := outage.setDomain 24 .a (.pending 1 4 5 .take);
        s.enabled 24 1 = true ∧ s.enabled 24 4 = true ∧ Side.a = s.deskPlace 24 1 ∧ Side.a = s.deskPlace 24 4 ∧
          s.domain 24 .a = .pending 1 4 5 .take ∧
          ∀ d, d < 5 → 1 ≤ d → d ≠ 1 → d ≠ 4 → s.enabled 24 d = true → s.deskState 24 d = .idle) ∧
      (let s : State := { outage.setDomain 24 .a .idle with plan := { outage.plan with hall := .session } };
        s.enabled 24 4 = true ∧ s.plan.hall = .session ∧ (∀ side, s.domain 24 side = .idle) ∧
          Side.a = s.placeOf 24 .a ∧ s.claimable ⟨24, .a⟩) ∧
      ((outage.unit 26).state ≠ .present ∧ (∀ y, y < 49 → 1 ≤ y → outage.slot ⟨2, y⟩ = none) ∧
        (outage.receiver 0).location = none ∧ (outage.receiver 0).state = .unknown) ∧
      (let s : State := outage.setSlot ⟨1, 2⟩ none;
        (s.unit 25).state ≠ .present ∧ (∀ y, y < 49 → 1 ≤ y → y ≠ 1 → s.slot ⟨1, y⟩ = none) ∧
          s.slot ⟨1, 1⟩ = some 1 ∧ (s.receiver 1).state = .reserved ∧ (s.receiver 1).hire = some 1 ∧
          s.hire 1 = some (hireOf 1 1 (.pending 1)) ∧ (s.faultRecord 25).fault = none) ∧
      ((outage.unit 40).state ≠ .present ∧ (∀ y, y < 49 → 1 ≤ y → y ≠ 48 → outage.slot ⟨16, y⟩ = none) ∧
        outage.slot ⟨16, 48⟩ = some 4095 ∧ (outage.receiver 4095).state = .docked ∧ (4095 : Nat) ≠ 0) ∧
      ((outage.receiver 2).location = none ∧ (outage.receiver 2).state = .out ∧ (outage.receiver 2).hire = some 2 ∧
        outage.hire 2 = some (hireOf 2 2 (.active 50 0)) ∧ (outage.receiver 3).location = none ∧
        (outage.receiver 3).state = .silent ∧ (outage.receiver 3).hire = some 3 ∧
        outage.hire 3 = some (hireOf 3 3 (.active 60 0))) ∧
      ((outage.receiver 4095).location = some ⟨16, 48⟩ ∧ (⟨16, 48⟩ : Location) ≠ ⟨2, 1⟩ ∧
        ∀ y, y < 49 → 1 ≤ y → y ≠ 47 → outage.slot ⟨16, y⟩ = none ∨ (47 < y ∧ (⟨16, 48⟩ : Location) = ⟨16, y⟩)) ∧
      (let s : State := (outage.setSlot ⟨2, 1⟩ (some 4095)).setReceiver 4095
          { outage.receiver 4095 with location := some ⟨2, 1⟩ };
        s.slot ⟨2, 1⟩ = some 4095 ∧ (s.receiver 4095).location = some ⟨2, 1⟩ ∧ (s.receiver 4095).state = .docked ∧
          ∀ z, z < 49 → 1 ≤ z → z ≠ 1 → s.slot ⟨2, z⟩ = none) :=
  ⟨⟨rfl, rfl, rfl, rfl, rfl⟩, ⟨by decide +kernel, fun d _ _ _ => rfl⟩, by decide +kernel, by decide +kernel,
    ⟨by decide +kernel, rfl, fun side => by cases side <;> rfl, rfl, claimable24 rfl⟩, by decide +kernel,
    by decide +kernel, by decide +kernel, by decide +kernel, by decide +kernel, by decide +kernel⟩

/-- A table's value at a key is what an unlisted key reads as, or is listed under the key. -/
theorem read_cases {α : Type} (d : α) (t : Table α) (k : Nat) : t.read d k = d ∨ (k, t.read d k) ∈ t := by
  induction t with
  | nil => exact .inl rfl
  | cons e t ih =>
    obtain ⟨j, v⟩ := e
    by_cases h : j = k
    · subst h; right; simp [Table.read]
    · simp only [Table.read, h, if_false]
      exact ih.imp id (List.mem_cons_of_mem _)

/-- What holds of an UNKNOWN receiver and of every listed one holds of every receiver of `fleet`. -/
theorem everyReceiver {P : Nat → Receiver → Prop} (h : ∀ r, P r .unseen)
    (hl : ∀ e ∈ fleet.fleet.receivers, P e.1 e.2) (r : Nat) : P r (fleet.receiver r) := by
  rcases read_cases .unseen fleet.fleet.receivers r with e | e
  · rw [show fleet.receiver r = .unseen from e]; exact h r
  · exact hl _ e

/-- The hires of `fleet` and their numbers. -/
theorem everyHire {n : Nat} {h : Hire} (e : fleet.hire n = some h) :
    (n = 1 ∧ h = hireOf 1 1 (.pending 1)) ∨ (n = 2 ∧ h = hireOf 2 2 (.active 50 0)) ∨
      (n = 3 ∧ h = hireOf 3 3 (.active 60 0)) ∨ (n = 4 ∧ h = hireOf 4 20 (.closing 20 0 90 0)) := by
  rcases read_cases none fleet.hires.records n with x | x
  · exact absurd (x.symm.trans e) (by simp)
  · rw [show fleet.hires.records.read none n = some h from e] at x
    simpa [fleet] using x

theorem fleet_slotsAgree : fleet.slotsAgree := by
  intro r l
  constructor
  · exact everyReceiver (P := fun r e => e.location = some l → l.fits ∧ fleet.slot l = some r)
      (fun r h => by cases h) (by
        intro e he
        simp only [fleet, List.mem_cons, List.not_mem_nil, or_false] at he
        rcases he with rfl | rfl | rfl | rfl | rfl | rfl | rfl | rfl <;> intro h <;> cases h <;>
          exact ⟨by unfold Location.fits; decide, by decide⟩) r
  · rintro ⟨f, h⟩
    rcases read_cases none fleet.racks.slots (slotKey l) with x | x
    · exact absurd (x.symm.trans h) (by simp)
    · rw [show fleet.racks.slots.read none (slotKey l) = some r from h] at x
      obtain ⟨k, y⟩ := l
      have x : (k * 64 + y = 65 ∧ r = 1) ∨ (k * 64 + y = 66 ∧ r = 7) ∨ (k * 64 + y = 1072 ∧ r = 4095) := by
        simpa [fleet, slotKey] using x
      obtain ⟨f1, f2, f3, f4⟩ := f
      dsimp only at f1 f2 f3 f4
      rcases x with ⟨x, rfl⟩ | ⟨x, rfl⟩ | ⟨x, rfl⟩
      · obtain ⟨rfl, rfl⟩ : k = 1 ∧ y = 1 := by omega
        decide
      · obtain ⟨rfl, rfl⟩ : k = 1 ∧ y = 2 := by omega
        decide
      · obtain ⟨rfl, rfl⟩ : k = 16 ∧ y = 48 := by omega
        decide

theorem fleet_hiresAgree : fleet.hiresAgree := by
  refine ⟨fun n h e => ?_, everyReceiver (P := fun r e => match e.hire with
      | some n => ∃ h, fleet.hire n = some h ∧ h.receiver = r ∧ h.state.holds e.state = true
      | none => e.state ≠ .reserved ∧ e.state ≠ .out ∧ e.state ≠ .silent) (fun _ => ⟨nofun, nofun, nofun⟩) ?_, by decide⟩
  · rcases everyHire e with ⟨rfl, rfl⟩ | ⟨rfl, rfl⟩ | ⟨rfl, rfl⟩ | ⟨rfl, rfl⟩
    · exact ⟨rfl, rfl, rfl⟩
    · exact ⟨rfl, rfl, rfl⟩
    · exact ⟨rfl, rfl, rfl⟩
    · exact ⟨rfl, trivial⟩
  · intro e he
    simp only [fleet, List.mem_cons, List.not_mem_nil, or_false] at he
    rcases he with rfl | rfl | rfl | rfl | rfl | rfl | rfl | rfl
    · exact ⟨hireOf 1 1 (.pending 1), by decide⟩
    · exact ⟨hireOf 2 2 (.active 50 0), by decide⟩
    · exact ⟨hireOf 3 3 (.active 60 0), by decide⟩
    all_goals exact ⟨nofun, nofun, nofun⟩

/-- Every receiver, monitor, list, hire and silence of `fleet` agrees. -/
theorem fleet_agrees : fleet.fleetAgrees := by
  have atSeven {p r : Nat} (h : fleet.monitorAt p = some r) : p = 7 ∧ r = 10 := by
    rcases read_cases none fleet.fleet.monitors p with x | x
    · exact absurd (x.symm.trans h) (by simp)
    · rw [show fleet.fleet.monitors.read none p = some r from h] at x
      simpa [fleet] using x
  have one (n : Nat) : (⟨[n], some n⟩ : PollList).sound := ⟨by simp, by simp⟩
  refine ⟨fleet_slotsAgree, ⟨one 2, one 5, one 3, one 10, fun r => ⟨?_, ?_, ?_, ?_⟩⟩, ⟨fun r => ⟨?_, ?_⟩, ?_⟩,
    fleet_hiresAgree, everyReceiver (P := fun _ e => e.locationFits ∧ e.silenceFits)
      (fun _ => ⟨rfl, by unfold Receiver.silenceFits; decide⟩) ?_⟩
  iterate 4
    exact ⟨fun h => by cases List.mem_singleton.1 h; rfl,
      everyReceiver (P := fun r e => e.state = _ → r ∈ _) (fun _ h => by cases h) (by decide) r⟩
  · exact everyReceiver (P := fun r e => e.state = .monitor → ∃ p, p ≤ 7 ∧ fleet.monitorAt p = some r)
      (fun _ h => by cases h) (fun e he h => ⟨7, by decide, by
        revert h; revert e; decide⟩) r
  · rintro ⟨p, -, h⟩; rw [(atSeven h).2]; rfl
  · intro p q r _ _ hp hq; rw [(atSeven hp).1, (atSeven hq).1]
  · intro e he
    simp only [fleet, List.mem_cons, List.not_mem_nil, or_false] at he
    rcases he with rfl | rfl | rfl | rfl | rfl | rfl | rfl | rfl <;>
      exact ⟨by unfold Receiver.locationFits; trivial, by unfold Receiver.silenceFits; decide⟩

/-- `booth24` once desk 4 has taken the microphone. -/
def onAir : State := after (exec (.consoleReply 24 (.events [⟨4, .micOn⟩])) booth24)

theorem onAir_plan : onAir.plan = booth24.plan := by decide +kernel
theorem onAir_domains : onAir.booths.domains = [(48, .live 4)] := by decide +kernel
theorem onAir_turns : onAir.turns.turns = [(48, ⟨0, some 30, some 5, false, false⟩)] := by decide +kernel

theorem onAir_values : onAir.valuesFit := by
  have hb : onAir.booths.configs = booth24.booths.configs := by decide +kernel
  have hm : onAir.money = ready.money := by decide +kernel
  have hp : ∀ c, onAir.planEntry c = booth24.planEntry c := fun c => by unfold State.planEntry; rw [onAir_plan]
  refine ⟨fun c => ?_, by decide +kernel, fun b => ?_, fun k => ?_, by decide +kernel,
    by unfold Limits.fits; decide +kernel⟩
  · rw [hp]
    unfold State.planEntry
    split
    · exact ⟨by decide, by decide, nofun⟩
    · rcases read_cases PlanEntry.unused booth24.plan.entries c with e | e
      · rw [e]; exact ⟨by decide, by decide, nofun⟩
      · have e2 := (Prod.mk.inj (List.mem_singleton.1 e)).2
        rw [e2]; exact ⟨by decide, by decide, nofun⟩
  · unfold State.config
    rw [hb]
    rcases read_cases BoothConfig.default booth24.booths.configs b with e | e
    · rw [e]; unfold BoothConfig.fits; decide
    · have e2 := (Prod.mk.inj (List.mem_singleton.1 e)).2
      rw [e2]; unfold BoothConfig.fits; decide
  · unfold State.tariff
    rw [hm]; exact rfl

theorem onAir_turnsFit : onAir.turnsFit := by
  intro b side h
  unfold State.turn
  rw [onAir_turns]
  unfold State.domain at h
  rw [onAir_domains] at h
  by_cases k : 48 = domainKey b side
  · simp [Table.read, k, Domain.liveDesk] at h
  · simp [Table.read, k]

theorem onAir_claims : onAir.claimsAgree := by
  have hp : ∀ c, onAir.planEntry c = booth24.planEntry c := fun c => by unfold State.planEntry; rw [onAir_plan]
  have only : ∀ c, 1 ≤ c → c ≤ 31 → ∀ o, o ∈ (onAir.planEntry c).outputs → c = 31 ∧ o = ⟨24, .a⟩ :=
    lang (P := fun c => ∀ o, o ∈ (onAir.planEntry c).outputs → c = 31 ∧ o = ⟨24, .a⟩) (by
      intro d h1 h2 o ho
      rw [hp] at ho
      have : ∀ d, d < 32 → ∀ o ∈ (booth24.planEntry d).outputs, d = 31 ∧ o = ⟨24, .a⟩ := by decide +kernel
      exact this d h1 o ho)
  refine ⟨fun c d o c1 c2 d1 d2 h1 h2 => ?_, fun b side b1 b2 => ?_, fun c o x c1 c2 h1 h2 _ _ => ?_⟩
  · rw [(only c c1 c2 o h1).1, (only d d1 d2 o h2).1]
  · unfold State.domainFits State.domain
    rw [onAir_domains]
    by_cases k : 48 = domainKey b side
    · obtain ⟨rfl, rfl⟩ : b = 24 ∧ side = .a := by
        cases side <;> simp [domainKey, sideIndex] at k
        · exact ⟨by omega, rfl⟩
        · omega
      exact (by decide +kernel : onAir.enabled 24 4 = true ∧ onAir.deskPlace 24 4 = .a ∧
        onAir.channelOf ⟨24, (onAir.desk 24 4).selection⟩ ≠ none)
    · simp [Table.read, k]
  · rw [(only c c1 c2 o h1).2, (only c c1 c2 x h2).2]

/-- A state with a desk on air, and for the ports one with a desk that holds one. -/
theorem test_witness_BoothsStaySound_SourcesStaySettled :
    onAir.valuesFit ∧ onAir.setupQuiet ∧ onAir.turnsFit ∧ onAir.claimsAgree ∧ onAir.sourcesSettled ∧ onAir.testSound ∧
      ((onAir.source 31).identity = .booth ⟨24, .a⟩ ∧ ∃ t, step onAir = .next t) ∧
      ported.tablesCanonical ∧ ported.valuesFit ∧ ported.portsAgree ∧ ∃ t, step ported = .next t := by
  have hall : onAir.plan.hall = .session := by rw [onAir_plan]; rfl
  have feeds : ∀ b, b < 25 → 1 ≤ b → onAir.feed b = onAir.formFeed b := by decide +kernel
  refine ⟨onAir_values, fun h => absurd (hall.symm.trans h) (by decide), onAir_turnsFit, onAir_claims,
    ⟨by decide +kernel, fun b h1 h2 => feeds b (by omega) h1⟩,
    fun c h => absurd ((by decide +kernel : onAir.check.current = none).symm.trans h) nofun, ⟨by decide +kernel, ?_⟩,
    by unfold State.tablesCanonical; decide +kernel, ⟨fun c => ?_, by decide, fun b => ?_, fun _ => rfl, by decide,
      by unfold Limits.fits; decide⟩, ported_agrees, _, rfl⟩
  rotate_left
  · unfold State.planEntry
    split
    · exact ⟨by decide, by decide, nofun⟩
    · exact (⟨by decide, by decide, nofun⟩ : PlanEntry.unused.fits)
  · rw [ported_config]; unfold BoothConfig.fits; split <;> decide
  have hq : onAir.pending = [] := by decide +kernel
  unfold step
  rw [hq]
  exact ⟨_, rfl⟩

/-- The receiver side at work, with a request at the front of the queue. -/
theorem test_witness_StoresStaySound_FleetStaysAgreed :
    (let s : State := { fleet with pending := [.declareLost 9 (be32 2)] };
      s.queuesBounded ∧ s.tablesCanonical ∧ s.fleetAgrees ∧ s.listenersAgree ∧ ∃ t, step s = .next t) ∧
      onAir.queuesBounded ∧ onAir.tablesCanonical ∧ onAir.valuesFit := by
  refine ⟨⟨by unfold State.queuesBounded; decide +kernel, by unfold State.tablesCanonical; decide +kernel, fleet_agrees,
    fun c => ?_, _, rfl⟩, by unfold State.queuesBounded; decide +kernel, by unfold State.tablesCanonical; decide +kernel,
    onAir_values⟩
  by_cases h : 31 = c
  · subst h; decide
  · show fleet.listeners c = fleet.outTuned c
    simp [State.listeners, State.outTuned, fleet, Table.read, h, State.receiver, Receiver.unseen]

/-- The link, the clock, the polls and the check at work: a reply sent, the reference settling, units polled, and channel
5 of a program under test. -/
theorem test_witness_StoresStaySound_blocks :
    replying.linkFits ∧
      ({ ready with clock := { ready.clock with phase := .settling, stable := some 95999 } } : State).clockFits ∧
      (asking 24 16 { ready with pending := [.consolePoll] }).supervisor.nextConsole = 1 ∧ ready.pollsFit ∧
      (testing 0x20 1).checkFits ∧ ∀ s, s.pending = [] → ∃ t, step s = .next t := by
  refine ⟨⟨rfl, nofun, nofun⟩, ⟨by decide, by decide, by decide, by decide, 95999, rfl, by decide⟩, rfl,
    ⟨by decide, nofun, nofun, fun _ => Nat.zero_le _⟩, ⟨⟨nofun, fun _ => rfl⟩, fun c h => ?_⟩, fun s h => ?_⟩
  · cases h
    refine ⟨_, rfl, by decide, by decide, by decide, by decide, by decide, by decide, by decide, by decide, fun m h => ?_⟩
    exact ((heldIn 0xFF 0x81 rfl m).1 h).2
  · unfold step; rw [h]; exact ⟨_, rfl⟩

theorem test_witness_ScheduleAndListeners :
    ready.canTake ⟨0x2E, 9, [64, 63, 0, 255]⟩ ∧ (⟨63, 63, 0, 63⟩ : Schedule) =
      ⟨min (64 : Byte).toNat 63, min (63 : Byte).toNat 63, min (0 : Byte).toNat 63, min (255 : Byte).toNat 63⟩ ∧
      ready.canTake ⟨0x2F, 9, []⟩ := ⟨takes rfl _, by decide, takes rfl _⟩

/-- The radiator absent, a poll in flight, no list with a member, with polls sent and with none; a poll of the phase itself
with its cursor in mid-list, of the next phase after a share, after a list shorter than its count, and after all three
others are empty. -/
theorem test_witness_BeaconPollSend :
    ((ready.unit 41).state ≠ .present ∧ (polled 2 .l0 (some 2)).beacon.inFlight ≠ none) ∧
      ((∀ i, (ready.pollList i).members = []) ∧ ready.beacon.sent = 0) ∧
      ((hall.unit 41).state = .present ∧ hall.beacon.inFlight = none ∧ (∀ i, (hall.pollList i).members = []) ∧
        0 < ({ hall.beacon with sent := 1 } : Beacon).sent) ∧
      (let s (phase : ListId) (sent k : Nat) (l0 : PollList) : State :=
          { fleet with beacon := { fleet.beacon with phase := phase, sent := sent, l0 := l0, counts := ⟨k, k, k, k⟩ } };
        let three : PollList := ⟨[8, 2, 9], some 2⟩;
        (∀ p n k l, ((s p n k l).unit 41).state = .present ∧ (s p n k l).beacon.inFlight = none) ∧
        (0 < min (0 + 1) ((s .l0 0 0 three).pollList .l0).members.length ∧
          ((s .l0 0 0 three).pollList .l0).cursor = some 2 ∧
          ((s .l0 0 0 three).pollList .l0).members = [8] ++ 2 :: [9] ∧ 2 ∉ ([8] : List Nat)) ∧
        (min (0 + 1) ((s .l0 1 0 three).pollList .l0).members.length ≤ (s .l0 1 0 three).beacon.sent ∧
          ((s .l0 1 0 three).pollList .l1).cursor = some 5 ∧ ((s .l0 1 0 three).pollList .l1).members = [] ++ 5 :: []) ∧
        min (63 + 1) ((s .l0 3 63 three).pollList .l0).members.length ≤ (s .l0 3 63 three).beacon.sent ∧
        (let t : State := { s .l0 1 0 ⟨[2], some 2⟩ with beacon :=
            { (s .l0 1 0 ⟨[2], some 2⟩).beacon with l1 := .empty, l2 := .empty, l3 := .empty } };
          min (0 + 1) (t.pollList .l0).members.length ≤ t.beacon.sent ∧ (t.pollList .l1).members = [] ∧
            (t.pollList .l2).members = [] ∧ (t.pollList .l3).members = [] ∧ (t.pollList .l0).cursor = some 2)) :=
  ⟨by decide +kernel, ⟨fun i => by cases i <;> rfl, rfl⟩, ⟨by decide +kernel, rfl, fun i => by cases i <;> rfl, by decide⟩,
    fun _ _ _ _ => ⟨rfl, rfl⟩, by decide +kernel⟩

theorem test_witness_BeaconReplies :
    ((polled 2 .l0 (some 2)).beacon.inFlight = some ⟨2, .l0, some 2, none⟩ ∧
        2 ∈ (polled 2 .l0 (some 2)).beacon.l0.members ∧ ((polled 2 .l0 (some 2)).receiver 2).hire = some 2 ∧
        (polled 2 .l0 (some 2)).hire 2 = some (hireOf 2 2 (.active 50 0)) ∧
        ((polled 2 .l0 (some 2)).receiver 2).tuned = some 31 ∧
        ((polled 2 .l0 (some 2)).receiver 2).lastReply = some 150 ∧ (polled 2 .l0 (some 2)).lowMark 2 = false ∧
        1 ≤ (polled 2 .l0 (some 2)).limits.lowBand) ∧
      (polled 3 .l2 (some 3)).beacon.inFlight = some ⟨3, .l2, some 3, none⟩ ∧
      3 ∈ (polled 3 .l2 (some 3)).beacon.l2.members ∧ ((polled 3 .l2 (some 3)).receiver 3).hire = some 3 ∧
      (polled 3 .l2 (some 3)).hire 3 = some (hireOf 3 3 (.active 60 0)) ∧
      ((polled 3 .l2 (some 3)).receiver 3).tuned = some 0 ∧
      (5 ∈ ((polled 5 .l1 none).pollList .l1).members ∧ 10 ∈ ((polled 10 .l3 none).pollList .l3).members) := by
  decide +kernel

/-- A miss that reaches the miss limit 5, one below the limit 6, one of each other list, a poll whose receiver left the list, one whose receiver
holds another hire, and no poll in flight. -/
theorem test_witness_BeaconMisses :
    (let s : State := polled 2 .l0 (some 2);
      s.beacon.inFlight = some ⟨2, .l0, some 2, none⟩ ∧ 2 ∈ s.beacon.l0.members ∧ (s.receiver 2).hire = some 2 ∧
        5 = min ((s.receiver 2).misses + 1) 15 ∧ s.limits.missLimit ≤ 5 ∧
        5 < ({ s with limits := { s.limits with missLimit := 6 } } : State).limits.missLimit) ∧
      (5 ∈ ((polled 5 .l1 none).pollList .l1).members ∧ 10 ∈ ((polled 10 .l3 none).pollList .l3).members ∧
        3 ∈ ((polled 3 .l2 (some 3)).pollList .l2).members ∧ ((polled 3 .l2 (some 3)).receiver 3).hire = some 3) ∧
      4095 ∉ ((polled 4095 .l1 none).pollList .l1).members ∧
      ((polled 2 .l0 (some 1)).receiver 2).hire ≠ some 1 ∧ fleet.beacon.inFlight = none := by decide +kernel

/-- A silence since 100 before and at its missing time 612, one reported, a window above 1 s and one at 1 s. -/
theorem test_witness_TimersOfOneHire :
    (let s (now : Nat) : State := { fleet with clock := { fleet.clock with seconds := now } };
      (fleet.receiver 3).silentSince = some 100 ∧ (fleet.receiver 3).state = .silent ∧
        (fleet.receiver 3).missingReported = false ∧
        min ((s 610).clock.seconds + 1) 4294967295 < min (100 + 64 * 2 ^ (s 610).limits.missingCode) 4294967295 ∧
        min (100 + 64 * 2 ^ (s 611).limits.missingCode) 4294967295 ≤ min ((s 611).clock.seconds + 1) 4294967295) ∧
      fleet.hire 1 = some (hireOf 1 1 (.pending 1)) ∧
      (fleet.setHire 1 (some (hireOf 1 1 (.pending 2)))).hire 1 = some (hireOf 1 1 (.pending 2)) ∧
      fleet.hire 9 = none := by decide +kernel

/-- Each check of R121, and an OPEN_HIRE that passes them all with its deposit held to the limit, with the number after its
own free and with that number in use. -/
theorem test_witness_OpenHire :
    (∀ body, fleet.canTake ⟨0x30, 9, body⟩) ∧ (999999 : Nat) = min 1000000 999999 ∧ 4095 < 4096 ∧
      127 < (128 : Byte).toNat ∧ 7 < (8 : Byte).toNat ∧ (127 : Byte).toNat ≤ 127 ∧ (7 : Byte).toNat ≤ 7 ∧
      ((fleet.tariff 0).defined = false ∧ (fleet.tariff 7).defined = true) ∧ (fleet.receiver 1).state ≠ .docked ∧
      ((fleet.receiver 4095).state = .docked ∧ (fleet.receiver 4095).location = some ⟨16, 48⟩ ∧
        (fleet.unit 40).state ≠ .lost ∧ (outage.unit 40).state = .lost) ∧
      fleet.limits.issueMinimum ≤ (fleet.receiver 4095).band ∧
      ((fleet.setReceiver 4095 { fleet.receiver 4095 with band := 3 }).receiver 4095).band < fleet.limits.issueMinimum ∧
      fleet.hireList.length < 2048 ∧
      2048 ≤ ({ fleet with hires := { fleet.hires with
        records := (List.range' 1 2048).map fun n => (n, some (hireOf n 9 (.closing 0 0 0 0))) } } : State).hireList.length ∧
      fleet.hires.next = 5 ∧
      (let s : State := fleet.setHire 6 (some (hireOf 6 21 (.closing 20 0 90 0)));
        let body : List Byte := be16 4095 ++ be32 1 ++ [127, 7] ++ be32 1000000;
        let t (s : State) : State := after (exec (.openHire 9 body) s);
        s.hireList.length < 2048 ∧ ((t fleet).hire 6 = none ∧ (t fleet).money.queue = []) ∧
          ((t s).hire 6 ≠ none ∧ (t s).hire 7 = none ∧ (t s).money.queue = [])) :=
  ⟨fun _ => takes rfl _, by decide +kernel⟩

theorem test_witness_HireEndings :
    (∀ body, fleet.canTake ⟨0x31, 9, body⟩ ∧ fleet.canTake ⟨0x32, 9, body⟩ ∧ fleet.canTake ⟨0x33, 9, body⟩) ∧
      4294967295 < 4294967296 ∧ fleet.hire 4294967295 = none ∧ fleet.hire 1 = some (hireOf 1 1 (.pending 1)) ∧
      fleet.hire 2 = some (hireOf 2 2 (.active 50 0)) ∧ fleet.hire 4 = some (hireOf 4 20 (.closing 20 0 90 0)) ∧
      (fleet.receiver 2).state = .out ∧ fleet.hire 3 = some (hireOf 3 3 (.active 60 0)) ∧
      (fleet.receiver 3).state = .silent :=
  ⟨fun _ => ⟨takes rfl _, takes rfl _, takes rfl _⟩, by decide +kernel⟩

/-- `fleet` with one settlement waiting, GRACE and LOST, of hire 8. -/
def owed : State :=
  { fleet with money := { fleet.money with
    queue := [settlementOf classOf94 { hireOf 8 8 (.active 0 0) with lost := true } 0 0 600 0] } }

theorem test_witness_ReadHireAndSettlement :
    (∀ n, fleet.canTake ⟨0x33, 9, be32 n⟩) ∧ fleet.hire 9 = none ∧ fleet.hire 1 = some (hireOf 1 1 (.pending 1)) ∧
      fleet.canTake ⟨0x34, 9, []⟩ ∧ fleet.money.queue = [] ∧ owed.canTake ⟨0x34, 9, []⟩ ∧
      ∃ x q, owed.money.queue = x :: q ∧ ∀ i, (9 : Byte).getLsbD i = (match i with
        | 0 => x.flags.grace
        | 1 => x.flags.capped
        | 2 => x.flags.saturated
        | 3 => x.flags.lost
        | 4 => x.flags.reconciled
        | 5 => x.flags.timeDegraded
        | _ => false : Bool) := by
  refine ⟨fun _ => takes rfl _, by decide, by decide, takes rfl _, rfl, takes rfl _, _, _, rfl, fun i => ?_⟩
  match i with
  | 0 | 1 | 2 | 3 | 4 | 5 | 6 | 7 => decide +kernel
  | n + 8 => exact BitVec.getLsbD_of_ge _ _ (by omega)

/-- An empty queue, another number, the number named with no hire CLOSING, and with hire 4 CLOSING. -/
theorem test_witness_TakeSettlement :
    (∀ n, fleet.canTake ⟨0x35, 9, be32 n⟩ ∧ owed.canTake ⟨0x35, 9, be32 n⟩ ∧
        (owed.setHire 4 none).canTake ⟨0x35, 9, be32 n⟩) ∧
      fleet.money.queue = [] ∧ (∃ x q, owed.money.queue = x :: q ∧ x.hire ≠ 9 ∧ x.hire = 8) ∧
      (∀ h ∈ (owed.setHire 4 none).hireList, ∀ a b c d, h.state ≠ .closing a b c d) ∧
      (let h : Hire := hireOf 4 20 (.closing 20 0 90 0);
        owed.hire h.number = some h ∧ h ∈ owed.hireList ∧ h.state = .closing 20 0 90 0 ∧
          ∀ g ∈ owed.hireList, ∀ e f i j, g.state = .closing e f i j → 90 < i ∨ (90 = i ∧ h.number ≤ g.number)) := by
  have l : owed.hireList = [hireOf 1 1 (.pending 1), hireOf 2 2 (.active 50 0), hireOf 3 3 (.active 60 0),
      hireOf 4 20 (.closing 20 0 90 0)] := by decide
  have k : (owed.setHire 4 none).hireList =
      [hireOf 1 1 (.pending 1), hireOf 2 2 (.active 50 0), hireOf 3 3 (.active 60 0)] := by decide
  refine ⟨fun _ => ⟨takes rfl _, takes rfl _, takes rfl _⟩, rfl, ⟨_, _, rfl, by decide⟩, ?_, by decide, by decide, rfl, ?_⟩
  · rw [k]; simp [hireOf]
  · rw [l]; simp [hireOf]; omega

theorem test_witness_SettlementArithmetic :
    1 ≤ classOf94.unit ∧ (1000 : Nat) ≤ 1600 ∧
      (settlementOf classOf94 (hireOf 1 2 (.active 0 0)) 1000 0 1600 0).duration ≤ 60 * classOf94.grace ∧
      60 * classOf94.grace < (settlementOf classOf94 (hireOf 1 2 (.active 0 0)) 1000 0 1601 0).duration := by decide

theorem test_witness_WriteAndFreezeTariffs :
    (∀ body, fleet.canTake ⟨0x38, 9, body⟩) ∧ fleet.canTake ⟨0x3A, 9, []⟩ ∧ 7 < (8 : Byte).toNat ∧
      (7 : Byte).toNat ≤ 7 ∧ fleet.money.frozen = false ∧ (fleet.freeze).money.frozen = true ∧
      (∃ h ∈ fleet.hireList, h.tariff = 7) ∧ ∀ h ∈ fleet.hireList, h.tariff ≠ 6 :=
  ⟨fun _ => takes rfl _, takes rfl _, by decide +kernel⟩

theorem test_witness_ReadTariff_DelegationsAndService :
    (∀ k, fleet.canTake ⟨0x39, 9, [k]⟩ ∧ fleet.canTake ⟨0x3B, 9, [k]⟩ ∧ fleet.canTake ⟨0x3C, 9, [k]⟩ ∧
        fleet.canTake ⟨0x3D, 9, [k]⟩) ∧
      (7 : Byte).toNat ≤ 7 ∧ 7 < (8 : Byte).toNat ∧ (127 : Byte).toNat ≤ 127 ∧
      (127 < (128 : Byte).toNat ∧ (254 : Byte).toNat < 255) ∧ (255 : Byte).toNat = 255 ∧ (31 : Byte).toNat ≤ 31 ∧
      31 < (32 : Byte).toNat :=
  ⟨fun _ => ⟨takes rfl _, takes rfl _, takes rfl _, takes rfl _⟩, by decide⟩

/-- A second in which the clock returns, by its phase and by its stable time, and one in which it does not; sources that
no taker changes, and a window that ends. -/
theorem test_witness_SecondEventCounts :
    (let s (p : Phase) (n : Option Nat) : State := { ready with clock := { ready.clock with phase := p, stable := n } };
      (s .settled (some 96000)).clock.phase = .settled ∧ 96000 ≤ 48001 + (47999 - (s .settling (some 48001)).clock.subSecond) ∧
        ¬96000 ≤ 48000 + (47999 - (s .settling (some 48000)).clock.subSecond)) ∧
      (∀ b side, ready.domain b side = .idle) ∧ ready.check.current = none ∧
      (asked24 1 .take).domain 24 .a = .pending 1 4 1 .take :=
  ⟨by decide, fun _ _ => rfl, rfl, rfl⟩

/-- Hires and receivers that agree, a pending hire at its last second and before it, a silence, domains idle, live,
pending and at their last second, a turn at its limit, and a check whose dwell goes on and ends. -/
theorem test_witness_SecondEventTimers :
    fleet.hiresAgree ∧ fleet.hires.records.canonical none = true ∧ fleet.fleet.receivers.canonical .unseen = true ∧
      fleet.domain 24 .a = .idle ∧ (outage.domain 24 .a = .live 1 ∧ outage.hiresAgree) ∧
      (asked24 2 .take).domain 24 .a = .pending 1 4 2 .take ∧ (asked24 1 .lapse).domain 24 .a = .pending 1 4 1 .lapse ∧
      (let s : State := outage.setTurn 24 .a ⟨1799, some 30, some 5, false, false⟩;
        (s.turn 24 .a).limit = some 30 ∧ 30 * 60 = min ((s.turn 24 .a).counter + 1) 4294967295 ∧
          (s.turn 24 .a).dueRaised = false ∧ (s.domain 24 .b).liveDesk ≠ some 1 ∧ (s.domain 24 .b).requester ≠ some 1) ∧
      ((testing 0x20 1).check.current ≠ none ∧ (testing 0x20 1).check.dwell ≤ 1 ∧ 1 < (testing 0x20 2).check.dwell ∧
        ∀ n b side, (testing 0x20 n).domain b side = .idle) ∧
      fleet.hire 1 = some (hireOf 1 1 (.pending 1)) ∧
      ((fleet.receiver 3).state = .silent ∧ (fleet.receiver 3).silentSince = some 100) ∧
      ((fleet.receiver 2).state ≠ .silent ∧ (fleet.receiver 2).state ≠ .reserved) :=
  ⟨fleet_hiresAgree, by decide, by decide, rfl, ⟨rfl, fleet_hiresAgree⟩, rfl, rfl, by decide +kernel,
    ⟨by decide, by decide, by decide, fun _ _ _ => rfl⟩, by decide, by decide, by decide⟩

/-- Hires 1 and 2 in the last second of their windows, hires 3 and 4 of receivers silent since 100, turns of desk 1 of
booths 1 and 24 at their limits, and channel 5 under test with `dwell` s left. -/
def crossing (dwell : Nat) : State :=
  let u : Receiver := Receiver.unseen
  { hall with
    fleet := { receivers := [
      (1, { u with state := .reserved, hire := some 1 }), (2, { u with state := .reserved, hire := some 2 }),
      (3, { u with state := .silent, hire := some 3, silentSince := some 100 }),
      (4, { u with state := .silent, hire := some 4, silentSince := some 100 })], monitors := [] }
    hires := {
      records := [(1, some (hireOf 1 1 (.pending 1))), (2, some (hireOf 2 2 (.pending 1))),
        (3, some (hireOf 3 3 (.active 60 0))), (4, some (hireOf 4 4 (.active 60 0)))]
      next := 5 }
    booths := ((hall.setDomain 1 .b (.live 1)).setDomain 24 .a (.live 1)).booths
    turns := ((hall.setTurn 1 .b ⟨1799, some 30, some 5, false, false⟩).setTurn 24 .a
      ⟨2099, some 30, some 5, true, false⟩).turns
    check := (testing 0x60 dwell).check
    clock := { hall.clock with seconds := 800 } }

theorem crossing_hiresAgree (n : Nat) : (crossing n).hiresAgree := by
  refine ⟨fun m h e => ?_, fun r => ?_, rfl, by show 1 ≤ 5 ∧ 5 ≤ Config.maxCount; decide⟩
  · have x : (m, some h) ∈ (crossing n).hires.records := by
      rcases read_cases none (crossing n).hires.records m with x | x
      · exact absurd (x.symm.trans e) (by simp)
      · rwa [show (crossing n).hires.records.read none m = some h from e] at x
    simp only [crossing, List.mem_cons, Prod.mk.injEq, Option.some.injEq, List.not_mem_nil, or_false] at x
    rcases x with ⟨rfl, rfl⟩ | ⟨rfl, rfl⟩ | ⟨rfl, rfl⟩ | ⟨rfl, rfl⟩ <;> exact ⟨rfl, rfl, rfl⟩
  · have x : (crossing n).receiver r = .unseen ∨ (r, (crossing n).receiver r) ∈ (crossing n).fleet.receivers :=
      read_cases _ _ r
    rcases x with x | x
    · rw [x]; exact ⟨nofun, nofun, nofun⟩
    · simp only [crossing, List.mem_cons, Prod.mk.injEq, List.not_mem_nil, or_false] at x
      rcases x with ⟨rfl, -⟩ | ⟨rfl, -⟩ | ⟨rfl, -⟩ | ⟨rfl, -⟩
      · exact ⟨hireOf 1 1 (.pending 1), rfl, rfl, rfl⟩
      · exact ⟨hireOf 2 2 (.pending 1), rfl, rfl, rfl⟩
      · exact ⟨hireOf 3 3 (.active 60 0), rfl, rfl, rfl⟩
      · exact ⟨hireOf 4 4 (.active 60 0), rfl, rfl, rfl⟩

/-- Two windows that lapse, two silences that go missing, a turn that falls due before one that overruns, and a check whose
dwell falls by 1. -/
theorem test_witness_SecondEventTimers_notices :
    (crossing 2).hiresAgree ∧ (crossing 2).hires.records.canonical none = true ∧
      (crossing 2).fleet.receivers.canonical .unseen = true ∧
      ((crossing 2).lapses 1 (.hireLapsed 1 1) ∧ (crossing 2).lapses 2 (.hireLapsed 2 2)) ∧
      ((crossing 2).goesMissing 3 (.missing 3 3 100) ∧ (crossing 2).goesMissing 4 (.missing 4 4 100)) ∧
      (placeBefore 1 .b 24 .a ∧ placeBefore 24 .a 24 .b ∧ (crossing 2).turnRaises 1 .b (.turnDue 1 1) ∧
        (crossing 2).turnRaises 24 .a (.turnOverrun 24 1)) ∧
      (after (exec (.secondEvent []) (crossing 2))).check.current = some 5 :=
  ⟨crossing_hiresAgree 2, by decide, by decide,
    ⟨⟨_, 1, rfl, rfl, Nat.le_refl 1, rfl⟩, ⟨_, 1, rfl, rfl, Nat.le_refl 1, rfl⟩⟩,
    ⟨⟨100, rfl, rfl, rfl, by decide, rfl⟩, ⟨100, rfl, rfl, rfl, by decide, rfl⟩⟩,
    ⟨.inl (by decide), .inr ⟨rfl, rfl, rfl⟩, ⟨1, .inl rfl, .inl ⟨⟨30, by decide⟩, rfl⟩⟩,
      ⟨1, .inl rfl, .inr ⟨⟨30, 5, by decide⟩, rfl⟩⟩⟩, by decide +kernel⟩

/-- The notices of that second event, in the order of its takers: the turn due in booth 1 is being sent, the others wait. -/
theorem test_second_notices :
    let t := after (exec (.secondEvent []) (crossing 2))
    t.link.sending = some (Notice.turnDue 1 1).frame ∧ t.link.notices =
      [.turnOverrun 24 1, .hireLapsed 1 1, .hireLapsed 2 2, .missing 3 3 100, .missing 4 4 100] := by decide +kernel

/-- Channel 5 under test on output B of booth 24, which desk 4 takes as the window ends: channel 6 is placed in that second
and keeps its 10 s, whichever of the two takers goes first (R79). -/
theorem test_dwell_placed :
    let s : State := { (((booth24.setPlanEntry 5 (served 1 ⟨24, .b⟩)).setDesk 24 4 { deskAt 64 with selection := .b }).setDomain
      24 .a (.pending 1 4 1 .take)) with check := (testing 0x60 3).check }
    let t (order : List SecondTaker) : State := after (exec (.secondEvent order) s)
    ((t [.handoverWindows, .checkDwell]).check.current = some 6 ∧ (t [.handoverWindows, .checkDwell]).check.dwell = 10) ∧
      (t [.checkDwell, .handoverWindows]).check.dwell = 10 := by decide +kernel

theorem test_witness_TimeAndLimits :
    (∀ n, hall.canTake ⟨0x05, 9, be32 n⟩ ∧ ready.canTake ⟨0x05, 9, be32 n⟩ ∧ fleet.canTake ⟨0x05, 9, be32 n⟩) ∧
      hall.plan.hall = .session ∧ (ready.plan.hall = .setup ∧ ready.hireList = []) ∧
      (let s : State := { fleet with plan := ready.plan }; s.plan.hall = .setup ∧ s.hireList ≠ []) ∧
      (⟨1, 15, 10, 600, 7, 7, 2⟩ : Machine.Limits) = ⟨max 1 (0 : Byte).toNat, max 1 (min (16 : Byte).toNat 15),
        min (11 : Byte).toNat 10, max 10 (min 601 600), min (8 : Byte).toNat 7, min (255 : Byte).toNat 7,
        max 2 (min (1 : Byte).toNat 15)⟩ ∧
      ready.canTake ⟨0x06, 9, [0, 16, 11] ++ be16 601 ++ [8, 255, 1]⟩ ∧ ready.canTake ⟨0x07, 9, []⟩ :=
  ⟨fun _ => ⟨takes rfl _, takes rfl _, takes rfl _⟩, rfl, ⟨rfl, rfl⟩, ⟨rfl, by decide⟩, by decide, takes rfl _,
    takes rfl _⟩

theorem test_witness_ReadAndClearFault :
    (∀ u, fleet.canTake ⟨0x08, 9, [u]⟩ ∧ fleet.canTake ⟨0x09, 9, [u]⟩) ∧ (0 : Byte).toNat = 0 ∧
      42 < (43 : Byte).toNat ∧ 1 ≤ (1 : Byte).toNat ∧ (42 : Byte).toNat ≤ 42 :=
  ⟨fun _ => ⟨takes rfl _, takes rfl _⟩, by decide⟩

/-- A poll of the unit under way and none; a miss of a unit that is not PRESENT, below the limit, and at the limit; records
empty, lower and at LOST; polls of the last console and rack; and replies of another form and from another unit. -/
theorem test_witness_UnitPolling :
    (let s (n : Nat) : State := fleet.setUnit 41 ⟨.present, n⟩;
      ready.polls 41 = false ∧ (s 2).polls 41 = true ∧ (asking 1 1 ready).polls 1 = true ∧
        (ready.unit 1).state ≠ .present ∧ 3 = min (((s 2).unit 41).failures + 1) 15 ∧ 3 < (s 2).limits.failureLimit ∧
        ((s 3).unit 41).state = .present ∧ 4 = min (((s 3).unit 41).failures + 1) 15 ∧
        (s 3).limits.failureLimit ≤ 4 ∧ ((s 3).faultRecord 41).fault = none ∧
        (((s 3).setFaultRecord 41 ⟨some ⟨.lost, .unitLost, 1, 4⟩, false⟩).faultRecord 41).fault =
          some ⟨.lost, .unitLost, 1, 4⟩) ∧
      (let s : State := { ready with supervisor := { ready.supervisor with nextConsole := 24, nextRack := 16 } };
        s.supervisor.nextConsole = 24 ∧ s.supervisor.nextRack = 16 ∧ s.supervisor.consolePoll = none ∧
          s.supervisor.rackPoll = none) ∧
      (hall.supervisor.consolePoll ≠ none ∧ hall.supervisor.rackPoll ≠ none) ∧
      (let s (t : State) : State := asking 24 16 t;
        (s fleet).supervisor.consolePoll.map (·.booth) = some 24 ∧ (s fleet).supervisor.rackPoll.map (·.rack) = some 16 ∧
          ((s ready).unit 24).state ≠ .present ∧ ((s fleet).unit 24).state = .present ∧
          ((s ready).unit 40).state ≠ .present ∧ ((s fleet).unit 40).state = .present) := by decide +kernel

/-- Every phase; a stable time that 2 s are reached with before the second boundary, and one that comes behind it; a period
within the second and one at its end, on an empty queue and with an edge in LOCKED. -/
theorem test_witness_ReferenceSupervision :
    (let s (p : Phase) (f : Option FaultEntry) : State :=
        { ready with clock := { ready.clock with phase := p } }.setFaultRecord 42 ⟨f, false⟩;
      (s .locked none).clock.phase = .locked ∧ (s .absent none).clock.phase = .absent ∧
        (s .settling none).clock.phase = .settling ∧ (s .settled none).clock.phase = .settled ∧
        ((s .locked none).faultRecord 42).fault = none ∧
        ((s .locked (some ⟨.degraded, .referenceLost, 1, 2⟩)).faultRecord 42).fault =
          some ⟨.degraded, .referenceLost, 1, 2⟩) ∧
      (let s (n m : Nat) : State :=
          { ready with clock := { ready.clock with phase := .settling, stable := some n, subSecond := m } };
        96000 - 48001 ≤ 47999 - (s 48001 0).clock.subSecond ∧ 47999 - (s 48001 1).clock.subSecond < 96000 - 48001) ∧
      (47998 + 1 < 48000 ∧ 48000 ≤ 47999 + 1) ∧ ready.pending = [] := by decide +kernel

end Sys2Proof.Tests
end

