-- ==== Sys2Proof/Proofs/Changes.lean ====
section
/-! What a step can do, said once: every command is a chain of the edits of single blocks that `Change` lists (`Work`),
alone or as the service of a request. The invariants of O56 and O57 are read off these edits, one by one, instead of off
the commands. -/

namespace Sys2Proof.Machine

/-! ### The edits of single blocks -/

/-- Every table of the source arbiter is in canonical form. -/
def Arbiter.canonical (a : Arbiter) : Prop :=
  a.sources.canonical .unused = true ∧ a.announcements.canonical .none = true ∧ a.relays.canonical none = true ∧
    a.feeds.canonical .floor = true

/-- Every table of the checker is in canonical form. -/
def Check.canonical (k : Check) : Prop :=
  k.results.canonical .notRun = true ∧ k.failed.canonical false = true ∧ k.progress.canonical .zero = true

/-- Every table of the beacon scheduler is in canonical form. -/
def Beacon.canonical (b : Beacon) : Prop := b.listeners.canonical 0 = true ∧ b.lowMarks.canonical false = true

/-- Every table of the meters is in canonical form. -/
def Meters.canonical (m : Meters) : Prop :=
  m.listening.canonical 0 = true ∧ m.service.canonical 0 = true ∧ m.unserved.canonical 0 = true

/-- The number of records a hire table holds. -/
def Hires.count (x : Hires) : Nat := (x.records.filterMap (·.2)).length

/-- The schedule counts are within their range (R104). -/
def Schedule.fits (k : Schedule) : Prop := k.k0 ≤ 63 ∧ k.k1 ≤ 63 ∧ k.k2 ≤ 63 ∧ k.k3 ≤ 63

/-- Domain `new` names no desk that `old` does not name: a request or a claim has ended, or none has begun. -/
def Domain.narrows (old : Domain) : Domain → Prop
  | .idle => True
  | .live d => old.liveDesk = some d ∨ old.requester = some d
  | .pending d e _ _ => old.liveDesk = some d ∧ old.requester = some e

/-- In SESSION the idle desk `e` of the domain at `p` is granted what it asks for: to be live in the place of whoever was,
or to wait beside the live desk, where the channel interlock allows its output beside the claims that are left
(R44, R46 to R49). -/
def State.grants (s : State) (b : Nat) (p : Side) (new : Domain) : Prop :=
  s.plan.hall = .session ∧ ∃ e left, s.enabled b e = true ∧ s.deskPlace b e = p ∧ s.deskState b e = .idle ∧
    ((new = .live e ∧ left = .idle) ∨ ∃ d n q, new = .pending d e n q ∧ left = .live d ∧ s.domain b p = .live d) ∧
    (s.setDomain b p left).interlockAllows ⟨b, (s.desk b e).selection⟩ = true

/-- One edit of one block, as the commands make them, each with the check it is made under. -/
inductive Change (s : State) : State → Prop
  | raise (n : Notice) : Change s (s.raise n)
  | clearOverflow : Change s { s with link := { s.link with overflow := false } }
  | entry (c : Nat) (e : PlanEntry) (h1 : 1 ≤ c) (h31 : c ≤ 31) (hfit : e.fits) (hfree : s.planRefusal c e = none) :
      Change s (s.setPlanEntry c e)
  | floorLanguage (n : Nat) (h : n ≤ 99) : Change s { s with plan := { s.plan with floorLanguage := n } }
  | opened : Change s { s with plan := { s.plan with hall := .session } }
  | closed (h : ∀ b p, 1 ≤ b → b ≤ 24 → s.domain b p = .idle) :
      Change s { s with plan := { s.plan with hall := .setup } }
  | arbiter (a : Arbiter) (h : s.arbiter.canonical → a.canonical) : Change s { s with arbiter := a }
  | desk (b d : Nat) (k : Desk) (hsel : k.selection = (s.desk b d).selection) (hport : k.port = (s.desk b d).port) :
      Change s (s.setDesk b d k)
  | select (b d : Nat) (x : Side) (hon : s.enabled b d = true) (hidle : s.deskState b d = .idle) :
      Change s (s.setDesk b d { s.desk b d with selection := x })
  | domain (b : Nat) (p : Side) (new : Domain) (h : (s.domain b p).narrows new ∨ s.grants b p new) :
      Change s (setDomainState s b p new)
  | config (b : Nat) (c : BoothConfig) (h1 : 1 ≤ b) (h24 : b ≤ 24) (hfit : c.fits) (hfree : s.boothRefusal b c = none) :
      Change s (storeConfig s b c)
  | turn (b : Nat) (p : Side) (t : TurnRecord) (h : (s.domain b p).liveDesk ≠ none) : Change s (s.setTurn b p t)
  | deskRecords (r : Table DeskRecord) (h : s.turns.records.canonical .zero = true → r.canonical .zero = true) :
      Change s { s with turns := { s.turns with records := r } }
  | check (k : Check) (h : s.check.canonical → k.canonical)
      (hfit : s.checkFits → ({ s with check := k } : State).checkFits) : Change s { s with check := k }
  | slot (l : Location) (r : Option Nat) : Change s (s.setSlot l r)
  | receiver (r : Nat) (e : Receiver) : Change s (s.setReceiver r e)
  | monitor (p : Nat) (r : Option Nat) (h : s.check.state ≠ .running) : Change s (s.setMonitorAt p r)
  | beacon (b : Beacon) (h : s.beacon.canonical → b.canonical) (hfit : s.beacon.counts.fits → b.counts.fits) :
      Change s { s with beacon := b }
  | hires (x : Hires) (h : s.hires.records.canonical none = true → x.records.canonical none = true)
      (hfit : s.hires.count ≤ Config.hirePlaces → x.count ≤ Config.hirePlaces) : Change s { s with hires := x }
  | tariff (k : Nat) (t : Tariff) (hfit : t.fits) : Change s (s.setTariff k t)
  | frozen : Change s s.freeze
  | settlements (q : List Settlement)
      (hfit : s.money.queue.length ≤ Config.settlementPlaces → q.length ≤ Config.settlementPlaces) :
      Change s (s.setQueue q)
  | meters (m : Meters) (h : s.meters.canonical → m.canonical) : Change s { s with meters := m }
  | seconds (n : Nat) (h : n ≤ Config.maxCount) : Change s (s.setSeconds n)
  | boundaries : Change s (s.onClock fun c => { c with boundaries := c.boundaries + 1 })
  | periods (n : Nat) (h : s.clock.subSecond < 48000 → s.clock.subSecond + n < 48000) : Change s (s.onClock (·.run n))
  | edges (h : s.clock.phase = .absent) : Change s (setPhaseOf s .settling (some 0))
  | noEdges (h : s.clock.phase = .settling ∨ s.clock.phase = .settled) : Change s (setPhaseOf s .absent none)
  | locks (h : s.clock.phase = .settled) :
      Change s (({ s with clock := { s.clock with
        source := .wordClock, quality := .nominal, phase := .locked, stable := none } } : State).setUnit referenceUnit
          { s.unit referenceUnit with state := .present })
  | unlocks (h : s.clock.phase = .locked) :
      Change s (({ s with clock := { s.clock with
        source := .oscillator, quality := .degraded, phase := .absent, stable := none } } : State).setUnit referenceUnit
          { s.unit referenceUnit with state := .lost })
  | unit (u : Nat) (e : UnitEntry) (hu : u ≠ referenceUnit) (hfit : e.failures ≤ 15) : Change s (s.setUnit u e)
  | fault (u : Nat) (f : FaultRecord) : Change s (s.setFaultRecord u f)
  | pollEnds (u : Nat) : Change s (endPoll s u)
  | consolePolled (p : ConsolePoll) (hb : p.booth = s.supervisor.nextConsole) (hl : p.lamps.length = 4) :
      Change s { s with supervisor := { s.supervisor with
        consolePoll := some p, nextConsole := nextAddress 24 s.supervisor.nextConsole } }
  | rackPolled : Change s (sendRackPoll s)
  | radiatorPolled : Change s { s with supervisor := { s.supervisor with radiatorPoll := true } }
  | limits (l : Limits) (hfit : l.fits) : Change s (s.setLimits l)

/-- A chain of edits: what a block does for one command. -/
abbrev Work : State → State → Prop := Relation.ReflTransGen Change

theorem Change.work {s t : State} (h : Change s t) : Work s t := Relation.ReflTransGen.single h

theorem Work.nil (s : State) : Work s s := Relation.ReflTransGen.refl

/-- A fold of works is a work. -/
theorem Work.foldl {α : Type} {f : State → α → State} (h : ∀ t x, Work t (f t x)) (l : List α) (s : State) :
    Work s (l.foldl f s) := by
  induction l generalizing s with
  | nil => exact .nil s
  | cons x xs ih => exact (h s x).trans (ih (f s x))

/-! ### Notices, faults and the arbiter -/

theorem State.raiseAll_work (s : State) (ns : List Notice) : Work s (s.raiseAll ns) :=
  Work.foldl (fun _ n => (Change.raise n).work) ns s

theorem recordFault_work (s : State) (u : Nat) (v : Severity) (c : Cause) (d : Nat) : Work s (recordFault s u v c d) := by
  unfold recordFault
  split
  · exact (Change.fault u _).work.tail (.raise _)
  · exact (Change.fault u _).work

theorem State.setAnnouncement_work (s : State) (c : Nat) (a : AnnState) : Work s (s.setAnnouncement c a) :=
  (Change.arbiter _ fun ⟨h1, h2, h3, h4⟩ => ⟨h1, Table.canonical_write _ _ c a h2, h3, h4⟩).work

theorem State.setInput_work (s : State) (i : AnnInput) (set : Option ChannelSet) : Work s (s.setInput i set) := by
  cases i
  · exact (Change.arbiter { s.arbiter with inputOne := set } fun h => h).work
  · exact (Change.arbiter { s.arbiter with inputTwo := set } fun h => h).work

theorem State.setRelay_work (s : State) (b : Nat) (c : Option Nat) : Work s (s.setRelay b c) :=
  (Change.arbiter _ fun ⟨h1, h2, h3, h4⟩ => ⟨h1, h2, Table.canonical_write _ _ b c h3, h4⟩).work

theorem State.recompute_work (s : State) : Work s s.recompute := by
  rw [State.recompute_frame]
  exact (Change.arbiter _ fun ⟨h1, h2, h3, h4⟩ =>
    ⟨Table.canonical_foldl_write _ _ _ _ h1, h2, h3, Table.canonical_foldl_write _ _ _ _ h4⟩).work

/-! ### The checker -/

theorem State.enterResults_canonical {s : State} (h : s.check.canonical) (c : Nat) (only : CheckResult → Bool)
    (r : CheckResult) : (s.enterResults c only r).check.canonical := by
  unfold State.enterResults
  generalize positionsOf s.checkMonitors = ms
  induction ms generalizing s with
  | nil => exact h
  | cons m ms ih =>
    rw [List.foldl_cons]
    obtain ⟨hres, hfail, hprog⟩ := h
    split
    · exact ih ⟨Table.canonical_write _ _ _ _ hres, hfail, hprog⟩
    · exact ih ⟨hres, hfail, hprog⟩

theorem takeNextChannel_canonical {s : State} (h : s.check.canonical) (cs : List Nat) :
    (takeNextChannel s cs).1.check.canonical := by
  induction cs generalizing s with
  | nil => exact h
  | cons c cs ih =>
    unfold takeNextChannel
    split
    · exact ⟨h.1, h.2.1, rfl⟩
    · exact ih (State.enterResults_canonical h c _ _)

theorem endChannel_canonical {s : State} (h : s.check.canonical) (c : Nat) : (endChannel s c).1.check.canonical :=
  takeNextChannel_canonical (s := s.liftSignature) ⟨h.1, h.2.1, rfl⟩ _

/-- The check is RUNNING under a program whose repeats are in range and whose positions all hold a monitor: what the
advance needs of a sound check, whatever channel is current. -/
def State.runs (s : State) (p : CheckProgram) : Prop :=
  s.check.state = .running ∧ s.check.program = some p ∧ 1 ≤ p.repeats ∧ p.repeats ≤ 16 ∧
    ∀ m, p.monitors.getLsbD m = true → s.monitorAt m ≠ none

/-- A sound check with a channel under test runs its program. -/
theorem State.checkFits.runs {s : State} (h : s.checkFits) {c : Nat} (hc : s.check.current = some c) :
    ∃ p, s.runs p := by
  obtain ⟨p, hp, _, _, _, _, _, _, h1, h16, hm⟩ := h.2 c hc
  exact ⟨p, h.1.mpr (by simp [hc]), hp, h1, h16, hm⟩

/-- While no channel is under test, a check that is not RUNNING is sound. -/
theorem State.checkFits_of_none {s : State} (hc : s.check.current = none) (hs : s.check.state ≠ .running) :
    s.checkFits := ⟨by simp [hc, hs], fun c h => by simp [hc] at h⟩

/-- The advance leaves a running check sound: the next channel under test with its signature, or DONE (R75, R78). -/
theorem takeNextChannel_checkFits {s : State} {p : CheckProgram} (hr : s.runs p) (hc : s.check.current = none)
    (cs : List Nat) (hcs : ∀ d ∈ cs, 1 ≤ d ∧ d ≤ 31 ∧ p.channels.getLsbD d = true) :
    (takeNextChannel s cs).1.checkFits := by
  obtain ⟨hrun, hp, hrep1, hrep16, hmon⟩ := hr
  obtain ⟨-, ⟨hprog, -⟩, hnone, hsome, -⟩ := takeNextChannel_spec s cs
  cases hf : cs.find? (fun d => (s.withoutTest d).testable) with
  | none =>
    obtain ⟨hcur, hstate, -⟩ := hnone hf
    exact State.checkFits_of_none (hcur.trans hc) (by rw [hstate]; decide)
  | some n =>
    obtain ⟨hcur, hstate, hgen, hdwell, -⟩ := hsome n hf
    obtain ⟨h1, h31, hbit⟩ := hcs n (List.mem_of_find?_eq_some hf)
    have hmon' : (takeNextChannel s cs).1.monitorAt = s.monitorAt := by rw [takeNextChannel_frame]; rfl
    refine ⟨by rw [hstate, hcur, hrun]; simp, fun c h => ?_⟩
    obtain rfl : n = c := by rw [hcur] at h; exact Option.some.inj h
    refine ⟨p, hprog.trans hp, h1, h31, hbit, ?_, by omega, by omega, hrep1, hrep16, ?_⟩
    · rw [hgen, hp]; rfl
    · rw [hmon']; exact hmon

/-- The end of a channel leaves a running check sound (R78). -/
theorem endChannel_checkFits {s : State} {p : CheckProgram} (hr : s.runs p) (c : Nat) : (endChannel s c).1.checkFits := by
  have hset : s.checkChannels = p.channels := by unfold State.checkChannels; rw [hr.2.1]; rfl
  refine takeNextChannel_checkFits (s := s.liftSignature) (p := p) hr rfl _ fun d hd => ?_
  rw [hset, mem_channelsAbove] at hd
  have h32 : d < 32 := BitVec.lt_of_getLsbD hd.2
  exact ⟨by omega, by omega, hd.2⟩

/-- The end of a channel is an edit of the checker, made on a check that runs whenever it was sound. -/
theorem endChannel_change {s t : State} (c : Nat) (ht : ∃ k, t = { s with check := k })
    (hcanon : s.check.canonical → t.check.canonical) (hrun : s.checkFits → ∃ p, t.runs p) :
    Change s (endChannel t c).1 := by
  obtain ⟨k, rfl⟩ := ht
  have he := endChannel_frame { s with check := k } c
  rw [he]
  refine .check _ (fun h => endChannel_canonical (hcanon h) c) fun h => ?_
  obtain ⟨p, hp⟩ := hrun h
  have hfit := endChannel_checkFits hp c
  rw [he] at hfit
  exact hfit

/-- Entering results leaves a running check running. -/
theorem State.enterResults_runs {s : State} {p : CheckProgram} (h : s.runs p) (c : Nat) (only : CheckResult → Bool)
    (r : CheckResult) : (s.enterResults c only r).runs p := by
  obtain ⟨t, ht⟩ := s.enterResults_frame c only r
  rw [ht]; exact h

/-- A preemption is an edit of the checker (R80). -/
theorem preemptCheck_work (s : State) : Work s (preemptCheck s).1 := by
  unfold preemptCheck
  split
  · exact .nil s
  · rename_i c hc
    split
    · exact .nil s
    · obtain ⟨t, ht⟩ := s.enterResults_frame c (fun r => decide (r = .notRun)) .preempted
      refine (endChannel_change c ⟨_, ht⟩ (fun h => State.enterResults_canonical h _ _ _) fun h => ?_).work
      obtain ⟨p, hp⟩ := h.runs hc
      exact ⟨p, State.enterResults_runs hp _ _ _⟩

/-- The end of an event: the check's preemption, the sources and feeds, and the notices. -/
theorem settleEvent_work (before : State) (early late : List Notice) (s : State) :
    Work s (settleEvent before early late s) :=
  ((preemptCheck_work s).trans (State.recompute_work _)).trans (State.raiseAll_work _ _)

/-! ### Turns -/

theorem State.setDeskRecord_work (s : State) (b d : Nat) (r : DeskRecord) : Work s (s.setDeskRecord b d r) :=
  (Change.deskRecords _ fun h => Table.canonical_write _ _ _ _ h).work

theorem turnCount_work (s : State) (b : Nat) (p : Side) : Work s (turnCount s b p) := by
  unfold turnCount
  split
  · exact .nil s
  · rename_i d hd
    exact (Change.turn b p _ (by simp [hd])).work.trans (State.setDeskRecord_work _ b d _)

theorem turnDue_work (s : State) (b : Nat) (p : Side) : Work s (turnDue s b p) := by
  unfold turnDue
  split
  · exact .nil s
  · rename_i d hd
    split
    · exact ((Change.turn b p _ (by simp [hd])).work.trans (State.setDeskRecord_work _ b d _)).tail (.raise _)
    · exact .nil s

theorem turnOverrun_work (s : State) (b : Nat) (p : Side) : Work s (turnOverrun s b p) := by
  unfold turnOverrun
  split
  · exact .nil s
  · rename_i d hd
    split
    · exact (Change.turn b p _ (by simp [hd])).work.tail (.raise _)
    · exact .nil s

theorem turnSecond_work (s : State) (b : Nat) (p : Side) : Work s (turnSecond s b p) :=
  ((turnCount_work s b p).trans (turnDue_work _ b p)).trans (turnOverrun_work _ b p)

/-! ### Booths -/

theorem State.setDesk_work (s : State) (b d : Nat) (c f : Bool) :
    Work s (s.setDesk b d { s.desk b d with cough := c, flash := f }) :=
  (Change.desk b d { s.desk b d with cough := c, flash := f } rfl rfl).work

theorem flash_work (s : State) (b d : Nat) : Work s (flash s b d) := by
  unfold flash
  split
  · exact .nil s
  · exact State.setDesk_work s b d _ _

theorem setCough_work (s : State) (b d : Nat) (on : Bool) : Work s (setCough s b d on) := State.setDesk_work s b d _ _

theorem activate_work (s : State) (cs : List (Nat × AnnInput)) : Work s (activate s cs) :=
  Work.foldl (fun _ _ => State.setAnnouncement_work _ _ _) cs s

theorem changeDomain_work {s : State} {b : Nat} {p : Side} {new : Domain}
    (h : (s.domain b p).narrows new ∨ s.grants b p new) : Work s (changeDomain s b p new) :=
  ((Change.domain b p new h).work.trans (activate_work _ _)).trans (settleEvent_work _ _ _ _)

/-- A domain set to what it is leaves every domain as it is. -/
theorem State.domain_setDomain_self {s : State} {b : Nat} {p : Side} {m : Domain} (h : s.domain b p = m) :
    (s.setDomain b p m).domain = s.domain := by
  funext x q
  rw [State.domain_setDomain]
  split
  · rename_i hx; rw [hx.1, hx.2, h]
  · rfl

theorem State.interlockAllows_setDomain_self {s : State} {b : Nat} {p : Side} {m : Domain} (h : s.domain b p = m)
    (o : BoothOutput) : (s.setDomain b p m).interlockAllows o = s.interlockAllows o := by
  have hc : (s.setDomain b p m).claimed = s.claimed := by
    funext x; unfold State.claimed State.domainOf; rw [State.domain_setDomain_self h]; rfl
  unfold State.interlockAllows
  rw [hc]; rfl

/-- A MIC_ON of an enabled desk makes it live, makes it wait, or refuses it with a flash (R46 to R49). -/
theorem micOn_work {s : State} {b e : Nat} (hon : s.enabled b e = true) : Work s (micOn s b e) := by
  unfold micOn
  split
  · exact .nil s
  · rename_i hidle
    split
    · exact flash_work s b e
    · rename_i hall
      have hs : s.plan.hall = .session := by cases h : s.plan.hall <;> simp_all
      have grant : ∀ new left, ((new = .live e ∧ left = .idle) ∨ ∃ d n q, new = .pending d e n q ∧ left = .live d ∧
            s.domain b (s.deskPlace b e) = .live d) →
          (s.setDomain b (s.deskPlace b e) left).interlockAllows ⟨b, (s.desk b e).selection⟩ = true →
          Work s (changeDomain s b (s.deskPlace b e) new) := fun new left hnew ha =>
        changeDomain_work (.inr ⟨hs, e, left, hon, rfl, not_not.mp hidle, hnew, ha⟩)
      dsimp only
      cases hd : s.domain b (s.deskPlace b e) with
      | idle =>
        dsimp only
        split
        · rename_i ha
          exact grant _ .idle (.inl ⟨rfl, rfl⟩) (by rw [State.interlockAllows_setDomain_self hd]; exact ha)
        · exact flash_work s b e
      | live d =>
        cases (s.config b).mode with
        | override =>
          dsimp only
          split
          · rename_i ha
            exact grant _ .idle (.inl ⟨rfl, rfl⟩) ha
          · exact flash_work s b e
        | handshake =>
          dsimp only
          split
          · rename_i ha
            exact grant _ (.live d) (.inr ⟨d, _, _, rfl, rfl, hd⟩)
              (by rw [State.interlockAllows_setDomain_self hd]; exact ha)
          · exact flash_work s b e
      | pending => exact flash_work s b e

end Sys2Proof.Machine
end

