-- ==== Sys2Proof/Proofs/Works.lean ====
section
/-! Every operation of a block is a work: a chain of the edits that `Change` lists. -/

namespace Sys2Proof.Machine

/-! ### Booths (R50 to R60) -/

theorem micOff_work (s : State) (b x : Nat) : Work s (micOff s b x) := by
  unfold micOff
  dsimp only
  split
  · exact .nil s
  · split
    · exact changeDomain_work (.inl trivial)
    · exact .nil s
  · rename_i d e n q hd
    split
    · exact changeDomain_work (.inl (Or.inr (by rw [hd]; rfl)))
    · split
      · exact changeDomain_work (.inl (Or.inl (by rw [hd]; rfl)))
      · exact .nil s

theorem cough_work (s : State) (b d : Nat) (on : Bool) : Work s (cough s b d on) := by
  unfold cough
  split
  · exact (setCough_work s b d on).trans (settleEvent_work _ _ _ _)
  · exact .nil s

theorem selectOutput_work {s : State} {b d : Nat} (hon : s.enabled b d = true) (x : Side) :
    Work s (selectOutput s b d x) := by
  unfold selectOutput
  split
  · rename_i hidle; exact (Change.select b d x hon hidle).work
  · exact flash_work s b d

theorem relay_work (s : State) (b d : Nat) (c : Byte) : Work s (relay s b d c) := by
  unfold relay
  split
  · exact (State.setRelay_work s b none).trans (settleEvent_work _ _ _ _)
  · split
    · exact (State.setRelay_work s b _).trans (settleEvent_work _ _ _ _)
    · exact flash_work s b d

theorem deskEvent_work (s : State) (b : Nat) (e : DeskEvent) : Work s (deskEvent s b e) := by
  unfold deskEvent
  split
  · rename_i hon
    split
    · exact micOn_work hon
    · exact micOff_work s b _
    · exact cough_work s b _ _
    · exact cough_work s b _ _
    · exact selectOutput_work hon _
    · exact selectOutput_work hon _
    · exact relay_work s b _ _
    · exact (Change.raise _).work
    · exact .nil s
  · exact .nil s

theorem expireWindow_work (s : State) (b : Nat) (p : Side) : Work s (expireWindow s b p) := by
  unfold expireWindow
  split
  · rename_i d e n q hd
    split
    · exact changeDomain_work (.inl (Or.inr (by rw [hd]; rfl)))
    · exact (changeDomain_work (new := .live d) (.inl (Or.inl (by rw [hd]; rfl)))).trans (flash_work _ b e)
  · exact .nil s

/-- A window timer that falls is a domain change in which nothing changes hands. -/
theorem windowSecond_work (s : State) (b : Nat) (p : Side) : Work s (windowSecond s b p) := by
  unfold windowSecond
  split
  · rename_i d e n q hd
    have ht : Work s (s.setDomain b p (.pending d e (n - 1) q)) := by
      have h := (Change.domain b p (.pending d e (n - 1) q) (.inl (by rw [hd]; exact ⟨rfl, rfl⟩))).work
      have he : (s.domain b p).liveDesk = (Domain.pending d e (n - 1) q).liveDesk := by rw [hd]; rfl
      unfold setDomainState at h
      dsimp only at h
      rw [if_pos he, he, turnChange_same] at h
      exact h
    dsimp only
    split
    · exact ht.trans (expireWindow_work _ b p)
    · exact ht
  · exact .nil s

theorem idleDomain_work (s : State) (b : Nat) (p : Side) : Work s (idleDomain s b p) := by
  unfold idleDomain
  have h : Work s (setDomainState s b p .idle) := (Change.domain b p .idle (.inl trivial)).work
  split
  · exact h.trans (flash_work _ b _)
  · exact h

theorem forceOff_work (s : State) (o : BoothOutput) : Work s (forceOff s o) := by
  unfold forceOff
  dsimp only
  split
  · split
    · exact (changeDomain_work (new := .idle) (.inl trivial)).trans (flash_work _ _ _)
    · exact changeDomain_work (new := .idle) (.inl trivial)
  · exact .nil s

theorem reconcileOff_work (b : Nat) (t : State × Nat) (q : Nat × DeskReport) : Work t.1 (reconcileOff b t q).1 := by
  unfold reconcileOff
  split
  · exact micOff_work t.1 b q.1
  · exact .nil t.1

theorem reconcileSelection_work (b : Nat) (s : State) (q : Nat × DeskReport) : Work s (reconcileSelection b s q) := by
  unfold reconcileSelection
  split
  · rename_i h; exact (Change.select b q.1 _ h.1 h.2).work
  · exact .nil s

theorem reconcileOn_work (b : Nat) (t : State × Nat) (q : Nat × DeskReport) : Work t.1 (reconcileOn b t q).1 := by
  unfold reconcileOn
  split
  · rename_i h; exact micOn_work h.1
  · exact .nil t.1

/-- A fold of works that also counts is a work. -/
theorem Work.foldl_fst {α : Type} {f : State × Nat → α → State × Nat} (h : ∀ t x, Work t.1 (f t x).1) (l : List α)
    (t : State × Nat) : Work t.1 (l.foldl f t).1 := by
  induction l generalizing t with
  | nil => exact .nil t.1
  | cons x xs ih => exact (h t x).trans (ih (f t x))

theorem reconcilePasses_work (s : State) (b : Nat) (l : List (Nat × DeskReport)) :
    Work s (reconcilePasses s b l).1 :=
  ((Work.foldl_fst (reconcileOff_work b) l (s, 0)).trans (Work.foldl (reconcileSelection_work b) l _)).trans
    (Work.foldl_fst (reconcileOn_work b) l
      (l.foldl (reconcileSelection b) (l.foldl (reconcileOff b) (s, 0)).1, (l.foldl (reconcileOff b) (s, 0)).2))

theorem clearCoughs_work (s : State) (b : Nat) : Work s (clearCoughs s b) :=
  (Work.foldl (fun t d => setCough_work t b d false) positions s).trans (settleEvent_work _ _ _ _)

theorem reconcileConsole_work (s : State) (b : Nat) (l : List (Nat × DeskReport)) : Work s (reconcileConsole s b l) := by
  unfold reconcileConsole
  have h : Work s (clearCoughs (reconcilePasses s b l).1 b) := (reconcilePasses_work s b l).trans (clearCoughs_work _ b)
  dsimp only
  split
  · exact h
  · exact h.trans (recordFault_work _ _ _ _ _)

/-! ### The coverage check (R74 to R81) -/

/-- `t` is `s` with figures of the check moved on: results, failure flags and progress alone. -/
def State.scores (s t : State) : Prop :=
  (∃ r f g, t = { s with check := { s.check with results := r, failed := f, progress := g } }) ∧
    (s.check.canonical → t.check.canonical)

theorem State.scores.refl (s : State) : s.scores s := ⟨⟨_, _, _, rfl⟩, id⟩

theorem State.scores.trans {s t u : State} (h : s.scores t) (k : t.scores u) : s.scores u := by
  obtain ⟨⟨r, f, g, rfl⟩, hc⟩ := h
  obtain ⟨⟨r', f', g', rfl⟩, kc⟩ := k
  exact ⟨⟨r', f', g', rfl⟩, fun x => kc (hc x)⟩

theorem State.scores.runs {s t : State} (h : s.scores t) {p : CheckProgram} (hr : s.runs p) : t.runs p := by
  obtain ⟨⟨r, f, g, rfl⟩, -⟩ := h; exact hr

theorem State.scores.work {s t : State} (h : s.scores t) : Work s t := by
  obtain ⟨⟨r, f, g, rfl⟩, hc⟩ := h
  exact (Change.check _ hc fun h => h).work

theorem State.setResult_scores (s : State) (c m : Nat) (r : CheckResult) : s.scores (s.setResult c m r) :=
  ⟨⟨_, _, _, rfl⟩, fun ⟨h1, h2, h3⟩ => ⟨Table.canonical_write _ _ _ _ h1, h2, h3⟩⟩

theorem State.setFailed_scores (s : State) (c : Nat) : s.scores (s.setFailed c) :=
  ⟨⟨_, _, _, rfl⟩, fun ⟨h1, h2, h3⟩ => ⟨h1, Table.canonical_write false s.check.failed c true h2, h3⟩⟩

theorem State.setProgress_scores (s : State) (m : Nat) (p : Progress) : s.scores (s.setProgress m p) :=
  ⟨⟨_, _, _, rfl⟩, fun ⟨h1, h2, h3⟩ => ⟨h1, h2, Table.canonical_write _ _ _ _ h3⟩⟩

theorem failEntry_scores (s : State) (c m : Nat) : s.scores (failEntry s c m) :=
  (State.setResult_scores s c m _).trans (State.setFailed_scores _ c)

theorem countPoll_scores (s : State) (c m : Nat) (mis : Bool) : s.scores (countPoll s c m mis) := by
  unfold countPoll
  dsimp only
  split
  · exact (State.setProgress_scores s m _).trans (failEntry_scores _ c m)
  · exact State.setProgress_scores s m _

theorem pollEntry_scores (s : State) (c m : Nat) (o : PollOutcome) : s.scores (pollEntry s c m o) := by
  unfold pollEntry
  split
  · split
    · exact State.setResult_scores s c m _
    · exact countPoll_scores s c m _
  · exact countPoll_scores s c m _
  · exact countPoll_scores s c m _

/-- The open entries of a channel fail: figures of the check alone (R79). -/
theorem failOpen_scores (c : Nat) (ms : List Nat) (s : State) :
    s.scores (ms.foldl (fun t m => if t.result c m = .notRun then failEntry t c m else t) s) := by
  induction ms generalizing s with
  | nil => exact .refl s
  | cons m ms ih =>
    rw [List.foldl_cons]
    refine State.scores.trans ?_ (ih _)
    split
    · exact failEntry_scores s c m
    · exact .refl s

theorem checkPoll_work (s : State) (m : Nat) (q : DecodeRequest) (o : PollOutcome) : Work s (checkPoll s m q o) := by
  unfold checkPoll
  split
  · rename_i h
    have hs := pollEntry_scores s q.channel m o
    dsimp only
    split
    · obtain ⟨⟨r, f, g, ht⟩, hc⟩ := hs
      refine (endChannel_change q.channel ⟨_, ht⟩ hc fun hfit => ?_).work.trans (settleEvent_work _ _ _ _)
      obtain ⟨p, hp⟩ := hfit.runs h.1
      exact ⟨p, State.scores.runs ⟨⟨r, f, g, ht⟩, hc⟩ hp⟩
    · exact hs.work
  · exact .nil s

/-- A dwell that expires ends the channel (R79). -/
theorem expireDwell_work {s t : State} (c : Nat) (ht : ∃ k, t = { s with check := k })
    (hcanon : s.check.canonical → t.check.canonical) (hrun : s.checkFits → ∃ p, t.runs p) :
    Work s (expireDwell t c) := by
  have hs := failOpen_scores c (positionsOf t.checkMonitors) t
  refine (endChannel_change c ?_ (fun h => hs.2 (hcanon h)) fun hfit => ?_).work.trans (settleEvent_work _ _ _ _)
  · obtain ⟨k, rfl⟩ := ht
    obtain ⟨⟨r, f, g, hu⟩, -⟩ := hs
    exact ⟨_, hu⟩
  · obtain ⟨p, hp⟩ := hrun hfit
    exact ⟨p, hs.runs hp⟩

/-- A second of the dwell passes, or its last one ends the channel (R79). -/
theorem dwellSecond_work (placed : Nat) (s : State) : Work s (dwellSecond placed s) := by
  unfold dwellSecond
  split
  · exact .nil s
  · rename_i c hcur
    split
    · dsimp only
      split
      · exact expireDwell_work c ⟨_, rfl⟩ id fun hfit => hfit.runs hcur
      · rename_i hleft
        refine (Change.check { s.check with dwell := s.check.dwell - 1 } (fun h => h) fun ⟨hrun, hfit⟩ => ⟨hrun, fun d hd => ?_⟩).work
        obtain ⟨p, hp, h1, h31, hbit, hgen, hd1, hd10, hrest⟩ := hfit d hd
        exact ⟨p, hp, h1, h31, hbit, hgen, Nat.one_le_iff_ne_zero.mpr hleft, (Nat.sub_le _ 1).trans hd10, hrest⟩
    · exact .nil s

/-- A check that ends without a next channel, DONE or aborted, is an edit of the checker (R78, R81). -/
theorem abortCheckState_work (s : State) : Work s (abortCheckState s).1 := by
  unfold abortCheckState
  split
  · exact (Change.check (s := s) { s.liftSignature.check with state := .done } (fun h => ⟨h.1, h.2.1, rfl⟩)
      fun _ => State.checkFits_of_none rfl (show CheckState.done ≠ .running by decide)).work
  · exact .nil s

theorem abortCheck_work (s : State) : Work s (abortCheck s) := by
  unfold abortCheck
  split
  · exact (abortCheckState_work s).trans (settleEvent_work _ _ _ _)
  · exact .nil s

/-- A set of positions holds only positions for which `p` holds (R73). -/
theorem monitorSetOf_bit {p : Nat → Bool} {m : Nat} (h : (monitorSetOf p).getLsbD m = true) : p m = true := by
  have key : ∀ (ms : List Nat) (acc : MonitorSet),
      (ms.foldl (fun acc m => if p m then acc ||| (1#8 <<< m) else acc) acc).getLsbD m = true →
        acc.getLsbD m = true ∨ p m = true := by
    intro ms
    induction ms with
    | nil => exact fun acc h => .inl h
    | cons n ms ih =>
      intro acc h
      rcases ih _ h with h | h
      · dsimp only at h
        split at h
        · rename_i hn
          rw [BitVec.getLsbD_or, Bool.or_eq_true] at h
          rcases h with h | h
          · exact .inl h
          · have : m = n := by simp at h; omega
            exact .inr (this ▸ hn)
        · exact .inl h
      · exact .inr h
  rcases key monitorPositions 0#8 h with h | h
  · simp at h
  · exact h

/-- An accepted START_CHECK leaves the check sound: RUNNING on its first channel, or DONE (R73, R74). -/
theorem beginCheck_work {s : State} {p : CheckProgram} (h0 : p.channels.getLsbD 0 = false) (h1 : 1 ≤ p.repeats)
    (h16 : p.repeats ≤ 16) (hmon : ∀ m, p.monitors.getLsbD m = true → s.monitorAt m ≠ none) :
    Work s (beginCheck s p) := by
  unfold beginCheck
  dsimp only
  refine Relation.ReflTransGen.trans ?_ (settleEvent_work _ _ _ _)
  rw [takeNextChannel_frame]
  refine (Change.check _ (fun _ => takeNextChannel_canonical ⟨rfl, rfl, rfl⟩ _) fun _ => ?_).work
  have hfit := takeNextChannel_checkFits (p := p)
    (s := { s with check := { s.check with
      state := .running, program := some p, results := [], failed := [], current := none, generator := none
      dwell := 0, progress := [] } }) ⟨rfl, rfl, h1, h16, hmon⟩ rfl (channelsOf p.channels) fun d hd => by
    obtain ⟨h32, hbit⟩ : d < 32 ∧ p.channels.getLsbD d = true := by simpa [channelsOf, allChannels] using hd
    have hd0 : d ≠ 0 := by rintro rfl; rw [h0] at hbit; cases hbit
    exact ⟨by omega, by omega, hbit⟩
  rw [takeNextChannel_frame] at hfit
  exact hfit

/-! ### Meters (R150 to R158) -/

theorem State.setListening_work (s : State) (d c n : Nat) : Work s (s.setListening d c n) :=
  (Change.meters _ fun ⟨h1, h2, h3⟩ => ⟨Table.canonical_write _ _ _ _ h1, h2, h3⟩).work

theorem creditReceiver_work (s : State) (r d now : Nat) : Work s (creditReceiver s r d now) := by
  unfold creditReceiver
  split
  · exact State.setListening_work s d _ _
  · exact .nil s

theorem meterChannel_work (s : State) (c : Nat) : Work s (meterChannel s c) := by
  unfold meterChannel
  have h : ∀ k n, Work s (s.setServiceSeconds c k n) := fun k n =>
    (Change.meters _ fun ⟨h1, h2, h3⟩ => ⟨h1, Table.canonical_write _ _ _ _ h2, h3⟩).work
  dsimp only
  split
  · exact (h _ _).tail (.meters _ fun ⟨h1, h2, h3⟩ => ⟨h1, h2, Table.canonical_write _ _ _ _ h3⟩)
  · exact h _ _

/-! ### Hires and settlements (R118 to R134) -/

section
variable {k : Nat} {t : Table (Option Hire)}

/-- The number of records that a table of hires holds falls by none when a key is cleared. -/
theorem Table.filled_erase_le (k : Nat) (t : Table (Option Hire)) :
    ((t.erase k).filterMap (·.2)).length ≤ (t.filterMap (·.2)).length := by
  induction t with
  | nil => exact Nat.le_refl _
  | cons e t ih =>
    obtain ⟨j, v⟩ := e
    by_cases h : j = k <;> cases v <;> simp [Table.erase, h] at ih ⊢ <;> omega

/-- ... and by at least one when the key held a record. -/
theorem Table.filled_erase_lt {h : Hire} (hk : t.read none k = some h) :
    ((t.erase k).filterMap (·.2)).length < (t.filterMap (·.2)).length := by
  induction t with
  | nil => cases hk
  | cons e t ih =>
    obtain ⟨j, v⟩ := e
    by_cases hj : j = k
    · obtain rfl : v = some h := by simpa [Table.read, hj] using hk
      have := Table.filled_erase_le k t
      simp only [Table.erase, hj, if_true, List.filterMap_cons, List.length_cons]
      omega
    · have hlt := ih (by simpa [Table.read, hj] using hk)
      cases v <;> simp [Table.erase, hj] at hlt ⊢ <;> omega

/-- A record put into a table of hires raises its number by one at most. -/
theorem Table.filled_write_le (h : Option Hire) :
    ((t.write none k h).filterMap (·.2)).length ≤ ((t.erase k).filterMap (·.2)).length + 1 := by
  have key : ∀ u : Table (Option Hire), ((u.insert k h).filterMap (·.2)).length ≤ (u.filterMap (·.2)).length + 1 := by
    intro u
    induction u with
    | nil => cases h <;> simp [Table.insert]
    | cons e u ih =>
      obtain ⟨j, v⟩ := e
      by_cases hlt : k < j
      · cases h <;> simp [Table.insert, hlt]
      · cases v <;> simp [Table.insert, hlt] at ih ⊢ <;> omega
  unfold Table.write
  split
  · exact Nat.le_succ _
  · exact key _
end

theorem State.setHire_none_work (s : State) (n : Nat) : Work s (s.setHire n none) :=
  (Change.hires _ (Table.canonical_write _ _ n none) fun h => by
    refine Nat.le_trans ?_ h
    show ((s.hires.records.write none n none).filterMap (·.2)).length ≤ _
    rw [Table.write, if_pos rfl]
    exact Table.filled_erase_le n s.hires.records).work

/-- A record that takes the place of another leaves their number as it was. -/
theorem State.setHire_again_work {s : State} {n : Nat} {h : Hire} (hn : s.hire n = some h) (x : Option Hire) :
    Work s (s.setHire n x) :=
  (Change.hires { s.hires with records := s.hires.records.write none n x } (Table.canonical_write _ _ n x) fun hc =>
    (Nat.le_of_lt_succ ((Table.filled_write_le x).trans_lt (Nat.succ_lt_succ (Table.filled_erase_lt hn)))).trans hc).work

/-- A hire settles into a queue that has a place (R130). -/
theorem settleHire_work {s : State} {q : List Settlement}
    (hq : s.money.queue.length ≤ Config.settlementPlaces → q.length < Config.settlementPlaces) (n : Nat) :
    Work s (settleHire (s.setQueue q) n) := by
  have hstay : Work s (s.setQueue q) := (Change.settlements q fun h => (hq h).le).work
  unfold settleHire
  split
  · split
    · rename_i h _ _ st ds fi de _
      refine Relation.ReflTransGen.tail (b := (s.setQueue (q ++ [settlementOf (s.tariff h.tariff) h st ds fi de])).setHire n
        none) ?_ (.raise _)
      exact (Change.settlements _ fun hl => by have := hq hl; simp; omega).work.trans (State.setHire_none_work _ n)
    · exact hstay
  · exact hstay

theorem settleOrWait_work (s : State) (n : Nat) : Work s (settleOrWait s n) := by
  unfold settleOrWait
  split
  · rename_i h; exact settleHire_work (s := s) (q := s.money.queue) (fun _ => h) n
  · exact .nil s

theorem beginClosing_work (s : State) (n : Nat) (lost rec : Bool) : Work s (beginClosing s n lost rec) := by
  unfold beginClosing
  split
  · rename_i h hn
    split
    · dsimp only
      split
      · exact (State.setHire_again_work hn _).trans (creditReceiver_work _ _ _ _)
      · exact State.setHire_again_work hn _
    · exact .nil s
  · exact .nil s

theorem activateHire_work (s : State) (n : Nat) (rec : Bool) : Work s (activateHire s n rec) := by
  unfold activateHire
  split
  · rename_i h hn
    split
    · exact (State.setHire_again_work hn _).tail (.raise _)
    · exact .nil s
  · exact .nil s

theorem removePending_work (s : State) (h : Hire) : Work s (removePending s h) :=
  (State.setHire_none_work s _).tail (.receiver _ _)

theorem issueSecond_work (s : State) (n : Nat) : Work s (issueSecond s n) := by
  unfold issueSecond
  split
  · rename_i h hn
    split
    · split
      · exact (removePending_work s h).tail (.raise _)
      · exact State.setHire_again_work hn _
    · exact .nil s
  · exact .nil s

/-! ### Receivers, slots and poll lists (R84 to R103, R115) -/

theorem State.setPollList_work (s : State) (i : ListId) (l : PollList) : Work s (s.setPollList i l) := by
  cases i
  · exact (Change.beacon { s.beacon with l0 := l } (fun h => h) fun h => h).work
  · exact (Change.beacon { s.beacon with l1 := l } (fun h => h) fun h => h).work
  · exact (Change.beacon { s.beacon with l2 := l } (fun h => h) fun h => h).work
  · exact (Change.beacon { s.beacon with l3 := l } (fun h => h) fun h => h).work

theorem State.setListeners_work (s : State) (c n : Nat) : Work s (s.setListeners c n) :=
  (Change.beacon { s.beacon with listeners := s.beacon.listeners.write 0 c n }
    (fun h => ⟨Table.canonical_write _ _ _ _ h.1, h.2⟩) fun h => h).work

theorem State.setLowMark_work (s : State) (r : Nat) (m : Bool) : Work s (s.setLowMark r m) :=
  (Change.beacon { s.beacon with lowMarks := s.beacon.lowMarks.write false r m }
    (fun h => ⟨h.1, Table.canonical_write _ _ _ _ h.2⟩) fun h => h).work

theorem State.setInFlight_work (s : State) (p : Option InFlight) : Work s (s.setInFlight p) :=
  (Change.beacon { s.beacon with inFlight := p } (fun h => h) fun h => h).work

theorem State.setPhase_work (s : State) (i : ListId) (n : Nat) : Work s (s.setPhase i n) :=
  (Change.beacon { s.beacon with phase := i, sent := n } (fun h => h) fun h => h).work

theorem State.setReceiver_work (s : State) (r : Nat) (e : Receiver) : Work s (s.setReceiver r e) :=
  (Change.receiver r e).work

theorem leaveList_work (s : State) (i : ListId) (r : Nat) : Work s (leaveList s i r) := State.setPollList_work s i _

theorem joinList_work (s : State) (i : ListId) (r : Nat) : Work s (joinList s i r) :=
  (State.setPollList_work s i _).tail (.receiver _ _)

theorem raiseListeners_work (s : State) (c : Nat) : Work s (raiseListeners s c) := State.setListeners_work s c _

theorem dropListeners_work (s : State) (c : Option Nat) : Work s (dropListeners s c) := by
  cases c
  · exact .nil s
  · exact State.setListeners_work s _ _

theorem fillSlot_work (s : State) (l : Location) (r band : Nat) : Work s (fillSlot s l r band) :=
  (Change.slot l (some r)).work.tail (.receiver _ _)

theorem undockState_work (s : State) (l : Location) (r : Nat) (rec : Bool) : Work s (undockState s l r rec) := by
  unfold undockState
  split
  · exact ((State.setReceiver_work s r _).trans (joinList_work _ .l1 r)).tail (.raise _)
  · have h : ∀ e, Work s ((joinList (s.setReceiver r e) .l0 r).setLowMark r false) := fun e =>
      ((State.setReceiver_work s r e).trans (joinList_work _ .l0 r)).trans (State.setLowMark_work _ r false)
    dsimp only
    split
    · exact (h _).trans (activateHire_work _ _ rec)
    · exact h _
  · exact .nil s

theorem undock_work (s : State) (l : Location) (rec : Bool) : Work s (undock s l rec) := by
  unfold undock
  split
  · exact .nil s
  · exact ((Change.slot l none).work.tail (.receiver _ _)).trans (undockState_work _ l _ rec)

theorem dockHired_work (s : State) (r : Nat) : Work s (dockHired s r) := by
  unfold dockHired
  split
  · exact ((leaveList_work s .l0 r).trans (dropListeners_work _ _)).tail (.receiver _ _)
  · exact (leaveList_work s .l2 r).tail (.receiver _ _)
  · exact .nil s

theorem dockClosing_work (s : State) (r : Nat) (rec : Bool) : Work s (dockClosing s r rec) := by
  unfold dockClosing
  split
  · exact ((beginClosing_work s _ false rec).trans (dockHired_work _ r)).trans (settleOrWait_work _ _)
  · exact dockHired_work s r

theorem dockState_work (s : State) (l : Location) (r : Nat) (rec : Bool) : Work s (dockState s l r rec) := by
  unfold dockState
  split
  · exact State.setReceiver_work s r _
  · exact ((leaveList_work s .l1 r).tail (.receiver _ _)).tail (.raise _)
  · exact dockClosing_work s r rec
  · exact dockClosing_work s r rec
  · exact (State.setReceiver_work s r _).tail (.raise _)
  · exact .nil s

/-- A DOCK first undocks another receiver from the slot (R89). -/
def clearSlot (s : State) (l : Location) (r : Nat) (rec : Bool) : State :=
  match s.slot l with
  | some q => if q = r then s else undock s l rec
  | none => s

/-- The rest of a DOCK repeats the map, relocates the receiver, or docks it (R89). -/
def dockCleared (t : State) (l : Location) (r band : Nat) (rec : Bool) : State :=
  match (t.receiver r).location with
  | some m =>
    if m = l then t.setReceiver r { t.receiver r with band := band } else fillSlot (t.setSlot m none) l r band
  | none => dockState (fillSlot t l r band) l r rec

theorem dock_eq (s : State) (l : Location) (r band : Nat) (rec : Bool) :
    dock s l r band rec = dockCleared (clearSlot s l r rec) l r band rec := rfl

theorem clearSlot_work (s : State) (l : Location) (r : Nat) (rec : Bool) : Work s (clearSlot s l r rec) := by
  unfold clearSlot
  split
  · split
    · exact .nil s
    · exact undock_work s l rec
  · exact .nil s

theorem dockCleared_work (s : State) (l : Location) (r band : Nat) (rec : Bool) :
    Work s (dockCleared s l r band rec) := by
  unfold dockCleared
  split
  · split
    · exact State.setReceiver_work _ r _
    · exact (Change.slot _ none).work.trans (fillSlot_work _ l r band)
  · exact (fillSlot_work _ l r band).trans (dockState_work _ l r rec)

theorem dock_work (s : State) (l : Location) (r band : Nat) (rec : Bool) : Work s (dock s l r band rec) := by
  rw [dock_eq]
  exact (clearSlot_work s l r rec).trans (dockCleared_work _ l r band rec)

theorem battery_work (s : State) (l : Location) (band : Nat) : Work s (battery s l band) := by
  unfold battery
  split
  · exact State.setReceiver_work s _ _
  · exact .nil s

theorem rackReport_work (s : State) (k : Nat) (x : RackReport) : Work s (rackReport s k x) := by
  unfold rackReport
  split
  · split
    · exact dock_work s _ _ _ _
    · exact .nil s
  · split
    · exact undock_work s _ _
    · exact .nil s
  · split
    · exact battery_work s _ _
    · exact .nil s

theorem compareSlot_work (k : Nat) (t : State × Nat) (q : Nat × InventoryEntry) : Work t.1 (compareSlot k t q).1 := by
  unfold compareSlot
  dsimp only
  split
  · exact .nil t.1
  · exact undock_work t.1 _ _
  · split
    · split
      · exact battery_work t.1 _ _
      · exact dock_work t.1 _ _ _ _
    · exact .nil t.1

theorem takeInventory_work (s : State) (k : Nat) (l : List InventoryEntry) : Work s (takeInventory s k l) := by
  unfold takeInventory
  have h := (Work.foldl_fst (compareSlot_work k) (allSlots.zip l) (s, 0)).tail
    (.raise (.reconciled k ((allSlots.zip l).foldl (compareSlot k) (s, 0)).2))
  dsimp only
  split
  · exact h
  · exact h.trans (recordFault_work _ _ _ _ _)

theorem releaseMonitor_work (s : State) (p : Nat) : Work s (releaseMonitor s p) := by
  unfold releaseMonitor
  split
  · exact .nil s
  · exact (leaveList_work s .l3 _).tail (.receiver _ _)

theorem releaseMonitor_check (s : State) (p : Nat) : (releaseMonitor s p).check = s.check := by
  unfold releaseMonitor
  cases s.monitorAt p <;> rfl

theorem placeMonitor_work {s : State} (h : s.check.state ≠ .running) (p r : Nat) : Work s (placeMonitor s p r) := by
  unfold placeMonitor
  have hrel : (releaseMonitor s p).check.state ≠ .running := by rw [releaseMonitor_check]; exact h
  split
  · exact .nil s
  · refine (releaseMonitor_work s p).trans ?_
    dsimp only
    split
    · exact (Change.monitor _ none hrel).work.tail (.monitor p (some r) hrel)
    · split
      · exact (((leaveList_work _ .l1 r).tail (.receiver _ _)).trans (joinList_work _ .l3 r)).tail
          (.monitor p (some r) hrel)
      · exact ((State.setReceiver_work _ r _).trans (joinList_work _ .l3 r)).tail (.monitor p (some r) hrel)

theorem clearMonitorAt_work {s : State} (h : s.check.state ≠ .running) (p : Nat) : Work s (clearMonitorAt s p) := by
  unfold clearMonitorAt
  split
  · exact .nil s
  · exact (releaseMonitor_work s p).tail (.monitor p none (by rw [releaseMonitor_check]; exact h))

/-! ### The beacon (R104 to R114) -/

theorem settlePhase_work (s : State) (fuel : Nat) : Work s (settlePhase s fuel) := by
  induction fuel generalizing s with
  | zero => exact .nil s
  | succ fuel ih =>
    unfold settlePhase
    split
    · exact .nil s
    · split
      · exact .nil s
      · exact (State.setPhase_work s _ 0).trans (ih _)

theorem sendPoll_work (s : State) (i : ListId) (r : Nat) : Work s (sendPoll s i r) :=
  ((State.setInFlight_work s _).trans (State.setPollList_work _ i _)).trans (State.setPhase_work _ i _)

theorem beaconSlot_work (s : State) : Work s (beaconSlot s) := by
  unfold beaconSlot
  split
  · refine (settlePhase_work s 5).trans ?_
    dsimp only
    split
    · split
      · exact sendPoll_work _ _ _
      · exact Work.nil _
    · exact Work.nil _
  · exact .nil s

theorem replyCredit_work (s : State) (r : Nat) (h : Option Nat) : Work s (replyCredit s r h) := by
  unfold replyCredit
  split
  · exact creditReceiver_work s r _ _
  · exact .nil s

theorem moveListeners_work (s : State) (p : Option Nat) (q : Nat) : Work s (moveListeners s p q) := by
  unfold moveListeners
  split
  · exact .nil s
  · exact (dropListeners_work s p).trans (raiseListeners_work _ q)

theorem batteryTest_work (s : State) (r band : Nat) : Work s (batteryTest s r band) := by
  unfold batteryTest
  split
  · exact (State.setLowMark_work s r true).tail (.raise _)
  · exact .nil s

theorem takeReply_work (s : State) (p : InFlight) (tuned band : Nat) : Work s (takeReply s p tuned band) := by
  unfold takeReply
  split
  · exact (((replyCredit_work s _ _).tail (.receiver _ _)).trans (moveListeners_work _ _ _)).trans
      (batteryTest_work _ _ _)
  · exact (((((replyCredit_work s _ _).tail (.receiver _ _)).trans (leaveList_work _ .l2 _)).trans
      (joinList_work _ .l0 _)).trans (raiseListeners_work _ _)).trans (batteryTest_work _ _ _)
  · exact State.setReceiver_work s _ _

theorem fallSilent_work (s : State) (r : Nat) : Work s (fallSilent s r) :=
  ((((dropListeners_work s _).tail (.receiver _ _)).trans (leaveList_work _ .l0 r)).trans (joinList_work _ .l2 r)).tail
    (.raise _)

theorem takeMiss_work (s : State) (p : InFlight) : Work s (takeMiss s p) := by
  unfold takeMiss
  dsimp only
  split
  · exact (State.setReceiver_work s _ _).trans (fallSilent_work _ _)
  · exact State.setReceiver_work s _ _

theorem passToChecker_work (s : State) (p : InFlight) (o : PollOutcome) : Work s (passToChecker s p o) := by
  unfold passToChecker
  split
  · exact checkPoll_work s _ _ o
  · exact .nil s

theorem completeMiss_work (s : State) (p : InFlight) : Work s (completeMiss s p) := by
  refine (State.setInFlight_work s none).trans (Relation.ReflTransGen.trans ?_ (passToChecker_work _ p .miss))
  split
  · exact takeMiss_work _ p
  · exact Work.nil _

theorem completeReply_work (s : State) (p : InFlight) (tuned band : Nat) (x : Option Code16) :
    Work s (completeReply s p tuned band x) := by
  refine (State.setInFlight_work s none).trans (Relation.ReflTransGen.trans ?_ (passToChecker_work _ p _))
  split
  · exact takeReply_work _ p tuned band
  · exact Work.nil _

theorem reportMissing_work (s : State) (r : Nat) : Work s (reportMissing s r) :=
  (State.setReceiver_work s r _).tail (.raise _)

theorem missingSecond_work (s : State) : Work s (missingSecond s) :=
  Work.foldl (fun t r => by split; exacts [reportMissing_work t r, .nil t]) _ s

/-! ### Units and the second event (R160 to R165) -/

theorem unitReply_work {u : Nat} (s : State) (hu : u ≠ referenceUnit) : Work s (unitReply s u) :=
  (Change.pollEnds u).work.tail (.unit u _ hu (Nat.zero_le 15))

theorem dropFlashes_work (s : State) (b : Nat) : Work s (dropFlashes s b) :=
  Work.foldl (fun t d => State.setDesk_work t b d (t.desk b d).cough false) positions s

theorem ownLoss_work (s : State) (u : Nat) : Work s (ownLoss s u) := by
  unfold ownLoss
  split
  · exact State.setInFlight_work s none
  · split
    · exact dropFlashes_work s u
    · exact .nil s

theorem unitMiss_work {u : Nat} (s : State) (hu : u ≠ referenceUnit) : Work s (unitMiss s u) := by
  have h : ∀ x, Work s ((endPoll s u).setUnit u { state := x, failures := (s.unit u).missed }) := fun x =>
    (Change.pollEnds u).work.tail (.unit u _ hu (Nat.min_le_right _ 15))
  unfold unitMiss
  dsimp only
  split
  · exact ((h .lost).trans (ownLoss_work _ u)).trans (recordFault_work _ _ _ _ _)
  · exact h _

theorem clockReturn_work (s : State) : Work s (clockReturn s) := by
  unfold clockReturn
  split
  · rename_i h; exact (Change.locks h).work.tail (.raise _)
  · exact .nil s

theorem loseReference_work {s : State} (h : s.clock.phase = .locked) : Work s (loseReference s) :=
  ((Change.unlocks h).work.trans (recordFault_work _ _ _ _ _)).tail (.raise _)

theorem turnMeterSecond_work (s : State) : Work s (turnMeterSecond s) := by
  unfold turnMeterSecond
  refine Work.foldl ?_ _ s
  exact fun t p => turnSecond_work t p.1 p.2

theorem metersSecond_work (s : State) : Work s (metersSecond s) := Work.foldl meterChannel_work allChannels s

theorem windowsSecond_work (s : State) : Work s (windowsSecond s) := by
  unfold windowsSecond
  refine Work.foldl ?_ _ s
  exact fun t p => windowSecond_work t p.1 p.2

theorem issuesSecond_work (s : State) : Work s (issuesSecond s) := Work.foldl issueSecond_work _ s

theorem takeSecond_work (placed : Nat) (s : State) (x : SecondTaker) : Work s (takeSecond placed s x) := by
  cases x with
  | turnMeter => exact turnMeterSecond_work s
  | accountingMeters => exact metersSecond_work s
  | handoverWindows => exact windowsSecond_work s
  | issueWindows => exact issuesSecond_work s
  | missingTimers => exact missingSecond_work s
  | checkDwell => exact dwellSecond_work placed s
  | clockReturn => exact clockReturn_work s

end Sys2Proof.Machine
end

