-- ==== Sys2Proof/Proofs/Steps.lean ====
section
/-! Every step, said once (`step_taken`): a work, a second event, a frame that is passed on, or a frame sent; and what an
invariant must withstand to be kept by each of these (`Taken.keeps`). -/

namespace Sys2Proof.Machine

/-! ### Services of requests -/

theorem serveReadStatus_work (body : List Byte) (s : State) : Work s (serveReadStatus body s).1 := by
  unfold serveReadStatus
  split
  · exact Change.clearOverflow.work
  · exact .nil s

theorem serveOpenSession_work (body : List Byte) (s : State) : Work s (serveOpenSession body s).1 := by
  unfold serveOpenSession
  split
  · split
    · exact (Change.opened.work.tail (.deskRecords [] fun _ => rfl)).tail
        (.meters { s.meters with service := [], unserved := [] } fun h => ⟨h.1, rfl, rfl⟩)
    · exact .nil s
  · exact .nil s

theorem idleDomain_domain (s : State) (b : Nat) (p : Side) (x : Nat) (q : Side) :
    (idleDomain s b p).domain x q = if x = b ∧ q = p then .idle else s.domain x q := by
  have hf : ∀ (t : State) (e : Nat), (flash t b e).domain = t.domain := by
    intro t e; unfold flash; split <;> rfl
  unfold idleDomain
  split
  · rw [hf]; exact setDomainState_domain s b x p q .idle
  · exact setDomainState_domain s b x p q .idle

/-- The domains after those of a list of places have become IDLE (R15). -/
theorem idlePlaces_domain (ps : List (Nat × Side)) (s : State) (x : Nat) (q : Side) :
    (ps.foldl (fun t p => idleDomain t p.1 p.2) s).domain x q = if (x, q) ∈ ps then .idle else s.domain x q := by
  induction ps generalizing s with
  | nil => simp
  | cons p ps ih =>
    obtain ⟨b, y⟩ := p
    rw [List.foldl_cons, ih, idleDomain_domain]
    by_cases hm : (x, q) ∈ ps <;> simp [hm]

theorem mem_domainPlaces (b : Nat) (p : Side) : (b, p) ∈ domainPlaces ↔ 1 ≤ b ∧ b ≤ 24 := by
  simp only [domainPlaces, allBooths, List.mem_flatMap, List.mem_range', List.mem_cons, List.not_mem_nil, or_false,
    Prod.mk.injEq]
  constructor
  · rintro ⟨a, ⟨i, hi, rfl⟩, ⟨rfl, -⟩ | ⟨rfl, -⟩⟩ <;> omega
  · intro h
    refine ⟨b, ⟨b - 1, by omega, by omega⟩, ?_⟩
    cases p <;> simp

/-- After CLOSE_SESSION or RESET_AUDIO every domain of every booth is IDLE (R15). -/
theorem idleAll_domain (s : State) {b : Nat} (h1 : 1 ≤ b) (h24 : b ≤ 24) (p : Side) : (idleAll s).domain b p = .idle := by
  unfold idleAll
  rw [idlePlaces_domain, if_pos ((mem_domainPlaces b p).mpr ⟨h1, h24⟩)]

theorem idleAll_work (s : State) : Work s (idleAll s) := by
  unfold idleAll
  refine Work.foldl ?_ _ s
  exact fun t p => idleDomain_work t p.1 p.2

theorem stopAllAnnouncements_work (s : State) : Work s (stopAllAnnouncements s) :=
  (Change.arbiter { s.arbiter with announcements := [], inputOne := none, inputTwo := none }
    fun h => ⟨h.1, rfl, h.2.2⟩).work

theorem stopAllAnnouncements_domain (s : State) : (stopAllAnnouncements s).domain = s.domain := rfl

theorem quietHall_work (s : State) : Work s (quietHall s) := by
  refine ((idleAll_work s).trans (stopAllAnnouncements_work (idleAll s))).tail (.closed fun b p h1 h24 => ?_)
  rw [stopAllAnnouncements_domain]
  exact idleAll_domain s h1 h24 p

theorem serveCloseSession_work (body : List Byte) (s : State) : Work s (serveCloseSession body s).1 := by
  unfold serveCloseSession
  split
  · split
    · exact (quietHall_work s).trans (settleEvent_work _ _ _ _)
    · exact .nil s
  · exact .nil s

theorem unseeConsoles_work (s : State) : Work s (unseeConsoles s) := by
  have h : ∀ (bs : List Nat) (t : State), (∀ b ∈ bs, b ≤ 24) →
      Work t (bs.foldl (fun t b => t.setUnit b .unseen) t) := by
    intro bs
    induction bs with
    | nil => exact fun t _ => Work.nil t
    | cons b bs ih =>
      intro t hb
      have hne : b ≠ referenceUnit := by
        have := hb b List.mem_cons_self
        unfold referenceUnit
        omega
      exact (Change.unit b .unseen hne (Nat.zero_le 15)).work.trans
        (ih _ fun x hx => hb x (List.mem_cons_of_mem _ hx))
  exact h allBooths s (by decide)

theorem clearRelays_work (s : State) : Work s (clearRelays s) :=
  (Change.arbiter { s.arbiter with relays := [] } fun h => ⟨h.1, h.2.1, rfl, h.2.2.2⟩).work

theorem resetAudioState_work (s : State) : Work s (resetAudioState s) :=
  (quietHall_work s).trans ((abortCheckState_work _).trans ((clearRelays_work _).trans
    ((unseeConsoles_work _).trans (settleEvent_work _ _ _ _))))

theorem serveResetAudio_work (body : List Byte) (s : State) : Work s (serveResetAudio body s).1 := by
  unfold serveResetAudio
  split
  · exact resetAudioState_work s
  · exact .nil s

theorem serveSetTime_work (body : List Byte) (s : State) : Work s (serveSetTime body s).1 := by
  unfold serveSetTime
  split
  · rename_i t3 t2 t1 t0
    split
    · exact .nil s
    · refine (Change.seconds _ ?_).work
      have h3 := t3.isLt; have h2 := t2.isLt; have h1 := t1.isLt; have h0 := t0.isLt
      unfold nat32 Config.maxCount
      omega
  · exact .nil s

theorem clamp_bounds {low high : Nat} (h : low ≤ high) (n : Nat) : low ≤ clamp low high n ∧ clamp low high n ≤ high := by
  unfold clamp; omega

theorem clampLimits_fits (a b c d e f g : Nat) : (clampLimits a b c d e f g).fits :=
  ⟨clamp_bounds (by omega) a, clamp_bounds (by omega) b, (clamp_bounds (by omega) c).2, clamp_bounds (by omega) d,
    (clamp_bounds (by omega) e).2, (clamp_bounds (by omega) f).2, clamp_bounds (by omega) g⟩

theorem serveWriteLimits_work (body : List Byte) (s : State) : Work s (serveWriteLimits body s).1 := by
  unfold serveWriteLimits
  split
  · exact (Change.limits _ (clampLimits_fits _ _ _ _ _ _ _)).work
  · exact .nil s

theorem serveReadLimits_work (body : List Byte) (s : State) : Work s (serveReadLimits body s).1 := by
  unfold serveReadLimits
  split <;> exact .nil s

theorem serveReadFault_work (body : List Byte) (s : State) : Work s (serveReadFault body s).1 := by
  unfold serveReadFault
  split
  · split <;> exact .nil s
  · exact .nil s

theorem serveClearFault_work (body : List Byte) (s : State) : Work s (serveClearFault body s).1 := by
  unfold serveClearFault
  split
  · split
    · exact (Change.fault _ _).work
    · exact .nil s
  · exact .nil s

/-- An output byte codes no output, or one of booths 1 to 24 (R175). -/
theorem outputOfByte_booth {b : Byte} {o : Option BoothOutput} (h : outputOfByte b = some o) {x : BoothOutput}
    (hx : x ∈ o.toList) : 1 ≤ x.booth ∧ x.booth ≤ 24 := by
  unfold outputOfByte at h
  dsimp only at h
  split at h
  · cases h; simp at hx
  · split at h
    · rename_i hb
      split at h
      · cases h
        obtain rfl : x = _ := by simpa using hx
        exact hb
      · split at h
        · cases h
          obtain rfl : x = _ := by simpa using hx
          exact hb
        · cases h
    · cases h

/-- What a WRITE_CHANNEL codes: each field as its byte gives it, in its range (R5, R175). -/
theorem channelWrite_eq {c l f g a k p : Byte} {n : Nat} {e : PlanEntry} (h : channelWrite c l f g a k p = some (n, e)) :
    (1 ≤ n ∧ n ≤ 31 ∧ e.language ≤ 99) ∧ n = c.toNat ∧ e.language = l.toNat ∧ outputOfByte f = some e.first ∧
      outputOfByte g = some e.second ∧ yesNoOfByte a = some e.autofloor ∧ fallbackOfByte k = some e.fallback ∧
      pivotOfByte p = some e.pivot := by
  unfold channelWrite at h
  split at h
  · rename_i hr
    split at h
    · rename_i hf hg ha hk hp
      cases h
      exact ⟨hr, rfl, rfl, hf, hg, ha, hk, hp⟩
    · cases h
  · cases h

/-- A pivot byte codes no channel, or a channel 1 to 31 (R175). -/
theorem pivotOfByte_range {b : Byte} {q : Nat} (h : pivotOfByte b = some (some q)) : q = b.toNat ∧ 1 ≤ q ∧ q ≤ 31 := by
  unfold pivotOfByte at h
  split at h
  · cases h
  · rename_i h0
    split at h
    · rename_i h31
      cases h
      refine ⟨rfl, Nat.one_le_iff_ne_zero.mpr fun hz => h0 ?_, h31⟩
      exact BitVec.eq_of_toNat_eq hz
    · cases h

theorem channelWrite_fits {c l f g a k p : Byte} {n : Nat} {e : PlanEntry}
    (h : channelWrite c l f g a k p = some (n, e)) : e.fits := by
  obtain ⟨⟨-, -, hl⟩, -, -, hf, hg, -, -, hp⟩ := channelWrite_eq h
  refine ⟨hl, fun o ho => ?_, fun q hq => ?_⟩
  · rcases List.mem_append.mp ho with ho | ho
    exacts [outputOfByte_booth hf ho, outputOfByte_booth hg ho]
  · rw [hq] at hp
    exact (pivotOfByte_range hp).2

theorem serveWriteChannel_work (body : List Byte) (s : State) : Work s (serveWriteChannel body s).1 := by
  unfold serveWriteChannel
  split
  · split
    · exact .nil s
    · rename_i h
      obtain ⟨⟨h1, h31, -⟩, -⟩ := channelWrite_eq h
      split
      · exact .nil s
      · rename_i hfree
        exact (Change.entry _ _ h1 h31 (channelWrite_fits h) hfree).work.trans (settleEvent_work _ _ _ _)
  · exact .nil s

theorem serveReadChannel_work (body : List Byte) (s : State) : Work s (serveReadChannel body s).1 := by
  unfold serveReadChannel
  split
  · split <;> exact .nil s
  · exact .nil s

theorem serveSetFloorLanguage_work (body : List Byte) (s : State) : Work s (serveSetFloorLanguage body s).1 := by
  unfold serveSetFloorLanguage
  split
  · split
    · rename_i h; exact (Change.floorLanguage _ h).work.trans (settleEvent_work _ _ _ _)
    · exact .nil s
  · exact .nil s

theorem serveReadSources_work (body : List Byte) (s : State) : Work s (serveReadSources body s).1 := by
  unfold serveReadSources
  split <;> exact .nil s

theorem beginAnnouncement_work (s : State) (i : AnnInput) (set : ChannelSet) : Work s (beginAnnouncement s i set) := by
  have h : ∀ cs, Work s (enterAnnouncement s i cs) := fun cs => by
    unfold enterAnnouncement
    refine Work.foldl ?_ cs s
    exact fun t c => State.setAnnouncement_work t c _
  exact ((h (channelsOf set)).trans (State.setInput_work _ i _)).trans (settleEvent_work _ _ _ _)

theorem serveStartAnnouncement_work (body : List Byte) (s : State) : Work s (serveStartAnnouncement body s).1 := by
  unfold serveStartAnnouncement
  split
  · split
    · exact .nil s
    · extract_lets set
      clear_value set
      split
      · exact .nil s
      · split
        · exact .nil s
        · exact beginAnnouncement_work s _ _
  · exact .nil s

theorem stopInput_work (s : State) (i : AnnInput) (set : ChannelSet) : Work s (stopInput s i set) := by
  have h : ∀ cs : List Nat, Work s (cs.foldl (fun t c => t.setAnnouncement c .none) s) := fun cs => by
    refine Work.foldl ?_ cs s
    exact fun t c => State.setAnnouncement_work t c _
  exact ((h (channelsOf set)).trans (State.setInput_work _ i _)).trans (settleEvent_work _ _ _ _)

theorem serveStopAnnouncement_work (body : List Byte) (s : State) : Work s (serveStopAnnouncement body s).1 := by
  unfold serveStopAnnouncement
  split
  · split
    · exact .nil s
    · split
      · exact stopInput_work s _ _
      · exact .nil s
  · exact .nil s

theorem clampConfig_fits (n : Nat) (i : Interlock) (m : HandoverMode) (w : Nat) (p : ExpiryPolicy) (l o : Nat) :
    (clampConfig n i m w p l o).fits :=
  ⟨(clamp_bounds (by omega) n).2, (clamp_bounds (by omega) w).1, (clamp_bounds (by omega) w).2,
    (clamp_bounds (by omega) l).1, (clamp_bounds (by omega) l).2, (clamp_bounds (by omega) o).2⟩

theorem serveWriteBooth_work (body : List Byte) (s : State) : Work s (serveWriteBooth body s).1 := by
  unfold serveWriteBooth
  split
  · split
    · rename_i hb
      split
      · dsimp only
        split
        · exact .nil s
        · rename_i hfree
          exact (Change.config _ _ hb.1 hb.2 (clampConfig_fits _ _ _ _ _ _ _) hfree).work
      · exact .nil s
    · exact .nil s
  · exact .nil s

theorem serveReadBooth_work (body : List Byte) (s : State) : Work s (serveReadBooth body s).1 := by
  unfold serveReadBooth
  split
  · split <;> exact .nil s
  · exact .nil s

theorem serveReadDesks_work (body : List Byte) (s : State) : Work s (serveReadDesks body s).1 := by
  unfold serveReadDesks
  split
  · split <;> exact .nil s
  · exact .nil s

theorem serveForceOutputOff_work (body : List Byte) (s : State) : Work s (serveForceOutputOff body s).1 := by
  unfold serveForceOutputOff
  split
  · split
    · split
      · exact forceOff_work s _
      · exact .nil s
    · exact .nil s
  · exact .nil s

theorem raiseLongest_work (s : State) (b : Nat) (p : Side) : Work s (raiseLongest s b p) := by
  unfold raiseLongest
  split
  · exact State.setDeskRecord_work s b _ _
  · exact .nil s

theorem serveReadDeskRecords_work (body : List Byte) (s : State) : Work s (serveReadDeskRecords body s).1 := by
  unfold serveReadDeskRecords
  split
  · split
    · exact (raiseLongest_work s _ .a).trans (raiseLongest_work _ _ .b)
    · exact .nil s
  · exact .nil s

/-- A START_CHECK that is not refused does not name channel 0 (R73). -/
theorem State.checkRefusal_none {s : State} {set : ChannelSet} {m : MonitorSet} (h : s.checkRefusal set m = none) :
    set.getLsbD 0 = false := by
  unfold State.checkRefusal at h
  split at h
  · cases h
  · rename_i hnames
    simp [namesTest] at hnames
    exact hnames.1.2

theorem beginCheck_accepted_work {s : State} {set : ChannelSet} {m : MonitorSet} (h : s.checkRefusal set m = none)
    (seed : Code16) (n : Nat) : Work s (beginCheck s ⟨set, s.monitorsHeld m, seed, clamp 1 16 n⟩) := by
  refine beginCheck_work (State.checkRefusal_none h) (clamp_bounds (by omega) n).1 (clamp_bounds (by omega) n).2
    fun q hq => ?_
  have hheld := monitorSetOf_bit hq
  rw [Bool.and_eq_true] at hheld
  exact Option.isSome_iff_ne_none.mp hheld.2

theorem serveStartCheck_work (body : List Byte) (s : State) : Work s (serveStartCheck body s).1 := by
  fun_cases serveStartCheck body s
  · exact .nil s
  · rename_i hfree _ _
    exact beginCheck_accepted_work hfree _ _
  · exact .nil s

theorem serveAbortCheck_work (body : List Byte) (s : State) : Work s (serveAbortCheck body s).1 := by
  unfold serveAbortCheck
  split
  · exact abortCheck_work s
  · exact .nil s

theorem serveReadCheck_work (body : List Byte) (s : State) : Work s (serveReadCheck body s).1 := by
  unfold serveReadCheck
  split <;> exact .nil s

theorem serveReadReceiver_work (body : List Byte) (s : State) : Work s (serveReadReceiver body s).1 := by
  unfold serveReadReceiver
  split
  · split <;> exact .nil s
  · exact .nil s

theorem serveReadRack_work (body : List Byte) (s : State) : Work s (serveReadRack body s).1 := by
  unfold serveReadRack
  split
  · split <;> exact .nil s
  · exact .nil s

theorem serveSetMonitor_work (body : List Byte) (s : State) : Work s (serveSetMonitor body s).1 := by
  unfold serveSetMonitor
  split
  · split
    · exact .nil s
    · rename_i hfree
      refine placeMonitor_work (fun hrun => ?_) _ _
      unfold State.monitorRefusal at hfree
      split at hfree
      · cases hfree
      · simp at hfree
  · exact .nil s

theorem serveClearMonitor_work (body : List Byte) (s : State) : Work s (serveClearMonitor body s).1 := by
  unfold serveClearMonitor
  split
  · split
    · exact .nil s
    · split
      · exact .nil s
      · rename_i hrun; exact clearMonitorAt_work hrun _
  · exact .nil s

theorem serveWithdrawReceiver_work (body : List Byte) (s : State) : Work s (serveWithdrawReceiver body s).1 := by
  unfold serveWithdrawReceiver
  split
  · split
    · unfold withdrawReceiver
      split
      · exact State.setReceiver_work s _ _
      · exact State.setReceiver_work s _ _
      · exact State.setReceiver_work s _ _
      · exact (leaveList_work s .l1 _).tail (.receiver _ _)
      · exact .nil s
      · exact .nil s
    · exact .nil s
  · exact .nil s

theorem serveRestoreReceiver_work (body : List Byte) (s : State) : Work s (serveRestoreReceiver body s).1 := by
  unfold serveRestoreReceiver
  split
  · split
    · unfold restoreReceiver
      split
      · exact State.setReceiver_work s _ _
      · exact .nil s
    · exact .nil s
  · exact .nil s

theorem serveWriteSchedule_work (body : List Byte) (s : State) : Work s (serveWriteSchedule body s).1 := by
  unfold serveWriteSchedule
  split
  · rename_i a b c d
    exact (Change.beacon { s.beacon with counts := ⟨min a.toNat 63, min b.toNat 63, min c.toNat 63, min d.toNat 63⟩ }
      (fun h => h) fun _ => ⟨Nat.min_le_right _ _, Nat.min_le_right _ _, Nat.min_le_right _ _,
        Nat.min_le_right _ _⟩).work
  · exact .nil s

theorem serveReadListeners_work (body : List Byte) (s : State) : Work s (serveReadListeners body s).1 := by
  unfold serveReadListeners
  split <;> exact .nil s

/-- A record more than a hire table holds, where it holds fewer than its places, is within them (R118, R121). -/
theorem openHire_work {s : State} (h : s.hireList.length < Config.hirePlaces) (r ref d t dep : Nat) :
    Work s (openHire s r ref d t dep) := by
  have hput : Work s (s.setHire s.hires.next (some (newHire s r ref d t dep))) :=
    (Change.hires { s.hires with records := s.hires.records.write none s.hires.next (some (newHire s r ref d t dep)) }
      (Table.canonical_write none s.hires.records s.hires.next (some (newHire s r ref d t dep))) fun _ =>
        ((Table.filled_write_le (k := s.hires.next) (some (newHire s r ref d t dep))).trans
          (Nat.succ_le_succ (Table.filled_erase_le s.hires.next s.hires.records))).trans h).work
  exact (hput.tail (.receiver _ _)).tail (.hires { records := _, next := _ } (fun h => h) fun h => h)

/-- An OPEN_HIRE that is not refused finds a place in the hire table (R121). -/
theorem State.hireRefusal_none {s : State} {r d k : Nat} (h : s.hireRefusal r d k = none) :
    s.hireList.length < Config.hirePlaces := by
  by_contra hfull
  unfold State.hireRefusal at h
  rw [if_pos (Nat.not_lt.mp hfull)] at h
  split_ifs at h

theorem serveOpenHire_work (body : List Byte) (s : State) : Work s (serveOpenHire body s).1 := by
  unfold serveOpenHire
  split
  · split
    · exact .nil s
    · rename_i hfree
      exact openHire_work (State.hireRefusal_none hfree) _ _ _ _ _
  · exact .nil s

theorem serveCancelHire_work (body : List Byte) (s : State) : Work s (serveCancelHire body s).1 := by
  unfold serveCancelHire
  split
  · unfold cancelHire
    split
    · exact .nil s
    · split
      · exact removePending_work s _
      · exact .nil s
      · exact .nil s
  · exact .nil s

theorem leaveForLost_work (s : State) (r : Nat) : Work s (leaveForLost s r) := by
  unfold leaveForLost
  split
  · exact (leaveList_work s .l0 r).trans (dropListeners_work _ _)
  · exact leaveList_work s .l2 r
  · exact .nil s

theorem serveDeclareLost_work (body : List Byte) (s : State) : Work s (serveDeclareLost body s).1 := by
  unfold serveDeclareLost
  split
  · unfold declareLost
    split
    · exact .nil s
    · split
      · exact (((beginClosing_work s _ true false).trans (leaveForLost_work _ _)).tail (.receiver _ _)).trans
          (settleOrWait_work _ _)
      · exact .nil s
  · exact .nil s

theorem serveReadHire_work (body : List Byte) (s : State) : Work s (serveReadHire body s).1 := by
  unfold serveReadHire
  split
  · split <;> exact .nil s
  · exact .nil s

theorem serveReadSettlement_work (body : List Byte) (s : State) : Work s (serveReadSettlement body s).1 := by
  unfold serveReadSettlement
  split
  · split <;> exact .nil s
  · exact .nil s

/-- A settlement taken frees the place that a waiting hire settles into (R131, R134). -/
theorem serveTakeSettlement_work (body : List Byte) (s : State) : Work s (serveTakeSettlement body s).1 := by
  unfold serveTakeSettlement
  split
  · unfold takeSettlement
    split
    · exact .nil s
    · rename_i x rest hq
      have hlen : s.money.queue.length ≤ Config.settlementPlaces → rest.length < Config.settlementPlaces := by
        rw [hq]; exact fun h => h
      split
      · show Work s (settleNext (s.setQueue rest))
        unfold settleNext
        split
        · exact settleHire_work hlen _
        · exact (Change.settlements rest fun h => (hlen h).le).work
      · exact .nil s
  · exact .nil s

theorem serveWriteTariff_work (body : List Byte) (s : State) : Work s (serveWriteTariff body s).1 := by
  unfold serveWriteTariff
  split
  · rename_i k g l f1 f0 p1 p0 c3 c2 c1 c0 x3 x2 x1 x0
    split
    · exact .nil s
    · refine (Change.tariff _ _ ?_).work
      have h16 : ∀ hi lo : Byte, nat16 hi lo ≤ 65535 := by
        intro hi lo
        have := hi.isLt; have := lo.isLt
        unfold nat16; omega
      unfold Tariff.fits
      rw [if_pos rfl]
      exact ⟨(clamp_bounds (by omega) _).2, (clamp_bounds (by omega) _).1, (clamp_bounds (by omega) _).2, h16 f1 f0,
        h16 p1 p0, (clamp_bounds (Nat.zero_le _) _).2, (clamp_bounds (Nat.zero_le _) _).2⟩
  · exact .nil s

theorem serveReadTariff_work (body : List Byte) (s : State) : Work s (serveReadTariff body s).1 := by
  unfold serveReadTariff
  split
  · split <;> exact .nil s
  · exact .nil s

theorem serveFreezeTariffs_work (body : List Byte) (s : State) : Work s (serveFreezeTariffs body s).1 := by
  unfold serveFreezeTariffs
  split
  · exact Change.frozen.work
  · exact .nil s

theorem serveReadDelegation_work (body : List Byte) (s : State) : Work s (serveReadDelegation body s).1 := by
  unfold serveReadDelegation
  split
  · split <;> exact .nil s
  · exact .nil s

theorem serveClearDelegation_work (body : List Byte) (s : State) : Work s (serveClearDelegation body s).1 := by
  unfold serveClearDelegation
  split
  · split
    · exact Work.foldl (fun t c => State.setListening_work t _ c 0) allChannels s
    · split
      · exact (Change.meters { s.meters with listening := [] } fun h => ⟨rfl, h.2⟩).work
      · exact .nil s
  · exact .nil s

theorem serveReadService_work (body : List Byte) (s : State) : Work s (serveReadService body s).1 := by
  unfold serveReadService
  split
  · split
    · exact .nil s
    · split <;> exact .nil s
  · exact .nil s

/-- Whatever a frame asks for, its service is a work (R171). -/
theorem serveFrame_work (f : Frame) (s : State) : Work s (serveFrame f s).1 := by
  have hall : ∀ e ∈ servers, ∀ body s, Work s (e.2 body s).1 := by
    simp only [servers, List.forall_mem_append, List.forall_mem_cons]
    exact ⟨⟨⟨⟨serveReadStatus_work, serveOpenSession_work, serveCloseSession_work, serveResetAudio_work,
        serveSetTime_work, serveWriteLimits_work, serveReadLimits_work, serveReadFault_work, serveClearFault_work, nofun⟩,
      serveWriteChannel_work, serveReadChannel_work, serveSetFloorLanguage_work, serveReadSources_work,
        serveStartAnnouncement_work, serveStopAnnouncement_work, serveWriteBooth_work, serveReadBooth_work,
        serveReadDesks_work, serveForceOutputOff_work, serveReadDeskRecords_work, nofun⟩,
      serveStartCheck_work, serveAbortCheck_work, serveReadCheck_work, serveReadReceiver_work, serveReadRack_work,
        serveSetMonitor_work, serveClearMonitor_work, serveWithdrawReceiver_work, serveRestoreReceiver_work,
        serveWriteSchedule_work, serveReadListeners_work, nofun⟩,
      serveOpenHire_work, serveCancelHire_work, serveDeclareLost_work, serveReadHire_work, serveReadSettlement_work,
        serveTakeSettlement_work, serveWriteTariff_work, serveReadTariff_work, serveFreezeTariffs_work,
        serveReadDelegation_work, serveClearDelegation_work, serveReadService_work, nofun⟩
  unfold serveFrame
  split
  · rename_i e he
    exact hall e (List.mem_of_find?_eq_some he) _ _
  · exact .nil s

/-! ### Answers of the links -/

theorem takeConsoleReply_work (s : State) {b : Nat} (hb : b ≤ 24) (x : ConsoleContent) :
    Work s (takeConsoleReply s b x) := by
  have hne : b ≠ referenceUnit := by unfold referenceUnit; omega
  unfold takeConsoleReply
  split
  · split
    · exact unitMiss_work s hne
    · exact (unitReply_work s hne).trans (Work.foldl (fun t e => deskEvent_work t b e) _ _)
  · split
    · exact (unitReply_work s hne).trans (reconcileConsole_work _ b _)
    · exact unitMiss_work s hne

theorem consoleAnswer_work (s : State) (b : Nat) (x : ConsoleContent) : Work s (consoleAnswer s b x) := by
  unfold consoleAnswer
  split
  · rename_i p _
    split
    · rename_i hp
      have h24 : p.booth ≤ 24 := by simp [isBooth] at hp; exact hp.2
      split
      · rename_i hb; exact takeConsoleReply_work s (hb ▸ h24) x
      · exact unitMiss_work s (by unfold referenceUnit; omega)
    · exact .nil s
  · exact .nil s

theorem sendConsolePoll_work (s : State) : Work s (sendConsolePoll s) := by
  have h : (dropFlashes s s.supervisor.nextConsole).supervisor.nextConsole = s.supervisor.nextConsole := rfl
  unfold sendConsolePoll
  dsimp only
  refine (dropFlashes_work s s.supervisor.nextConsole).tail ?_
  exact .consolePolled { booth := s.supervisor.nextConsole, returnRequest := _, lamps := positions.map (s.lamps _) } rfl
    (by simp [positions])

theorem takeRackReply_work (s : State) {k : Nat} (hk : k ≤ 16) (x : RackContent) : Work s (takeRackReply s k x) := by
  have hne : rackUnit k ≠ referenceUnit := by unfold rackUnit referenceUnit; omega
  unfold takeRackReply
  split
  · split
    · exact unitMiss_work s hne
    · exact (unitReply_work s hne).trans (Work.foldl (fun t e => rackReport_work t k e) _ _)
  · split
    · exact (unitReply_work s hne).trans (takeInventory_work _ k _)
    · exact unitMiss_work s hne

theorem rackAnswer_work (s : State) (k : Nat) (x : RackContent) : Work s (rackAnswer s k x) := by
  unfold rackAnswer
  split
  · rename_i p _
    split
    · rename_i hp
      have h16 : p.rack ≤ 16 := by simp [isRack] at hp; exact hp.2
      split
      · rename_i hk; exact takeRackReply_work s (hk ▸ h16) x
      · exact unitMiss_work s (by unfold rackUnit referenceUnit; omega)
    · exact .nil s
  · exact .nil s

theorem isPolled_ne {u : Nat} (h : isPolled u = true) : u ≠ referenceUnit := by
  simp [isPolled] at h; unfold referenceUnit; omega

/-! ### The forms of a step -/

/-- What becomes of a complete frame: its request is served and answered, it is discarded, or it waits (R171). -/
inductive Pass (s : State) (f : Frame) : State → Prop
  | request {u : State} (body : List Byte) (h : s.admits f = true) (hw : Work (s.reserve f) u) :
      Pass s f (u.putReply f body)
  | discarded (h : s.admits f = true) : Pass s f s.freeHold
  | waits (h : s.admits f = false) : Pass s f (s.await f)

/-- The forms a step takes. -/
inductive Taken : State → State → Prop
  | work {s t : State} (h : Work s t) : Taken s t
  | second {s u : State} (h : Work (s.onClock fun c => (c.run c.left).boundary) u) : Taken s (u.onClock Clock.settle)
  | passed {s t : State} (f : Frame) (h : Pass s f t) : Taken s t
  | framed (s : State) (g : Framer) : Taken s { s with link := { s.link with framer := g } }
  | sent {s : State} (h : s.link.hold = none) : Taken s { s with link := s.link.transmit }
  | sentHeld {s t : State} (f : Frame) (h : s.link.hold = some f)
      (hp : Pass { s with link := s.link.transmit } f t) : Taken s t
  | reset (s : State) : Taken s
      { State.reset with clock := { Clock.reset with boundaries := s.clock.boundaries }, pending := s.pending }
  | trans {s t u : State} (h : Taken s t) (k : Taken t u) : Taken s u

theorem takeRequest_pass (s : State) (f : Frame) {serve : State → Served} (h : ∀ t, Work t (serve t).1) :
    Pass s f (takeRequest s f serve) := by
  unfold takeRequest
  cases ha : s.admits f with
  | true => exact .request _ ha (h _)
  | false => exact .waits ha

theorem discardFrame_pass (s : State) (f : Frame) : Pass s f (discardFrame s f) := by
  unfold discardFrame
  cases ha : s.admits f with
  | true => exact .discarded ha
  | false => exact .waits ha

theorem passFrame_pass (s : State) (f : Frame) : Pass s f (passFrame s f) := by
  unfold passFrame
  split
  · exact discardFrame_pass s f
  · exact takeRequest_pass s f fun t => serveFrame_work f t

theorem receiveByte_taken (s : State) (b : LineByte) : Taken s (receiveByte s b) := by
  unfold receiveByte
  split
  · dsimp only
    split
    · exact (Taken.framed s _).trans (.passed _ (passFrame_pass _ _))
    · exact .framed s _
  · exact .work (.nil s)

theorem receiveBytes_taken (bs : List LineByte) (s : State) : Taken s (bs.foldl receiveByte s) := by
  induction bs generalizing s with
  | nil => exact .work (.nil s)
  | cons b bs ih => exact (receiveByte_taken s b).trans (ih _)

theorem Link.transmit_hold (l : Link) : l.transmit.hold = l.hold ∧ l.transmit.replyRoom = none := by
  unfold Link.transmit
  split
  · exact ⟨rfl, rfl⟩
  · rename_i h; split <;> exact ⟨rfl, h⟩

theorem frameSent_taken (s : State) : Taken s (takeHeld { s with link := s.link.transmit }) := by
  obtain ⟨hhold, hroom⟩ := s.link.transmit_hold
  cases h : s.link.hold with
  | none =>
    rw [takeHeld_free (hhold.trans h)]
    exact .sent h
  | some f =>
    rw [takeHeld_taken (hhold.trans h) hroom]
    exact .sentHeld f h (passFrame_pass _ f)

theorem secondEvent_taken (s : State) (order : List SecondTaker) : Taken s (secondEvent s order) :=
  .second (Work.foldl (takeSecond_work _) _ _)

theorem clockPeriod_taken (s : State) : Taken s (clockPeriod s) := by
  unfold clockPeriod
  split
  · rename_i h; exact .work (Change.periods 1 fun _ => h).work
  · exact (Taken.work Change.boundaries.work).trans (secondEvent_taken _ _)

theorem stableReached_work (s : State) : Work s (stableReached s) := by
  unfold stableReached
  split
  · split
    · rename_i h
      refine (Change.periods _ fun hsub => ?_).work
      unfold Clock.left Config.periodsPerSecond at h
      omega
    · exact .nil s
  · exact .nil s

theorem edgeArrives_taken (s : State) : Taken s (edgeArrives s) := by
  unfold edgeArrives
  split
  · exact clockPeriod_taken s
  · rename_i h; exact .work (Change.edges h).work
  · exact .work (.nil s)
  · exact .work (.nil s)

theorem referenceGap_work (s : State) : Work s (referenceGap s) := by
  unfold referenceGap
  split
  · rename_i h; exact loseReference_work h
  · exact .nil s
  · rename_i h; exact (Change.noEdges (.inl h)).work
  · rename_i h; exact (Change.noEdges (.inr h)).work

/-- A work that is done on a condition. -/
theorem Work.ite {s t : State} (c : Bool) (h : c = true → Work s t) : Work s (if c = true then t else s) := by
  split
  · rename_i hc; exact h hc
  · exact .nil s

/-- A request command is the passing of its frame. -/
theorem request_taken {s t : State} {f : Frame} {serve : State → Served} (h : ∀ u, Work u (serve u).1)
    (ht : (.next (takeRequest s f serve) : Answer) = .next t) : Taken s t := by
  cases ht
  exact .passed f (takeRequest_pass s f h)

/-- Every command takes one of these forms. -/
theorem exec_taken {c : Instr} {s t : State} (h : exec c s = .next t) : Taken s t := by
  cases c with
  | powerOnReset => cases h; exact .reset s
  | frameReceived bytes => cases h; exact receiveBytes_taken bytes s
  | framerGapTimeout => cases h; exact .framed s .hunt
  | unknownKind kind tag body =>
    cases h
    split
    · exact .work (.nil s)
    · exact .passed _ (takeRequest_pass s _ fun u => .nil u)
  | frameSent => cases h; exact frameSent_taken s
  | readStatus tag body => exact request_taken (serveReadStatus_work body) h
  | openSession tag body => exact request_taken (serveOpenSession_work body) h
  | closeSession tag body => exact request_taken (serveCloseSession_work body) h
  | resetAudio tag body => exact request_taken (serveResetAudio_work body) h
  | setTime tag body => exact request_taken (serveSetTime_work body) h
  | writeLimits tag body => exact request_taken (serveWriteLimits_work body) h
  | readLimits tag body => exact request_taken (serveReadLimits_work body) h
  | readFault tag body => exact request_taken (serveReadFault_work body) h
  | clearFault tag body => exact request_taken (serveClearFault_work body) h
  | writeChannel tag body => exact request_taken (serveWriteChannel_work body) h
  | readChannel tag body => exact request_taken (serveReadChannel_work body) h
  | setFloorLanguage tag body => exact request_taken (serveSetFloorLanguage_work body) h
  | readSources tag body => exact request_taken (serveReadSources_work body) h
  | startAnnouncement tag body => exact request_taken (serveStartAnnouncement_work body) h
  | stopAnnouncement tag body => exact request_taken (serveStopAnnouncement_work body) h
  | writeBooth tag body => exact request_taken (serveWriteBooth_work body) h
  | readBooth tag body => exact request_taken (serveReadBooth_work body) h
  | readDesks tag body => exact request_taken (serveReadDesks_work body) h
  | forceOutputOff tag body => exact request_taken (serveForceOutputOff_work body) h
  | readDeskRecords tag body => exact request_taken (serveReadDeskRecords_work body) h
  | startCheck tag body => exact request_taken (serveStartCheck_work body) h
  | abortCheck tag body => exact request_taken (serveAbortCheck_work body) h
  | readCheck tag body => exact request_taken (serveReadCheck_work body) h
  | readReceiver tag body => exact request_taken (serveReadReceiver_work body) h
  | readRack tag body => exact request_taken (serveReadRack_work body) h
  | setMonitor tag body => exact request_taken (serveSetMonitor_work body) h
  | clearMonitor tag body => exact request_taken (serveClearMonitor_work body) h
  | withdrawReceiver tag body => exact request_taken (serveWithdrawReceiver_work body) h
  | restoreReceiver tag body => exact request_taken (serveRestoreReceiver_work body) h
  | writeSchedule tag body => exact request_taken (serveWriteSchedule_work body) h
  | readListeners tag body => exact request_taken (serveReadListeners_work body) h
  | openHire tag body => exact request_taken (serveOpenHire_work body) h
  | cancelHire tag body => exact request_taken (serveCancelHire_work body) h
  | declareLost tag body => exact request_taken (serveDeclareLost_work body) h
  | readHire tag body => exact request_taken (serveReadHire_work body) h
  | readSettlement tag body => exact request_taken (serveReadSettlement_work body) h
  | takeSettlement tag body => exact request_taken (serveTakeSettlement_work body) h
  | writeTariff tag body => exact request_taken (serveWriteTariff_work body) h
  | readTariff tag body => exact request_taken (serveReadTariff_work body) h
  | freezeTariffs tag body => exact request_taken (serveFreezeTariffs_work body) h
  | readDelegation tag body => exact request_taken (serveReadDelegation_work body) h
  | clearDelegation tag body => exact request_taken (serveClearDelegation_work body) h
  | readService tag body => exact request_taken (serveReadService_work body) h
  | consoleReply booth content => cases h; exact .work (consoleAnswer_work s booth content)
  | rackReply rack content => cases h; exact .work (rackAnswer_work s rack content)
  | radiatorStatusPoll => cases h; exact .work Change.radiatorPolled.work
  | radiatorReply => cases h; exact .work (Work.ite _ fun _ => unitReply_work s (by decide))
  | unitPollMiss unit =>
    cases h
    refine .work (Work.ite _ fun hu => unitMiss_work s (isPolled_ne ?_))
    exact (Bool.and_eq_true _ _ ▸ hu).1
  | unitDeclaredLost unit =>
    cases h
    refine .work (Work.ite _ fun hu => unitMiss_work s (isPolled_ne ?_))
    rw [Bool.and_eq_true, Bool.and_eq_true] at hu
    exact hu.1.1
  | beaconPollSend => cases h; exact .work (beaconSlot_work s)
  | beaconReply receiver tuned band signature =>
    cases h
    split
    · split
      · exact .work (completeReply_work s _ _ _ _)
      · exact .work (completeMiss_work s _)
    · exact .work (.nil s)
  | beaconMiss =>
    cases h
    split
    · exact .work (completeMiss_work s _)
    · exact .work (.nil s)
  | missLimitReached receiver =>
    cases h
    split
    · exact .work (Work.ite _ fun _ => completeMiss_work s _)
    · exact .work (.nil s)
  | secondEvent order => cases h; exact secondEvent_taken s order
  | turnLimitReached booth domain => cases h; exact .work (Work.ite _ fun _ => turnSecond_work s booth domain)
  | overrunLimitReached booth domain => cases h; exact .work (Work.ite _ fun _ => turnSecond_work s booth domain)
  | handoverWindowExpiry booth domain => cases h; exact .work (Work.ite _ fun _ => windowSecond_work s booth domain)
  | issueWindowExpiry hire => cases h; exact .work (Work.ite _ fun _ => issueSecond_work s hire)
  | missingTimeReached receiver => cases h; exact .work (Work.ite _ fun _ => reportMissing_work s receiver)
  | checkDwellExpiry => cases h; exact .work (Work.ite _ fun _ => dwellSecond_work _ s)
  | referenceGap => cases h; exact .work (referenceGap_work s)
  | stableTimeReached => cases h; exact .work (stableReached_work s)
  | referenceEdgesResume => cases h; exact edgeArrives_taken s
  | consolePoll =>
    cases h
    split
    · exact .work (sendConsolePoll_work s)
    · exact .work (.nil s)
  | rackPoll =>
    cases h
    split
    · exact .work Change.rackPolled.work
    · exact .work (.nil s)
  | replyKindDiscarded kind tag body =>
    cases h
    split
    · exact .passed _ (discardFrame_pass s _)
    · exact .work (.nil s)

/-- Every step is a command taken, or a period of the counting source, from the state with the rest of its queue. -/
theorem step_taken {s t : State} (h : step s = .next t) : ∃ q, Taken { s with pending := q } t := by
  unfold step at h
  split at h
  · rename_i rest _
    exact ⟨rest, exec_taken h⟩
  · cases h
    exact ⟨s.pending, clockPeriod_taken s⟩

/-! ### What every step keeps -/

/-- An invariant that every edit keeps, every change of the link that leaves the notice queue within its places, and
every second event, and that holds at reset, is kept by every form of a step. -/
theorem Taken.keeps {I : State → Prop}
    (hlink : ∀ (s : State) (l : Link), l.notices.length ≤ max s.link.notices.length Config.noticePlaces → I s →
      I { s with link := l })
    (hchange : ∀ {s t : State}, Change s t → I s → I t)
    (hsecond : ∀ {s u : State}, I s → Work (s.onClock fun c => (c.run c.left).boundary) u → I (u.onClock Clock.settle))
    (hreset : ∀ s : State,
      I { State.reset with clock := { Clock.reset with boundaries := s.clock.boundaries }, pending := s.pending })
    {s t : State} (h : Taken s t) (hi : I s) : I t := by
  have hwork : ∀ {s t : State}, Work s t → I s → I t := fun hw hi => by
    induction hw with
    | refl => exact hi
    | tail _ hc ih => exact hchange hc ih
  have hsame : ∀ (s : State) (l : Link), l.notices = s.link.notices → I s → I { s with link := l } :=
    fun s l hl => hlink s l (by rw [hl]; exact Nat.le_max_left _ _)
  have hpass : ∀ {s t : State} {f : Frame}, Pass s f t → I s → I t := fun hp hi => by
    cases hp with
    | request body _ hw =>
      refine hsame _ _ ?_ (hwork hw (hsame _ _ rfl hi))
      unfold Link.putReply; split <;> rfl
    | discarded => exact hsame _ _ rfl hi
    | waits =>
      unfold State.await
      split
      · refine hsame _ _ ?_ hi
        unfold Link.offer; split <;> rfl
      · exact hi
  have hsent : ∀ s : State, I s → I { s with link := s.link.transmit } := fun s hi => by
    refine hlink s _ (Nat.le_trans ?_ (Nat.le_max_left _ _)) hi
    unfold Link.transmit
    split
    · exact Nat.le_refl _
    · split
      · rename_i h; rw [h]; exact Nat.le_succ _
      · rename_i h; rw [h]
  induction h with
  | work h => exact hwork h hi
  | second h => exact hsecond hi h
  | passed f h => exact hpass h hi
  | framed s g => exact hsame _ _ rfl hi
  | sent => exact hsent _ hi
  | sentHeld f _ hp => exact hpass hp (hsent _ hi)
  | reset s => exact hreset s
  | trans _ _ ih1 ih2 => exact ih2 (ih1 hi)

end Sys2Proof.Machine
end

