-- ==== Sys2Proof/Proofs/Stores.lean ====
section
/-! O56: the queues within their places, the tables in canonical form, the stored values in their ranges, and the link,
the clock, the polls and the check sound. -/

namespace Sys2Proof.Machine

/-! ### How an invariant is shown -/

/-- An invariant that looks at neither the clock nor the queue of commands, and of the link at the bound of the notice
queue alone, is kept by every step when every edit keeps it and it holds at reset. -/
theorem step_keeps {I : State → Prop}
    (hlink : ∀ (s : State) (l : Link), l.notices.length ≤ max s.link.notices.length Config.noticePlaces → I s →
      I { s with link := l })
    (hclock : ∀ (s : State) (c : Clock), I s → I { s with clock := c })
    (hpending : ∀ (s : State) (q : List Instr), I s → I { s with pending := q })
    (hchange : ∀ {s t : State}, Change s t → I s → I t) (hreset : I State.reset)
    {s t : State} (h : step s = .next t) (hi : I s) : I t := by
  obtain ⟨q, hq⟩ := step_taken h
  refine Taken.keeps hlink hchange (fun {s u} hs hw => hclock _ _ ?_) (fun s => ?_) hq (hpending _ q hi)
  · induction hw with
    | refl => exact hclock _ _ hs
    | tail _ hc ih => exact hchange hc ih
  · exact hpending { State.reset with clock := { Clock.reset with boundaries := s.clock.boundaries } } _
      (hclock _ _ hreset)

/-- A notice raised leaves the notice queue within its places. -/
theorem Link.raise_notices (l : Link) (n : Notice) :
    (l.raise n).notices.length ≤ max l.notices.length Config.noticePlaces := by
  unfold Link.raise
  split
  · exact Nat.le_max_left _ _
  · unfold Link.enqueue
    split
    · rename_i h
      simp only [List.length_append, List.length_singleton]
      omega
    · exact Nat.le_max_left _ _

/-! ### A stored booth configuration touches the booths and the turn meter alone -/

/-- `t` is `s` with booths and turns changed. -/
def State.boothsAlone (s t : State) : Prop := ∃ x y, t = { s with booths := x, turns := y }

theorem State.boothsAlone.refl (s : State) : s.boothsAlone s := ⟨_, _, rfl⟩

theorem State.boothsAlone.trans {s t u : State} (h : s.boothsAlone t) (k : t.boothsAlone u) : s.boothsAlone u := by
  obtain ⟨x, y, rfl⟩ := h
  obtain ⟨x', y', rfl⟩ := k
  exact ⟨x', y', rfl⟩

theorem State.boothsAlone.foldl {α : Type} {f : State → α → State} (h : ∀ (t : State) x, t.boothsAlone (f t x))
    (l : List α)
    (s : State) : s.boothsAlone (l.foldl f s) := by
  induction l generalizing s with
  | nil => exact .refl s
  | cons x xs ih => exact (h s x).trans (ih _)

theorem storeConfig_boothsAlone (s : State) (b : Nat) (c : BoothConfig) : s.boothsAlone (storeConfig s b c) := by
  have hset : s.boothsAlone (s.setConfig b c) := ⟨_, _, rfl⟩
  have hon := fun l => hset.trans (State.boothsAlone.foldl (f := fun t d => enableDesk t b d) (fun _ _ => ⟨_, _, rfl⟩) l
    (s.setConfig b c))
  have hoff := fun l t => State.boothsAlone.foldl (f := fun t d => disableDesk t b d) (fun _ _ => ⟨_, _, rfl⟩) l t
  unfold storeConfig
  dsimp only
  split
  · exact (hon _).trans (hoff _ _)
  · exact ((hon _).trans (hoff _ _)).trans ⟨_, _, rfl⟩

theorem setDomainState_boothsAlone (s : State) (b : Nat) (p : Side) (new : Domain) :
    s.boothsAlone (setDomainState s b p new) := ⟨_, _, setDomainState_frame s b p new⟩

/-! ### Queues -/

theorem Change.keeps_queuesBounded {s t : State} (h : Change s t) (hi : s.queuesBounded) : t.queuesBounded := by
  obtain ⟨hnotices, hqueue, hhires⟩ := hi
  cases h with
  | raise n => exact ⟨(Link.raise_notices _ n).trans (by omega), hqueue, hhires⟩
  | hires x _ hfit => exact ⟨hnotices, hqueue, hfit hhires⟩
  | settlements q hfit => exact ⟨hnotices, hfit hqueue, hhires⟩
  | domain b p new =>
    obtain ⟨x, y, e⟩ := setDomainState_boothsAlone s b p new
    rw [e]; exact ⟨hnotices, hqueue, hhires⟩
  | config b c =>
    obtain ⟨x, y, e⟩ := storeConfig_boothsAlone s b c
    rw [e]; exact ⟨hnotices, hqueue, hhires⟩
  | _ => exact ⟨hnotices, hqueue, hhires⟩

theorem step_keeps_queuesBounded {s t : State} (h : step s = .next t) (hi : s.queuesBounded) : t.queuesBounded := by
  refine step_keeps (fun s l hl ⟨hn, hrest⟩ => ⟨?_, hrest⟩) (fun _ _ hi => hi) (fun _ _ hi => hi)
    Change.keeps_queuesBounded ⟨Nat.zero_le _, Nat.zero_le _, Nat.zero_le _⟩ h hi
  exact hl.trans (Nat.max_le.mpr ⟨hn, Nat.le_refl _⟩)

/-! ### The canonical form -/

/-- `State.tablesCanonical` with a name for each table. -/
structure State.Canonical (s : State) : Prop where
  entries : s.plan.entries.canonical .unused = true
  arbiter : s.arbiter.canonical
  configs : s.booths.configs.canonical .default = true
  desks : s.booths.desks.canonical .disabled = true
  domains : s.booths.domains.canonical .idle = true
  turns : s.turns.turns.canonical .idle = true
  records : s.turns.records.canonical .zero = true
  check : s.check.canonical
  slots : s.racks.slots.canonical none = true
  receivers : s.fleet.receivers.canonical .unseen = true
  monitors : s.fleet.monitors.canonical none = true
  beacon : s.beacon.canonical
  hires : s.hires.records.canonical none = true
  tariffs : s.money.tariffs.canonical .undefined = true
  meters : s.meters.canonical
  units : s.supervisor.units.canonical .unseen = true
  faults : s.supervisor.faults.canonical .empty = true

theorem State.tablesCanonical_iff (s : State) : s.tablesCanonical ↔ s.Canonical := by
  constructor
  · rintro ⟨⟨entries, arbiter⟩, ⟨configs, desks, domains, turns, records⟩,
      ⟨results, failed, progress, slots, receivers, monitors⟩, ⟨listeners, lowMarks, hires, tariffs⟩,
      listening, service, unserved, units, faults⟩
    exact ⟨entries, arbiter, configs, desks, domains, turns, records, ⟨results, failed, progress⟩, slots, receivers,
      monitors, ⟨listeners, lowMarks⟩, hires, tariffs, ⟨listening, service, unserved⟩, units, faults⟩
  · rintro ⟨entries, arbiter, configs, desks, domains, turns, records, ⟨results, failed, progress⟩, slots, receivers,
      monitors, ⟨listeners, lowMarks⟩, hires, tariffs, ⟨listening, service, unserved⟩, units, faults⟩
    exact ⟨⟨entries, arbiter⟩, ⟨configs, desks, domains, turns, records⟩,
      ⟨results, failed, progress, slots, receivers, monitors⟩, ⟨listeners, lowMarks, hires, tariffs⟩,
      listening, service, unserved, units, faults⟩

/-- The tables of the booths and the turn meter are in canonical form. -/
def State.boothsCanonical (s : State) : Prop :=
  s.booths.configs.canonical .default = true ∧ s.booths.desks.canonical .disabled = true ∧
    s.booths.domains.canonical .idle = true ∧ s.turns.turns.canonical .idle = true ∧
    s.turns.records.canonical .zero = true

theorem State.setDesk_boothsCanonical {s : State} (h : s.boothsCanonical) (b d : Nat) (k : Desk) :
    (s.setDesk b d k).boothsCanonical :=
  ⟨h.1, Table.canonical_write _ _ (deskKey b d) k h.2.1, h.2.2⟩

theorem State.setDomain_boothsCanonical {s : State} (h : s.boothsCanonical) (b : Nat) (p : Side) (x : Domain) :
    (s.setDomain b p x).boothsCanonical :=
  ⟨h.1, h.2.1, Table.canonical_write _ _ (domainKey b p) x h.2.2.1, h.2.2.2⟩

theorem State.setTurn_boothsCanonical {s : State} (h : s.boothsCanonical) (b : Nat) (p : Side) (t : TurnRecord) :
    (s.setTurn b p t).boothsCanonical :=
  ⟨h.1, h.2.1, h.2.2.1, Table.canonical_write _ _ (domainKey b p) t h.2.2.2.1, h.2.2.2.2⟩

theorem State.setDeskRecord_boothsCanonical {s : State} (h : s.boothsCanonical) (b d : Nat) (r : DeskRecord) :
    (s.setDeskRecord b d r).boothsCanonical :=
  ⟨h.1, h.2.1, h.2.2.1, h.2.2.2.1, Table.canonical_write _ _ (deskKey b d) r h.2.2.2.2⟩

theorem turnChange_canonical {s : State} (h : s.boothsCanonical) (b : Nat) (p : Side) (old new : Option Nat) :
    (turnChange s b p old new).boothsCanonical := by
  have hstart : ∀ {t : State} d, t.boothsCanonical → (startTurn t b p d).boothsCanonical := fun d ht =>
    State.setDeskRecord_boothsCanonical (State.setTurn_boothsCanonical ht b p _) b d _
  have hend : ∀ d, (endTurn s b p d).boothsCanonical := fun d => State.setDeskRecord_boothsCanonical h b d _
  unfold turnChange
  split
  · exact h
  · cases old <;> cases new
    · exact State.setTurn_boothsCanonical h b p _
    · exact hstart _ h
    · exact State.setTurn_boothsCanonical (hend _) b p _
    · exact hstart _ (hend _)

theorem setCough_canonical {s : State} (h : s.boothsCanonical) (b d : Nat) (on : Bool) :
    (setCough s b d on).boothsCanonical := State.setDesk_boothsCanonical h b d _

theorem setDomainState_canonical {s : State} (h : s.boothsCanonical) (b : Nat) (p : Side) (new : Domain) :
    (setDomainState s b p new).boothsCanonical := by
  have hturn := fun old new' => turnChange_canonical (State.setDomain_boothsCanonical h b p new) b p old new'
  unfold setDomainState
  dsimp only
  split
  · exact hturn _ _
  · cases (s.domain b p).liveDesk <;> cases new.liveDesk
    · exact hturn _ _
    · exact setCough_canonical (hturn _ _) _ _ _
    · exact setCough_canonical (hturn _ _) _ _ _
    · exact setCough_canonical (setCough_canonical (hturn _ _) _ _ _) _ _ _

theorem storeConfig_canonical {s : State} (h : s.boothsCanonical) (b : Nat) (c : BoothConfig) :
    (storeConfig s b c).boothsCanonical := by
  have hset : (s.setConfig b c).boothsCanonical := ⟨Table.canonical_write _ _ _ _ h.1, h.2⟩
  have hdesk : ∀ (t : State) d k, t.boothsCanonical → ((t.setDesk b d k).setDeskRecord b d .zero).boothsCanonical :=
    fun t d k ht => State.setDeskRecord_boothsCanonical (State.setDesk_boothsCanonical ht b d k) b d _
  have hon := fun l => List.foldlRecOn (motive := State.boothsCanonical) l (fun t d => enableDesk t b d) hset
    fun t ht d _ => hdesk t d _ ht
  have hall := fun l m => List.foldlRecOn (motive := State.boothsCanonical) m (fun t d => disableDesk t b d) (hon l)
    fun t ht d _ => hdesk t d _ ht
  unfold storeConfig
  dsimp only
  split
  · exact hall _ _
  · exact List.foldlRecOn (motive := State.boothsCanonical) [Side.a, Side.b] _ (hall _ _) fun t ht x _ =>
      State.setTurn_boothsCanonical (State.setDomain_boothsCanonical ht b x _) b x _

/-- A change of booths and turns keeps every table canonical when it keeps theirs so. -/
theorem State.boothsAlone.canonical {s t : State} (h : s.boothsAlone t) (ht : s.boothsCanonical → t.boothsCanonical)
    (hi : s.Canonical) : t.Canonical := by
  obtain ⟨h1, h2, h3, h4, h5⟩ := ht ⟨hi.configs, hi.desks, hi.domains, hi.turns, hi.records⟩
  obtain ⟨x, y, rfl⟩ := h
  exact { hi with configs := h1, desks := h2, domains := h3, turns := h4, records := h5 }

theorem State.setUnit_canonical {s : State} (h : s.supervisor.units.canonical .unseen = true) (u : Nat) (e : UnitEntry) :
    (s.setUnit u e).supervisor.units.canonical .unseen = true := Table.canonical_write _ _ u e h

theorem Change.keeps_canonical {s t : State} (h : Change s t) (hi : s.Canonical) : t.Canonical := by
  cases h with
  | entry c e => exact { hi with entries := Table.canonical_write _ _ c e hi.entries }
  | arbiter a ha => exact { hi with arbiter := ha hi.arbiter }
  | desk b d k => exact { hi with desks := Table.canonical_write _ _ _ k hi.desks }
  | select b d x => exact { hi with desks := Table.canonical_write _ _ _ _ hi.desks }
  | domain b p new =>
    exact (setDomainState_boothsAlone s b p new).canonical (fun h => setDomainState_canonical h b p new) hi
  | config b c => exact (storeConfig_boothsAlone s b c).canonical (fun h => storeConfig_canonical h b c) hi
  | turn b p r => exact { hi with turns := Table.canonical_write _ _ _ r hi.turns }
  | deskRecords r hr => exact { hi with records := hr hi.records }
  | check k hk => exact { hi with check := hk hi.check }
  | slot l r => exact { hi with slots := Table.canonical_write _ _ _ r hi.slots }
  | receiver r e => exact { hi with receivers := Table.canonical_write _ _ r e hi.receivers }
  | monitor p r => exact { hi with monitors := Table.canonical_write _ _ p r hi.monitors }
  | beacon b hb => exact { hi with beacon := hb hi.beacon }
  | hires x hx => exact { hi with hires := hx hi.hires }
  | tariff k c => exact { hi with tariffs := Table.canonical_write _ _ k c hi.tariffs }
  | meters m hm => exact { hi with meters := hm hi.meters }
  | locks => exact { hi with units := State.setUnit_canonical hi.units _ _ }
  | unlocks => exact { hi with units := State.setUnit_canonical hi.units _ _ }
  | unit u e => exact { hi with units := State.setUnit_canonical hi.units u e }
  | fault u f => exact { hi with faults := Table.canonical_write _ _ u f hi.faults }
  | _ => exact { hi with }

theorem reset_canonical : State.reset.Canonical := by
  rw [← State.tablesCanonical_iff]
  unfold State.tablesCanonical
  decide

theorem step_keeps_tablesCanonical {s t : State} (h : step s = .next t) (hi : s.tablesCanonical) :
    t.tablesCanonical := by
  rw [State.tablesCanonical_iff] at hi ⊢
  exact step_keeps (fun _ _ _ hi => { hi with }) (fun _ _ hi => { hi with }) (fun _ _ hi => { hi with })
    Change.keeps_canonical reset_canonical h hi

/-! ### Ranges of stored values -/

theorem storeConfig_config (s : State) (b : Nat) (c : BoothConfig) (x : Nat) :
    (storeConfig s b c).config x = if x = b then c else s.config x := by
  have hon := fun l => List.foldlRecOn (motive := fun t : State => t.config x = if x = b then c else s.config x) l
    (fun t d => enableDesk t b d) (State.config_setConfig s b x c) fun _ ht _ _ => ht
  have hall := fun l m => List.foldlRecOn (motive := fun t : State => t.config x = if x = b then c else s.config x) m
    (fun t d => disableDesk t b d) (hon l) fun _ ht _ _ => ht
  unfold storeConfig
  dsimp only
  split
  · exact hall _ _
  · exact hall _ _

theorem Change.keeps_valuesFit {s t : State} (h : Change s t) (hi : s.valuesFit) : t.valuesFit := by
  obtain ⟨hplan, hfloor, hconfig, htariff, hcounts, hlimits⟩ := hi
  cases h with
  | entry c e h1 _ hfit =>
    refine ⟨fun d => ?_, hfloor, hconfig, htariff, hcounts, hlimits⟩
    rw [State.planEntry_setPlanEntry s c d e (by omega)]
    split
    exacts [hfit, hplan d]
  | floorLanguage n hn => exact ⟨hplan, hn, hconfig, htariff, hcounts, hlimits⟩
  | domain b p new =>
    obtain ⟨desks, domains, turns, e⟩ : ∃ desks domains turns, setDomainState s b p new =
      { s with booths := { s.booths with desks := desks, domains := domains }, turns := turns } :=
        ⟨_, _, _, setDomainState_frame s b p new⟩
    rw [e]
    exact ⟨hplan, hfloor, hconfig, htariff, hcounts, hlimits⟩
  | config b c _ _ hfit =>
    have hc : ∀ x, ((storeConfig s b c).config x).fits := fun x => by
      rw [storeConfig_config]
      split
      exacts [hfit, hconfig x]
    obtain ⟨x, y, e⟩ := storeConfig_boothsAlone s b c
    rw [e] at hc ⊢
    exact ⟨hplan, hfloor, hc, htariff, hcounts, hlimits⟩
  | beacon b _ hfit => exact ⟨hplan, hfloor, hconfig, htariff, hfit hcounts, hlimits⟩
  | tariff k c hfit =>
    refine ⟨hplan, hfloor, hconfig, fun j => ?_, hcounts, hlimits⟩
    rw [State.tariff_setTariff]
    split
    exacts [hfit, htariff j]
  | limits l hfit => exact ⟨hplan, hfloor, hconfig, htariff, hcounts, hfit⟩
  | _ => exact ⟨hplan, hfloor, hconfig, htariff, hcounts, hlimits⟩

theorem PlanEntry.unused_fits : PlanEntry.unused.fits := ⟨Nat.zero_le _, nofun, nofun⟩

theorem reset_valuesFit : State.reset.valuesFit := by
  refine ⟨fun c => ?_, Nat.zero_le _, fun b => ?_, fun k => ?_, ?_, ?_⟩
  · unfold State.planEntry
    split <;> exact PlanEntry.unused_fits
  · show BoothConfig.default.fits
    unfold BoothConfig.fits; decide
  · show Tariff.undefined.fits
    unfold Tariff.fits; decide
  · decide
  · unfold Limits.fits; decide

theorem step_keeps_valuesFit {s t : State} (h : step s = .next t) (hi : s.valuesFit) : t.valuesFit :=
  step_keeps (fun _ _ _ hi => hi) (fun _ _ hi => hi) (fun _ _ hi => hi) Change.keeps_valuesFit reset_valuesFit h hi

/-! ### The control link -/

theorem Link.raise_receiving (l : Link) (n : Notice) (h : l.receiving = true) : (l.raise n).receiving = true := by
  unfold Link.raise
  split
  · simp [Link.beginNotice, h]
  · rw [(l.enqueue_frame n).2.2.2.2]; exact h

/-- The framer takes bytes and no frame waits in the hold: what a request finds while it is served. -/
def State.hears (s : State) : Prop := s.link.receiving = true ∧ s.link.hold = none

theorem Change.link_eq {s t : State} (h : Change s t) :
    t.link = s.link ∨ (∃ n, t.link = s.link.raise n) ∨ t.link = { s.link with overflow := false } := by
  cases h with
  | raise n => exact .inr (.inl ⟨n, rfl⟩)
  | clearOverflow => exact .inr (.inr rfl)
  | domain b p new =>
    obtain ⟨x, y, e⟩ := setDomainState_boothsAlone s b p new
    rw [e]; exact .inl rfl
  | config b c =>
    obtain ⟨x, y, e⟩ := storeConfig_boothsAlone s b c
    rw [e]; exact .inl rfl
  | _ => exact .inl rfl

theorem Work.keeps_hears {s t : State} (h : Work s t) (hi : s.hears) : t.hears := by
  induction h with
  | refl => exact hi
  | tail _ hc ih =>
    unfold State.hears at ih ⊢
    rcases hc.link_eq with e | ⟨n, e⟩ | e <;> rw [e]
    · exact ih
    · exact ⟨Link.raise_receiving _ n ih.1, (Link.raise_frame _ n).2.1.trans ih.2⟩
    · exact ih

theorem Work.keeps_linkFits {s t : State} (h : Work s t) (hi : s.linkFits) : t.linkFits := by
  induction h with
  | refl => exact hi
  | tail _ hc ih =>
    unfold State.linkFits at ih ⊢
    obtain ⟨hrec, hidle, hhold⟩ := ih
    rcases hc.link_eq with e | ⟨n, e⟩ | e <;> rw [e]
    · exact ⟨hrec, hidle, hhold⟩
    · obtain ⟨-, hh, hr⟩ := Link.raise_frame _ n
      refine ⟨Link.raise_receiving _ n hrec, fun hs => ?_, by rw [hh, hr]; exact hhold⟩
      unfold Link.raise at hs
      split at hs
      · cases hs
      · rename_i hbusy
        rw [(Link.enqueue_frame _ n).2.2.2.1] at hs
        exact absurd ⟨hs, hidle hs⟩ hbusy
    · exact ⟨hrec, hidle, hhold⟩

/-- A request that was served leaves the link sound: its reply is being sent or waits, and the hold is free. -/
theorem putReply_linkFits {s : State} (h : s.hears) (f : Frame) (body : List Byte) : (s.putReply f body).linkFits := by
  obtain ⟨hrec, hhold⟩ := h
  obtain ⟨g, hg⟩ := Link.putReply_sending s.link (f.reply body)
  have hsame : (s.link.putReply (f.reply body)).receiving = true ∧ (s.link.putReply (f.reply body)).hold = none := by
    unfold Link.putReply
    split <;> exact ⟨hrec, hhold⟩
  refine ⟨hsame.1, fun hs => ?_, fun hh => absurd hsame.2 hh⟩
  rw [show (s.putReply f body).link.sending = some g from hg] at hs
  cases hs

/-- What becomes of a frame that the link can take leaves it sound. -/
theorem Pass.linkFits {s t : State} {f : Frame} (h : Pass s f t) (hrec : s.link.receiving = true)
    (hidle : s.link.sending = none → s.link.replyRoom = none ∧ s.link.notices = [])
    (hhold : s.admits f = false → s.link.hold ≠ none ∨ s.link.replyRoom ≠ none)
    (hroom : s.admits f = false → s.link.hold ≠ none → s.link.replyRoom ≠ none) : t.linkFits := by
  cases h with
  | request body _ hw => exact putReply_linkFits (hw.keeps_hears ⟨hrec, rfl⟩) f body
  | discarded => exact ⟨hrec, hidle, fun h => absurd rfl h⟩
  | waits ha =>
    rw [State.await_eq hrec]
    split
    · rename_i hh
      exact ⟨hrec, hidle, fun _ => (hhold ha).resolve_left fun h => h hh⟩
    · exact ⟨hrec, hidle, hroom ha⟩

/-- A frame that the receiving link does not take finds the hold or the reply room occupied. -/
theorem State.occupied_of_not_admits {s : State} {f : Frame} (hrec : s.link.receiving = true) (h : s.admits f = false) :
    s.link.hold ≠ none ∨ s.link.replyRoom ≠ none := by
  by_contra hn
  rw [not_or, not_not, not_not] at hn
  simp [State.admits, hrec, hn.1, hn.2] at h

theorem Link.transmit_idle (l : Link) (h : l.transmit.sending = none) :
    l.transmit.replyRoom = none ∧ l.transmit.notices = [] := by
  refine ⟨(l.transmit_hold).2, ?_⟩
  unfold Link.transmit at h ⊢
  split at h
  · cases h
  · split at h
    · cases h
    · rename_i hn; exact hn

theorem Link.transmit_receiving (l : Link) (h : l.receiving = true) : l.transmit.receiving = true := by
  unfold Link.transmit
  split
  · exact h
  · split
    · simp [Link.beginNotice, h]
    · exact h

theorem Taken.keeps_linkFits {s t : State} (h : Taken s t) (hi : s.linkFits) : t.linkFits := by
  induction h with
  | work h => exact h.keeps_linkFits hi
  | @second s u hw =>
    have hu : u.linkFits := hw.keeps_linkFits hi
    exact hu
  | passed f h =>
    obtain ⟨hrec, hidle, hhold⟩ := hi
    exact h.linkFits hrec hidle (State.occupied_of_not_admits hrec) fun _ => hhold
  | framed s g => exact hi
  | sent hhold =>
    refine ⟨Link.transmit_receiving _ hi.1, Link.transmit_idle _, fun h => absurd ?_ h⟩
    exact (Link.transmit_hold _).1.trans hhold
  | @sentHeld s t f hf hp =>
    obtain ⟨hhold, hroom⟩ := Link.transmit_hold s.link
    have ha : ({ s with link := s.link.transmit } : State).admits f = true :=
      State.admits_of ⟨Link.transmit_receiving _ hi.1, hroom, .inr (hhold.trans hf)⟩
    refine hp.linkFits (Link.transmit_receiving _ hi.1) (Link.transmit_idle _) (fun h => ?_) fun h => ?_ <;>
      rw [ha] at h <;> cases h
  | reset s => exact ⟨rfl, nofun, fun h => absurd rfl h⟩
  | trans _ _ ih1 ih2 => exact ih2 (ih1 hi)

theorem step_keeps_linkFits {s t : State} (h : step s = .next t) (hi : s.linkFits) : t.linkFits := by
  obtain ⟨q, hq⟩ := step_taken h
  exact hq.keeps_linkFits hi

/-! ### The clock -/

/-- `State.clockFits` with the stable time of SETTLING below `n`: within a second event it may stand at 2 s for a while,
which the end of the event settles (R161). -/
def State.clockWithin (s : State) (n : Nat) : Prop :=
  s.clock.subSecond < 48000 ∧ s.clock.seconds ≤ 4294967295 ∧ s.clock.degradedCount ≤ 4294967295 ∧
    (if s.clock.phase = .locked then
      s.clock.source = .wordClock ∧ s.clock.quality = .nominal ∧ (s.unit 42).state = .present
    else s.clock.source = .oscillator ∧ s.clock.quality = .degraded ∧ (s.unit 42).state ≠ .present) ∧
    match s.clock.phase with
    | .locked => s.clock.stable = none
    | .absent => s.clock.stable = none
    | .settling => ∃ m, s.clock.stable = some m ∧ m < n
    | .settled => s.clock.stable = some 96000

/-- The soundness of the clock depends on the clock and unit 42 alone. -/
theorem State.clockWithin_congr {s t : State} {n : Nat} (hc : t.clock = s.clock)
    (hu : (t.unit 42).state = (s.unit 42).state) (h : s.clockWithin n) : t.clockWithin n := by
  unfold State.clockWithin at h ⊢
  rw [hc, hu]; exact h

/-- Periods of the counting source that end within the second keep the clock sound, and settle a stable time that reaches
2 s (R160, R161). -/
theorem State.clockWithin_run {s : State} {n m k : Nat} (hk : 96000 ≤ k) (hn : s.clock.subSecond + m < 48000)
    (h : s.clockWithin n) : (s.onClock (·.run m)).clockWithin k := by
  obtain ⟨hsub, hsec, hdeg, hsrc, hst⟩ := h
  have hrun : (s.onClock (·.run m)).clock = s.clock.run m := rfl
  have hunit : (s.onClock (·.run m)).unit 42 = s.unit 42 := rfl
  have h2 : settledTime = 96000 := rfl
  unfold State.clockWithin
  rw [hrun, hunit, Clock.run_subSecond, Clock.run_seconds, Clock.run_degradedCount, Clock.run_source, Clock.run_quality,
    Clock.run_stable, Clock.run_phase, h2]
  cases hp : s.clock.phase <;> simp only [hp] at hsrc hst
  · simpa [hst] using ⟨hn, hsec, hdeg, hsrc⟩
  · simpa [hst] using ⟨hn, hsec, hdeg, hsrc⟩
  · obtain ⟨j, hj, hjn⟩ := hst
    by_cases hfull : min (j + m) 96000 = 96000
    · simpa [hj, hfull] using ⟨hn, hsec, hdeg, hsrc⟩
    · have : min (j + m) 96000 < k := by omega
      simpa [hj, hfull, this] using ⟨hn, hsec, hdeg, hsrc⟩
  · simpa [hst] using ⟨hn, hsec, hdeg, hsrc⟩

theorem Change.keeps_clockWithin {s t : State} {n : Nat} (hn : 96000 ≤ n) (h : Change s t) (hi : s.clockWithin n) :
    t.clockWithin n := by
  cases h with
  | seconds m hm => exact ⟨hi.1, hm, hi.2.2⟩
  | periods m hm => exact State.clockWithin_run hn (hm hi.1) hi
  | edges hp =>
    obtain ⟨hsub, hsec, hdeg, hsrc, -⟩ := hi
    rw [hp] at hsrc
    exact ⟨hsub, hsec, hdeg, hsrc, 0, rfl, by omega⟩
  | noEdges hp =>
    obtain ⟨hsub, hsec, hdeg, hsrc, -⟩ := hi
    refine ⟨hsub, hsec, hdeg, ?_, rfl⟩
    rcases hp with hp | hp <;> rw [hp] at hsrc <;> exact hsrc
  | locks hp =>
    obtain ⟨hsub, hsec, hdeg, -⟩ := hi
    exact ⟨hsub, hsec, hdeg, ⟨rfl, rfl, by rw [State.unit_setUnit]; rfl⟩, rfl⟩
  | unlocks hp =>
    obtain ⟨hsub, hsec, hdeg, -⟩ := hi
    exact ⟨hsub, hsec, hdeg, ⟨rfl, rfl, by simp [State.unit_setUnit, referenceUnit]⟩, rfl⟩
  | unit u e hu =>
    refine State.clockWithin_congr (s := s) rfl ?_ hi
    rw [State.unit_setUnit, if_neg fun h => hu h.symm]
  | domain b p new =>
    obtain ⟨x, y, e⟩ := setDomainState_boothsAlone s b p new
    rw [e]; exact hi
  | config b c =>
    obtain ⟨x, y, e⟩ := storeConfig_boothsAlone s b c
    rw [e]; exact hi
  | _ => exact hi

/-- The clock runs on to its next boundary and takes it: its sub-second count is 0 again, and a stable time may stand at
2 s (R160, R161). -/
theorem State.clockWithin_boundary {s : State} (h : s.clockWithin 96000) :
    (s.onClock fun c => (c.run c.left).boundary).clockWithin 96001 := by
  have hleft : s.clock.subSecond + s.clock.left < 48000 := by
    have := h.1
    unfold Clock.left Config.periodsPerSecond
    omega
  obtain ⟨-, hsec, hdeg, hsrc, hst⟩ := State.clockWithin_run (k := 96000) (Nat.le_refl _) hleft h
  generalize hu : s.onClock (·.run s.clock.left) = u at hsec hdeg hsrc hst
  have hc : (s.onClock fun c => (c.run c.left).boundary) = u.onClock Clock.boundary := by rw [← hu]; rfl
  rw [hc]
  refine ⟨(by decide : 0 < 48000), Nat.min_le_right _ _, ?_, hsrc, ?_⟩
  · show (if u.clock.quality = .degraded then satAdd u.clock.degradedCount 1 else u.clock.degradedCount) ≤ _
    split
    exacts [Nat.min_le_right _ _, hdeg]
  · show match u.clock.phase with
      | .locked => u.clock.stableAfter 1 = none
      | .absent => u.clock.stableAfter 1 = none
      | .settling => ∃ m, u.clock.stableAfter 1 = some m ∧ m < 96001
      | .settled => u.clock.stableAfter 1 = some 96000
    unfold Clock.stableAfter
    have h2 : settledTime = 96000 := rfl
    cases hp : u.clock.phase <;> simp only [hp] at hst
    · rw [hst]; rfl
    · rw [hst]; rfl
    · obtain ⟨m, hm, -⟩ := hst
      rw [hm]
      exact ⟨min (m + 1) settledTime, rfl, by omega⟩
    · rw [hst]; rfl

/-- The end of a second event settles a stable time that stands at 2 s (R161, log entry 6). -/
theorem State.clockWithin_settle {s : State} (h : s.clockWithin 96001) : (s.onClock Clock.settle).clockWithin 96000 := by
  obtain ⟨hsub, hsec, hdeg, hsrc, hst⟩ := h
  have hphase : (s.onClock Clock.settle).clock.phase =
      if s.clock.phase = .settling ∧ s.clock.stable = some 96000 then .settled else s.clock.phase := rfl
  have hkeep : (s.onClock Clock.settle).clock =
    { s.clock with phase := (s.onClock Clock.settle).clock.phase } := rfl
  have hunit : (s.onClock Clock.settle).unit 42 = s.unit 42 := rfl
  unfold State.clockWithin
  rw [hkeep, hunit, hphase]
  cases hp : s.clock.phase <;> simp only [hp] at hsrc hst
  · simpa [hst] using ⟨hsub, hsec, hdeg, hsrc⟩
  · simpa [hst] using ⟨hsub, hsec, hdeg, hsrc⟩
  · obtain ⟨m, hm, hlt⟩ := hst
    by_cases hfull : m = 96000
    · simpa [hm, hfull] using ⟨hsub, hsec, hdeg, hsrc⟩
    · have : m < 96000 := by omega
      simpa [hm, hfull, this] using ⟨hsub, hsec, hdeg, hsrc⟩
  · simpa [hst] using ⟨hsub, hsec, hdeg, hsrc⟩

theorem step_keeps_clockFits {s t : State} (h : step s = .next t) (hi : s.clockFits) : t.clockFits := by
  obtain ⟨q, hq⟩ := step_taken h
  refine Taken.keeps (I := fun s => s.clockWithin 96000) (fun _ _ _ hi => hi)
    (Change.keeps_clockWithin (Nat.le_refl _)) (fun {s u} hs hw => ?_) (fun s => ?_) hq hi
  · refine State.clockWithin_settle ?_
    induction hw with
    | refl => exact State.clockWithin_boundary hs
    | tail _ hc ih => exact hc.keeps_clockWithin (by omega) ih
  · exact ⟨(by decide : 0 < 48000), Nat.zero_le _, Nat.zero_le _,
      ⟨rfl, rfl, (by decide : (UnitEntry.unseen).state ≠ .present)⟩, rfl⟩

/-! ### Polls of the links -/

theorem nextAddress_range {last n : Nat} (h : 1 ≤ last) : 1 ≤ nextAddress last n ∧ nextAddress last n ≤ last := by
  unfold nextAddress; split <;> omega

/-- The end of a poll leaves each link the poll it has, or none. -/
theorem endPoll_polls (s : State) (u : Nat) :
    ((endPoll s u).supervisor.consolePoll = none ∨
        (endPoll s u).supervisor.consolePoll = s.supervisor.consolePoll) ∧
      ((endPoll s u).supervisor.rackPoll = none ∨ (endPoll s u).supervisor.rackPoll = s.supervisor.rackPoll) := by
  unfold endPoll
  dsimp only
  constructor <;> split <;> simp

theorem Change.keeps_pollsFit {s t : State} (h : Change s t) (hi : s.pollsFit) : t.pollsFit := by
  obtain ⟨⟨hc1, hc24, hk1, hk16⟩, hconsole, hrack, hfail⟩ := hi
  have hset : ∀ u e, e.failures ≤ 15 → ∀ x, ((s.setUnit u e).unit x).failures ≤ 15 := fun u e he x => by
    rw [State.unit_setUnit]
    split
    exacts [he, hfail x]
  cases h with
  | locks => exact ⟨⟨hc1, hc24, hk1, hk16⟩, hconsole, hrack, hset referenceUnit _ (hfail referenceUnit)⟩
  | unlocks => exact ⟨⟨hc1, hc24, hk1, hk16⟩, hconsole, hrack, hset referenceUnit _ (hfail referenceUnit)⟩
  | unit u e _ hfit => exact ⟨⟨hc1, hc24, hk1, hk16⟩, hconsole, hrack, hset u e hfit⟩
  | pollEnds u =>
    refine ⟨⟨hc1, hc24, hk1, hk16⟩, fun p hp => ?_, fun p hp => ?_, hfail⟩
    · exact hconsole p ((endPoll_polls s u).1.resolve_left (by simp [hp]) ▸ hp)
    · exact hrack p ((endPoll_polls s u).2.resolve_left (by simp [hp]) ▸ hp)
  | consolePolled p hb hl =>
    obtain ⟨h1, h24⟩ := nextAddress_range (n := s.supervisor.nextConsole) (last := 24) (by omega)
    refine ⟨⟨h1, h24, hk1, hk16⟩, fun q hq => ?_, hrack, hfail⟩
    obtain rfl : p = q := Option.some.inj hq
    rw [hb]
    exact ⟨hc1, hc24, hl⟩
  | rackPolled =>
    obtain ⟨h1, h16⟩ := nextAddress_range (n := s.supervisor.nextRack) (last := 16) (by omega)
    refine ⟨⟨hc1, hc24, h1, h16⟩, hconsole, fun q hq => ?_, hfail⟩
    obtain rfl := Option.some.inj hq
    exact ⟨hk1, hk16⟩
  | domain b p new =>
    obtain ⟨x, y, e⟩ := setDomainState_boothsAlone s b p new
    rw [e]; exact ⟨⟨hc1, hc24, hk1, hk16⟩, hconsole, hrack, hfail⟩
  | config b c =>
    obtain ⟨x, y, e⟩ := storeConfig_boothsAlone s b c
    rw [e]; exact ⟨⟨hc1, hc24, hk1, hk16⟩, hconsole, hrack, hfail⟩
  | _ => exact ⟨⟨hc1, hc24, hk1, hk16⟩, hconsole, hrack, hfail⟩

theorem step_keeps_pollsFit {s t : State} (h : step s = .next t) (hi : s.pollsFit) : t.pollsFit :=
  step_keeps (fun _ _ _ hi => hi) (fun _ _ hi => hi) (fun _ _ hi => hi) Change.keeps_pollsFit
    ⟨by decide, nofun, nofun, fun _ => Nat.zero_le _⟩ h hi

/-! ### The check -/

theorem Change.keeps_checkFits {s t : State} (h : Change s t) (hi : s.checkFits) : t.checkFits := by
  cases h with
  | check k _ hfit => exact hfit hi
  | monitor p r hrun =>
    have hcur : s.check.current = none := by
      by_contra hc
      exact hrun (hi.1.mpr hc)
    exact State.checkFits_of_none hcur hrun
  | domain b p new =>
    obtain ⟨x, y, e⟩ := setDomainState_boothsAlone s b p new
    rw [e]; exact hi
  | config b c =>
    obtain ⟨x, y, e⟩ := storeConfig_boothsAlone s b c
    rw [e]; exact hi
  | _ => exact hi

theorem step_keeps_checkFits {s t : State} (h : step s = .next t) (hi : s.checkFits) : t.checkFits :=
  step_keeps (fun _ _ _ hi => hi) (fun _ _ hi => hi) (fun _ _ hi => hi) Change.keeps_checkFits
    (State.checkFits_of_none rfl (by decide)) h hi

/-- Settles O56: every step is a chain of single edits (`step_taken`), each of which keeps each of these invariants. -/
theorem storesStaySound : Obligations.StoresStaySound := by
  unfold Obligations.StoresStaySound
  exact ⟨fun s t hqueues htables hvalues h =>
      ⟨step_keeps_queuesBounded h hqueues, step_keeps_tablesCanonical h htables, step_keeps_valuesFit h hvalues⟩,
    fun s t h => ⟨step_keeps_linkFits h, step_keeps_clockFits h, step_keeps_pollsFit h, step_keeps_checkFits h⟩⟩

end Sys2Proof.Machine
end

