-- ==== Sys2Proof/Proofs/Claims.lean ====
section
/-! O57, the booths: no domain leaves IDLE in SETUP, an IDLE domain holds an IDLE turn, the desks that domains name fit
them, and of a channel's outputs at most one is claimed. -/

namespace Sys2Proof.Machine

/-! ### Who claims what -/

/-- Domain `m` names desk `d`, as live or as requesting (R43). -/
def Domain.names (m : Domain) (d : Nat) : Prop := m.liveDesk = some d ∨ m.requester = some d

theorem Domain.not_names_idle (d : Nat) : ¬ Domain.idle.names d := by simp [Domain.names, Domain.liveDesk, Domain.requester]

theorem Domain.stateOf_idle_iff (m : Domain) (d : Nat) : m.stateOf d = .idle ↔ ¬ m.names d := by
  unfold Domain.stateOf Domain.names
  split
  · simp [*]
  · split <;> simp [*]

/-- A domain that narrows names no desk in a part that the desk did not have. -/
theorem Domain.narrows.names {old new : Domain} (h : old.narrows new) {d : Nat} (hd : new.names d) : old.names d := by
  cases new with
  | idle => exact absurd hd (Domain.not_names_idle d)
  | live x =>
    obtain rfl : x = d := by simpa [Domain.names, Domain.liveDesk, Domain.requester] using hd
    exact h
  | pending x y n q =>
    rcases hd with hd | hd
    · exact .inl (h.1.trans hd)
    · exact .inr (h.2.trans hd)

theorem Domain.narrows_refl (m : Domain) : m.narrows m := by
  cases m
  exacts [trivial, .inl rfl, ⟨rfl, rfl⟩]

theorem Domain.eq_idle_of_narrows {new : Domain} (h : Domain.idle.narrows new) : new = .idle := by
  cases new <;> simp_all [Domain.narrows, Domain.liveDesk, Domain.requester]

/-- A desk is not live and requesting in one domain. -/
def Domain.distinct (m : Domain) : Prop := ∀ d, m.liveDesk = some d → m.requester ≠ some d

theorem Domain.narrows.distinct {old new : Domain} (h : old.narrows new) (hd : old.distinct) : new.distinct := by
  cases new with
  | idle => exact nofun
  | live x => exact nofun
  | pending x y n q => exact fun d hl hr => hd d (h.1.trans hl) (h.2.trans hr)

theorem State.domainFits_iff (s : State) (b : Nat) (p : Side) :
    s.domainFits b p ↔ (∀ d, (s.domain b p).names d → s.claimantFits b p d) ∧ (s.domain b p).distinct := by
  unfold State.domainFits Domain.names Domain.distinct
  cases s.domain b p with
  | idle => simp [Domain.liveDesk, Domain.requester]
  | live d => simp [Domain.liveDesk, Domain.requester]
  | pending d e n q =>
    simp only [Domain.liveDesk, Domain.requester, Option.some.injEq]
    constructor
    · rintro ⟨hne, hd, he⟩
      exact ⟨by rintro x (rfl | rfl) <;> assumption, by rintro x rfl h; exact hne (Option.some.inj h).symm⟩
    · rintro ⟨hfit, hne⟩
      exact ⟨fun h => hne d rfl (congrArg some h.symm), hfit d (.inl rfl), hfit e (.inr rfl)⟩

theorem State.claimed_iff (s : State) (o : BoothOutput) :
    s.claimed o = true ↔ ∃ d, (s.domainOf o).names d ∧ (s.desk o.booth d).selection = o.side := by
  unfold State.claimed Domain.names
  cases s.domainOf o with
  | idle => simp [Domain.liveDesk, Domain.requester]
  | live d => simp [Domain.liveDesk, Domain.requester]
  | pending d e n q =>
    simp only [Domain.liveDesk, Domain.requester, Option.some.injEq, Bool.or_eq_true, decide_eq_true_eq]
    constructor
    · rintro (h | h)
      exacts [⟨d, .inl rfl, h⟩, ⟨e, .inr rfl, h⟩]
    · rintro ⟨x, rfl | rfl, h⟩
      exacts [.inl h, .inr h]

theorem mem_langChannels {c : Nat} : c ∈ langChannels ↔ 1 ≤ c ∧ c ≤ 31 := by
  unfold langChannels
  rw [List.mem_range'_1]
  omega

/-- An output is assigned when it stands in the entry of a channel 1 to 31 (R3). -/
theorem State.channelOf_ne_none_iff (s : State) (o : BoothOutput) :
    s.channelOf o ≠ none ↔ ∃ c, 1 ≤ c ∧ c ≤ 31 ∧ o ∈ (s.planEntry c).outputs := by
  unfold State.channelOf
  simp [List.find?_eq_none, mem_langChannels]

/-- The channel of an output is one 1 to 31 with the output in its entry (R3). -/
theorem State.channelOf_some {s : State} {o : BoothOutput} {c : Nat} (h : s.channelOf o = some c) :
    1 ≤ c ∧ c ≤ 31 ∧ o ∈ (s.planEntry c).outputs := by
  obtain ⟨h1, h31⟩ := mem_langChannels.mp (List.mem_of_find?_eq_some h)
  exact ⟨h1, h31, by simpa using List.find?_some h⟩

/-! ### Changes that keep the claims in agreement -/

/-- The booths of every output of the plan are booths 1 to 24 (R2). -/
def State.outputsInRange (s : State) : Prop := ∀ c, ∀ o ∈ (s.planEntry c).outputs, 1 ≤ o.booth ∧ o.booth ≤ 24

theorem State.valuesFit.outputsInRange {s : State} (h : s.valuesFit) : s.outputsInRange := fun c => (h.1 c).2.1

/-- A state whose domains name no more, and whose named desks stand where they stood, has its claims in agreement when the
state before had. -/
theorem State.claimsAgree.of_narrows {s t : State} (hi : s.claimsAgree) (hrange : s.outputsInRange)
    (hplan : t.planEntry = s.planEntry)
    (hdom : ∀ b p, 1 ≤ b → b ≤ 24 → (s.domain b p).narrows (t.domain b p))
    (hkeep : ∀ b p d, 1 ≤ b → b ≤ 24 → (t.domain b p).names d → s.claimantFits b p d →
      t.enabled b d = true ∧ (t.desk b d).selection = (s.desk b d).selection ∧
        (t.config b).interlock = (s.config b).interlock) : t.claimsAgree := by
  obtain ⟨hone, hdomains, hexcl⟩ := hi
  have hkept : ∀ b p d, 1 ≤ b → b ≤ 24 → (t.domain b p).names d → (s.domain b p).names d ∧ s.claimantFits b p d ∧
      t.enabled b d = true ∧ (t.desk b d).selection = (s.desk b d).selection ∧ t.placeOf b = s.placeOf b := by
    intro b p d h1 h24 hd
    have hold := (hdom b p h1 h24).names hd
    have hfit := ((s.domainFits_iff b p).mp (hdomains b p h1 h24)).1 d hold
    obtain ⟨hen, hsel, hlock⟩ := hkeep b p d h1 h24 hd hfit
    exact ⟨hold, hfit, hen, hsel, by funext x; unfold State.placeOf; rw [hlock]⟩
  have hclaim : ∀ o, 1 ≤ o.booth → o.booth ≤ 24 → t.claimed o = true → s.claimed o = true := by
    intro o h1 h24 ho
    rw [State.claimed_iff] at ho ⊢
    obtain ⟨d, hd, hsel⟩ := ho
    obtain ⟨hold, -, -, hs, hp⟩ := hkept _ _ d h1 h24 hd
    exact ⟨d, by rw [hp] at hold; exact hold, hs ▸ hsel⟩
  refine ⟨fun c d o => by rw [hplan]; exact hone c d o, fun b p h1 h24 => ?_, fun c o x h1 h31 ho hx hco hcx => ?_⟩
  · rw [State.domainFits_iff]
    refine ⟨fun d hd => ?_, (hdom b p h1 h24).distinct ((s.domainFits_iff b p).mp (hdomains b p h1 h24)).2⟩
    obtain ⟨-, ⟨-, hplace, hch⟩, hen, hsel, hp⟩ := hkept b p d h1 h24 hd
    refine ⟨hen, by unfold State.deskPlace at hplace ⊢; rw [hsel, hp]; exact hplace, ?_⟩
    rw [State.channelOf_ne_none_iff] at hch ⊢
    rw [hsel, hplan]; exact hch
  · rw [hplan] at ho hx
    obtain ⟨ho1, ho24⟩ := hrange c o ho
    obtain ⟨hx1, hx24⟩ := hrange c x hx
    exact hexcl c o x h1 h31 ho hx (hclaim o ho1 ho24 hco) (hclaim x hx1 hx24 hcx)

/-! ### Edits of booths -/

/-- Every desk of `t` has the output and the port it has in `s`. -/
def State.desksHeld (s t : State) : Prop :=
  ∀ x y, (t.desk x y).selection = (s.desk x y).selection ∧ (t.desk x y).port = (s.desk x y).port

theorem State.setDesk_desksHeld (s : State) (b d : Nat) (k : Desk) (hsel : k.selection = (s.desk b d).selection)
    (hport : k.port = (s.desk b d).port) : s.desksHeld (s.setDesk b d k) := by
  intro x y
  have hread : (s.setDesk b d k).desk x y = if deskKey x y = deskKey b d then k else s.desk x y :=
    Table.read_write _ _ _ _ _
  rw [hread]
  split
  · rename_i hkey
    have hsame : s.desk x y = s.desk b d := by unfold State.desk; rw [hkey]
    rw [hsame]; exact ⟨hsel, hport⟩
  · exact ⟨rfl, rfl⟩

theorem State.desksHeld.trans {s t u : State} (h : s.desksHeld t) (k : t.desksHeld u) : s.desksHeld u :=
  fun x y => ⟨(k x y).1.trans (h x y).1, (k x y).2.trans (h x y).2⟩

theorem setDomainState_desksHeld (s : State) (b : Nat) (p : Side) (new : Domain) :
    s.desksHeld (setDomainState s b p new) := by
  have hturn : ∀ old new', s.desksHeld (turnChange (s.setDomain b p new) b p old new') := fun old new' x y => by
    rw [turnChange_frame]; exact ⟨rfl, rfl⟩
  have hcough : ∀ (t : State) d, t.desksHeld (setCough t b d false) := fun t d =>
    State.setDesk_desksHeld t b d { t.desk b d with cough := false } rfl rfl
  unfold setDomainState
  dsimp only
  split
  · exact hturn _ _
  · cases (s.domain b p).liveDesk <;> cases new.liveDesk
    · exact hturn _ _
    · exact (hturn _ _).trans (hcough _ _)
    · exact (hturn _ _).trans (hcough _ _)
    · exact ((hturn _ _).trans (hcough _ _)).trans (hcough _ _)

theorem setDomainState_configs (s : State) (b : Nat) (p : Side) (new : Domain) :
    (setDomainState s b p new).config = s.config := by rw [setDomainState_frame]; rfl

theorem setDomainState_planEntry (s : State) (b : Nat) (p : Side) (new : Domain) :
    (setDomainState s b p new).planEntry = s.planEntry := by rw [setDomainState_frame]; rfl

theorem State.enabled_congr {s t : State} (h : t.config = s.config) : t.enabled = s.enabled := by
  funext b d; unfold State.enabled; rw [h]

theorem State.placeOf_congr {s t : State} (h : t.config = s.config) : t.placeOf = s.placeOf := by
  funext b x; unfold State.placeOf; rw [h]

/-- A domain that narrows keeps the claims in agreement. -/
theorem State.claimsAgree.narrowed {s t : State} (hi : s.claimsAgree) (hrange : s.outputsInRange)
    (hplan : t.planEntry = s.planEntry) (hconfig : t.config = s.config) (hdesk : s.desksHeld t) {b : Nat} {p : Side}
    {new : Domain} (hdom : ∀ x q, t.domain x q = if x = b ∧ q = p then new else s.domain x q)
    (h : (s.domain b p).narrows new) : t.claimsAgree := by
  refine hi.of_narrows hrange hplan (fun x q _ _ => ?_) fun x q d _ _ _ hfit =>
    ⟨(congrFun (congrFun (State.enabled_congr hconfig) x) d).trans hfit.1, (hdesk x d).1, by rw [hconfig]⟩
  rw [hdom]
  split
  · rename_i hx; rw [hx.1, hx.2]; exact h
  · exact Domain.narrows_refl _

theorem State.interlockAllows_iff (s : State) (o : BoothOutput) :
    s.interlockAllows o = true ↔
      ∃ c, s.channelOf o = some c ∧ ∀ x ∈ (s.planEntry c).outputs, x = o ∨ s.claimed x = false := by
  unfold State.interlockAllows
  cases s.channelOf o <;> simp

/-- Where desk `e` joins domain `p` of booth `b`, the domains name who they named, and desk `e`. -/
def State.joins (s t : State) (b : Nat) (p : Side) (e : Nat) : Prop :=
  ∀ x q d, (t.domain x q).names d → (s.domain x q).names d ∨ x = b ∧ q = p ∧ d = e

theorem setDomainState_joins {s : State} {b e : Nat} {p : Side} {left new : Domain}
    (h : (new = .live e ∧ left = .idle) ∨ ∃ d n q, new = .pending d e n q ∧ left = .live d ∧ s.domain b p = .live d) :
    (s.setDomain b p left).joins (setDomainState s b p new) b p e := by
  intro x q d hd
  rw [setDomainState_domain] at hd
  rw [State.domain_setDomain]
  split at hd
  · rename_i hx
    rw [if_pos hx]
    rcases h with ⟨rfl, -⟩ | ⟨d', n, q', rfl, rfl, -⟩ <;> rcases hd with hd | hd
    · exact .inr ⟨hx.1, hx.2, (Option.some.inj hd).symm⟩
    · cases hd
    · exact .inl (.inl hd)
    · exact .inr ⟨hx.1, hx.2, (Option.some.inj hd).symm⟩
  · rename_i hx
    rw [if_neg hx]; exact .inl hd

/-- What is claimed once desk `e` has joined was claimed before, or is the output that desk `e` selects. -/
theorem State.joins.claimed {s t : State} {b e : Nat} {p : Side} (h : s.joins t b p e) (hconfig : t.config = s.config)
    (hdesk : ∀ x y, (t.desk x y).selection = (s.desk x y).selection) {o : BoothOutput} (ho : t.claimed o = true) :
    s.claimed o = true ∨ o = ⟨b, (s.desk b e).selection⟩ := by
  rw [State.claimed_iff] at ho ⊢
  obtain ⟨d, hd, hsel⟩ := ho
  rw [hdesk] at hsel
  unfold State.domainOf at hd ⊢
  rw [State.placeOf_congr hconfig] at hd
  rcases h _ _ d hd with hd | ⟨hb, -, rfl⟩
  · exact .inl ⟨d, hd, hsel⟩
  · obtain ⟨ob, oside⟩ := o
    obtain rfl : ob = b := hb
    exact .inr (congrArg (BoothOutput.mk _) hsel.symm)

/-- An idle desk that is granted what it asks for is not live and requesting at once. -/
theorem State.grants.distinct {s : State} {b : Nat} {p : Side} {new : Domain} (h : s.grants b p new) :
    new.distinct := by
  obtain ⟨-, e, left, -, hplace, hidle, hnew, -⟩ := h
  rcases hnew with ⟨rfl, -⟩ | ⟨d, n, q, rfl, -, hlive⟩
  · exact nofun
  · intro y hl hr
    obtain rfl := Option.some.inj hl
    obtain rfl := Option.some.inj hr
    refine (Domain.stateOf_idle_iff _ _).mp hidle (.inl ?_)
    show (s.domain b (s.deskPlace b e)).liveDesk = some e
    rw [hplace, hlive]; rfl

/-- A desk granted what it asks for leaves the claims in agreement: its output is the only one claimed of its channel
(R44). -/
theorem State.claimsAgree.granted {s : State} (hi : s.claimsAgree) (hrange : s.outputsInRange) {b : Nat} {p : Side}
    {new : Domain} (h : s.grants b p new) : (setDomainState s b p new).claimsAgree := by
  have hdistinct := h.distinct
  obtain ⟨-, e, left, hon, hplace, -, hnew, hallow⟩ := h
  have hjoin := setDomainState_joins hnew
  set u := s.setDomain b p left
  have hleft : (s.domain b p).narrows left := by
    rcases hnew with ⟨-, rfl⟩ | ⟨d, n, q, -, rfl, hlive⟩
    · trivial
    · rw [hlive]; exact .inl rfl
  obtain ⟨hone, hdomains, hexcl⟩ : u.claimsAgree :=
    hi.narrowed hrange rfl rfl (fun _ _ => ⟨rfl, rfl⟩) (fun x q => State.domain_setDomain s b x p q left) hleft
  have hconfig : (setDomainState s b p new).config = u.config := setDomainState_configs s b p new
  have hplan : (setDomainState s b p new).planEntry = u.planEntry := setDomainState_planEntry s b p new
  have hdesk : ∀ x y, ((setDomainState s b p new).desk x y).selection = (u.desk x y).selection := fun x y =>
    (setDomainState_desksHeld s b p new x y).1
  obtain ⟨c, hc, hfree⟩ := (u.interlockAllows_iff _).mp hallow
  obtain ⟨hc1, hc31, hcmem⟩ := State.channelOf_some hc
  have hclaim : ∀ o, (setDomainState s b p new).claimed o = true →
      u.claimed o = true ∨ o = ⟨b, (s.desk b e).selection⟩ := fun o => hjoin.claimed hconfig hdesk
  refine ⟨fun c d o => by rw [hplan]; exact hone c d o, fun x q h1 h24 => ?_, fun k o x h1 h31 ho hx hco hcx => ?_⟩
  · rw [State.domainFits_iff]
    refine ⟨fun d hd => ?_, ?_⟩
    · unfold State.claimantFits State.deskPlace
      rw [State.enabled_congr hconfig, State.placeOf_congr hconfig, hdesk, State.channelOf_ne_none_iff, hplan,
        ← State.channelOf_ne_none_iff]
      rcases hjoin x q d hd with hd | ⟨rfl, rfl, rfl⟩
      · exact ((u.domainFits_iff x q).mp (hdomains x q h1 h24)).1 d hd
      · exact ⟨hon, hplace, fun h => Option.some_ne_none c (hc.symm.trans h)⟩
    · rw [setDomainState_domain]
      split
      exacts [hdistinct, ((s.domainFits_iff x q).mp (hi.2.1 x q h1 h24)).2]
  · rw [hplan] at ho hx
    have hsame : (⟨b, (s.desk b e).selection⟩ : BoothOutput) ∈ (u.planEntry k).outputs → k = c := fun hm =>
      hone k c _ h1 h31 hc1 hc31 hm hcmem
    rcases hclaim o hco with hco | rfl <;> rcases hclaim x hcx with hcx | rfl
    · exact hexcl k o x h1 h31 ho hx hco hcx
    · obtain rfl := hsame hx
      rcases hfree o ho with h | h
      exacts [h, by rw [hco] at h; cases h]
    · obtain rfl := hsame ho
      rcases hfree x hx with h | h
      exacts [h.symm, by rw [hcx] at h; cases h]
    · rfl

/-! ### A plan entry replaced -/

theorem State.outputsFree_iff (s : State) (c : Nat) (e : PlanEntry) :
    s.outputsFree c e = true ↔
      e.outputs.Nodup ∧ ∀ d, 1 ≤ d → d ≤ 31 → d ≠ c → ∀ o ∈ e.outputs, o ∉ (s.planEntry d).outputs := by
  unfold State.outputsFree
  simp only [Bool.and_eq_true, decide_eq_true_eq, List.all_eq_true, Bool.or_eq_true, mem_langChannels]
  refine and_congr_right fun _ => ⟨fun h d h1 h31 hd => (h d ⟨h1, h31⟩).resolve_left hd, fun h d hd => ?_⟩
  by_cases hdc : d = c
  exacts [.inl hdc, .inr (h d hd.1 hd.2 hdc)]

theorem State.nothingLeaves_iff (s : State) (c : Nat) (e : PlanEntry) :
    s.nothingLeaves c e = true ↔
      s.plan.hall = .setup ∨ ∀ o ∈ (s.planEntry c).outputs, o ∈ e.outputs ∨ s.claimed o = false := by
  simp [State.nothingLeaves]

/-- The checks of R5 that an accepted entry has passed. -/
theorem State.planRefusal_none_iff (s : State) (c : Nat) (e : PlanEntry) :
    s.planRefusal c e = none ↔
      pivotFits c e = true ∧ s.languageFree c e = true ∧ s.outputsFree c e = true ∧ s.nothingLeaves c e = true := by
  unfold State.planRefusal
  split
  · simp_all
  · split
    · simp_all
    · split
      · simp_all
      · split <;> simp_all

theorem State.claimsAgree.claimant {s : State} (hi : s.claimsAgree) {b d : Nat} {p : Side} (h1 : 1 ≤ b) (h24 : b ≤ 24)
    (hd : (s.domain b p).names d) : s.claimantFits b p d := ((s.domainFits_iff b p).mp (hi.2.1 b p h1 h24)).1 d hd

section
variable {s : State} {c : Nat} {e : PlanEntry}

/-- An output of the accepted entry that is claimed stood in the old entry: it stands in no other channel's (R8). -/
theorem State.claimsAgree.stood (hi : s.claimsAgree) (hfit : e.fits) (hfree : s.planRefusal c e = none) {o : BoothOutput}
    (ho : o ∈ e.outputs) (hclaimed : s.claimed o = true) : o ∈ (s.planEntry c).outputs := by
  obtain ⟨-, -, hout, -⟩ := (s.planRefusal_none_iff c e).mp hfree
  obtain ⟨h1, h24⟩ := hfit.2.1 o ho
  obtain ⟨d, hd, hsel⟩ := (s.claimed_iff o).mp hclaimed
  obtain ⟨-, -, hch⟩ := hi.claimant h1 h24 hd
  rw [State.channelOf_ne_none_iff, hsel] at hch
  obtain ⟨k, hk1, hk31, hmem⟩ := hch
  by_cases hkc : k = c
  · exact hkc ▸ hmem
  · exact absurd hmem (((s.outputsFree_iff c e).mp hout).2 k hk1 hk31 hkc o ho)

/-- The output of a desk that a domain names stays assigned: in SESSION no claimed output leaves the channel (R9), and in
SETUP no domain names a desk. -/
theorem State.claimsAgree.staysAssigned (hi : s.claimsAgree) (hquiet : s.setupQuiet) (h1 : 1 ≤ c)
    (hfree : s.planRefusal c e = none) {b d : Nat} {p : Side} (hb1 : 1 ≤ b) (hb24 : b ≤ 24)
    (hd : (s.domain b p).names d) : (s.setPlanEntry c e).channelOf ⟨b, (s.desk b d).selection⟩ ≠ none := by
  obtain ⟨-, -, -, hleave⟩ := (s.planRefusal_none_iff c e).mp hfree
  obtain ⟨-, hplace, hch⟩ := hi.claimant hb1 hb24 hd
  rw [State.channelOf_ne_none_iff] at hch ⊢
  obtain ⟨k, hk1, hk31, hmem⟩ := hch
  refine ⟨k, hk1, hk31, ?_⟩
  rw [State.planEntry_setPlanEntry s c k e (by omega)]
  split
  · rename_i hkc
    subst hkc
    rcases (s.nothingLeaves_iff k e).mp hleave with hall | hstay
    · rw [hquiet hall b p hb1 hb24] at hd
      exact absurd hd (Domain.not_names_idle d)
    · have hclaimed : s.claimed ⟨b, (s.desk b d).selection⟩ = true :=
        (s.claimed_iff _).mpr ⟨d, by rw [← hplace] at hd; exact hd, rfl⟩
      refine (hstay _ hmem).resolve_right fun hno => ?_
      rw [hno] at hclaimed; cases hclaimed
  · exact hmem

/-- An accepted plan entry keeps the claims in agreement: its outputs stand in no other entry, and no claimed output
leaves the channel (R8, R9). -/
theorem State.claimsAgree.entry (hi : s.claimsAgree) (hquiet : s.setupQuiet) (h1 : 1 ≤ c) (h31 : c ≤ 31) (hfit : e.fits)
    (hfree : s.planRefusal c e = none) : (s.setPlanEntry c e).claimsAgree := by
  have ⟨hone, hdomains, hexcl⟩ := hi
  obtain ⟨-, -, hout, -⟩ := (s.planRefusal_none_iff c e).mp hfree
  obtain ⟨-, hout⟩ := (s.outputsFree_iff c e).mp hout
  have hplan : ∀ d, (s.setPlanEntry c e).planEntry d = if d = c then e else s.planEntry d := fun d =>
    State.planEntry_setPlanEntry s c d e (by omega)
  have hdomain : (s.setPlanEntry c e).domain = s.domain := rfl
  have hclaimed : (s.setPlanEntry c e).claimed = s.claimed := rfl
  refine ⟨fun k d o hk1 hk31 hd1 hd31 hk hd => ?_, fun b p hb1 hb24 => ?_, fun k o x hk1 hk31 ho hx hco hcx => ?_⟩
  · rw [hplan] at hk hd
    split at hk <;> split at hd
    · omega
    · exact absurd hd (hout d hd1 hd31 ‹_› o hk)
    · exact absurd hk (hout k hk1 hk31 ‹_› o hd)
    · exact hone k d o hk1 hk31 hd1 hd31 hk hd
  · rw [State.domainFits_iff, hdomain]
    refine ⟨fun d hd => ?_, ((s.domainFits_iff b p).mp (hdomains b p hb1 hb24)).2⟩
    obtain ⟨hen, hplace, -⟩ := hi.claimant hb1 hb24 hd
    exact ⟨hen, hplace, hi.staysAssigned hquiet h1 hfree hb1 hb24 hd⟩
  · rw [hplan] at ho hx
    rw [hclaimed] at hco hcx
    split at ho
    · rw [if_pos ‹_›] at hx
      exact hexcl c o x h1 h31 (hi.stood hfit hfree ho hco) (hi.stood hfit hfree hx hcx) hco hcx
    · rw [if_neg ‹_›] at hx
      exact hexcl k o x hk1 hk31 ho hx hco hcx

end

/-! ### A booth configuration stored -/

theorem mem_positions {d : Nat} : d ∈ positions ↔ 1 ≤ d ∧ d ≤ 4 := by
  unfold positions
  rw [List.mem_range'_1]
  omega

/-- The positions a stored configuration enables, in ascending order (R38). -/
def enabling (old new : BoothConfig) : List Nat := positions.filter fun d => decide (old.enabled < d ∧ d ≤ new.enabled)

theorem mem_enabling {old new : BoothConfig} {d : Nat} :
    d ∈ enabling old new ↔ (1 ≤ d ∧ d ≤ 4) ∧ old.enabled < d ∧ d ≤ new.enabled := by
  simp [enabling, mem_positions]

/-- The state in which a stored configuration has enabled and disabled the positions it gives and takes (R38). -/
def withDesks (s : State) (b : Nat) (c : BoothConfig) : State :=
  (enabling c (s.config b)).foldl (fun t d => disableDesk t b d)
    ((enabling (s.config b) c).foldl (fun t d => enableDesk t b d) (s.setConfig b c))

/-- A configuration is stored, then the positions are enabled or disabled, then the domains are reshaped by a change of
interlock (R37 to R39). -/
theorem storeConfig_eq (s : State) (b : Nat) (c : BoothConfig) :
    storeConfig s b c =
      if c.interlock = (s.config b).interlock then withDesks s b c else reshapeDomains (withDesks s b c) b := rfl

/-- A fold over desk positions of booth `b`, each step of which keeps every other desk, keeps the desks it does not
name. -/
theorem desk_foldl_of_not_mem {f : State → Nat → State} {b x y : Nat} {l : List Nat}
    (hf : ∀ t d, d ≤ 7 → ¬(x = b ∧ y = d) → (f t d).desk x y = t.desk x y) (hl : ∀ d ∈ l, d ≤ 7)
    (hxy : x = b → y ∉ l) (s : State) : (l.foldl f s).desk x y = s.desk x y := by
  refine List.foldlRecOn (motive := fun t => t.desk x y = s.desk x y) l f rfl fun t ht d hd => ?_
  rw [hf t d (hl d hd) fun h => hxy h.1 (h.2 ▸ hd), ht]

theorem enableDesk_desk (s : State) (b d x y : Nat) (hd : d ≤ 7) (hy : y ≤ 7) :
    (enableDesk s b d).desk x y =
      if x = b ∧ y = d then { selection := .a, cough := false, flash := false, port := s.freePort } else s.desk x y :=
  State.desk_setDesk s b d x y _ hd hy

theorem disableDesk_desk (s : State) (b d x y : Nat) (hd : d ≤ 7) (hy : y ≤ 7) :
    (disableDesk s b d).desk x y = if x = b ∧ y = d then .disabled else s.desk x y :=
  State.desk_setDesk s b d x y _ hd hy

/-- A position that a stored configuration neither enables nor disables keeps its desk (R38). -/
theorem withDesks_desk_kept (s : State) (b : Nat) (c : BoothConfig) {x y : Nat} (hy : y ≤ 7)
    (h : x = b → (y ≤ (s.config b).enabled ↔ y ≤ c.enabled)) : (withDesks s b c).desk x y = s.desk x y := by
  have hle : ∀ old new : BoothConfig, ∀ d ∈ enabling old new, d ≤ 7 := fun _ _ d hd => by
    have := mem_enabling.mp hd; omega
  unfold withDesks
  rw [desk_foldl_of_not_mem (fun t d hd hn => by rw [disableDesk_desk t b d x y hd hy, if_neg hn]) (hle _ _)
      (fun hx hm => by have := h hx; have := mem_enabling.mp hm; omega),
    desk_foldl_of_not_mem (fun t d hd hn => by rw [enableDesk_desk t b d x y hd hy, if_neg hn]) (hle _ _)
      (fun hx hm => by have := h hx; have := mem_enabling.mp hm; omega)]
  rfl

/-- `t` is `s` with desks and desk records changed. -/
def State.desksAlone (s t : State) : Prop :=
  ∃ x y, t = { s with booths := { s.booths with desks := x }, turns := { s.turns with records := y } }

theorem State.desksAlone.trans {s t u : State} (h : s.desksAlone t) (k : t.desksAlone u) : s.desksAlone u := by
  obtain ⟨x, y, rfl⟩ := h
  obtain ⟨x', y', rfl⟩ := k
  exact ⟨x', y', rfl⟩

/-- The enabling and the disabling of positions touch desks and desk records alone. -/
theorem withDesks_desksAlone (s : State) (b : Nat) (c : BoothConfig) : (s.setConfig b c).desksAlone (withDesks s b c) := by
  have hfold : ∀ (f : State → Nat → State) (l : List Nat) (t : State), (∀ (u : State) d, u.desksAlone (f u d)) →
      t.desksAlone (l.foldl f t) := fun f l t hf =>
    List.foldlRecOn (motive := fun u => t.desksAlone u) l f ⟨_, _, rfl⟩ fun u hu d _ => hu.trans (hf u d)
  exact (hfold (fun t d => enableDesk t b d) _ _ fun _ _ => ⟨_, _, rfl⟩).trans
    (hfold (fun t d => disableDesk t b d) _ _ fun _ _ => ⟨_, _, rfl⟩)

theorem reshapeDomains_domain (s : State) (b x : Nat) (q : Side) :
    (reshapeDomains s b).domain x q = if x = b then .idle else s.domain x q := by
  have : (reshapeDomains s b).domain x q = ((s.setDomain b .a .idle).setDomain b .b .idle).domain x q := rfl
  rw [this, State.domain_setDomain, State.domain_setDomain]
  cases q <;> by_cases h : x = b <;> simp [h]

theorem reshapeDomains_turn (s : State) (b x : Nat) (q : Side) :
    (reshapeDomains s b).turn x q = if x = b then .idle else s.turn x q := by
  have : (reshapeDomains s b).turn x q = ((s.setTurn b .a .idle).setTurn b .b .idle).turn x q := rfl
  rw [this, State.turn_setTurn, State.turn_setTurn]
  cases q <;> by_cases h : x = b <;> simp [h]

/-- The domains of a booth whose stored configuration changes its interlock are IDLE, and every other domain is kept
(R39). -/
theorem storeConfig_domain (s : State) (b : Nat) (c : BoothConfig) (x : Nat) (q : Side) :
    (storeConfig s b c).domain x q =
      if x = b ∧ c.interlock ≠ (s.config b).interlock then .idle else s.domain x q := by
  obtain ⟨desks, records, h⟩ := withDesks_desksAlone s b c
  have hkeep : (withDesks s b c).domain = s.domain := by rw [h]; rfl
  rw [storeConfig_eq]
  split
  · rw [hkeep]; simp [*]
  · rw [reshapeDomains_domain, hkeep]; simp [*]

theorem storeConfig_turn (s : State) (b : Nat) (c : BoothConfig) (x : Nat) (q : Side) :
    (storeConfig s b c).turn x q =
      if x = b ∧ c.interlock ≠ (s.config b).interlock then .idle else s.turn x q := by
  obtain ⟨desks, records, h⟩ := withDesks_desksAlone s b c
  have hkeep : (withDesks s b c).turn = s.turn := by rw [h]; rfl
  rw [storeConfig_eq]
  split
  · rw [hkeep]; simp [*]
  · rw [reshapeDomains_turn, hkeep]; simp [*]

theorem storeConfig_desk (s : State) (b : Nat) (c : BoothConfig) : (storeConfig s b c).desk = (withDesks s b c).desk := by
  rw [storeConfig_eq]
  split <;> rfl

/-- What a booth configuration that passes the checks of R37 may not do in SESSION. -/
theorem State.boothRefusal_none {s : State} {b : Nat} {c : BoothConfig} (h : s.boothRefusal b c = none) :
    c.enabled + s.otherDesks b ≤ 64 ∧ (s.plan.hall = .session →
      (s.config b).enabled ≤ c.enabled ∧ (c.interlock ≠ (s.config b).interlock → ∀ p, s.domain b p = .idle)) := by
  unfold State.boothRefusal at h
  split at h
  · cases h
  · split at h
    · cases h
    · split at h
      · cases h
      · rename_i h3 h4 h5
        refine ⟨by simpa [Config.deskPorts] using h4, fun hs => ⟨by simpa [hs] using h3, fun hi p => ?_⟩⟩
        have hbusy : s.boothBusy b ≠ true := fun hb => h5 ⟨hs, hi, hb⟩
        cases p <;> by_contra hp <;> exact hbusy (by simp [State.boothBusy, hp])

/-- An accepted configuration keeps the claims in agreement: in SESSION no position is disabled, and the interlock changes
where the booth's domains are IDLE alone (R37). -/
theorem State.claimsAgree.config {s : State} (hi : s.claimsAgree) (hvalues : s.valuesFit) (hquiet : s.setupQuiet) {b : Nat}
    {c : BoothConfig} (hfree : s.boothRefusal b c = none) : (storeConfig s b c).claimsAgree := by
  obtain ⟨-, hsession⟩ := State.boothRefusal_none hfree
  obtain ⟨x, y, halone⟩ := storeConfig_boothsAlone s b c
  have hplan : (storeConfig s b c).planEntry = s.planEntry := by rw [halone]; rfl
  refine hi.of_narrows hvalues.outputsInRange hplan (fun x q _ _ => ?_) fun x q d h1 h24 hd hfit => ?_
  · rw [storeConfig_domain]
    split
    exacts [trivial, Domain.narrows_refl _]
  · have hidle : ∀ m : Domain, m = .idle → ¬ m.names d := fun m hm => hm ▸ Domain.not_names_idle d
    rw [storeConfig_domain] at hd
    split at hd
    · exact absurd hd (Domain.not_names_idle d)
    rename_i hlock
    have hs : s.plan.hall = .session := by
      cases hh : s.plan.hall
      · exact absurd hd (hidle _ (hquiet hh x q h1 h24))
      · rfl
    obtain ⟨hgrows, -⟩ := hsession hs
    obtain ⟨hd1, hdn⟩ : 1 ≤ d ∧ d ≤ (s.config x).enabled := by simpa [State.enabled] using hfit.1
    have hfour := (hvalues.2.2.1 x).1
    refine ⟨?_, ?_, ?_⟩
    · unfold State.enabled
      rw [storeConfig_config]
      split
      · subst x; simp; omega
      · simp; omega
    · rw [storeConfig_desk, withDesks_desk_kept s b c (by omega)]
      rintro rfl; omega
    · rw [storeConfig_config]
      split
      · rename_i hx
        by_contra hne
        exact hlock ⟨hx, hx ▸ hne⟩
      · rfl

/-! ### The invariants of the booths -/

theorem Change.keeps_setupQuiet {s t : State} (h : Change s t) (hi : s.setupQuiet) : t.setupQuiet := by
  cases h with
  | opened => exact nofun
  | closed hidle => exact fun _ => hidle
  | domain b p new hnew =>
    intro hs x q h1 h24
    have hhall : s.plan.hall = .setup := by rw [setDomainState_frame] at hs; exact hs
    rw [setDomainState_domain]
    split
    · rename_i hx
      obtain ⟨rfl, rfl⟩ := hx
      rcases hnew with hnew | hnew
      · rw [hi hhall x q h1 h24] at hnew
        exact Domain.eq_idle_of_narrows hnew
      · exact absurd (hnew.1.symm.trans hhall) (by decide)
    · exact hi hhall x q h1 h24
  | config b c =>
    intro hs x q h1 h24
    rw [storeConfig_domain]
    split
    · rfl
    · obtain ⟨y, z, e⟩ := storeConfig_boothsAlone s b c
      exact hi (by rw [e] at hs; exact hs) x q h1 h24
  | _ => exact hi

theorem setDomainState_turn (s : State) (b : Nat) (p : Side) (new : Domain) (x : Nat) (q : Side) :
    (setDomainState s b p new).turn x q =
      (turnChange (s.setDomain b p new) b p (s.domain b p).liveDesk new.liveDesk).turn x q := by
  unfold State.turn; rw [setDomainState_turns]

theorem Change.keeps_turnsFit {s t : State} (h : Change s t) (hi : s.turnsFit) : t.turnsFit := by
  cases h with
  | domain b p new =>
    intro x q hq
    rw [setDomainState_domain] at hq
    rw [setDomainState_turn]
    by_cases hsame : (s.domain b p).liveDesk = new.liveDesk
    · rw [hsame, turnChange_same]
      refine hi x q ?_
      split at hq
      · rename_i hx; rw [hx.1, hx.2, hsame, hq]
      · exact hq
    · rw [turnChange_turn _ _ _ _ _ hsame]
      split
      · rw [if_pos ‹_›] at hq; rw [hq]; rfl
      · rw [if_neg ‹_›] at hq; exact hi x q hq
  | config b c =>
    intro x q hq
    rw [storeConfig_domain] at hq
    rw [storeConfig_turn]
    split
    · rfl
    · rw [if_neg ‹_›] at hq; exact hi x q hq
  | turn b p r hlive =>
    intro x q hq
    rw [State.turn_setTurn, if_neg]
    · exact hi x q hq
    · rintro ⟨rfl, rfl⟩; exact hlive hq
  | _ => exact hi

theorem Change.keeps_claimsAgree {s t : State} (h : Change s t) (hvalues : s.valuesFit) (hquiet : s.setupQuiet)
    (hi : s.claimsAgree) : t.claimsAgree := by
  have hrange := hvalues.outputsInRange
  cases h with
  | entry c e h1 h31 hfit hfree => exact hi.entry hquiet h1 h31 hfit hfree
  | desk b d k hsel hport =>
    exact hi.of_narrows hrange rfl (fun _ _ _ _ => Domain.narrows_refl _) fun x q e _ _ _ hfit =>
      ⟨hfit.1, (State.setDesk_desksHeld s b d k hsel hport x e).1, rfl⟩
  | select b d y hon hidle =>
    refine hi.of_narrows hrange rfl (fun _ _ _ _ => Domain.narrows_refl _) fun x q e h1 h24 hname hfit =>
      ⟨hfit.1, ?_, rfl⟩
    have hle : ∀ {z n}, s.enabled z n = true → n ≤ 7 := fun {z n} hz => by
      have := (hvalues.2.2.1 z).1
      simp only [State.enabled, Bool.and_eq_true, decide_eq_true_eq] at hz
      omega
    rw [State.desk_setDesk s b d x e _ (hle hon) (hle hfit.1), if_neg]
    rintro ⟨rfl, rfl⟩
    refine (Domain.stateOf_idle_iff _ _).mp hidle ?_
    show (s.domain x (s.deskPlace x e)).names e
    rw [hfit.2.1]; exact hname
  | domain b p new hnew =>
    rcases hnew with hnew | hnew
    · exact hi.narrowed hrange (setDomainState_planEntry s b p new) (setDomainState_configs s b p new)
        (setDomainState_desksHeld s b p new) (fun x q => setDomainState_domain s b x p q new) hnew
    · exact hi.granted hrange hnew
  | config b c _ _ _ hfree => exact hi.config hvalues hquiet hfree
  | _ => exact hi

/-- The booths are sound: the invariants that the claims need, and the claims in agreement. -/
structure State.BoothsSound (s : State) : Prop where
  values : s.valuesFit
  quiet : s.setupQuiet
  turns : s.turnsFit
  claims : s.claimsAgree

theorem Change.keeps_boothsSound {s t : State} (h : Change s t) (hi : s.BoothsSound) : t.BoothsSound :=
  ⟨h.keeps_valuesFit hi.values, h.keeps_setupQuiet hi.quiet, h.keeps_turnsFit hi.turns,
    h.keeps_claimsAgree hi.values hi.quiet hi.claims⟩

theorem reset_boothsSound : State.reset.BoothsSound where
  values := reset_valuesFit
  quiet := fun _ _ _ _ _ => rfl
  turns := fun _ _ _ => rfl
  claims := by
    have hout : ∀ c, (State.reset.planEntry c).outputs = [] := fun c => by unfold State.planEntry; split <;> rfl
    have hno : ∀ c o, o ∉ (State.reset.planEntry c).outputs := fun c o => by simp [hout]
    exact ⟨fun c _ o _ _ _ _ hc => absurd hc (hno c o), fun _ _ _ _ => trivial,
      fun c o _ _ _ hc => absurd hc (hno c o)⟩

theorem step_keeps_boothsSound {s t : State} (h : step s = .next t) (hi : s.BoothsSound) : t.BoothsSound :=
  step_keeps (fun _ _ _ hi => ⟨hi.values, hi.quiet, hi.turns, hi.claims⟩)
    (fun _ _ hi => ⟨hi.values, hi.quiet, hi.turns, hi.claims⟩)
    (fun _ _ hi => ⟨hi.values, hi.quiet, hi.turns, hi.claims⟩) Change.keeps_boothsSound reset_boothsSound h hi

end Sys2Proof.Machine
end

