-- ==== Sys2Proof/Proofs/Ports.lean ====
section
/-! O57, the desk ports: each enabled desk holds a port of its own, of the 64, and a free one is at hand for every position
that a stored configuration enables. -/

namespace Sys2Proof.Machine

/-! ### Ports by enabled counts -/

/-- Where booth `b` has its first `n b` positions enabled, each of these holds a port of its own, 1 to 64, and no other
position holds one. -/
def State.portsMatch (s : State) (n : Nat → Nat) : Prop :=
  (∀ b d, d ≤ 7 → ((s.desk b d).port ≠ none ↔ 1 ≤ d ∧ d ≤ n b)) ∧
    (∀ b d p, d ≤ 7 → (s.desk b d).port = some p → 1 ≤ p ∧ p ≤ 64) ∧
    ∀ b d x e p, d ≤ 7 → e ≤ 7 → (s.desk b d).port = some p → (s.desk x e).port = some p → b = x ∧ d = e

/-- The enabled count of each booth. -/
def State.enabledOf (s : State) (b : Nat) : Nat := (s.config b).enabled

theorem State.portsAgree_iff (s : State) :
    s.portsAgree ↔ s.portsMatch s.enabledOf ∧ (∀ b, (b = 0 ∨ 24 < b) → s.enabledOf b = 0) ∧
      (allBooths.map s.enabledOf).sum ≤ 64 := by
  have hport : ∀ b d, ((s.desk b d).port = none ↔ s.enabled b d = false) ↔
      ((s.desk b d).port ≠ none ↔ 1 ≤ d ∧ d ≤ s.enabledOf b) := fun b d => by
    have hon : s.enabled b d = false ↔ ¬(1 ≤ d ∧ d ≤ s.enabledOf b) := by
      rw [← Bool.not_eq_true]; simp [State.enabled, State.enabledOf]
    rw [hon]; tauto
  unfold State.portsAgree State.portsMatch
  simp only [hport]
  exact ⟨fun ⟨h1, h2, h3, h4, h5⟩ => ⟨⟨h1, h2, h3⟩, h4, h5⟩, fun ⟨⟨h1, h2, h3⟩, h4, h5⟩ => ⟨h1, h2, h3, h4, h5⟩⟩

/-- The ports depend on what the desks hold alone. -/
theorem State.portsMatch.congr {s t : State} {n : Nat → Nat} (hi : s.portsMatch n)
    (h : ∀ b d, d ≤ 7 → (t.desk b d).port = (s.desk b d).port) : t.portsMatch n := by
  obtain ⟨h1, h2, h3⟩ := hi
  refine ⟨fun b d hd => by rw [h b d hd]; exact h1 b d hd, fun b d p hd => by rw [h b d hd]; exact h2 b d p hd, ?_⟩
  intro b d x e p hd he
  rw [h b d hd, h x e he]
  exact h3 b d x e p hd he

/-! ### A free port -/

/-- In a table in canonical form the entries are the keys that do not read as the default, each once. -/
theorem Table.read_of_mem {α : Type} [DecidableEq α] {d : α} {t : Table α} (h : t.canonical d = true) {k : Nat} {v : α}
    (hm : (k, v) ∈ t) : t.read d k = v := by
  induction t with
  | nil => cases hm
  | cons e t ih =>
    obtain ⟨j, w⟩ := e
    obtain ⟨-, habove, ht⟩ := (Table.canonical_cons d j w t).mp h
    rcases List.mem_cons.mp hm with he | hm
    · obtain ⟨rfl, rfl⟩ := Prod.mk.inj he
      simp [Table.read]
    · have hlt : j < k := habove _ hm
      simp [Table.read, Nat.ne_of_lt hlt, ih ht hm]

theorem Table.mem_of_read_ne {α : Type} {d : α} {t : Table α} {k : Nat} (h : t.read d k ≠ d) : (k, t.read d k) ∈ t := by
  induction t with
  | nil => exact absurd rfl h
  | cons e t ih =>
    obtain ⟨j, w⟩ := e
    by_cases hj : j = k
    · subst hj; simp [Table.read]
    · simp only [Table.read, hj, if_false] at h ⊢
      exact List.mem_cons_of_mem _ (ih h)

theorem Table.nodup_keys {α : Type} [DecidableEq α] {d : α} {t : Table α} (h : t.canonical d = true) :
    (t.map (·.1)).Nodup := by
  induction t with
  | nil => exact List.nodup_nil
  | cons e t ih =>
    obtain ⟨j, w⟩ := e
    obtain ⟨-, habove, ht⟩ := (Table.canonical_cons d j w t).mp h
    refine List.nodup_cons.mpr ⟨fun hm => ?_, ih ht⟩
    obtain ⟨x, hx, hxj⟩ := List.mem_map.mp hm
    have := habove x hx
    simp only at hxj
    omega

/-- The keys of the positions enabled. -/
def enabledKeys (n : Nat → Nat) : List Nat := allBooths.flatMap fun b => (List.range' 1 (n b)).map (deskKey b)

theorem enabledKeys_length (n : Nat → Nat) : (enabledKeys n).length = (allBooths.map n).sum := by
  simp [enabledKeys, List.length_flatMap]

theorem mem_allBooths {b : Nat} : b ∈ allBooths ↔ 1 ≤ b ∧ b ≤ 24 := by
  unfold allBooths
  rw [List.mem_range'_1]
  omega

/-- There are no more ports held than positions enabled. -/
theorem State.portsMatch.portsHeld_length {s : State} {n : Nat → Nat} (hi : s.portsMatch n)
    (hcanon : s.booths.desks.canonical .disabled = true) (hout : ∀ b, (b = 0 ∨ 24 < b) → n b = 0) :
    s.portsHeld.length ≤ (allBooths.map n).sum := by
  have hkeys : ((s.booths.desks.filter fun e => e.2.port.isSome).map (·.1)) ⊆ enabledKeys n := by
    intro k hk
    obtain ⟨⟨j, w⟩, he, rfl⟩ := List.mem_map.mp hk
    obtain ⟨hm, hport⟩ := List.mem_filter.mp he
    have hread : s.desk (j / 8) (j % 8) = w := by
      unfold State.desk deskKey
      rw [Nat.div_add_mod' j 8]
      exact Table.read_of_mem hcanon hm
    obtain ⟨h1, hn⟩ := (hi.1 (j / 8) (j % 8) (by omega)).mp (by rw [hread]; exact Option.isSome_iff_ne_none.mp hport)
    have hb : j / 8 ∈ allBooths := mem_allBooths.mpr (by
      by_contra hb
      have := hout (j / 8) (by omega)
      omega)
    refine List.mem_flatMap.mpr ⟨j / 8, hb, List.mem_map.mpr ⟨j % 8, ?_, Nat.div_add_mod' j 8⟩⟩
    rw [List.mem_range'_1]; omega
  have hnodup : ((s.booths.desks.filter fun e => e.2.port.isSome).map (·.1)).Nodup :=
    (Table.nodup_keys hcanon).sublist (List.filter_sublist.map _)
  have hlen : s.portsHeld.length = (s.booths.desks.filter fun e => e.2.port.isSome).length := by
    unfold State.portsHeld
    rw [List.length_filterMap_eq_countP, List.countP_eq_length_filter]
  rw [hlen, ← enabledKeys_length, ← List.length_map (f := (·.1))]
  exact (List.subperm_of_subset hnodup hkeys).length_le

/-- With fewer than 64 positions enabled a port is free (R38). -/
theorem State.portsMatch.freePort {s : State} {n : Nat → Nat} (hi : s.portsMatch n)
    (hcanon : s.booths.desks.canonical .disabled = true) (hout : ∀ b, (b = 0 ∨ 24 < b) → n b = 0)
    (hsum : (allBooths.map n).sum < 64) :
    ∃ p, s.freePort = some p ∧ 1 ≤ p ∧ p ≤ 64 ∧ ∀ b d, (s.desk b d).port ≠ some p := by
  have hlen := hi.portsHeld_length hcanon hout
  cases hf : s.freePort with
  | none =>
    have hall : List.range' 1 64 ⊆ s.portsHeld := fun p hp => by
      have := List.find?_eq_none.mp hf p hp
      simpa using this
    have := (List.subperm_of_subset List.nodup_range' hall).length_le
    rw [List.length_range'] at this
    omega
  | some p =>
    have hmem : p ∈ List.range' 1 64 := List.mem_of_find?_eq_some hf
    rw [List.mem_range'_1] at hmem
    have hfree : p ∉ s.portsHeld := by simpa using List.find?_some hf
    refine ⟨p, rfl, hmem.1, by omega, fun b d hp => hfree ?_⟩
    have hm : (deskKey b d, s.desk b d) ∈ s.booths.desks := Table.mem_of_read_ne fun hdis => by
      have hdis' : s.desk b d = .disabled := hdis
      rw [hdis'] at hp; cases hp
    exact List.mem_filterMap.mpr ⟨_, hm, hp⟩

/-! ### Positions enabled and disabled -/

/-- The next position of booth `b` enabled: it takes a free port (R38). -/
theorem State.portsMatch.enable {s : State} {n : Nat → Nat} (hi : s.portsMatch n)
    (hcanon : s.booths.desks.canonical .disabled = true) (hout : ∀ b, (b = 0 ∨ 24 < b) → n b = 0)
    (hsum : (allBooths.map n).sum < 64) {b : Nat} (hb : n b + 1 ≤ 7) :
    (enableDesk s b (n b + 1)).portsMatch (Function.update n b (n b + 1)) := by
  obtain ⟨p, hfree, hp1, hp64, hnew⟩ := hi.freePort hcanon hout hsum
  obtain ⟨hport, hrange, hown⟩ := hi
  have hdesk : ∀ x y, y ≤ 7 → ((enableDesk s b (n b + 1)).desk x y).port =
      if x = b ∧ y = n b + 1 then some p else (s.desk x y).port := fun x y hy => by
    rw [enableDesk_desk s b _ x y hb hy, hfree]
    split <;> rfl
  refine ⟨fun x y hy => ?_, fun x y q hy h => ?_, fun x y x' y' q hy hy' h h' => ?_⟩
  · rw [hdesk x y hy]
    by_cases hx : x = b
    · subst hx
      rw [Function.update_self]
      by_cases hyn : y = n x + 1
      · simp [hyn]
      · rw [if_neg fun h => hyn h.2, hport x y hy]; omega
    · rw [Function.update_of_ne hx, if_neg fun h => hx h.1, hport x y hy]
  · rw [hdesk x y hy] at h
    split at h
    · obtain rfl := Option.some.inj h; exact ⟨hp1, hp64⟩
    · exact hrange x y q hy h
  · rw [hdesk x y hy] at h
    rw [hdesk x' y' hy'] at h'
    split at h <;> split at h'
    · omega
    · obtain rfl := Option.some.inj h; exact absurd h' (hnew x' y')
    · obtain rfl := Option.some.inj h'; exact absurd h (hnew x y)
    · exact hown x y x' y' q hy hy' h h'

theorem sum_map_update (n : Nat → Nat) {b : Nat} (hb : b ∈ allBooths) (m : Nat) :
    (allBooths.map (Function.update n b m)).sum = m + ((allBooths.filter fun x => decide (x ≠ b)).map n).sum := by
  have hnodup : allBooths.Nodup := List.nodup_range'
  have herase : allBooths.erase b = allBooths.filter fun x => decide (x ≠ b) := by
    rw [hnodup.erase_eq_filter]; congr 1; funext x; by_cases h : x = b <;> simp [h]
  rw [← List.sum_map_erase _ hb, Function.update_self, herase]
  congr 2
  refine List.map_congr_left fun x hx => Function.update_of_ne ?_ _ _
  simpa using (List.mem_filter.mp hx).2

/-- The positions of booth `b` enabled one after another, with `k` more in all. -/
theorem State.portsMatch.enableAll {b : Nat} (hb : b ∈ allBooths) (k : Nat) {s : State} {n : Nat → Nat}
    (hi : s.portsMatch n) (hcanon : s.boothsCanonical) (hout : ∀ b, (b = 0 ∨ 24 < b) → n b = 0)
    (hsum : n b + k + ((allBooths.filter fun x => decide (x ≠ b)).map n).sum ≤ 64) (hle : n b + k ≤ 7) :
    ((List.range' (n b + 1) k).foldl (fun t d => enableDesk t b d) s).portsMatch (Function.update n b (n b + k)) := by
  induction k generalizing s n with
  | zero => simpa using hi
  | succ k ih =>
    have hself : Function.update n b (n b) = n := Function.update_eq_self b n
    have hlt : (allBooths.map n).sum < 64 := by
      rw [← hself, sum_map_update n hb]; omega
    have hnext := hi.enable hcanon.2.1 hout hlt (b := b) (by omega)
    have hfilter : ((allBooths.filter fun x => decide (x ≠ b)).map (Function.update n b (n b + 1))) =
        (allBooths.filter fun x => decide (x ≠ b)).map n :=
      List.map_congr_left fun x hx => Function.update_of_ne (by simpa using (List.mem_filter.mp hx).2) _ _
    have := ih (n := Function.update n b (n b + 1)) hnext
      (State.setDeskRecord_boothsCanonical (State.setDesk_boothsCanonical hcanon b _ _) b _ _)
      (fun x hx => by
        have hxb : x ≠ b := by rintro rfl; have := mem_allBooths.mp hb; omega
        rw [Function.update_of_ne hxb]; exact hout x hx)
      (by rw [hfilter, Function.update_self]; omega) (by rw [Function.update_self]; omega)
    rw [Function.update_self, Function.update_idem] at this
    rw [List.range'_succ, List.foldl_cons]
    convert this using 2
    omega

/-- The positions of a list disabled: they hold no port, and every other desk is kept (R38). -/
theorem desk_foldl_disableDesk {b x y : Nat} {l : List Nat} (hy : y ≤ 7) (hl : ∀ d ∈ l, d ≤ 7) (s : State) :
    (l.foldl (fun t d => disableDesk t b d) s).desk x y = if x = b ∧ y ∈ l then .disabled else s.desk x y := by
  induction l generalizing s with
  | nil => simp
  | cons d l ih =>
    rw [List.foldl_cons, ih (fun e he => hl e (List.mem_cons_of_mem _ he)),
      disableDesk_desk s b d x y (hl d (by simp)) hy]
    by_cases hx : x = b <;> by_cases hm : y ∈ l <;> by_cases hyd : y = d <;> simp [hx, hm, hyd]

/-- The positions of booth `b` above `m` disabled (R38). -/
theorem State.portsMatch.disable {s : State} {n : Nat → Nat} (hi : s.portsMatch n) {b m : Nat} {l : List Nat}
    (hl : ∀ d, d ∈ l ↔ m < d ∧ d ≤ n b) (hn : n b ≤ 7) (hm : m ≤ n b) :
    (l.foldl (fun t d => disableDesk t b d) s).portsMatch (Function.update n b m) := by
  obtain ⟨hport, hrange, hown⟩ := hi
  have hle : ∀ d ∈ l, d ≤ 7 := fun d hd => by have := (hl d).mp hd; omega
  have hheld : ∀ x y p, y ≤ 7 → ((l.foldl (fun t d => disableDesk t b d) s).desk x y).port = some p →
      (s.desk x y).port = some p := fun x y p hy h => by
    rw [desk_foldl_disableDesk hy hle] at h
    split at h
    exacts [(nomatch h), h]
  refine ⟨fun x y hy => ?_, fun x y p hy h => hrange x y p hy (hheld x y p hy h),
    fun x y x' y' p hy hy' h h' => hown x y x' y' p hy hy' (hheld x y p hy h) (hheld x' y' p hy' h')⟩
  rw [desk_foldl_disableDesk hy hle]
  by_cases hx : x = b
  · subst hx
    rw [Function.update_self]
    split
    · rename_i hd
      have := (hl y).mp hd.2
      simp only [Desk.disabled, ne_eq, not_true_eq_false, false_iff]
      omega
    · rename_i hd
      have : ¬(m < y ∧ y ≤ n x) := fun h => hd ⟨rfl, (hl y).mpr h⟩
      rw [hport x y hy]; omega
  · rw [Function.update_of_ne hx, if_neg fun h => hx h.1, hport x y hy]

/-- The positions enabled by a configuration that enables more follow on the old ones. -/
theorem enabling_eq {old new : BoothConfig} (h : new.enabled ≤ 4) :
    enabling old new = List.range' (old.enabled + 1) (new.enabled - old.enabled) := by
  have hall : ∀ a ≤ 4, ∀ c ≤ 4, (positions.filter fun d => decide (a < d ∧ d ≤ c)) = List.range' (a + 1) (c - a) := by
    decide
  by_cases ho : old.enabled ≤ 4
  · exact hall _ ho _ h
  · rw [show new.enabled - old.enabled = 0 by omega]
    refine List.filter_eq_nil_iff.mpr fun d hd => ?_
    have := mem_positions.mp hd
    simp; omega

/-- An accepted configuration leaves the ports in agreement with the enabled counts (R37, R38). -/
theorem State.portsMatch.config {s : State} (hi : s.portsMatch s.enabledOf) (hcanon : s.boothsCanonical)
    (hout : ∀ b, (b = 0 ∨ 24 < b) → s.enabledOf b = 0) {b : Nat} {c : BoothConfig} (hb : b ∈ allBooths)
    (hold : s.enabledOf b ≤ 4) (hc : c.enabled ≤ 4) (hsum : c.enabled + s.otherDesks b ≤ 64) :
    (withDesks s b c).portsMatch (Function.update s.enabledOf b c.enabled) := by
  have hset : (s.setConfig b c).portsMatch s.enabledOf := hi.congr fun _ _ _ => rfl
  have hsetCanon : (s.setConfig b c).boothsCanonical := ⟨Table.canonical_write _ _ b c hcanon.1, hcanon.2⟩
  have hnone : ∀ old new : BoothConfig, new.enabled ≤ old.enabled → enabling old new = [] := fun old new h =>
    List.filter_eq_nil_iff.mpr fun d _ => by simp; omega
  unfold withDesks
  rcases Nat.le_total c.enabled (s.enabledOf b) with hless | hmore
  · rw [hnone _ _ hless, List.foldl_nil]
    refine hset.disable (fun d => ?_) (by omega) hless
    rw [mem_enabling]
    have : s.enabledOf b = (s.config b).enabled := rfl
    omega
  · rw [hnone c _ hmore, List.foldl_nil, enabling_eq hc]
    have hsum' : s.enabledOf b + (c.enabled - s.enabledOf b) +
        ((allBooths.filter fun x => decide (x ≠ b)).map s.enabledOf).sum ≤ 64 := by
      have : s.otherDesks b = ((allBooths.filter fun x => decide (x ≠ b)).map s.enabledOf).sum := rfl
      omega
    have := hset.enableAll hb (c.enabled - s.enabledOf b) hsetCanon hout hsum' (by omega)
    rw [Nat.add_sub_cancel' hmore] at this
    exact this

theorem storeConfig_enabledOf (s : State) (b : Nat) (c : BoothConfig) :
    (storeConfig s b c).enabledOf = Function.update s.enabledOf b c.enabled := by
  funext x
  unfold State.enabledOf
  rw [storeConfig_config, Function.update_apply]
  split <;> rfl

theorem Change.keeps_portsAgree {s t : State} (h : Change s t) (hcanon : s.Canonical) (hvalues : s.valuesFit)
    (hi : s.portsAgree) : t.portsAgree := by
  have held : ∀ u : State, s.desksHeld u → u.config = s.config → u.portsAgree := fun u hdesk hconfig => by
    rw [State.portsAgree_iff] at hi ⊢
    have hen : u.enabledOf = s.enabledOf := by funext b; unfold State.enabledOf; rw [hconfig]
    rw [hen]
    exact ⟨hi.1.congr fun b d _ => (hdesk b d).2, hi.2⟩
  cases h with
  | desk b d k hsel hport => exact held _ (State.setDesk_desksHeld s b d k hsel hport) rfl
  | select b d x hon =>
    rw [State.portsAgree_iff] at hi ⊢
    refine ⟨hi.1.congr fun y z hz => ?_, hi.2⟩
    have hd : d ≤ 7 := by
      have hfour : (s.config b).enabled ≤ 4 := (hvalues.2.2.1 b).1
      simp only [State.enabled, Bool.and_eq_true, decide_eq_true_eq] at hon
      omega
    rw [State.desk_setDesk s b d y z _ hd hz]
    split
    · rename_i hyz; rw [hyz.1, hyz.2]
    · rfl
  | domain b p new =>
    exact held _ (setDomainState_desksHeld s b p new) (setDomainState_configs s b p new)
  | config b c h1 h24 hfit hfree =>
    rw [State.portsAgree_iff] at hi ⊢
    obtain ⟨hmatch, hout, -⟩ := hi
    obtain ⟨hsum, -⟩ := State.boothRefusal_none hfree
    have hb : b ∈ allBooths := mem_allBooths.mpr ⟨h1, h24⟩
    have hbooths : s.boothsCanonical := ⟨hcanon.configs, hcanon.desks, hcanon.domains, hcanon.turns, hcanon.records⟩
    rw [storeConfig_enabledOf]
    refine ⟨(hmatch.config hbooths hout hb (hvalues.2.2.1 b).1 hfit.1 hsum).congr fun x y _ => by
      rw [storeConfig_desk], fun x hx => ?_, ?_⟩
    · rw [Function.update_of_ne (by rintro rfl; omega)]; exact hout x hx
    · rw [sum_map_update _ hb]; exact hsum
  | _ => exact hi

/-- The ports are sound: what their agreement needs, and their agreement. -/
structure State.PortsSound (s : State) : Prop where
  tables : s.Canonical
  values : s.valuesFit
  ports : s.portsAgree

theorem Change.keeps_portsSound {s t : State} (h : Change s t) (hi : s.PortsSound) : t.PortsSound :=
  ⟨h.keeps_canonical hi.tables, h.keeps_valuesFit hi.values, h.keeps_portsAgree hi.tables hi.values hi.ports⟩

theorem reset_portsAgree : State.reset.portsAgree := by
  have hno : ∀ b d, State.reset.enabled b d = false := fun b d => by
    unfold State.enabled
    rw [show (State.reset.config b).enabled = 0 from rfl]
    simp only [Bool.and_eq_false_iff, decide_eq_false_iff_not]
    omega
  refine ⟨fun b d _ => ⟨fun _ => hno b d, fun _ => rfl⟩, fun _ _ _ _ h => (nomatch h), fun _ _ _ _ _ _ _ h => (nomatch h),
    fun _ _ => rfl, ?_⟩
  decide

theorem step_keeps_portsSound {s t : State} (h : step s = .next t) (hi : s.PortsSound) : t.PortsSound :=
  step_keeps (fun _ _ _ hi => ⟨{ hi.tables with }, hi.values, hi.ports⟩)
    (fun _ _ hi => ⟨{ hi.tables with }, hi.values, hi.ports⟩)
    (fun _ _ hi => ⟨{ hi.tables with }, hi.values, hi.ports⟩) Change.keeps_portsSound
    ⟨reset_canonical, reset_valuesFit, reset_portsAgree⟩ h hi

/-- Settles O57: the claims and the ports are kept by every edit a step can make. -/
theorem boothsStaySound : Obligations.BoothsStaySound := by
  unfold Obligations.BoothsStaySound
  refine ⟨fun s t hvalues hquiet hturns hclaims h => ?_, fun s t htables hvalues hports h => ?_⟩
  · have := step_keeps_boothsSound h ⟨hvalues, hquiet, hturns, hclaims⟩
    exact ⟨this.quiet, this.turns, this.claims⟩
  · exact (step_keeps_portsSound h ⟨s.tablesCanonical_iff.mp htables, hvalues, hports⟩).ports

end Sys2Proof.Machine
end

