-- ==== Sys2Proof/Proofs/PlanCommands.lean ====
section
/-! O11 to O13: WRITE_CHANNEL, READ_CHANNEL and SET_FLOOR_LANGUAGE, with the seven-byte coding of a plan entry. -/

namespace Sys2Proof.Machine

/-! ### Requests served -/

/-- A request that can be taken is answered with what its service says, in the state that its service leaves. -/
theorem takeRequest_served {s u : State} {f : Frame} {body : List Byte} {serve : State → Served} (h : s.canTake f)
    (hs : serve (s.reserve f) = (u, body)) : takeRequest s f serve = u.putReply f body := by
  rw [takeRequest_taken h, hs]

/-- A request served without a change is answered and no more. -/
theorem takeRequest_replied {s : State} {k tag : Byte} {b body : List Byte} {serve : State → Served}
    (h : s.canTake ⟨k, tag, b⟩) (hs : serve (s.reserve ⟨k, tag, b⟩) = (s.reserve ⟨k, tag, b⟩, body)) :
    takeRequest s ⟨k, tag, b⟩ serve = s.replied k tag body :=
  (takeRequest_served h hs).trans (reserve_putReply s k tag b body)

/-- A served request that ends in a settled event is answered, with the check following the event and its notices behind
the SOURCE_CHANGE notices. -/
theorem settleEvent_answersSettled {s u : State} {k tag : Byte} {b body : List Byte}
    (hlink : u.link = (s.reserve ⟨k, tag, b⟩).link) (hcheck : u.check = s.check) :
    s.answersSettled ((settleEvent (s.reserve ⟨k, tag, b⟩) [] [] u).putReply ⟨k, tag, b⟩ body) k tag body
      (sourceNotices s ((settleEvent (s.reserve ⟨k, tag, b⟩) [] [] u).putReply ⟨k, tag, b⟩ body)) := by
  obtain ⟨late, hfollow, hnotices⟩ := settleEvent_follows (s.reserve ⟨k, tag, b⟩) [] u hcheck
  rw [hlink] at hnotices
  exact ⟨late, hfollow, State.answeredWith_of hnotices⟩

/-- What raising notices behind a kept reply room leaves of the frame being sent: all of it. -/
theorem Link.foldl_raise_sending {l : Link} {q : Frame} (h : l.replyRoom = some q) (ns : List Notice) :
    (ns.foldl Link.raise l).sending = l.sending := by
  induction ns generalizing l with
  | nil => rfl
  | cons n ns ih =>
    have hroom : (l.enqueue n).replyRoom = some q := (l.enqueue_frame n).2.2.1.trans h
    rw [List.foldl_cons, Link.raise_room h, ih hroom, (l.enqueue_frame n).2.2.2.1]

/-- A served request whose event raised notices alone is answered. -/
theorem State.answers_of_raised {s x : State} {k tag : Byte} {b body : List Byte} {ns : List Notice}
    (h : x.link = ns.foldl Link.raise (s.reserve ⟨k, tag, b⟩).link) :
    s.answers (x.putReply ⟨k, tag, b⟩ body) k tag body := by
  refine State.answers_of ?_ ?_
  · rw [h, ← State.raiseAll_link_eq]; exact (State.raiseAll_link ns _).2.1
  · rw [h]; exact Link.foldl_raise_sending rfl ns

/-- A served request that ends in a settled event is answered. -/
theorem settleEvent_answers {s u : State} {k tag : Byte} {b body : List Byte} (before : State) (e l : List Notice)
    (hlink : u.link = (s.reserve ⟨k, tag, b⟩).link) :
    s.answers ((settleEvent before e l u).putReply ⟨k, tag, b⟩ body) k tag body := by
  have h : (settleEvent before e l u).link =
      (e ++ sourceNotices before (preemptCheck u).1.recompute ++ l ++ (preemptCheck u).2).foldl Link.raise
        (s.reserve ⟨k, tag, b⟩).link := by
    unfold settleEvent
    rw [State.raiseAll_link_eq, State.recompute_frame, preemptCheck_frame, ← hlink]
  exact State.answers_of_raised h

/-! ### SET_FLOOR_LANGUAGE (R12) -/

theorem exec_setFloorLanguage (tag : Byte) (body : List Byte) (s : State) :
    exec (.setFloorLanguage tag body) s = .next (takeRequest s ⟨0x12, tag, body⟩ (serveSetFloorLanguage body)) := rfl

theorem serveSetFloorLanguage_stored {n : Byte} (h : n.toNat ≤ 99) (s : State) :
    serveSetFloorLanguage [n] s =
      (settleEvent s [] [] { s with plan := { s.plan with floorLanguage := n.toNat } }, [0x00]) := if_pos h

theorem serveSetFloorLanguage_range {n : Byte} (h : 99 < n.toNat) (s : State) :
    serveSetFloorLanguage [n] s = (s, [0x03]) := if_neg (Nat.not_le.mpr h)

/-- Settles O13: the event of an accepted language, settled, and the refusal. -/
theorem setFloorLanguage : Obligations.SetFloorLanguage := by
  unfold Obligations.SetFloorLanguage
  intro tag n s h
  rw [exec_setFloorLanguage]
  refine ⟨fun hn => ?_, fun hn => ?_⟩
  · rw [takeRequest_served h (serveSetFloorLanguage_stored hn _)]
    refine ⟨_, rfl, ?_, settleEvent_settled _ _ _ _, ?_, ?_, ?_, ?_, ?_, settleEvent_answers _ _ _ rfl,
      settleEvent_answersSettled rfl rfl⟩ <;>
      simp [State.keepsFleet, State.keepsMoney, State.keepsRest, State.reserve]
  · rw [takeRequest_replied h (serveSetFloorLanguage_range hn _)]

/-! ### WRITE_CHANNEL (R4 to R10) -/

theorem pivotFits_iff (c : Nat) (e : PlanEntry) :
    pivotFits c e = true ↔ (e.fallback = .pivot ↔ e.pivot ≠ none) ∧ e.pivot ≠ some c := by
  unfold pivotFits
  cases e.fallback <;> cases e.pivot <;> simp

theorem State.languageFree_iff (s : State) (c : Nat) (e : PlanEntry) :
    s.languageFree c e = true ↔
      e.language = 0 ∨ ∀ d, 1 ≤ d → d ≤ 31 → d ≠ c → (s.planEntry d).language ≠ e.language := by
  unfold State.languageFree
  simp only [Bool.or_eq_true, decide_eq_true_eq, List.all_eq_true, mem_langChannels]
  refine or_congr_right ⟨fun h d h1 h31 hd => (h d ⟨h1, h31⟩).resolve_left hd, fun h d hd => ?_⟩
  by_cases hdc : d = c
  exacts [.inl hdc, .inr (h d hd.1 hd.2 hdc)]

theorem exec_writeChannel (tag : Byte) (body : List Byte) (s : State) :
    exec (.writeChannel tag body) s = .next (takeRequest s ⟨0x10, tag, body⟩ (serveWriteChannel body)) := rfl

theorem serveWriteChannel_uncoded {c l f g a k p : Byte} (h : channelWrite c l f g a k p = none) (s : State) :
    serveWriteChannel [c, l, f, g, a, k, p] s = (s, [0x03]) := by
  simp only [serveWriteChannel, h]; rfl

theorem serveWriteChannel_refused {c l f g a k p : Byte} {n : Nat} {e : PlanEntry} {s : State} {t : Status}
    (h : channelWrite c l f g a k p = some (n, e)) (ht : s.planRefusal n e = some t) :
    serveWriteChannel [c, l, f, g, a, k, p] s = (s, [t.code]) := by
  simp only [serveWriteChannel, h, ht]; rfl

theorem serveWriteChannel_stored {c l f g a k p : Byte} {n : Nat} {e : PlanEntry} {s : State}
    (h : channelWrite c l f g a k p = some (n, e)) (ht : s.planRefusal n e = none) :
    serveWriteChannel [c, l, f, g, a, k, p] s = (settleEvent s [] [] (s.setPlanEntry n e), [0x00]) := by
  simp only [serveWriteChannel, h, ht]; rfl

/-- An accepted WRITE_CHANNEL (R4, R5, R10). -/
theorem writeChannel_stored {tag c l f g a k p : Byte} {n : Nat} {e : PlanEntry} {s : State}
    (h : s.canTake ⟨0x10, tag, [c, l, f, g, a, k, p]⟩) (hw : channelWrite c l f g a k p = some (n, e))
    (hfree : s.planRefusal n e = none) :
    ∃ t, exec (.writeChannel tag [c, l, f, g, a, k, p]) s = .next t ∧ t.planEntry n = e ∧
       (∀ d, d ≠ n → t.planEntry d = s.planEntry d) ∧
       (t.plan.floorLanguage = s.plan.floorLanguage ∧ t.plan.hall = s.plan.hall) ∧ t.sourcesSettled ∧
       (t.arbiter.announcements = s.arbiter.announcements ∧ t.arbiter.inputOne = s.arbiter.inputOne ∧
         t.arbiter.inputTwo = s.arbiter.inputTwo ∧ t.arbiter.relays = s.arbiter.relays) ∧
       (t.booths = s.booths ∧ t.turns = s.turns) ∧ s.keepsFleet t ∧ s.keepsMoney t ∧ s.keepsRest t ∧
       s.answers t 0x10 tag [0x00] ∧
       s.answersSettled t 0x10 tag [0x00] (sourceNotices s t) := by
  have hn : n ≠ 0 := by
    obtain ⟨⟨h1, -⟩, -⟩ := channelWrite_eq hw
    omega
  rw [exec_writeChannel, takeRequest_served h (serveWriteChannel_stored hw hfree)]
  have hentry : ∀ d, ((settleEvent (s.reserve ⟨0x10, tag, [c, l, f, g, a, k, p]⟩) [] []
      ((s.reserve ⟨0x10, tag, [c, l, f, g, a, k, p]⟩).setPlanEntry n e)).putReply ⟨0x10, tag, [c, l, f, g, a, k, p]⟩
        [0x00]).planEntry d = if d = n then e else s.planEntry d := fun d => by
    rw [← State.planEntry_setPlanEntry s n d e hn, settleEvent_frame]
    rfl
  refine ⟨_, rfl, (hentry n).trans (if_pos rfl), fun d hd => (hentry d).trans (if_neg hd), ?_,
    settleEvent_settled _ _ _ _, ?_, ?_, ?_, ?_, ?_, settleEvent_answers _ _ _ rfl, settleEvent_answersSettled rfl rfl⟩ <;>
    simp [State.keepsFleet, State.keepsMoney, State.keepsRest, State.reserve]

/-- A WRITE_CHANNEL refused by a check of R5 changes nothing. -/
theorem writeChannel_refused {tag c l f g a k p : Byte} {n : Nat} {e : PlanEntry} {s : State} {t : Status}
    (h : s.canTake ⟨0x10, tag, [c, l, f, g, a, k, p]⟩) (hw : channelWrite c l f g a k p = some (n, e))
    (ht : s.planRefusal n e = some t) :
    exec (.writeChannel tag [c, l, f, g, a, k, p]) s = .next (s.replied 0x10 tag [t.code]) := by
  rw [exec_writeChannel, takeRequest_replied h (serveWriteChannel_refused hw ht)]

/-- Settles O11: the event of an accepted entry, settled, and the refusals in the order of R5. -/
theorem writeChannel : Obligations.WriteChannel := by
  unfold Obligations.WriteChannel
  refine ⟨fun tag c l f g a k p n e s h hw hpivot hself hlang hnodup hout hleave => ?_, fun tag c l f g a k p s h => ?_⟩
  · refine writeChannel_stored h hw ((s.planRefusal_none_iff n e).mpr ⟨?_, ?_, ?_, ?_⟩)
    · exact (pivotFits_iff n e).mpr ⟨hpivot, hself⟩
    · exact (s.languageFree_iff n e).mpr hlang
    · exact (s.outputsFree_iff n e).mpr ⟨hnodup, fun d h1 h31 hd o => hout d o h1 h31 hd⟩
    · exact (s.nothingLeaves_iff n e).mpr hleave
  · refine ⟨fun hw => by rw [exec_writeChannel, takeRequest_replied h (serveWriteChannel_uncoded hw _)], fun n e hw => ?_⟩
    refine ⟨fun hpivot => ?_, fun hpivot hself => ⟨?_, fun hlang => ⟨?_, ?_⟩⟩⟩
    · rw [← pivotFits_iff] at hpivot
      exact writeChannel_refused (t := .range) h hw (by simp [State.planRefusal, hpivot])
    · rintro ⟨d, h1, h31, hd, hzero, hsame⟩
      have hfits := (pivotFits_iff n e).mpr ⟨hpivot, hself⟩
      have hlang : ¬ s.languageFree n e = true := by
        rw [State.languageFree_iff]
        rintro (h0 | hall)
        exacts [hzero h0, hall d h1 h31 hd hsame]
      exact writeChannel_refused (t := .duplicate) h hw (by simp [State.planRefusal, hfits, hlang])
    · intro hout
      have hfits := (pivotFits_iff n e).mpr ⟨hpivot, hself⟩
      have hlang := (s.languageFree_iff n e).mpr hlang
      have hnot : ¬ s.outputsFree n e = true := by
        rw [State.outputsFree_iff]
        rintro ⟨hnodup, hall⟩
        rcases hout with hout | ⟨d, o, h1, h31, hd, ho, hmem⟩
        exacts [hout hnodup, hall d h1 h31 hd o ho hmem]
      exact writeChannel_refused (t := .conflict) h hw (by simp [State.planRefusal, hfits, hlang, hnot])
    · rintro hnodup hout hs ⟨o, ho, hleft, hclaimed⟩
      have hfits := (pivotFits_iff n e).mpr ⟨hpivot, hself⟩
      have hlang := (s.languageFree_iff n e).mpr hlang
      have hfree := (s.outputsFree_iff n e).mpr ⟨hnodup, fun d h1 h31 hd o => hout d o h1 h31 hd⟩
      have hnot : ¬ s.nothingLeaves n e = true := by
        rw [State.nothingLeaves_iff, hs]
        rintro (h0 | hall)
        · cases h0
        · rcases hall o ho with h1 | h1
          exacts [hleft h1, by rw [hclaimed] at h1; cases h1]
      exact writeChannel_refused (t := .inUse) h hw (by simp [State.planRefusal, hfits, hlang, hfree, hnot])

end Sys2Proof.Machine
end

