-- ==== Sys2Proof/Proofs/PlanCoding.lean ====
section
/-! O12: the seven-byte coding of a plan entry loses nothing, and READ_CHANNEL answers with it. -/

namespace Sys2Proof.Machine

/-! ### Single values -/

theorem byteOf_toNat_of_lt {n : Nat} (h : n < 256) : (byteOf n).toNat = n :=
  (byteOf_toNat n).trans (Nat.mod_eq_of_lt h)

theorem eq_zero_iff_toNat (b : Byte) : b = 0 ↔ b.toNat = 0 := BitVec.toNat_inj.symm

/-- An output is coded and read back as itself (R175). -/
theorem outputOfByte_outputByte {o : Option BoothOutput} (h : ∀ x, o = some x → 1 ≤ x.booth ∧ x.booth ≤ 24) :
    outputOfByte (outputByte o) = some o := by
  cases o with
  | none => rfl
  | some x =>
    obtain ⟨b, p⟩ := x
    have hb : 1 ≤ b ∧ b ≤ 24 := h _ rfl
    have hside : sideIndex p ≤ 1 := by cases p <;> decide
    have hbyte : (outputByte (some ⟨b, p⟩)).toNat = b * 8 + sideIndex p + 1 :=
      byteOf_toNat_of_lt (show b * 8 + sideIndex p + 1 < 256 by omega)
    unfold outputOfByte
    rw [if_neg (by rw [eq_zero_iff_toNat, hbyte]; omega), hbyte]
    cases p
    · have hdiv : (b * 8 + 0 + 1) / 8 = b := by omega
      have hmod : (b * 8 + 0 + 1) % 8 = 1 := by omega
      simp [sideIndex, hdiv, hmod, hb.1, hb.2]
    · have hdiv : (b * 8 + 1 + 1) / 8 = b := by omega
      have hmod : (b * 8 + 1 + 1) % 8 = 2 := by omega
      simp [sideIndex, hdiv, hmod, hb.1, hb.2]

/-- A byte that codes an output is the byte of that output (R175). -/
theorem outputByte_of_outputOfByte {b : Byte} {o : Option BoothOutput} (h : outputOfByte b = some o) :
    outputByte o = b := by
  have back : ∀ p, b.toNat % 8 = sideIndex p + 1 → outputByte (some ⟨b.toNat / 8, p⟩) = b := fun p hp => by
    rw [← byteOf_of_toNat b]
    refine congrArg byteOf ?_
    rw [byteOf_of_toNat]
    dsimp only
    omega
  unfold outputOfByte at h
  dsimp only at h
  split at h
  · rename_i hb; obtain rfl := Option.some.inj h; exact hb.symm
  · split at h
    · split at h
      · rename_i hp; obtain rfl := Option.some.inj h; exact back .a hp
      · split at h
        · rename_i hp; obtain rfl := Option.some.inj h; exact back .b hp
        · cases h
    · cases h

theorem fallbackOfByte_fallbackCode (k : Fallback) : fallbackOfByte (fallbackCode k) = some k := by
  cases k <;> rfl

theorem fallbackCode_of_fallbackOfByte {b : Byte} {k : Fallback} (h : fallbackOfByte b = some k) : fallbackCode k = b := by
  unfold fallbackOfByte at h
  split at h
  · rename_i hb; obtain rfl := Option.some.inj h; exact hb.symm
  · split at h
    · rename_i hb; obtain rfl := Option.some.inj h; exact hb.symm
    · split at h
      · rename_i hb; obtain rfl := Option.some.inj h; exact hb.symm
      · cases h

theorem yesNoOfByte_flagByte (a : Bool) : yesNoOfByte (flagByte a) = some a := by cases a <;> rfl

theorem flagByte_of_yesNoOfByte {b : Byte} {a : Bool} (h : yesNoOfByte b = some a) : flagByte a = b := by
  unfold yesNoOfByte at h
  split at h
  · rename_i hb; obtain rfl := Option.some.inj h; exact hb.symm
  · split at h
    · rename_i hb; obtain rfl := Option.some.inj h; exact hb.symm
    · cases h

/-- A pivot channel is coded and read back as itself (R175). -/
theorem pivotOfByte_byteOf {q : Option Nat} (h : ∀ p, q = some p → 1 ≤ p ∧ p ≤ 31) :
    pivotOfByte (byteOf (q.getD 0)) = some q := by
  cases q with
  | none => rfl
  | some p =>
    obtain ⟨h1, h31⟩ := h p rfl
    have hp : (byteOf p).toNat = p := byteOf_toNat_of_lt (by omega)
    unfold pivotOfByte
    rw [Option.getD_some, if_neg (by rw [eq_zero_iff_toNat, hp]; omega), hp, if_pos h31]

/-- A byte that codes a pivot channel is the byte of that channel (R175). -/
theorem byteOf_of_pivotOfByte {b : Byte} {q : Option Nat} (h : pivotOfByte b = some q) : byteOf (q.getD 0) = b := by
  cases q with
  | none =>
    unfold pivotOfByte at h
    split at h
    · rename_i hb; exact hb.symm
    · split at h <;> cases h
  | some p =>
    obtain ⟨rfl, -⟩ := pivotOfByte_range h
    exact byteOf_of_toNat b

/-! ### The seven bytes (R175) -/

/-- An entry in range is coded and read back as itself. -/
theorem channelWrite_planEntryBytes {c : Nat} {e : PlanEntry} (h1 : 1 ≤ c) (h31 : c ≤ 31) (h : e.fits) :
    channelWrite (byteOf c) (byteOf e.language) (outputByte e.first) (outputByte e.second) (flagByte e.autofloor)
      (fallbackCode e.fallback) (byteOf (e.pivot.getD 0)) = some (c, e) := by
  obtain ⟨hlang, hout, hpivot⟩ := h
  have hc : (byteOf c).toNat = c := byteOf_toNat_of_lt (by omega)
  have hl : (byteOf e.language).toNat = e.language := byteOf_toNat_of_lt (by omega)
  have hfirst := outputOfByte_outputByte (o := e.first) fun x hx => hout x (by simp [PlanEntry.outputs, hx])
  have hsecond := outputOfByte_outputByte (o := e.second) fun x hx => hout x (by simp [PlanEntry.outputs, hx])
  unfold channelWrite
  rw [hc, hl, if_pos ⟨h1, h31, hlang⟩, hfirst, hsecond, yesNoOfByte_flagByte, fallbackOfByte_fallbackCode,
    pivotOfByte_byteOf hpivot]

/-- Bytes that code an entry are the bytes of that entry. -/
theorem planEntryBytes_of_channelWrite {c l f g a k p : Byte} {n : Nat} {e : PlanEntry}
    (h : channelWrite c l f g a k p = some (n, e)) : planEntryBytes n e = [c, l, f, g, a, k, p] := by
  obtain ⟨-, rfl, hl, hf, hg, ha, hk, hp⟩ := channelWrite_eq h
  unfold planEntryBytes
  rw [byteOf_of_toNat, hl, byteOf_of_toNat, outputByte_of_outputOfByte hf, outputByte_of_outputOfByte hg,
    flagByte_of_yesNoOfByte ha, fallbackCode_of_fallbackOfByte hk, byteOf_of_pivotOfByte hp]

/-! ### READ_CHANNEL (R11) -/

theorem exec_readChannel (tag : Byte) (body : List Byte) (s : State) :
    exec (.readChannel tag body) s = .next (takeRequest s ⟨0x11, tag, body⟩ (serveReadChannel body)) := rfl

theorem serveReadChannel_entry {c : Byte} (h : c.toNat ≤ 31) (s : State) :
    serveReadChannel [c] s = (s, 0x00 :: planEntryBytes c.toNat (s.planEntry c.toNat)) := if_pos h

theorem serveReadChannel_range {c : Byte} (h : 31 < c.toNat) (s : State) : serveReadChannel [c] s = (s, [0x03]) :=
  if_neg (Nat.not_le.mpr h)

/-- Settles O12: the coding written out is `planEntryBytes`, which `channelWrite` inverts. -/
theorem readChannel : Obligations.ReadChannel := by
  unfold Obligations.ReadChannel
  intro out code hout hcode
  have hout' : out = outputByte := by
    rw [hout]; funext o
    rcases o with _ | ⟨b, _ | _⟩ <;> rfl
  have hcode' : code = planEntryBytes := by
    rw [hcode, hout']; funext c e
    unfold planEntryBytes flagByte fallbackCode byteOf
    cases e.fallback <;> cases e.pivot <;> rfl
  subst hout' hcode'
  refine ⟨⟨fun c e h1 h31 hlang hbooths hpivot => ?_, fun c l f g a k p n e h => planEntryBytes_of_channelWrite h,
    by decide, by decide, by decide⟩, fun tag c s h => ⟨fun hc => ?_, fun hc => ?_, rfl⟩⟩
  · exact ⟨_, _, _, _, _, _, _, rfl, channelWrite_planEntryBytes h1 h31 ⟨hlang, hbooths, hpivot⟩⟩
  · rw [exec_readChannel, takeRequest_replied h (serveReadChannel_entry hc _)]
    rfl
  · rw [exec_readChannel, takeRequest_replied h (serveReadChannel_range hc _)]

end Sys2Proof.Machine
end

