-- ==== Sys2Proof/Proofs/QuietBooths.lean ====
section
/-! What quieting every booth does to desks, turns and records: one domain, then both domains of a booth, then every
booth (R15, R16). -/

namespace Sys2Proof.Machine

/-! ### Frames -/

theorem flash_boothsAlone (s : State) (b d : Nat) : s.boothsAlone (flash s b d) := by
  unfold flash
  split
  exacts [.refl s, ⟨_, _, rfl⟩]

theorem idleDomain_boothsAlone (s : State) (b : Nat) (p : Side) : s.boothsAlone (idleDomain s b p) := by
  unfold idleDomain
  split
  · exact (setDomainState_boothsAlone s b p .idle).trans (flash_boothsAlone _ b _)
  · exact setDomainState_boothsAlone s b p .idle

theorem idleAll_boothsAlone (s : State) : s.boothsAlone (idleAll s) := by
  unfold idleAll
  generalize domainPlaces = ps
  exact State.boothsAlone.foldl (fun t p => idleDomain_boothsAlone t p.1 p.2) ps s

theorem flash_desksHeld (s : State) (b d : Nat) : s.desksHeld (flash s b d) := by
  unfold flash
  split
  · exact fun _ _ => ⟨rfl, rfl⟩
  · exact State.setDesk_desksHeld s b d { s.desk b d with flash := true } rfl rfl

theorem idleDomain_desksHeld (s : State) (b : Nat) (p : Side) : s.desksHeld (idleDomain s b p) := by
  unfold idleDomain
  split
  · exact (setDomainState_desksHeld s b p .idle).trans (flash_desksHeld _ b _)
  · exact setDomainState_desksHeld s b p .idle

theorem idleAll_desksHeld (s : State) : s.desksHeld (idleAll s) := by
  unfold idleAll
  generalize domainPlaces = ps
  exact List.foldlRecOn (motive := fun t => s.desksHeld t) ps _ (fun _ _ => ⟨rfl, rfl⟩)
    fun t ht p _ => ht.trans (idleDomain_desksHeld t p.1 p.2)

theorem flash_configs (s : State) (b d : Nat) : (flash s b d).booths.configs = s.booths.configs := by
  unfold flash; split <;> rfl

theorem idleDomain_configs (s : State) (b : Nat) (p : Side) : (idleDomain s b p).booths.configs = s.booths.configs := by
  have hset : (setDomainState s b p .idle).booths.configs = s.booths.configs := by rw [setDomainState_frame]
  unfold idleDomain
  split
  exacts [(flash_configs _ _ _).trans hset, hset]

theorem idleAll_configs (s : State) : (idleAll s).booths.configs = s.booths.configs := by
  unfold idleAll
  generalize domainPlaces = ps
  exact List.foldlRecOn (motive := fun t => t.booths.configs = s.booths.configs) ps _ rfl
    fun t ht p _ => (idleDomain_configs t p.1 p.2).trans ht

/-! ### One domain -/

theorem flash_turns (s : State) (b d : Nat) : (flash s b d).turns = s.turns := by
  unfold flash; split <;> rfl

theorem idleDomain_turns (s : State) (b : Nat) (p : Side) :
    (idleDomain s b p).turns = (turnChange (s.setDomain b p .idle) b p (s.domain b p).liveDesk none).turns := by
  unfold idleDomain
  split
  · rw [flash_turns]; exact setDomainState_turns s b p .idle
  · exact setDomainState_turns s b p .idle

/-- The turns after a domain has become IDLE: its own has ended. -/
theorem idleDomain_turn (s : State) (b : Nat) (p : Side) (x : Nat) (q : Side) :
    (idleDomain s b p).turn x q =
      if (x = b ∧ q = p) ∧ (s.domain x q).liveDesk ≠ none then .idle else s.turn x q := by
  have hturn : (idleDomain s b p).turn x q =
      (turnChange (s.setDomain b p .idle) b p (s.domain b p).liveDesk none).turn x q := by
    unfold State.turn; rw [idleDomain_turns]
  rw [hturn]
  by_cases hlive : (s.domain b p).liveDesk = none
  · rw [hlive, turnChange_same, if_neg]
    · rfl
    · rintro ⟨⟨rfl, rfl⟩, h⟩; exact h hlive
  · rw [turnChange_turn _ _ _ _ _ hlive]
    by_cases hx : x = b ∧ q = p
    · obtain ⟨rfl, rfl⟩ := hx
      rw [if_pos ⟨rfl, rfl⟩, if_pos ⟨⟨rfl, rfl⟩, hlive⟩]; rfl
    · rw [if_neg hx, if_neg fun h => hx h.1]; rfl

/-- The desk records of the booth after a domain has become IDLE: its live desk's turn has ended in the longest turn. -/
theorem idleDomain_deskRecord (s : State) (b : Nat) (p : Side) (y : Nat) :
    (idleDomain s b p).deskRecord b y = { s.deskRecord b y with
      longestTurn := max (s.deskRecord b y).longestTurn
        (if (s.domain b p).liveDesk = some y then (s.turn b p).counter else 0) } := by
  have hrec : (idleDomain s b p).deskRecord b y =
      (turnChange (s.setDomain b p .idle) b p (s.domain b p).liveDesk none).deskRecord b y := by
    unfold State.deskRecord; rw [idleDomain_turns]
  have hkept : (s.setDomain b p .idle).deskRecord b y = s.deskRecord b y ∧
      (s.setDomain b p .idle).turn b p = s.turn b p := ⟨rfl, rfl⟩
  rw [hrec]
  by_cases hlive : (s.domain b p).liveDesk = none
  · rw [hlive, turnChange_same]; simp [hkept]
  · rw [turnChange_deskRecord_booth _ _ _ _ _ hlive]
    by_cases hy : (s.domain b p).liveDesk = some y <;> simp [hy, hkept]

theorem flash_desk_booth (s : State) (b e y : Nat) :
    (flash s b e).desk b y = { s.desk b y with
      flash := (s.desk b y).flash || (decide (e = y) && decide ((s.unit b).state ≠ .lost)) } := by
  unfold flash
  split
  · rename_i h; simp [h]
  · rename_i h
    rw [State.desk_setDesk_booth]
    by_cases hy : y = e
    · subst hy; simp [h]
    · simp [hy, Ne.symm hy]

/-- The desks of the booth after a domain has become IDLE: its live desk has lost the cough flag, and its requester is
flashed, unless the console is LOST. -/
theorem idleDomain_desk (s : State) (b : Nat) (p : Side) (y : Nat) :
    (idleDomain s b p).desk b y = { s.desk b y with
      cough := (s.desk b y).cough && !decide ((s.domain b p).liveDesk = some y)
      flash := (s.desk b y).flash ||
        (decide ((s.domain b p).requester = some y) && decide ((s.unit b).state ≠ .lost)) } := by
  have hset : (setDomainState s b p .idle).desk b y =
      { s.desk b y with cough := (s.desk b y).cough && !decide ((s.domain b p).liveDesk = some y) } := by
    rw [setDomainState_desk_booth, show Domain.idle.liveDesk = none from rfl]
    by_cases hy : (s.domain b p).liveDesk = some y <;> simp [hy]
  have hunit : (setDomainState s b p .idle).unit b = s.unit b := by rw [setDomainState_frame]; rfl
  unfold idleDomain
  split
  · rename_i e he
    rw [flash_desk_booth, hset, hunit, he]
    simp
  · rename_i he
    rw [hset, he]
    simp

/-- The desks that domain `m` names are desk positions. -/
def Domain.within (m : Domain) : Prop := ∀ d, m.liveDesk = some d ∨ m.requester = some d → d ≤ 4

/-- The desks and records of another booth are kept as a domain becomes IDLE. -/
theorem idleDomain_other {s : State} {b : Nat} {p : Side} (hw : (s.domain b p).within) {x y : Nat} (hx : x ≠ b)
    (hy : y ≤ 7) :
    (idleDomain s b p).desk x y = s.desk x y ∧ (idleDomain s b p).deskRecord x y = s.deskRecord x y := by
  have hlive : ∀ d, (s.domain b p).liveDesk = some d → d ≤ 7 := fun d hd => (hw d (.inl hd)).trans (by omega)
  have hset : (setDomainState s b p .idle).desk x y = s.desk x y :=
    setDomainState_desk_ne s b p .idle hlive nofun hy hx
  refine ⟨?_, ?_⟩
  · unfold idleDomain
    split
    · rename_i e he
      have he4 := hw e (.inr he)
      unfold flash
      split
      · exact hset
      · rw [State.desk_setDesk _ b e x y _ (by omega) hy, if_neg fun h => hx h.1, hset]
    · exact hset
  · have hrec : (idleDomain s b p).deskRecord x y =
        (turnChange (s.setDomain b p .idle) b p (s.domain b p).liveDesk none).deskRecord x y := by
      unfold State.deskRecord; rw [idleDomain_turns]
    rw [hrec, turnChange_deskRecord_ne _ b p _ none hlive nofun hy hx]
    rfl

/-! ### One booth -/

/-- Both domains of a booth become IDLE. -/
def idleBooth (s : State) (b : Nat) : State := idleDomain (idleDomain s b .a) b .b

theorem idleAll_eq (s : State) : idleAll s = allBooths.foldl idleBooth s := by
  unfold idleAll domainPlaces
  rw [List.foldl_flatMap]
  rfl

/-- Whether the domain at a place of booth `b` names desk `d` as live. -/
def State.livesIn (s : State) (b d : Nat) (p : Side) : Bool := decide ((s.domain b p).liveDesk = some d)

/-- Whether the domain at a place of booth `b` names desk `d` as requesting. -/
def State.asksIn (s : State) (b d : Nat) (p : Side) : Bool := decide ((s.domain b p).requester = some d)

/-- How long the turn of desk `d` in the domain at a place of booth `b` has run, 0 where it is not live there. -/
def State.runIn (s : State) (b d : Nat) (p : Side) : Nat := if s.livesIn b d p = true then (s.turn b p).counter else 0

/-- What a desk holds after its booth has been quieted (R41, R54). -/
def State.quietDesk (s : State) (b d : Nat) : Desk :=
  { s.desk b d with
    cough := (s.desk b d).cough && !(s.livesIn b d .a || s.livesIn b d .b)
    flash := (s.desk b d).flash ||
      ((s.asksIn b d .a || s.asksIn b d .b) && decide ((s.unit b).state ≠ .lost)) }

/-- What a desk's record holds after its booth has been quieted (R62, R69). -/
def State.quietRecord (s : State) (b d : Nat) : DeskRecord :=
  { s.deskRecord b d with
    longestTurn := max (max (s.deskRecord b d).longestTurn (s.runIn b d .a)) (s.runIn b d .b) }

theorem idleBooth_quiet (s : State) (b y : Nat) :
    (idleBooth s b).desk b y = s.quietDesk b y ∧ (idleBooth s b).deskRecord b y = s.quietRecord b y := by
  have hdomain : (idleDomain s b .a).domain b .b = s.domain b .b := by
    rw [idleDomain_domain, if_neg (by simp)]
  have hturn : (idleDomain s b .a).turn b .b = s.turn b .b := by
    rw [idleDomain_turn, if_neg (by simp)]
  have hunit : (idleDomain s b .a).unit b = s.unit b := by
    obtain ⟨x, z, h⟩ := idleDomain_boothsAlone s b .a
    rw [h]; rfl
  unfold idleBooth
  refine ⟨?_, ?_⟩
  · rw [idleDomain_desk, idleDomain_desk, hdomain, hunit]
    unfold State.quietDesk State.livesIn State.asksIn
    simp only [Bool.not_or, Bool.and_assoc, Bool.or_assoc, Bool.and_or_distrib_right]
  · rw [idleDomain_deskRecord, idleDomain_deskRecord, hdomain, hturn]
    unfold State.quietRecord State.runIn State.livesIn
    simp only [decide_eq_true_eq]

/-! ### Every booth -/

/-- Booth `x` stands in `t` as in `s`: its domains, turns, desks and records, and its console. -/
def State.boothKept (s t : State) (x : Nat) : Prop :=
  (∀ q, t.domain x q = s.domain x q ∧ t.turn x q = s.turn x q) ∧
    (∀ y, y ≤ 7 → t.desk x y = s.desk x y ∧ t.deskRecord x y = s.deskRecord x y) ∧ t.unit x = s.unit x

theorem State.boothKept.trans {s t u : State} {x : Nat} (h : s.boothKept t x) (k : t.boothKept u x) : s.boothKept u x :=
  ⟨fun q => ⟨(k.1 q).1.trans (h.1 q).1, (k.1 q).2.trans (h.1 q).2⟩,
    fun y hy => ⟨(k.2.1 y hy).1.trans (h.2.1 y hy).1, (k.2.1 y hy).2.trans (h.2.1 y hy).2⟩, k.2.2.trans h.2.2⟩

/-- What quieting makes of a desk depends on its booth alone. -/
theorem State.boothKept.quiet {s t : State} {x : Nat} (h : s.boothKept t x) {y : Nat} (hy : y ≤ 7) :
    t.quietDesk x y = s.quietDesk x y ∧ t.quietRecord x y = s.quietRecord x y := by
  obtain ⟨hplaces, hdesks, hunit⟩ := h
  unfold State.quietDesk State.quietRecord State.runIn State.asksIn State.livesIn
  simp only [hplaces, hdesks y hy, hunit, and_self]

theorem idleDomain_boothKept {s : State} {b : Nat} {p : Side} (hw : (s.domain b p).within) {x : Nat} (hx : x ≠ b) :
    s.boothKept (idleDomain s b p) x := by
  refine ⟨fun q => ⟨?_, ?_⟩, fun y hy => idleDomain_other hw hx hy, ?_⟩
  · rw [idleDomain_domain, if_neg fun h => hx h.1]
  · rw [idleDomain_turn, if_neg fun h => hx h.1.1]
  · obtain ⟨y, z, h⟩ := idleDomain_boothsAlone s b p
    rw [h]; rfl

theorem idleBooth_boothKept {s : State} {b : Nat} (hw : ∀ p, (s.domain b p).within) {x : Nat} (hx : x ≠ b) :
    s.boothKept (idleBooth s b) x := by
  refine (idleDomain_boothKept (hw .a) hx).trans (idleDomain_boothKept ?_ hx)
  rw [idleDomain_domain, if_neg (by simp)]
  exact hw .b

/-- The booths of a list quieted, one after another: these are quiet, and every other booth is kept. -/
theorem foldl_idleBooth {bs : List Nat} (hnodup : bs.Nodup) {s : State} (hw : ∀ b ∈ bs, ∀ p, (s.domain b p).within)
    {x y : Nat} (hy : y ≤ 7) :
    (x ∉ bs → s.boothKept (bs.foldl idleBooth s) x) ∧
      (x ∈ bs → (bs.foldl idleBooth s).desk x y = s.quietDesk x y ∧
        (bs.foldl idleBooth s).deskRecord x y = s.quietRecord x y) := by
  induction bs generalizing s with
  | nil => exact ⟨fun _ => ⟨fun _ => ⟨rfl, rfl⟩, fun _ _ => ⟨rfl, rfl⟩, rfl⟩, fun h => absurd h List.not_mem_nil⟩
  | cons b bs ih =>
    obtain ⟨hnot, hnodup⟩ := List.nodup_cons.mp hnodup
    have hb := hw b List.mem_cons_self
    have hrest : ∀ c ∈ bs, ∀ p, ((idleBooth s b).domain c p).within := fun c hc p => by
      rw [((idleBooth_boothKept hb fun h => hnot (h ▸ hc)).1 p).1]
      exact hw c (List.mem_cons_of_mem _ hc) p
    obtain ⟨hkept, hquiet⟩ := ih hnodup hrest
    rw [List.foldl_cons]
    refine ⟨fun hx => ?_, fun hx => ?_⟩
    · rw [List.mem_cons, not_or] at hx
      exact (idleBooth_boothKept hb hx.1).trans (hkept hx.2)
    · by_cases hxb : x = b
      · subst hxb
        obtain ⟨hdesk, hrec⟩ := (hkept hnot).2.1 y hy
        obtain ⟨hdesk', hrec'⟩ := idleBooth_quiet s x y
        exact ⟨hdesk.trans hdesk', hrec.trans hrec'⟩
      · obtain ⟨hdesk, hrec⟩ := hquiet ((List.mem_cons.mp hx).resolve_left hxb)
        obtain ⟨hdesk', hrec'⟩ := (idleBooth_boothKept hb hxb).quiet hy
        exact ⟨hdesk.trans hdesk', hrec.trans hrec'⟩

/-- The turns after those of a list of places have become IDLE. -/
theorem idlePlaces_turn (ps : List (Nat × Side)) (s : State) (x : Nat) (q : Side) :
    (ps.foldl (fun t p => idleDomain t p.1 p.2) s).turn x q =
      if (x, q) ∈ ps ∧ (s.domain x q).liveDesk ≠ none then .idle else s.turn x q := by
  induction ps generalizing s with
  | nil => simp
  | cons p ps ih =>
    obtain ⟨b, y⟩ := p
    rw [List.foldl_cons, ih, idleDomain_domain, idleDomain_turn]
    by_cases hx : x = b ∧ q = y
    · obtain ⟨rfl, rfl⟩ := hx
      simp [Domain.liveDesk]
    · have hne : (x, q) ≠ (b, y) := fun h => hx (Prod.mk.inj h)
      simp [hx, hne]

/-- Quieting every booth does what R15 says of desks, turns and records. -/
theorem idleAll_boothsQuieted (s : State) : s.boothsQuieted (idleAll s) := by
  refine ⟨fun b p h1 h24 => ⟨idleAll_domain s h1 h24 p, fun hturns => ?_⟩, idleAll_configs s, fun hnames b d hd => ?_⟩
  · have hm := (mem_domainPlaces b p).mpr ⟨h1, h24⟩
    unfold idleAll
    rw [idlePlaces_turn]
    split
    · rfl
    · rename_i hlive
      exact hturns b p (by simpa [hm] using hlive)
  · have hw : ∀ c ∈ allBooths, ∀ p, (s.domain c p).within := fun c hc p e he =>
      hnames c p e (mem_allBooths.mp hc).1 (mem_allBooths.mp hc).2 he
    obtain ⟨hkept, hquiet⟩ := foldl_idleBooth (x := b) List.nodup_range' hw hd
    rw [idleAll_eq]
    refine ⟨fun hb => (hkept fun hm => ?_).2.1 d hd, fun lives asks runs h1 h24 hlives hasks hruns => ?_⟩
    · have := mem_allBooths.mp hm; omega
    · subst hlives hasks hruns
      exact hquiet (mem_allBooths.mpr ⟨h1, h24⟩)

end Sys2Proof.Machine
end

