-- ==== Sys2Proof/Proofs/HallCommands.lean ====
section
/-! O9 and O10: OPEN_SESSION, CLOSE_SESSION and RESET_AUDIO. -/

namespace Sys2Proof.Machine

/-! ### A hall that falls quiet -/

/-- What a quieted hall holds: the booths and turns of the quieted domains, SETUP, and no announcement; all else is
kept. -/
theorem quietHall_frame (s : State) :
    quietHall s = { s with
      booths := (idleAll s).booths
      turns := (idleAll s).turns
      plan := { s.plan with hall := .setup }
      arbiter := { s.arbiter with announcements := [], inputOne := none, inputTwo := none } } := by
  obtain ⟨x, y, h⟩ := idleAll_boothsAlone s
  unfold quietHall stopAllAnnouncements
  dsimp only
  rw [h]

theorem quietHall_booths (s : State) : (quietHall s).booths = (idleAll s).booths := by rw [quietHall_frame]

theorem quietHall_turns (s : State) : (quietHall s).turns = (idleAll s).turns := by rw [quietHall_frame]

/-- What is said of quieted booths is said of their domains, turns, desks and records. -/
theorem State.boothsQuieted.congr {s t u : State} (h : s.boothsQuieted t) (hbooths : u.booths = t.booths)
    (hturns : u.turns = t.turns) : s.boothsQuieted u := by
  have hdomain : u.domain = t.domain := by unfold State.domain; rw [hbooths]
  have hturn : u.turn = t.turn := by unfold State.turn; rw [hturns]
  have hdesk : u.desk = t.desk := by unfold State.desk; rw [hbooths]
  have hrecord : u.deskRecord = t.deskRecord := by unfold State.deskRecord; rw [hturns]
  unfold State.boothsQuieted at h ⊢
  rw [hdomain, hturn, hdesk, hrecord, hbooths]
  exact h

theorem State.desksHeld.congr {s t u : State} (h : s.desksHeld t) (hbooths : u.booths = t.booths) : s.desksHeld u := by
  have hdesk : u.desk = t.desk := by unfold State.desk; rw [hbooths]
  unfold State.desksHeld at h ⊢
  rw [hdesk]; exact h

/-! ### The test under way in a hall that falls quiet -/

/-- In a hall fallen quiet no output is served that was not (R20). -/
theorem quietHall_liveOn {s : State} {o : BoothOutput} (h : s.liveOn o = none) : (quietHall s).liveOn o = none := by
  have hplace : (quietHall s).placeOf = s.placeOf := State.placeOf_congr (by
    unfold State.config; rw [quietHall_frame, ← idleAll_configs s])
  have hdomain : ∀ b p, (quietHall s).domain b p = .idle ∨ (quietHall s).domain b p = s.domain b p := fun b p => by
    have hsame : (quietHall s).domain b p = (idleAll s).domain b p := by unfold State.domain; rw [quietHall_booths]
    rw [hsame]
    unfold idleAll
    rw [idlePlaces_domain]
    split
    exacts [.inl rfl, .inr rfl]
  have hdesk : ∀ b d, ((quietHall s).desk b d).selection = (s.desk b d).selection := fun b d =>
    ((idleAll_desksHeld s).congr (quietHall_booths s) b d).1
  unfold State.liveOn State.domainOf at h ⊢
  rw [hplace]
  rcases hdomain o.booth (s.placeOf o.booth o.side) with hq | hq
  · rw [hq]; rfl
  · rw [hq]; simpa only [hdesk] using h

/-- A channel that holds neither ANNOUNCE, BOOTH nor AUTOFLOOR holds none of them in the hall fallen quiet (R19). -/
theorem quietHall_primary {s : State} {c : Nat} (h : s.primary c = none) : (quietHall s).primary c = none := by
  have hann : (quietHall s).announcement c = .none := rfl
  have hentry : (quietHall s).planEntry = s.planEntry := by unfold State.planEntry; rw [quietHall_frame]
  have hauto : (quietHall s).autofloors c = s.autofloors c := by
    unfold State.autofloors; rw [hentry, quietHall_frame]
  have hboth : s.serving c = none ∧ s.autofloors c = false := by
    unfold State.primary at h
    split at h
    · cases h
    · split at h
      · cases h
      · split at h
        · cases h
        · exact ⟨‹_›, (Bool.not_eq_true _).mp ‹_›⟩
  have hserving : (quietHall s).serving c = none := by
    have hs := hboth.1
    unfold State.serving at hs ⊢
    rw [hentry]
    simp only [List.findSome?_eq_none_iff, Option.map_eq_none_iff] at hs ⊢
    exact fun o ho => quietHall_liveOn (hs o ho)
  unfold State.primary
  rw [hann, hserving, hauto, hboth.2]
  rfl

/-- A source of ANNOUNCE, BOOTH or AUTOFLOOR is no source to test (R19, R22). -/
theorem State.primary_not_testable {s : State} {c : Nat} {x : Source} (h : s.primary c = some x) :
    x.testable = false := by
  unfold State.primary at h
  split at h
  · obtain rfl := Option.some.inj h; rfl
  · split at h
    · obtain rfl := Option.some.inj h; rfl
    · split at h
      · obtain rfl := Option.some.inj h; rfl
      · cases h

/-- A channel whose source without TEST is FALLBACK or UNUSED keeps that source in the hall fallen quiet (R15, R22). -/
theorem quietHall_withoutTest {s : State} {c : Nat} (h : (s.withoutTest c).testable = true) :
    ((quietHall s).withoutTest c).testable = true := by
  have hentry : (quietHall s).planEntry = s.planEntry := by unfold State.planEntry; rw [quietHall_frame]
  have hprimary : s.primary c = none := by
    cases hp : s.primary c with
    | none => rfl
    | some x =>
      rw [State.withoutTest, hp, Option.getD_some, State.primary_not_testable hp] at h
      cases h
  rw [State.withoutTest, hprimary, Option.getD_none] at h
  rw [State.withoutTest, quietHall_primary hprimary, Option.getD_none]
  unfold State.fallbackSource at h ⊢
  rw [hentry]
  split
  · rfl
  · rw [if_neg ‹_›] at h
    split
    · rfl
    · rename_i p hfall hpivot
      rw [hfall, hpivot] at h
      dsimp only at h
      cases hp : s.primary p with
      | none => rw [quietHall_primary hp]; rfl
      | some x => rw [hp] at h; cases h
    · rfl

theorem State.testSound_iff (s : State) :
    s.testSound ↔ ∀ c, s.check.current = some c → (s.withoutTest c).testable = true := by
  simp [State.testSound, Source.testable]

/-- A sound test is not preempted (R22, R80). -/
theorem preemptCheck_sound {s : State} (h : s.testSound) : preemptCheck s = (s, []) := by
  rw [State.testSound_iff] at h
  unfold preemptCheck
  split
  · rfl
  · rw [if_pos (h _ ‹_›)]

theorem quietHall_testSound {s : State} (h : s.testSound) : (quietHall s).testSound := by
  rw [State.testSound_iff] at h ⊢
  intro c hc
  rw [quietHall_frame] at hc
  exact quietHall_withoutTest (h c hc)

/-- An event that preempts no test keeps the checker, and its notices are the early ones, the SOURCE_CHANGE notices and
the late ones. -/
theorem settleEvent_unpreempted (before : State) (e l : List Notice) {s : State} (h : preemptCheck s = (s, [])) :
    (settleEvent before e l s).check = s.check ∧ (settleEvent before e l s).link =
      (e ++ sourceNotices before (settleEvent before e l s) ++ l).foldl Link.raise s.link := by
  have key : settleEvent before e l s = s.recompute.raiseAll (e ++ sourceNotices before s.recompute ++ l) := by
    unfold settleEvent; rw [h]; simp
  have hn : sourceNotices before (settleEvent before e l s) = sourceNotices before s.recompute := by
    rw [key, sourceNotices_raiseAll]
  refine ⟨?_, ?_⟩
  · rw [key, State.raiseAll_frame]; rfl
  · rw [hn, key, State.raiseAll_link_eq]; rfl

/-! ### OPEN_SESSION and CLOSE_SESSION (R14, R15) -/

theorem exec_openSession (tag : Byte) (body : List Byte) (s : State) :
    exec (.openSession tag body) s = .next (takeRequest s ⟨0x02, tag, body⟩ (serveOpenSession body)) := rfl

theorem exec_closeSession (tag : Byte) (body : List Byte) (s : State) :
    exec (.closeSession tag body) s = .next (takeRequest s ⟨0x03, tag, body⟩ (serveCloseSession body)) := rfl

theorem serveOpenSession_setup {s : State} (h : s.plan.hall = .setup) : serveOpenSession [] s = (openHall s, [0x00]) :=
  if_pos h

theorem serveOpenSession_session {s : State} (h : s.plan.hall = .session) : serveOpenSession [] s = (s, [0x10]) :=
  if_neg (by rw [h]; decide)

theorem serveCloseSession_session {s : State} (h : s.plan.hall = .session) :
    serveCloseSession [] s = (closeHall s, [0x00]) := if_pos h

theorem serveCloseSession_setup {s : State} (h : s.plan.hall = .setup) : serveCloseSession [] s = (s, [0x10]) :=
  if_neg (by rw [h]; decide)

/-- What an accepted CLOSE_SESSION leaves (R15). -/
theorem closeHall_keeps (s : State) :
    (closeHall s).plan = { s.plan with hall := .setup } ∧ s.boothsQuieted (closeHall s) ∧
      ((∀ c, (closeHall s).announcement c = .none) ∧ ∀ i, (closeHall s).inputSet i = none) ∧
      (closeHall s).arbiter.relays = s.arbiter.relays ∧ s.desksHeld (closeHall s) ∧ s.keepsFleet (closeHall s) ∧
      s.keepsMoney (closeHall s) ∧ s.keepsRest (closeHall s) := by
  have hquiet := quietHall_frame s
  have hbooths : (closeHall s).booths = (idleAll s).booths := (settleEvent_booths _ _ _ _).trans (quietHall_booths s)
  have hturns : (closeHall s).turns = (idleAll s).turns := (settleEvent_turns _ _ _ _).trans (quietHall_turns s)
  have hann : ∀ c, (quietHall s).announcement c = .none := fun c => by rw [hquiet]; rfl
  have hset : ∀ i, (quietHall s).inputSet i = none := fun i => by rw [hquiet]; cases i <;> rfl
  refine ⟨?_, (idleAll_boothsQuieted s).congr hbooths hturns,
    ⟨fun c => (settleEvent_announcement _ _ _ _ c).trans (hann c), fun i => (settleEvent_inputSet _ _ _ _ i).trans (hset i)⟩,
    ?_, (idleAll_desksHeld s).congr hbooths, ?_, ?_, ?_⟩ <;>
    simp [closeHall, State.keepsFleet, State.keepsMoney, State.keepsRest, hquiet]

/-- Settles O9: OPEN_SESSION clears three tables; CLOSE_SESSION is `idleAll` and a settled event, which a sound test
survives. -/
theorem openAndCloseSession : Obligations.OpenAndCloseSession := by
  unfold Obligations.OpenAndCloseSession
  refine ⟨fun tag s h => ⟨fun hs => ?_, fun hs => ?_⟩, fun tag s h => ⟨fun hs => ?_, fun hs => ?_⟩⟩
  · rw [exec_openSession, takeRequest_served h (serveOpenSession_setup hs)]
    exact ⟨_, rfl, rfl, fun _ _ => rfl, fun _ _ => rfl, fun _ => rfl, ⟨rfl, rfl⟩, ⟨rfl, rfl, rfl⟩, ⟨rfl, rfl, rfl⟩,
      ⟨rfl, rfl⟩, ⟨rfl, rfl, rfl, rfl⟩, State.answeredWith_of rfl⟩
  · rw [exec_openSession, takeRequest_replied h (serveOpenSession_session hs)]
  · rw [exec_closeSession, takeRequest_served h (serveCloseSession_session hs)]
    set r := s.reserve ⟨0x03, tag, []⟩
    obtain ⟨hplan, hquiet, hann, hrelays, hdesks, hfleet, hmoney, hrest⟩ := closeHall_keeps r
    have hlink : (quietHall r).link = r.link := by rw [quietHall_frame]
    refine ⟨_, rfl, hplan, hquiet, hann, settleEvent_settled _ _ _ _, hrelays, hdesks, hfleet, hmoney, hrest,
      settleEvent_answers _ _ _ hlink, fun hsound => ?_⟩
    have hr : r.testSound := hsound
    obtain ⟨hcheck, hnotices⟩ := settleEvent_unpreempted r [] [] (preemptCheck_sound (quietHall_testSound hr))
    rw [hlink, List.nil_append, List.append_nil] at hnotices
    exact ⟨hcheck.trans (by rw [quietHall_frame]; rfl), State.answeredWith_of hnotices⟩
  · rw [exec_closeSession, takeRequest_replied h (serveCloseSession_setup hs)]

/-! ### RESET_AUDIO (R16) -/

theorem exec_resetAudio (tag : Byte) (body : List Byte) (s : State) :
    exec (.resetAudio tag body) s = .next (takeRequest s ⟨0x04, tag, body⟩ (serveResetAudio body)) := rfl

theorem serveResetAudio_reset (s : State) : serveResetAudio [] s = (resetAudioState s, [0x00]) := rfl

/-- The checker after the abort of RESET_AUDIO: a RUNNING check is DONE with no channel under test (R81). -/
def State.abortedCheck (s : State) : Check :=
  if s.check.state = .running then
    { s.check with state := .done, current := none, generator := none, dwell := 0, progress := [] }
  else s.check

/-- The CHECK_DONE that the abort of RESET_AUDIO is due (R81). -/
def State.abortNotices (s : State) : List Notice :=
  if s.check.state = .running then [.checkDone true ((List.range' 1 31).filter fun c => s.failed c).length] else []

theorem abortCheckState_eq (s : State) :
    abortCheckState s = ({ s with check := s.abortedCheck }, s.abortNotices) := by
  unfold abortCheckState State.abortedCheck State.abortNotices
  split <;> rfl

/-- Setting the units of a list touches no other block and no other unit. -/
theorem foldl_setUnit (us : List Nat) (e : UnitEntry) (s : State) :
    ∃ x, us.foldl (fun t u => t.setUnit u e) s = { s with supervisor := { s.supervisor with units := x } } ∧
      ∀ u, Table.read .unseen x u = if u ∈ us then e else s.unit u := by
  induction us generalizing s with
  | nil => exact ⟨_, rfl, fun u => by simp [State.unit]⟩
  | cons v us ih =>
    obtain ⟨x, hx, hread⟩ := ih (s.setUnit v e)
    refine ⟨x, hx, fun u => ?_⟩
    rw [hread, State.unit_setUnit]
    by_cases hu : u ∈ us <;> simp [hu]

/-- What RESET_AUDIO settles: the quieted hall with the check aborted, every relay selection FLOOR and the consoles
UNSEEN. -/
def resetHall (s : State) : State := unseeConsoles (clearRelays (abortCheckState (quietHall s)).1)

theorem resetAudioState_eq (s : State) : resetAudioState s = settleEvent s [] s.abortNotices (resetHall s) := by
  have hnotices : (quietHall s).abortNotices = s.abortNotices := by
    unfold State.abortNotices State.failed; rw [quietHall_frame]
  unfold resetAudioState resetHall
  dsimp only
  rw [abortCheckState_eq, hnotices]

theorem resetHall_frame (s : State) :
    ∃ x, resetHall s = { s with
        booths := (idleAll s).booths
        turns := (idleAll s).turns
        plan := { s.plan with hall := .setup }
        arbiter := { s.arbiter with announcements := [], inputOne := none, inputTwo := none, relays := [] }
        check := s.abortedCheck
        supervisor := { s.supervisor with units := x } } ∧
      ∀ u, Table.read .unseen x u = if u ∈ allBooths then .unseen else s.unit u := by
  have hquiet := quietHall_frame s
  have hbase : clearRelays (abortCheckState (quietHall s)).1 = { s with
      booths := (idleAll s).booths
      turns := (idleAll s).turns
      plan := { s.plan with hall := .setup }
      arbiter := { s.arbiter with announcements := [], inputOne := none, inputTwo := none, relays := [] }
      check := s.abortedCheck } := by
    rw [abortCheckState_eq, hquiet]
    generalize (idleAll s).booths = booths
    generalize (idleAll s).turns = turns
    rfl
  generalize (idleAll s).booths = booths at hbase ⊢
  generalize (idleAll s).turns = turns at hbase ⊢
  obtain ⟨x, hx, hread⟩ := foldl_setUnit allBooths .unseen (clearRelays (abortCheckState (quietHall s)).1)
  rw [hbase] at hx hread
  refine ⟨x, ?_, hread⟩
  unfold resetHall unseeConsoles
  rw [hbase]
  exact hx

/-- After the abort no channel is under test (R81). -/
theorem State.abortedCheck_current {s : State} (h : s.check.state ≠ .running → s.check.current = none) :
    s.abortedCheck.current = none := by
  unfold State.abortedCheck
  split
  exacts [rfl, h ‹_›]

/-- What RESET_AUDIO leaves (R16). -/
theorem resetAudioState_keeps {s : State} (h : s.check.state ≠ .running → s.check.current = none) :
    (resetAudioState s).plan = { s.plan with hall := .setup } ∧ s.boothsQuieted (resetAudioState s) ∧
      s.desksHeld (resetAudioState s) ∧
      ((∀ c, (resetAudioState s).announcement c = .none) ∧ (∀ i, (resetAudioState s).inputSet i = none) ∧
        ∀ b, (resetAudioState s).relay b = none) ∧
      (resetAudioState s).check = s.abortedCheck ∧
      (∀ u, (resetAudioState s).unit u = if u ∈ allBooths then .unseen else s.unit u) ∧
      (resetAudioState s).supervisor = { s.supervisor with units := (resetAudioState s).supervisor.units } ∧
      s.keepsFleet (resetAudioState s) ∧ s.keepsMoney (resetAudioState s) ∧
      (resetAudioState s).clock = s.clock ∧ (resetAudioState s).limits = s.limits ∧
      (resetAudioState s).pending = s.pending := by
  obtain ⟨x, hframe, hread⟩ := resetHall_frame s
  have hcurrent : (resetHall s).check.current = none := by rw [hframe]; exact State.abortedCheck_current h
  have hbooths : (resetAudioState s).booths = (idleAll s).booths := by simp [resetAudioState_eq, hframe]
  have hturns : (resetAudioState s).turns = (idleAll s).turns := by simp [resetAudioState_eq, hframe]
  have hsup : (resetAudioState s).supervisor = { s.supervisor with units := x } := by simp [resetAudioState_eq, hframe]
  refine ⟨?_, (idleAll_boothsQuieted s).congr hbooths hturns, (idleAll_desksHeld s).congr hbooths,
    ⟨fun c => ?_, fun i => ?_, fun b => ?_⟩, ?_, fun u => ?_, by rw [hsup], ?_, ?_, ?_⟩
  · simp [resetAudioState_eq, hframe]
  · rw [resetAudioState_eq, settleEvent_announcement, hframe]; rfl
  · rw [resetAudioState_eq, settleEvent_inputSet, hframe]; cases i <;> rfl
  · unfold State.relay; rw [resetAudioState_eq, settleEvent_relays, hframe]; rfl
  · rw [resetAudioState_eq, settleEvent_check_none _ _ _ hcurrent, hframe]
  · rw [← hread]; unfold State.unit; rw [hsup]
  · simp [resetAudioState_eq, hframe, State.keepsFleet]
  · simp [resetAudioState_eq, hframe, State.keepsMoney]
  · simp [resetAudioState_eq, hframe]

/-- The notices of RESET_AUDIO: CHECK_DONE of an aborted check behind the SOURCE_CHANGE notices (R16, R81). -/
theorem resetAudioState_link {s : State} (h : s.check.state ≠ .running → s.check.current = none) :
    (resetAudioState s).link = (sourceNotices s (resetAudioState s) ++ s.abortNotices).foldl Link.raise s.link := by
  obtain ⟨x, hframe, -⟩ := resetHall_frame s
  have hcurrent : (resetHall s).check.current = none := by rw [hframe]; exact State.abortedCheck_current h
  have hlink : (resetHall s).link = s.link := by rw [hframe]
  rw [resetAudioState_eq, settleEvent_link_none _ _ _ hcurrent, hlink, List.nil_append]

/-- Settles O10: RESET_AUDIO is the quieted hall with the check aborted, settled with no channel under test. -/
theorem resetAudio : Obligations.ResetAudio := by
  unfold Obligations.ResetAudio
  intro tag s h hcheck
  rw [exec_resetAudio, takeRequest_served h (serveResetAudio_reset _)]
  set r := s.reserve ⟨0x04, tag, []⟩
  have hr : r.check.state ≠ .running → r.check.current = none := hcheck
  obtain ⟨hplan, hquiet, hdesks, ⟨hann, hset, hrelay⟩, hck, hunit, hsup, hfleet, hmoney, hrest⟩ :=
    resetAudioState_keeps hr
  have hlink := resetAudioState_link hr
  have hsettled : (resetAudioState r).sourcesSettled := by rw [resetAudioState_eq]; exact settleEvent_settled _ _ _ _
  refine ⟨_, rfl, hplan, hquiet, hdesks, ⟨hann, hset, hrelay⟩, ⟨hsettled, fun b h1 h24 => ?_⟩, fun hs => ?_, fun hs => ?_,
    fun u h1 h24 => ?_, fun u h24 => ?_, hsup, hfleet, hmoney, hrest, State.answers_of_raised hlink⟩
  · refine (hsettled.2 b h1 h24).trans ?_
    unfold State.formFeed
    rw [hrelay]; rfl
  · have hs' : r.check.state ≠ .running := hs
    rw [State.abortNotices, if_neg hs', List.append_nil] at hlink
    exact ⟨hck.trans (if_neg hs'), State.answeredWith_of hlink⟩
  · have hs' : r.check.state = .running := hs
    rw [State.abortNotices, if_pos hs'] at hlink
    exact ⟨hck.trans (if_pos hs'), State.answeredWith_of hlink⟩
  · exact (hunit u).trans (if_pos (mem_allBooths.mpr ⟨h1, h24⟩))
  · refine (hunit u).trans (if_neg fun hm => ?_)
    have := (mem_allBooths.mp hm).2
    omega

end Sys2Proof.Machine
end

