-- ==== Sys2Proof/Proofs/Heard.lean ====
section
/-! What the source arbiter hears (`State.heard`), and that the receiver side, the money side, the meters, the clock, the
units and the turn meter touch none of it (R18, R19, R34). -/

namespace Sys2Proof.Machine

/-! ### What is heard -/

/-- What sources and ear feeds are formed from, and the records of them: the plan without the hall state, the source
arbiter, the booths, and the channel under test. -/
def State.heard (s : State) : (Table PlanEntry × Nat) × Arbiter × Booths × Option Nat :=
  ((s.plan.entries, s.plan.floorLanguage), s.arbiter, s.booths, s.check.current)

section
variable (s : State)

@[simp] theorem State.heard_raise (n : Notice) : (s.raise n).heard = s.heard := rfl
@[simp] theorem State.heard_setReceiver (r : Nat) (e : Receiver) : (s.setReceiver r e).heard = s.heard := rfl
@[simp] theorem State.heard_setSlot (l : Location) (r : Option Nat) : (s.setSlot l r).heard = s.heard := rfl
@[simp] theorem State.heard_setMonitorAt (p : Nat) (r : Option Nat) : (s.setMonitorAt p r).heard = s.heard := rfl
@[simp] theorem State.heard_setPollList (i : ListId) (l : PollList) : (s.setPollList i l).heard = s.heard := rfl
@[simp] theorem State.heard_setListeners (c n : Nat) : (s.setListeners c n).heard = s.heard := rfl
@[simp] theorem State.heard_setLowMark (r : Nat) (m : Bool) : (s.setLowMark r m).heard = s.heard := rfl
@[simp] theorem State.heard_setInFlight (p : Option InFlight) : (s.setInFlight p).heard = s.heard := rfl
@[simp] theorem State.heard_setPhase (i : ListId) (n : Nat) : (s.setPhase i n).heard = s.heard := rfl
@[simp] theorem State.heard_setHire (n : Nat) (h : Option Hire) : (s.setHire n h).heard = s.heard := rfl
@[simp] theorem State.heard_setQueue (q : List Settlement) : (s.setQueue q).heard = s.heard := rfl
@[simp] theorem State.heard_setListening (d c n : Nat) : (s.setListening d c n).heard = s.heard := rfl
@[simp] theorem State.heard_setServiceSeconds (c k n : Nat) : (s.setServiceSeconds c k n).heard = s.heard := rfl
@[simp] theorem State.heard_setUnserved (c n : Nat) : (s.setUnserved c n).heard = s.heard := rfl
@[simp] theorem State.heard_setUnit (u : Nat) (e : UnitEntry) : (s.setUnit u e).heard = s.heard := rfl
@[simp] theorem State.heard_setFaultRecord (u : Nat) (f : FaultRecord) : (s.setFaultRecord u f).heard = s.heard := rfl
@[simp] theorem State.heard_setTurn (b : Nat) (p : Side) (t : TurnRecord) : (s.setTurn b p t).heard = s.heard := rfl
@[simp] theorem State.heard_setDeskRecord (b d : Nat) (r : DeskRecord) : (s.setDeskRecord b d r).heard = s.heard := rfl
@[simp] theorem State.heard_setResult (c m : Nat) (r : CheckResult) : (s.setResult c m r).heard = s.heard := rfl
@[simp] theorem State.heard_setFailed (c : Nat) : (s.setFailed c).heard = s.heard := rfl
@[simp] theorem State.heard_setProgress (m : Nat) (p : Progress) : (s.setProgress m p).heard = s.heard := rfl
@[simp] theorem heard_endPoll (u : Nat) : (endPoll s u).heard = s.heard := rfl
end

/-- A fold of operations that are not heard is not heard. -/
theorem State.heard_foldl {α : Type} {f : State → α → State} (h : ∀ t x, (f t x).heard = t.heard) (l : List α)
    (s : State) : (l.foldl f s).heard = s.heard :=
  List.foldlRecOn (motive := fun t => t.heard = s.heard) l f rfl fun t ht x _ => (h t x).trans ht

@[simp] theorem recordFault_heard (s : State) (u : Nat) (v : Severity) (c : Cause) (d : Nat) :
    (recordFault s u v c d).heard = s.heard := by
  unfold recordFault; split <;> simp

/-! ### Turns, meters and hires (R61 to R69, R118 to R158) -/

@[simp] theorem turnSecond_heard (s : State) (b : Nat) (p : Side) : (turnSecond s b p).heard = s.heard := by
  have hcount : (turnCount s b p).heard = s.heard := by unfold turnCount; split <;> simp
  have hdue : ∀ t, (turnDue t b p).heard = t.heard := fun t => by unfold turnDue; split; rfl; split <;> simp
  have hover : ∀ t, (turnOverrun t b p).heard = t.heard := fun t => by unfold turnOverrun; split; rfl; split <;> simp
  unfold turnSecond
  rw [hover, hdue, hcount]

@[simp] theorem creditReceiver_heard (s : State) (r d now : Nat) : (creditReceiver s r d now).heard = s.heard := by
  unfold creditReceiver credit; split <;> simp

@[simp] theorem meterChannel_heard (s : State) (c : Nat) : (meterChannel s c).heard = s.heard := by
  unfold meterChannel; dsimp only; split <;> simp

@[simp] theorem settleHire_heard (s : State) (n : Nat) : (settleHire s n).heard = s.heard := by
  fun_cases settleHire s n <;> rfl

@[simp] theorem settleOrWait_heard (s : State) (n : Nat) : (settleOrWait s n).heard = s.heard := by
  unfold settleOrWait; split <;> simp

@[simp] theorem beginClosing_heard (s : State) (n : Nat) (lost rec : Bool) :
    (beginClosing s n lost rec).heard = s.heard := by
  unfold beginClosing
  split
  · split
    · dsimp only; split <;> simp
    · rfl
  · rfl

@[simp] theorem activateHire_heard (s : State) (n : Nat) (rec : Bool) : (activateHire s n rec).heard = s.heard := by
  fun_cases activateHire s n rec <;> rfl

@[simp] theorem removePending_heard (s : State) (h : Hire) : (removePending s h).heard = s.heard := rfl

@[simp] theorem issueSecond_heard (s : State) (n : Nat) : (issueSecond s n).heard = s.heard := by
  fun_cases issueSecond s n <;> rfl

/-! ### Receivers, slots and poll lists (R84 to R103, R115) -/

@[simp] theorem leaveList_heard (s : State) (i : ListId) (r : Nat) : (leaveList s i r).heard = s.heard := rfl
@[simp] theorem joinList_heard (s : State) (i : ListId) (r : Nat) : (joinList s i r).heard = s.heard := rfl
@[simp] theorem raiseListeners_heard (s : State) (c : Nat) : (raiseListeners s c).heard = s.heard := rfl
@[simp] theorem dropListeners_heard (s : State) (c : Option Nat) : (dropListeners s c).heard = s.heard := by
  cases c <;> rfl
@[simp] theorem fillSlot_heard (s : State) (l : Location) (r band : Nat) : (fillSlot s l r band).heard = s.heard := rfl

@[simp] theorem undockState_heard (s : State) (l : Location) (r : Nat) (rec : Bool) :
    (undockState s l r rec).heard = s.heard := by
  unfold undockState
  split
  · simp
  · dsimp only; split <;> simp
  · rfl

@[simp] theorem undock_heard (s : State) (l : Location) (rec : Bool) : (undock s l rec).heard = s.heard := by
  unfold undock; split <;> simp

@[simp] theorem dockHired_heard (s : State) (r : Nat) : (dockHired s r).heard = s.heard := by
  unfold dockHired; split <;> simp

@[simp] theorem dockClosing_heard (s : State) (r : Nat) (rec : Bool) : (dockClosing s r rec).heard = s.heard := by
  unfold dockClosing; split <;> simp

@[simp] theorem dockState_heard (s : State) (l : Location) (r : Nat) (rec : Bool) :
    (dockState s l r rec).heard = s.heard := by
  unfold dockState; split <;> simp

@[simp] theorem dock_heard (s : State) (l : Location) (r band : Nat) (rec : Bool) :
    (dock s l r band rec).heard = s.heard := by
  have hclear : (clearSlot s l r rec).heard = s.heard := by unfold clearSlot; split; split <;> simp; rfl
  rw [dock_eq, ← hclear]
  fun_cases dockCleared (clearSlot s l r rec) l r band rec <;> simp

@[simp] theorem battery_heard (s : State) (l : Location) (band : Nat) : (battery s l band).heard = s.heard := by
  unfold battery; split <;> simp

@[simp] theorem rackReport_heard (s : State) (k : Nat) (x : RackReport) : (rackReport s k x).heard = s.heard := by
  unfold rackReport; split <;> split <;> simp

@[simp] theorem takeInventory_heard (s : State) (k : Nat) (l : List InventoryEntry) :
    (takeInventory s k l).heard = s.heard := by
  have hslot : ∀ (t : State × Nat) q, (compareSlot k t q).1.heard = t.1.heard := fun t q => by
    fun_cases compareSlot k t q <;> simp_all
  have hall : ((allSlots.zip l).foldl (compareSlot k) (s, 0)).1.heard = s.heard :=
    List.foldlRecOn (motive := fun t => t.1.heard = s.heard) _ _ rfl fun t ht q _ => (hslot t q).trans ht
  unfold takeInventory
  dsimp only
  split <;> simp [hall]

@[simp] theorem releaseMonitor_heard (s : State) (p : Nat) : (releaseMonitor s p).heard = s.heard := by
  unfold releaseMonitor; split <;> simp

@[simp] theorem placeMonitor_heard (s : State) (p r : Nat) : (placeMonitor s p r).heard = s.heard := by
  unfold placeMonitor
  dsimp only
  split
  · rfl
  · split
    · simp
    · split <;> simp

@[simp] theorem clearMonitorAt_heard (s : State) (p : Nat) : (clearMonitorAt s p).heard = s.heard := by
  unfold clearMonitorAt; split <;> simp

/-! ### The beacon (R104 to R114) -/

@[simp] theorem beaconSlot_heard (s : State) : (beaconSlot s).heard = s.heard := by
  have hphase : ∀ n (t : State), (settlePhase t n).heard = t.heard := by
    intro n
    induction n with
    | zero => exact fun _ => rfl
    | succ n ih =>
      intro t
      unfold settlePhase
      split
      · rfl
      · split
        exacts [rfl, (ih _).trans rfl]
  have hsend : ∀ (t : State) i r, (sendPoll t i r).heard = t.heard := fun _ _ _ => rfl
  unfold beaconSlot
  split
  · dsimp only
    split
    · split
      exacts [(hsend _ _ _).trans (hphase 5 s), hphase 5 s]
    · exact hphase 5 s
  · rfl

@[simp] theorem replyCredit_heard (s : State) (r : Nat) (h : Option Nat) : (replyCredit s r h).heard = s.heard := by
  unfold replyCredit; split <;> simp

@[simp] theorem moveListeners_heard (s : State) (p : Option Nat) (q : Nat) : (moveListeners s p q).heard = s.heard := by
  unfold moveListeners; split <;> simp

@[simp] theorem batteryTest_heard (s : State) (r band : Nat) : (batteryTest s r band).heard = s.heard := by
  unfold batteryTest; split <;> simp

@[simp] theorem takeReply_heard (s : State) (p : InFlight) (tuned band : Nat) :
    (takeReply s p tuned band).heard = s.heard := by
  unfold takeReply replyOut replySilent; split <;> simp

@[simp] theorem takeMiss_heard (s : State) (p : InFlight) : (takeMiss s p).heard = s.heard := by
  unfold takeMiss fallSilent; dsimp only; split <;> simp

@[simp] theorem reportMissing_heard (s : State) (r : Nat) : (reportMissing s r).heard = s.heard := rfl

/-! ### Units, the clock and the second event (R160 to R165) -/

@[simp] theorem unitReply_heard (s : State) (u : Nat) : (unitReply s u).heard = s.heard := rfl

@[simp] theorem clockReturn_heard (s : State) : (clockReturn s).heard = s.heard := by
  unfold clockReturn; split <;> rfl

@[simp] theorem loseReference_heard (s : State) : (loseReference s).heard = s.heard := by
  unfold loseReference; simp; rfl

theorem turnMeterSecond_heard (s : State) : (turnMeterSecond s).heard = s.heard := by
  unfold turnMeterSecond
  refine State.heard_foldl ?_ _ s
  exact fun t p => turnSecond_heard t p.1 p.2

theorem metersSecond_heard (s : State) : (metersSecond s).heard = s.heard :=
  State.heard_foldl meterChannel_heard _ s

theorem issuesSecond_heard (s : State) : (issuesSecond s).heard = s.heard := State.heard_foldl issueSecond_heard _ s

theorem missingSecond_heard (s : State) : (missingSecond s).heard = s.heard :=
  State.heard_foldl (fun t r => by split <;> simp) _ s

/-! ### Figures of the check (R76, R77) -/

theorem State.scores.heard {s t : State} (h : s.scores t) : t.heard = s.heard := by
  obtain ⟨⟨r, f, g, rfl⟩, -⟩ := h; rfl

/-! ### Services of requests -/

theorem answer_heard (s : State) (t : Status) : (answer s t).1.heard = s.heard := rfl

section
variable (body : List Byte) (s : State)

theorem serveReadStatus_heard : (serveReadStatus body s).1.heard = s.heard := by
  fun_cases serveReadStatus body s <;> rfl
theorem serveOpenSession_heard : (serveOpenSession body s).1.heard = s.heard := by
  fun_cases serveOpenSession body s <;> rfl
theorem serveSetTime_heard : (serveSetTime body s).1.heard = s.heard := by fun_cases serveSetTime body s <;> rfl
theorem serveWriteLimits_heard : (serveWriteLimits body s).1.heard = s.heard := by
  fun_cases serveWriteLimits body s <;> rfl
theorem serveReadLimits_heard : (serveReadLimits body s).1.heard = s.heard := by
  fun_cases serveReadLimits body s <;> rfl
theorem serveReadFault_heard : (serveReadFault body s).1.heard = s.heard := by
  fun_cases serveReadFault body s <;> rfl
theorem serveClearFault_heard : (serveClearFault body s).1.heard = s.heard := by
  fun_cases serveClearFault body s <;> rfl
theorem serveReadChannel_heard : (serveReadChannel body s).1.heard = s.heard := by
  fun_cases serveReadChannel body s <;> rfl
theorem serveReadSources_heard : (serveReadSources body s).1.heard = s.heard := by
  fun_cases serveReadSources body s <;> rfl
theorem serveReadBooth_heard : (serveReadBooth body s).1.heard = s.heard := by
  fun_cases serveReadBooth body s <;> rfl
theorem serveReadDesks_heard : (serveReadDesks body s).1.heard = s.heard := by
  fun_cases serveReadDesks body s <;> rfl
theorem serveReadCheck_heard : (serveReadCheck body s).1.heard = s.heard := by
  fun_cases serveReadCheck body s <;> rfl
theorem serveReadReceiver_heard : (serveReadReceiver body s).1.heard = s.heard := by
  fun_cases serveReadReceiver body s <;> rfl
theorem serveReadRack_heard : (serveReadRack body s).1.heard = s.heard := by
  fun_cases serveReadRack body s <;> rfl
theorem serveWriteSchedule_heard : (serveWriteSchedule body s).1.heard = s.heard := by
  fun_cases serveWriteSchedule body s <;> rfl
theorem serveReadListeners_heard : (serveReadListeners body s).1.heard = s.heard := by
  fun_cases serveReadListeners body s <;> rfl
theorem serveOpenHire_heard : (serveOpenHire body s).1.heard = s.heard := by
  fun_cases serveOpenHire body s <;> rfl
theorem serveReadHire_heard : (serveReadHire body s).1.heard = s.heard := by
  fun_cases serveReadHire body s <;> rfl
theorem serveReadSettlement_heard : (serveReadSettlement body s).1.heard = s.heard := by
  fun_cases serveReadSettlement body s <;> rfl
theorem serveWriteTariff_heard : (serveWriteTariff body s).1.heard = s.heard := by
  fun_cases serveWriteTariff body s <;> rfl
theorem serveReadTariff_heard : (serveReadTariff body s).1.heard = s.heard := by
  fun_cases serveReadTariff body s <;> rfl
theorem serveFreezeTariffs_heard : (serveFreezeTariffs body s).1.heard = s.heard := by
  fun_cases serveFreezeTariffs body s <;> rfl
theorem serveReadDelegation_heard : (serveReadDelegation body s).1.heard = s.heard := by
  fun_cases serveReadDelegation body s <;> rfl
theorem serveReadService_heard : (serveReadService body s).1.heard = s.heard := by
  fun_cases serveReadService body s <;> rfl

theorem serveReadDeskRecords_heard : (serveReadDeskRecords body s).1.heard = s.heard := by
  have hraise : ∀ (t : State) b p, (raiseLongest t b p).heard = t.heard := fun t b p => by
    unfold raiseLongest; split <;> rfl
  fun_cases serveReadDeskRecords body s
  exacts [(hraise _ _ .b).trans (hraise s _ .a), rfl, rfl]

theorem serveSetMonitor_heard : (serveSetMonitor body s).1.heard = s.heard := by
  fun_cases serveSetMonitor body s
  exacts [rfl, placeMonitor_heard s _ _, rfl]

theorem serveClearMonitor_heard : (serveClearMonitor body s).1.heard = s.heard := by
  fun_cases serveClearMonitor body s
  exacts [rfl, rfl, clearMonitorAt_heard s _, rfl]

theorem serveWithdrawReceiver_heard : (serveWithdrawReceiver body s).1.heard = s.heard := by
  have hout : ∀ r, (withdrawReceiver s r).1.heard = s.heard := fun r => by fun_cases withdrawReceiver s r <;> rfl
  fun_cases serveWithdrawReceiver body s
  exacts [hout _, rfl, rfl]

theorem serveRestoreReceiver_heard : (serveRestoreReceiver body s).1.heard = s.heard := by
  have hback : ∀ r, (restoreReceiver s r).1.heard = s.heard := fun r => by fun_cases restoreReceiver s r <;> rfl
  fun_cases serveRestoreReceiver body s
  exacts [hback _, rfl, rfl]

theorem serveCancelHire_heard : (serveCancelHire body s).1.heard = s.heard := by
  have hcancel : ∀ n, (cancelHire s n).1.heard = s.heard := fun n => by fun_cases cancelHire s n <;> rfl
  fun_cases serveCancelHire body s
  exacts [hcancel _, rfl]

theorem closeLost_heard (h : Hire) : (closeLost s h).heard = s.heard := by
  have hleave : ∀ (t : State) r, (leaveForLost t r).heard = t.heard := fun t r => by
    unfold leaveForLost; split <;> simp
  unfold closeLost loseReceiver
  simp [hleave]

theorem serveDeclareLost_heard : (serveDeclareLost body s).1.heard = s.heard := by
  have hdeclare : ∀ n, (declareLost s n).1.heard = s.heard := fun n => by
    fun_cases declareLost s n
    exacts [rfl, closeLost_heard s _, rfl]
  fun_cases serveDeclareLost body s
  exacts [hdeclare _, rfl]

theorem settleNext_heard : (settleNext s).heard = s.heard := by unfold settleNext; split <;> simp

theorem serveTakeSettlement_heard : (serveTakeSettlement body s).1.heard = s.heard := by
  have htake : ∀ n, (takeSettlement s n).1.heard = s.heard := fun n => by
    fun_cases takeSettlement s n
    exacts [rfl, settleNext_heard _, rfl]
  fun_cases serveTakeSettlement body s
  exacts [htake _, rfl]

theorem clearRow_heard (d : Nat) : (clearRow s d).heard = s.heard := by
  unfold clearRow
  exact State.heard_foldl (fun t c => State.heard_setListening t d c 0) allChannels s

theorem serveClearDelegation_heard : (serveClearDelegation body s).1.heard = s.heard := by
  fun_cases serveClearDelegation body s
  exacts [clearRow_heard s _, rfl, rfl, rfl]
end

end Sys2Proof.Machine
end

