-- ==== Sys2Proof/Proofs/Settling.lean ====
section
/-! Each operation leaves the sources, the feeds and the test as they were formed, because nothing that they are formed
from has changed, or ends in a settled event, which forms them anew (`Settling`). -/

namespace Sys2Proof.Machine

/-! ### States that sound alike -/

/-- In `t` every source and feed, the relay selections and the test are what they are in `s`, as held and as formed. -/
def State.soundsAs (s t : State) : Prop :=
  t.arbiter = s.arbiter ∧ t.check.current = s.check.current ∧ t.effective = s.effective ∧ t.withoutTest = s.withoutTest

/-- The sources, the feeds and the test are sound (R18, R19, R22, R34). -/
def State.settled (s : State) : Prop := s.sourcesSettled ∧ s.testSound

theorem State.soundsAs.refl (s : State) : s.soundsAs s := ⟨rfl, rfl, rfl, rfl⟩

theorem State.soundsAs.trans {s t u : State} (h : s.soundsAs t) (k : t.soundsAs u) : s.soundsAs u :=
  ⟨k.1.trans h.1, k.2.1.trans h.2.1, k.2.2.1.trans h.2.2.1, k.2.2.2.trans h.2.2.2⟩

theorem State.soundsAs.sourcesSettled {s t : State} (h : s.soundsAs t) (hi : s.sourcesSettled) : t.sourcesSettled := by
  obtain ⟨harb, -, heff, -⟩ := h
  have hsource : t.source = s.source := by funext c; unfold State.source; rw [harb]
  have hrelay : t.relay = s.relay := by funext b; unfold State.relay; rw [harb]
  refine ⟨fun c hc => ?_, fun b h1 h24 => ?_⟩
  · rw [hsource, heff]; exact hi.1 c hc
  · have hfeed : t.feed b = s.feed b := by unfold State.feed; rw [harb]
    have hform : t.formFeed b = s.formFeed b := by unfold State.formFeed; rw [hsource, hrelay]
    rw [hfeed, hform]; exact hi.2 b h1 h24

theorem State.soundsAs.testSound {s t : State} (h : s.soundsAs t) (hi : s.testSound) : t.testSound := by
  obtain ⟨-, hcur, -, htest⟩ := h
  intro c hc
  rw [htest]
  exact hi c (hcur ▸ hc)

theorem State.soundsAs.settled {s t : State} (h : s.soundsAs t) (hi : s.settled) : t.settled :=
  ⟨h.sourcesSettled hi.1, h.testSound hi.2⟩

theorem findSome?_congr_mem {α β : Type} {f g : α → Option β} {l : List α} (h : ∀ x ∈ l, f x = g x) :
    l.findSome? f = l.findSome? g := by
  induction l with
  | nil => rfl
  | cons x xs ih =>
    rw [List.findSome?_cons, List.findSome?_cons, h x List.mem_cons_self,
      ih fun y hy => h y (List.mem_cons_of_mem _ hy)]

/-- The desk live on an output is live in its domain and selects it (R20). -/
theorem State.liveOn_eq_some {s : State} {o : BoothOutput} {d : Nat} :
    s.liveOn o = some d ↔ (s.domainOf o).liveDesk = some d ∧ (s.desk o.booth d).selection = o.side := by
  unfold State.liveOn
  cases (s.domainOf o).liveDesk with
  | none => simp
  | some e =>
    dsimp only
    split
    · simp only [Option.some.injEq, iff_self_and]; rintro rfl; assumption
    · simp only [reduceCtorEq, Option.some.injEq, false_iff, not_and]; rintro rfl; assumption

/-- Where the live desk of an output's domain is the same, with the same selection, the same desk is live on it. -/
theorem State.liveOn_congr {s t : State} {o : BoothOutput} (hdomain : (t.domainOf o).liveDesk = (s.domainOf o).liveDesk)
    (hdesk : ∀ d, (s.domainOf o).liveDesk = some d → (t.desk o.booth d).selection = (s.desk o.booth d).selection) :
    t.liveOn o = s.liveOn o := by
  unfold State.liveOn
  rw [hdomain]
  split
  · rw [hdesk _ ‹_›]
  · rfl

/-- The desk live in the domain of output `o`, if any, is the same in `t` as in `s`, with its output, cough and port. -/
def State.voiceHeld (s t : State) (o : BoothOutput) : Prop :=
  (t.domainOf o).liveDesk = (s.domainOf o).liveDesk ∧ ∀ d, (s.domainOf o).liveDesk = some d →
    (t.desk o.booth d).selection = (s.desk o.booth d).selection ∧ (t.desk o.booth d).cough = (s.desk o.booth d).cough ∧
      (t.desk o.booth d).port = (s.desk o.booth d).port

/-- States sound alike when the live desks of the plan's outputs are held (R18 to R20). -/
theorem State.soundsAs_of_voices {s t : State} (hplan : t.planEntry = s.planEntry)
    (hfloor : t.plan.floorLanguage = s.plan.floorLanguage) (harb : t.arbiter = s.arbiter)
    (hcur : t.check.current = s.check.current)
    (hvoice : ∀ c, ∀ o ∈ (s.planEntry c).outputs, s.voiceHeld t o) : s.soundsAs t := by
  have hlive : ∀ c, ∀ o ∈ (s.planEntry c).outputs, t.liveOn o = s.liveOn o ∧
      ∀ d, s.liveOn o = some d → t.boothSource o d = s.boothSource o d := fun c o ho => by
    obtain ⟨hdomain, hdesk⟩ := hvoice c o ho
    refine ⟨State.liveOn_congr hdomain fun d hd => (hdesk d hd).1, fun d hd => ?_⟩
    obtain ⟨-, hcough, hport⟩ := hdesk d (State.liveOn_eq_some.mp hd).1
    unfold State.boothSource
    rw [hcough, hport]
  have hann : t.announcement = s.announcement := by funext c; unfold State.announcement; rw [harb]
  have hserving : ∀ c, t.serving c = s.serving c := fun c => by
    unfold State.serving
    rw [hplan]
    exact findSome?_congr_mem fun o ho => by rw [(hlive c o ho).1]
  have hbooth : ∀ c o d, s.serving c = some (o, d) → t.boothSource o d = s.boothSource o d := fun c o d h => by
    obtain ⟨x, hx, hxd⟩ := List.exists_of_findSome?_eq_some h
    obtain ⟨e, he, hxe⟩ := Option.map_eq_some_iff.mp hxd
    cases hxe
    exact (hlive c o hx).2 d he
  have hauto : t.autofloors = s.autofloors := by funext c; unfold State.autofloors; rw [hplan, hfloor]
  have hprimary : t.primary = s.primary := by
    funext c
    unfold State.primary
    rw [hann, hserving, hauto]
    cases hs : s.serving c with
    | none => rfl
    | some x => dsimp only; rw [hbooth c x.1 x.2 hs]
  have hfall : t.fallbackSource = s.fallbackSource := by funext c; unfold State.fallbackSource; rw [hplan, hprimary]
  refine ⟨harb, hcur, ?_, ?_⟩
  · funext c; unfold State.effective; rw [hann, hprimary, hcur, hfall]
  · funext c; unfold State.withoutTest; rw [hprimary, hfall]

/-- What is heard decides how a state sounds. -/
theorem State.soundsAs_of_heard {s t : State} (h : t.heard = s.heard) : s.soundsAs t := by
  simp only [State.heard, Prod.mk.injEq] at h
  obtain ⟨⟨hentries, hfloor⟩, harb, hbooths, hcur⟩ := h
  have hplan : t.planEntry = s.planEntry := by funext c; unfold State.planEntry; rw [hentries]
  have hdesk : t.desk = s.desk := by funext b d; unfold State.desk; rw [hbooths]
  have hdomain : t.domainOf = s.domainOf := by
    funext o; unfold State.domainOf State.domain State.placeOf State.config; rw [hbooths]
  refine State.soundsAs_of_voices hplan hfloor harb hcur fun c o _ => ⟨by rw [hdomain], fun d _ => ?_⟩
  rw [hdesk]; exact ⟨rfl, rfl, rfl⟩

/-! ### Operations that settle -/

/-- What the agreement of sources needs of the booths (R2, R13, R43, R44). -/
structure State.ClaimsSound (s : State) : Prop where
  values : s.valuesFit
  quiet : s.setupQuiet
  claims : s.claimsAgree

theorem Change.keeps_claimsSound {s t : State} (h : Change s t) (hi : s.ClaimsSound) : t.ClaimsSound :=
  ⟨h.keeps_valuesFit hi.values, h.keeps_setupQuiet hi.quiet, h.keeps_claimsAgree hi.values hi.quiet hi.claims⟩

theorem Work.keeps_claimsSound {s t : State} (h : Work s t) (hi : s.ClaimsSound) : t.ClaimsSound := by
  induction h with
  | refl => exact hi
  | tail _ hc ih => exact hc.keeps_claimsSound ih

/-- From booths that are sound an operation leads to booths that are sound, and what is formed from them sounds as it did
or has been formed anew. -/
def Settling (s t : State) : Prop := s.ClaimsSound → t.ClaimsSound ∧ (s.soundsAs t ∨ t.settled)

theorem Settling.refl (s : State) : Settling s s := fun hi => ⟨hi, .inl (.refl s)⟩

theorem Settling.trans {s t u : State} (h : Settling s t) (k : Settling t u) : Settling s u := fun hi => by
  obtain ⟨ht, hst⟩ := h hi
  obtain ⟨hu, htu | htu⟩ := k ht
  · exact ⟨hu, hst.imp (fun x => x.trans htu) fun x => htu.settled x⟩
  · exact ⟨hu, .inr htu⟩

theorem Settling.foldl {α : Type} {f : State → α → State} (h : ∀ t x, Settling t (f t x)) (l : List α) (s : State) :
    Settling s (l.foldl f s) :=
  List.foldlRecOn (motive := fun t => Settling s t) l f (.refl s) fun t ht x _ => ht.trans (h t x)

/-- A work that is not heard. -/
theorem Settling.unheard {s t : State} (h : Work s t) (he : t.heard = s.heard) : Settling s t := fun hi =>
  ⟨h.keeps_claimsSound hi, .inl (State.soundsAs_of_heard he)⟩

/-- A work that ends with sources, feeds and test settled. -/
theorem Settling.anew {s t : State} (h : Work s t) (he : t.settled) : Settling s t := fun hi =>
  ⟨h.keeps_claimsSound hi, .inr he⟩

theorem Settling.link (s : State) (l : Link) : Settling s { s with link := l } := fun hi =>
  ⟨⟨hi.values, hi.quiet, hi.claims⟩, .inl (State.soundsAs_of_heard rfl)⟩

theorem Settling.clock (s : State) (c : Clock) : Settling s { s with clock := c } := fun hi =>
  ⟨⟨hi.values, hi.quiet, hi.claims⟩, .inl (State.soundsAs_of_heard rfl)⟩

theorem Settling.queue (s : State) (q : List Instr) : Settling s { s with pending := q } := fun hi =>
  ⟨⟨hi.values, hi.quiet, hi.claims⟩, .inl (.refl s)⟩

/-- What an invariant of sources needs of an operation. -/
theorem Settling.keeps {s t : State} (h : Settling s t) (hi : s.ClaimsSound) :
    (s.sourcesSettled → t.sourcesSettled) ∧ (s.testSound → t.testSound) := by
  rcases (h hi).2 with h | h
  exacts [⟨h.sourcesSettled, h.testSound⟩, ⟨fun _ => h.1, fun _ => h.2⟩]

/-! ### Settled events -/

/-- The advance places a signature on a channel that may be under test, or none (R75). -/
theorem takeNextChannel_testSound {s : State} (h : s.check.current = none) (cs : List Nat) :
    (takeNextChannel s cs).1.testSound := by
  rw [State.testSound_iff]
  intro c hc
  obtain ⟨-, -, hnone, hsome, -⟩ := takeNextChannel_spec s cs
  have htest : (takeNextChannel s cs).1.withoutTest c = s.withoutTest c := by rw [takeNextChannel_frame]; rfl
  rw [htest]
  cases hf : cs.find? fun d => (s.withoutTest d).testable with
  | none =>
    rw [(hnone hf).1, h] at hc
    cases hc
  | some n =>
    rw [(hsome n hf).1] at hc
    obtain rfl := Option.some.inj hc
    exact List.find?_some (p := fun d => (s.withoutTest d).testable) hf

/-- Behind a preemption the test is sound: it was, or the check has advanced (R80). -/
theorem preemptCheck_testSound (s : State) : (preemptCheck s).1.testSound := by
  by_cases hs : s.testSound
  · rw [preemptCheck_sound hs]; exact hs
  · rw [State.testSound_iff] at hs
    push Not at hs
    obtain ⟨c, hc, hno⟩ := hs
    have e : preemptCheck s = endChannel (s.enterResults c (fun r => decide (r = .notRun)) .preempted) c := by
      rw [preemptCheck, hc]; simp [hno]
    rw [e]
    exact takeNextChannel_testSound rfl _

theorem settleEvent_testSound (before : State) (e l : List Notice) (s : State) :
    (settleEvent before e l s).testSound := by
  have h := preemptCheck_testSound s
  have hcheck : (settleEvent before e l s).check = (preemptCheck s).1.check := by
    unfold settleEvent; rw [State.raiseAll_frame]; rfl
  have htest : (settleEvent before e l s).withoutTest = (preemptCheck s).1.withoutTest := by
    rw [settleEvent_frame, preemptCheck_frame]; rfl
  intro c hc
  rw [htest]
  exact h c (hcheck ▸ hc)

theorem settleEvent_isSettled (before : State) (e l : List Notice) (s : State) : (settleEvent before e l s).settled :=
  ⟨settleEvent_settled before e l s, settleEvent_testSound before e l s⟩

/-- A work that ends in a settled event. -/
theorem Settling.event {s before u : State} {e l : List Notice} (h : Work s (settleEvent before e l u)) :
    Settling s (settleEvent before e l u) := .anew h (settleEvent_isSettled before e l u)

/-! ### The booths (R37 to R60) -/

/-- A flash set or cleared is not heard. -/
theorem setFlash_soundsAs (s : State) (b d : Nat) (f : Bool) :
    s.soundsAs (s.setDesk b d { s.desk b d with flash := f }) := by
  refine State.soundsAs_of_voices rfl rfl rfl rfl fun c o _ => ⟨rfl, fun e _ => ?_⟩
  have hread : (s.setDesk b d { s.desk b d with flash := f }).desk o.booth e =
      if deskKey o.booth e = deskKey b d then { s.desk b d with flash := f } else s.desk o.booth e :=
    Table.read_write _ _ _ _ _
  rw [hread]
  split
  · rename_i hkey
    have hsame : s.desk o.booth e = s.desk b d := by unfold State.desk; rw [hkey]
    rw [hsame]; exact ⟨rfl, rfl, rfl⟩
  · exact ⟨rfl, rfl, rfl⟩

theorem flash_soundsAs (s : State) (b d : Nat) : s.soundsAs (flash s b d) := by
  unfold flash
  split
  exacts [.refl s, setFlash_soundsAs s b d true]

theorem setFlash_settling (s : State) (b d : Nat) (f : Bool) :
    Settling s (s.setDesk b d { s.desk b d with flash := f }) := fun hi =>
  ⟨(State.setDesk_work s b d _ _).keeps_claimsSound hi, .inl (setFlash_soundsAs s b d f)⟩

theorem flash_settling (s : State) (b d : Nat) : Settling s (flash s b d) := by
  unfold flash
  split
  exacts [.refl s, setFlash_settling s b d true]

theorem dropFlashes_settling (s : State) (b : Nat) : Settling s (dropFlashes s b) := by
  unfold dropFlashes
  refine Settling.foldl ?_ positions s
  exact fun t d => setFlash_settling t b d false

/-- An enabled position is one of the four (R36). -/
theorem State.valuesFit.position {s : State} (h : s.valuesFit) {b d : Nat} (hd : s.enabled b d = true) :
    1 ≤ d ∧ d ≤ 4 := by
  have h4 := (h.2.2.1 b).1
  simp only [State.enabled, Bool.and_eq_true, decide_eq_true_eq] at hd
  omega

/-- The desk live in the domain of an output of the plan is enabled, and stands in that domain. -/
theorem State.ClaimsSound.live {s : State} (hi : s.ClaimsSound) {c d : Nat} {o : BoothOutput}
    (ho : o ∈ (s.planEntry c).outputs) (hd : (s.domainOf o).liveDesk = some d) :
    s.enabled o.booth d = true ∧ s.deskPlace o.booth d = s.placeOf o.booth o.side := by
  obtain ⟨h1, h24⟩ := hi.values.outputsInRange c o ho
  obtain ⟨hon, hplace, -⟩ := hi.claims.claimant h1 h24 (.inl hd)
  exact ⟨hon, hplace⟩

/-- An output key moves a desk that no domain names: no source is formed from it (R40, R55). -/
theorem select_settling {s : State} {b d : Nat} (hon : s.enabled b d = true) (hidle : s.deskState b d = .idle)
    (x : Side) : Settling s (s.setDesk b d { s.desk b d with selection := x }) := fun hi => by
  refine ⟨(Change.select b d x hon hidle).keeps_claimsSound hi, .inl ?_⟩
  refine State.soundsAs_of_voices rfl rfl rfl rfl fun c o ho => ⟨rfl, fun e he => ?_⟩
  obtain ⟨hen, hplace⟩ := hi.live ho he
  have hd4 := hi.values.position hon
  have he4 := hi.values.position hen
  rw [State.desk_setDesk s b d _ _ _ (by omega) (by omega), if_neg]
  · exact ⟨rfl, rfl, rfl⟩
  · rintro ⟨rfl, rfl⟩
    refine (Domain.stateOf_idle_iff _ _).mp hidle (.inl ?_)
    show (s.domain o.booth (s.deskPlace o.booth e)).liveDesk = some e
    rw [hplace]; exact he

/-- A stored configuration touches no desk that is live: none is in SETUP, and in SESSION no position is disabled and the
interlock changes where the booth's domains are IDLE alone (R37 to R39). -/
theorem storeConfig_settling {s : State} {b : Nat} {k : BoothConfig} (h1 : 1 ≤ b) (h24 : b ≤ 24) (hfit : k.fits)
    (hfree : s.boothRefusal b k = none) : Settling s (storeConfig s b k) := fun hi => by
  refine ⟨(Change.config b k h1 h24 hfit hfree).keeps_claimsSound hi, .inl ?_⟩
  obtain ⟨x, y, halone⟩ := storeConfig_boothsAlone s b k
  obtain ⟨-, hsession⟩ := State.boothRefusal_none hfree
  have hchanged : k.interlock ≠ (s.config b).interlock → ∀ p, s.domain b p = .idle := fun hne p => by
    cases hh : s.plan.hall with
    | setup => exact hi.quiet hh b p h1 h24
    | session => exact (hsession hh).2 hne p
  have hdomain : ∀ o : BoothOutput, (storeConfig s b k).domainOf o = s.domainOf o := fun o => by
    have hdom := storeConfig_domain s b k o.booth
    unfold State.domainOf
    by_cases hne : o.booth = b ∧ k.interlock ≠ (s.config b).interlock
    · rw [hdom, if_pos hne, hne.1, hchanged hne.2]
    · rw [hdom, if_neg hne]
      have hlock : ((storeConfig s b k).config o.booth).interlock = (s.config o.booth).interlock := by
        rw [storeConfig_config]
        split
        · rename_i hb
          rw [hb]; exact by_contra fun h => hne ⟨hb, h⟩
        · rfl
      unfold State.placeOf
      rw [hlock]
  refine State.soundsAs_of_voices (by rw [halone]; rfl) (by rw [halone]) (by rw [halone]) (by rw [halone])
    fun c o ho => ⟨by rw [hdomain], fun d hd => ?_⟩
  obtain ⟨hon, -⟩ := hi.live ho hd
  obtain ⟨ho1, ho24⟩ := hi.values.outputsInRange c o ho
  have hs : s.plan.hall = .session := by
    cases hh : s.plan.hall with
    | session => rfl
    | setup =>
      unfold State.domainOf at hd
      rw [hi.quiet hh _ _ ho1 ho24] at hd
      cases hd
  have hd4 := hi.values.position hon
  rw [storeConfig_desk, withDesks_desk_kept s b k (by omega)]
  · exact ⟨rfl, rfl, rfl⟩
  · rintro hb
    have hgrows := (hsession hs).1
    simp only [State.enabled, Bool.and_eq_true, decide_eq_true_eq, hb] at hon
    omega

/-- A domain change settles the event it is. -/
theorem changeDomain_isSettled (s : State) (b : Nat) (p : Side) (new : Domain) : (changeDomain s b p new).settled :=
  settleEvent_isSettled _ _ _ _

/-- A work that is no more than what it started with, a flash or a domain change. -/
theorem Settling.claim {s t : State} {b d : Nat} (h : Work s t)
    (ht : t = s ∨ t = flash s b d ∨ ∃ p new, t = changeDomain s b p new) : Settling s t := by
  rcases ht with rfl | rfl | ⟨p, new, rfl⟩
  exacts [.refl _, flash_settling s b d, .anew h (changeDomain_isSettled s b p new)]

/-- A MIC_ON does nothing, refuses the desk with a flash, or changes its domain (R46 to R49). -/
theorem micOn_cases (s : State) (b e : Nat) :
    micOn s b e = s ∨ micOn s b e = flash s b e ∨ ∃ p new, micOn s b e = changeDomain s b p new := by
  unfold micOn
  split
  · exact .inl rfl
  · split
    · exact .inr (.inl rfl)
    · dsimp only
      split
      · split
        exacts [.inr (.inr ⟨_, _, rfl⟩), .inr (.inl rfl)]
      · split
        · split
          exacts [.inr (.inr ⟨_, _, rfl⟩), .inr (.inl rfl)]
        · split
          exacts [.inr (.inr ⟨_, _, rfl⟩), .inr (.inl rfl)]
      · exact .inr (.inl rfl)

theorem micOn_settling {s : State} {b e : Nat} (hon : s.enabled b e = true) : Settling s (micOn s b e) :=
  .claim (micOn_work hon) (micOn_cases s b e)

theorem micOff_settling (s : State) (b x : Nat) : Settling s (micOff s b x) := by
  refine .claim (b := b) (d := x) (micOff_work s b x) ?_
  unfold micOff
  dsimp only
  split
  · exact .inl rfl
  · split
    exacts [.inr (.inr ⟨_, _, rfl⟩), .inl rfl]
  · split
    · exact .inr (.inr ⟨_, _, rfl⟩)
    · split
      exacts [.inr (.inr ⟨_, _, rfl⟩), .inl rfl]

theorem cough_settling (s : State) (b d : Nat) (on : Bool) : Settling s (cough s b d on) := by
  unfold cough
  split
  · exact .event ((setCough_work s b d on).trans (settleEvent_work _ _ _ _))
  · exact .refl s

theorem selectOutput_settling {s : State} {b d : Nat} (hon : s.enabled b d = true) (x : Side) :
    Settling s (selectOutput s b d x) := by
  unfold selectOutput
  split
  · rename_i hidle; exact select_settling hon hidle x
  · exact flash_settling s b d

theorem relay_settling (s : State) (b d : Nat) (c : Byte) : Settling s (relay s b d c) := by
  unfold relay
  split
  · exact .event ((State.setRelay_work s b none).trans (settleEvent_work _ _ _ _))
  · split
    · exact .event ((State.setRelay_work s b _).trans (settleEvent_work _ _ _ _))
    · exact flash_settling s b d

theorem deskEvent_settling (s : State) (b : Nat) (e : DeskEvent) : Settling s (deskEvent s b e) := by
  unfold deskEvent
  split
  · rename_i hon
    split
    · exact micOn_settling hon
    · exact micOff_settling s b _
    · exact cough_settling s b _ _
    · exact cough_settling s b _ _
    · exact selectOutput_settling hon _
    · exact selectOutput_settling hon _
    · exact relay_settling s b _ _
    · exact .unheard (Change.raise _).work rfl
    · exact .refl s
  · exact .refl s

theorem expireWindow_settling (s : State) (b : Nat) (p : Side) : Settling s (expireWindow s b p) := by
  unfold expireWindow
  split
  · rename_i d e n q hd
    split
    · exact .event (changeDomain_work (.inl (Or.inr (by rw [hd]; rfl))))
    · exact (Settling.event (changeDomain_work (new := .live d) (.inl (Or.inl (by rw [hd]; rfl))))).trans
        (flash_settling _ b e)
  · exact .refl s

/-- A window timer that falls is not heard: the live desk stays (R52). -/
theorem timer_settling {s : State} {b d e n : Nat} {p : Side} {q : ExpiryPolicy} (hd : s.domain b p = .pending d e n q)
    (m : Nat) : Settling s (s.setDomain b p (.pending d e m q)) := fun hi => by
  have hset : setDomainState s b p (.pending d e m q) = s.setDomain b p (.pending d e m q) := by
    unfold setDomainState
    rw [hd]
    exact (if_pos rfl).trans (turnChange_same _ b p (some d))
  have hwork := (Change.domain b p (.pending d e m q) (.inl (by rw [hd]; exact ⟨rfl, rfl⟩))).work
  rw [hset] at hwork
  refine ⟨hwork.keeps_claimsSound hi, .inl ?_⟩
  refine State.soundsAs_of_voices rfl rfl rfl rfl fun c o _ => ⟨?_, fun _ _ => ⟨rfl, rfl, rfl⟩⟩
  show ((s.setDomain b p (.pending d e m q)).domain o.booth (s.placeOf o.booth o.side)).liveDesk =
    (s.domain o.booth (s.placeOf o.booth o.side)).liveDesk
  rw [State.domain_setDomain]
  split
  · rename_i h; rw [h.1, ← h.1, h.2]; rw [h.1, hd]; rfl
  · rfl

theorem windowSecond_settling (s : State) (b : Nat) (p : Side) : Settling s (windowSecond s b p) := by
  unfold windowSecond
  split
  · rename_i d e n q hd
    dsimp only
    split
    · exact (timer_settling hd _).trans (expireWindow_settling _ b p)
    · exact timer_settling hd _
  · exact .refl s

theorem windowsSecond_settling (s : State) : Settling s (windowsSecond s) := by
  unfold windowsSecond
  refine Settling.foldl ?_ _ s
  exact fun t p => windowSecond_settling t p.1 p.2

theorem forceOff_settling (s : State) (o : BoothOutput) : Settling s (forceOff s o) := by
  have hidle := Settling.event (changeDomain_work (s := s) (b := o.booth) (p := s.placeOf o.booth o.side) (new := .idle)
    (.inl trivial))
  unfold forceOff
  dsimp only
  split
  · split
    exacts [hidle.trans (flash_settling _ _ _), hidle]
  · exact .refl s

theorem reconcileConsole_settling (s : State) (b : Nat) (l : List (Nat × DeskReport)) :
    Settling s (reconcileConsole s b l) := by
  have h : Settling s (clearCoughs (reconcilePasses s b l).1 b) :=
    .event ((reconcilePasses_work s b l).trans (clearCoughs_work _ b))
  unfold reconcileConsole
  dsimp only
  split
  · exact h
  · exact h.trans (.unheard (recordFault_work _ _ _ _ _) (recordFault_heard _ _ _ _ _))

/-! ### The check (R74 to R81) -/

theorem checkPoll_settling (s : State) (m : Nat) (q : DecodeRequest) (o : PollOutcome) :
    Settling s (checkPoll s m q o) := by
  have hwork := checkPoll_work s m q o
  revert hwork
  unfold checkPoll
  split
  · dsimp only
    split
    · exact .event
    · exact fun hwork => .unheard hwork (pollEntry_scores s q.channel m o).heard
  · exact fun _ => .refl s

theorem dwellSecond_settling (placed : Nat) (s : State) : Settling s (dwellSecond placed s) := by
  have hwork := dwellSecond_work placed s
  revert hwork
  unfold dwellSecond
  split
  · exact fun _ => .refl s
  · split
    · dsimp only
      split
      · exact .event
      · exact fun hwork => .unheard hwork rfl
    · exact fun _ => .refl s

theorem passToChecker_settling (s : State) (p : InFlight) (o : PollOutcome) : Settling s (passToChecker s p o) := by
  unfold passToChecker
  split
  exacts [checkPoll_settling s _ _ o, .refl s]

theorem completeMiss_settling (s : State) (p : InFlight) : Settling s (completeMiss s p) := by
  refine (Settling.unheard (State.setInFlight_work s none) rfl).trans
    (Settling.trans ?_ (passToChecker_settling _ p .miss))
  split
  exacts [.unheard (takeMiss_work _ p) (takeMiss_heard _ p), .refl _]

theorem completeReply_settling (s : State) (p : InFlight) (tuned band : Nat) (x : Option Code16) :
    Settling s (completeReply s p tuned band x) := by
  refine (Settling.unheard (State.setInFlight_work s none) rfl).trans
    (Settling.trans ?_ (passToChecker_settling _ p _))
  split
  exacts [.unheard (takeReply_work _ p tuned band) (takeReply_heard _ p tuned band), .refl _]

/-! ### Units and the second event (R160 to R165) -/

theorem unitMiss_settling {u : Nat} (s : State) (hu : u ≠ referenceUnit) : Settling s (unitMiss s u) := by
  have hmiss : ∀ x, Settling s ((endPoll s u).setUnit u { state := x, failures := (s.unit u).missed }) := fun x =>
    .unheard ((Change.pollEnds u).work.tail (.unit u _ hu (Nat.min_le_right _ 15))) rfl
  have hloss : ∀ t, Settling t (ownLoss t u) := fun t => by
    unfold ownLoss
    split
    · exact .unheard (State.setInFlight_work t none) rfl
    · split
      exacts [dropFlashes_settling t u, .refl t]
  unfold unitMiss
  dsimp only
  split
  · exact ((hmiss .lost).trans (hloss _)).trans
      (.unheard (recordFault_work _ _ _ _ _) (recordFault_heard _ _ _ _ _))
  · exact hmiss _

theorem unitReply_settling {u : Nat} (s : State) (hu : u ≠ referenceUnit) : Settling s (unitReply s u) :=
  .unheard (unitReply_work s hu) rfl

theorem takeSecond_settling (placed : Nat) (s : State) (x : SecondTaker) : Settling s (takeSecond placed s x) := by
  cases x with
  | turnMeter => exact .unheard (turnMeterSecond_work s) (turnMeterSecond_heard s)
  | accountingMeters => exact .unheard (metersSecond_work s) (metersSecond_heard s)
  | handoverWindows => exact windowsSecond_settling s
  | issueWindows => exact .unheard (issuesSecond_work s) (issuesSecond_heard s)
  | missingTimers => exact .unheard (missingSecond_work s) (missingSecond_heard s)
  | checkDwell => exact dwellSecond_settling placed s
  | clockReturn => exact .unheard (clockReturn_work s) (clockReturn_heard s)

theorem secondEvent_settling (s : State) (order : List SecondTaker) : Settling s (secondEvent s order) :=
  ((Settling.clock s _).trans (Settling.foldl (takeSecond_settling _) _ _)).trans (.clock _ _)

theorem clockPeriod_settling (s : State) : Settling s (clockPeriod s) := by
  unfold clockPeriod
  split
  exacts [.clock s _, (Settling.clock s _).trans (secondEvent_settling _ _)]

theorem referenceGap_settling (s : State) : Settling s (referenceGap s) := by
  have hwork := referenceGap_work s
  revert hwork
  unfold referenceGap
  split
  · exact fun hwork => .unheard hwork (loseReference_heard s)
  · exact fun _ => .refl s
  · exact fun _ => .clock s _
  · exact fun _ => .clock s _

theorem stableReached_settling (s : State) : Settling s (stableReached s) := by
  unfold stableReached
  split
  · split
    exacts [.clock s _, .refl s]
  · exact .refl s

theorem edgeArrives_settling (s : State) : Settling s (edgeArrives s) := by
  unfold edgeArrives
  split
  exacts [clockPeriod_settling s, .clock s _, .refl s, .refl s]

end Sys2Proof.Machine
end

