-- ==== Sys2Proof/Proofs/SourcesSettled.lean ====
section
/-! O58: every service, every command and every step settles (`step_settling`). -/

namespace Sys2Proof.Machine

/-! ### Services of requests (R171) -/

theorem serveCloseSession_settling (body : List Byte) (s : State) : Settling s (serveCloseSession body s).1 := by
  unfold serveCloseSession
  split
  · split
    exacts [.event ((quietHall_work s).trans (settleEvent_work _ _ _ _)), .refl s]
  · exact .refl s

theorem serveResetAudio_settling (body : List Byte) (s : State) : Settling s (serveResetAudio body s).1 := by
  unfold serveResetAudio
  split
  exacts [.event (resetAudioState_work s), .refl s]

theorem serveWriteChannel_settling (body : List Byte) (s : State) : Settling s (serveWriteChannel body s).1 := by
  have hwork := serveWriteChannel_work body s
  revert hwork
  fun_cases serveWriteChannel body s
  exacts [fun _ => .refl s, fun _ => .refl s, .event, fun _ => .refl s]

theorem serveSetFloorLanguage_settling (body : List Byte) (s : State) :
    Settling s (serveSetFloorLanguage body s).1 := by
  have hwork := serveSetFloorLanguage_work body s
  revert hwork
  fun_cases serveSetFloorLanguage body s
  exacts [.event, fun _ => .refl s, fun _ => .refl s]

theorem serveStartAnnouncement_settling (body : List Byte) (s : State) :
    Settling s (serveStartAnnouncement body s).1 := by
  unfold serveStartAnnouncement
  split
  · split
    · exact .refl s
    · extract_lets set
      clear_value set
      split
      · exact .refl s
      · split
        exacts [.refl s, .event (beginAnnouncement_work s _ _)]
  · exact .refl s

theorem serveStopAnnouncement_settling (body : List Byte) (s : State) :
    Settling s (serveStopAnnouncement body s).1 := by
  unfold serveStopAnnouncement
  split
  · split
    · exact .refl s
    · split
      exacts [.event (stopInput_work s _ _), .refl s]
  · exact .refl s

theorem serveWriteBooth_settling (body : List Byte) (s : State) : Settling s (serveWriteBooth body s).1 := by
  unfold serveWriteBooth
  split
  · split
    · rename_i hb
      split
      · dsimp only
        split
        · exact .refl s
        · rename_i hfree
          exact storeConfig_settling hb.1 hb.2 (clampConfig_fits _ _ _ _ _ _ _) hfree
      · exact .refl s
    · exact .refl s
  · exact .refl s

theorem serveForceOutputOff_settling (body : List Byte) (s : State) : Settling s (serveForceOutputOff body s).1 := by
  unfold serveForceOutputOff
  split
  · split
    · split
      exacts [forceOff_settling s _, .refl s]
    · exact .refl s
  · exact .refl s

theorem serveStartCheck_settling (body : List Byte) (s : State) : Settling s (serveStartCheck body s).1 := by
  have hwork := serveStartCheck_work body s
  revert hwork
  fun_cases serveStartCheck body s
  exacts [fun _ => .refl s, .event, fun _ => .refl s]

theorem serveAbortCheck_settling (body : List Byte) (s : State) : Settling s (serveAbortCheck body s).1 := by
  have habort : Settling s (abortCheck s) := by
    have hwork := abortCheck_work s
    revert hwork
    unfold abortCheck
    split
    exacts [.event, fun _ => .refl s]
  unfold serveAbortCheck
  split
  exacts [habort, .refl s]

/-- A service that is a work and not heard. -/
theorem Settling.served {serve : List Byte → State → Served} (hw : ∀ body s, Work s (serve body s).1)
    (he : ∀ body s, (serve body s).1.heard = s.heard) (body : List Byte) (s : State) : Settling s (serve body s).1 :=
  .unheard (hw body s) (he body s)

/-- Whatever a request asks for, its service settles (R171). -/
theorem servers_settling : ∀ e ∈ servers, ∀ body s, Settling s (e.2 body s).1 := by
  simp only [servers, List.forall_mem_append, List.forall_mem_cons]
  exact ⟨⟨⟨⟨.served serveReadStatus_work serveReadStatus_heard, .served serveOpenSession_work serveOpenSession_heard,
        serveCloseSession_settling, serveResetAudio_settling, .served serveSetTime_work serveSetTime_heard,
        .served serveWriteLimits_work serveWriteLimits_heard, .served serveReadLimits_work serveReadLimits_heard,
        .served serveReadFault_work serveReadFault_heard, .served serveClearFault_work serveClearFault_heard, nofun⟩,
      serveWriteChannel_settling, .served serveReadChannel_work serveReadChannel_heard, serveSetFloorLanguage_settling,
        .served serveReadSources_work serveReadSources_heard, serveStartAnnouncement_settling,
        serveStopAnnouncement_settling, serveWriteBooth_settling, .served serveReadBooth_work serveReadBooth_heard,
        .served serveReadDesks_work serveReadDesks_heard, serveForceOutputOff_settling,
        .served serveReadDeskRecords_work serveReadDeskRecords_heard, nofun⟩,
      serveStartCheck_settling, serveAbortCheck_settling, .served serveReadCheck_work serveReadCheck_heard,
        .served serveReadReceiver_work serveReadReceiver_heard, .served serveReadRack_work serveReadRack_heard,
        .served serveSetMonitor_work serveSetMonitor_heard, .served serveClearMonitor_work serveClearMonitor_heard,
        .served serveWithdrawReceiver_work serveWithdrawReceiver_heard,
        .served serveRestoreReceiver_work serveRestoreReceiver_heard,
        .served serveWriteSchedule_work serveWriteSchedule_heard,
        .served serveReadListeners_work serveReadListeners_heard, nofun⟩,
      .served serveOpenHire_work serveOpenHire_heard, .served serveCancelHire_work serveCancelHire_heard,
        .served serveDeclareLost_work serveDeclareLost_heard, .served serveReadHire_work serveReadHire_heard,
        .served serveReadSettlement_work serveReadSettlement_heard,
        .served serveTakeSettlement_work serveTakeSettlement_heard,
        .served serveWriteTariff_work serveWriteTariff_heard, .served serveReadTariff_work serveReadTariff_heard,
        .served serveFreezeTariffs_work serveFreezeTariffs_heard,
        .served serveReadDelegation_work serveReadDelegation_heard,
        .served serveClearDelegation_work serveClearDelegation_heard,
        .served serveReadService_work serveReadService_heard, nofun⟩

theorem serveFrame_settling (f : Frame) (s : State) : Settling s (serveFrame f s).1 := by
  unfold serveFrame
  split
  · rename_i e he
    exact servers_settling e (List.mem_of_find?_eq_some he) _ _
  · exact .refl s

/-! ### The control link (R170 to R172) -/

theorem await_settling (s : State) (f : Frame) : Settling s (s.await f) := by
  unfold State.await
  split
  exacts [.link s _, .refl s]

theorem takeRequest_settling (s : State) (f : Frame) {serve : State → Served} (h : ∀ t, Settling t (serve t).1) :
    Settling s (takeRequest s f serve) := by
  unfold takeRequest
  split
  exacts [((Settling.link s _).trans (h _)).trans (.link _ _), await_settling s f]

theorem discardFrame_settling (s : State) (f : Frame) : Settling s (discardFrame s f) := by
  unfold discardFrame
  split
  exacts [.link s _, await_settling s f]

theorem passFrame_settling (s : State) (f : Frame) : Settling s (passFrame s f) := by
  unfold passFrame
  split
  exacts [discardFrame_settling s f, takeRequest_settling s f (serveFrame_settling f)]

theorem receiveByte_settling (s : State) (b : LineByte) : Settling s (receiveByte s b) := by
  unfold receiveByte
  split
  · dsimp only
    split
    exacts [(Settling.link s _).trans (passFrame_settling _ _), .link s _]
  · exact .refl s

theorem takeHeld_settling (s : State) : Settling s (takeHeld s) := by
  unfold takeHeld
  split
  · split
    exacts [passFrame_settling s _, .refl s]
  · exact .refl s

/-! ### Answers of the links (R87, R165) -/

theorem consoleAnswer_settling (s : State) (b : Nat) (x : ConsoleContent) : Settling s (consoleAnswer s b x) := by
  have htake : b ≤ 24 → Settling s (takeConsoleReply s b x) := fun hb => by
    have hne : b ≠ referenceUnit := by unfold referenceUnit; omega
    unfold takeConsoleReply
    split
    · split
      · exact unitMiss_settling s hne
      · exact (unitReply_settling s hne).trans (Settling.foldl (fun t e => deskEvent_settling t b e) _ _)
    · split
      · exact (unitReply_settling s hne).trans (reconcileConsole_settling _ b _)
      · exact unitMiss_settling s hne
  unfold consoleAnswer
  split
  · rename_i p _
    split
    · rename_i hp
      have h24 : p.booth ≤ 24 := by simp [isBooth] at hp; exact hp.2
      split
      · rename_i hb; exact htake (hb ▸ h24)
      · exact unitMiss_settling s (by unfold referenceUnit; omega)
    · exact .refl s
  · exact .refl s

theorem sendConsolePoll_settling (s : State) : Settling s (sendConsolePoll s) := by
  have h : (dropFlashes s s.supervisor.nextConsole).supervisor.nextConsole = s.supervisor.nextConsole := rfl
  unfold sendConsolePoll
  dsimp only
  refine (dropFlashes_settling s s.supervisor.nextConsole).trans (.unheard (Change.work ?_) rfl)
  exact .consolePolled { booth := s.supervisor.nextConsole, returnRequest := _, lamps := positions.map (s.lamps _) } rfl
    (by simp [positions])

theorem rackAnswer_settling (s : State) (k : Nat) (x : RackContent) : Settling s (rackAnswer s k x) := by
  have hreports : ∀ l t, (List.foldl (fun t e => rackReport t k e) t l).heard = t.heard := fun l t =>
    State.heard_foldl (fun t e => rackReport_heard t k e) l t
  have htake : k ≤ 16 → Settling s (takeRackReply s k x) := fun hk => by
    have hne : rackUnit k ≠ referenceUnit := by unfold rackUnit referenceUnit; omega
    unfold takeRackReply
    split
    · split
      · exact unitMiss_settling s hne
      · exact (unitReply_settling s hne).trans
          (.unheard (Work.foldl (fun t e => rackReport_work t k e) _ _) (hreports _ _))
    · split
      · exact (unitReply_settling s hne).trans (.unheard (takeInventory_work _ k _) (takeInventory_heard _ k _))
      · exact unitMiss_settling s hne
  unfold rackAnswer
  split
  · rename_i p _
    split
    · rename_i hp
      have h16 : p.rack ≤ 16 := by simp [isRack] at hp; exact hp.2
      split
      · rename_i hk; exact htake (hk ▸ h16)
      · exact unitMiss_settling s (by unfold rackUnit referenceUnit; omega)
    · exact .refl s
  · exact .refl s

/-! ### Every step -/

theorem reset_settled : State.reset.settled :=
  ⟨⟨by decide, by decide⟩, nofun⟩

/-- An operation done on a condition. -/
theorem Settling.ite {s t : State} (c : Bool) (h : c = true → Settling s t) :
    Settling s (if c = true then t else s) := by
  split
  · rename_i hc; exact h hc
  · exact .refl s

/-- A request command is its service, taken. -/
theorem request_settling {s t : State} {k tag : Byte} {body : List Byte} {serve : List Byte → State → Served}
    (h : (k, serve) ∈ servers) (ht : (.next (takeRequest s ⟨k, tag, body⟩ (serve body)) : Answer) = .next t) :
    Settling s t := by
  cases ht
  exact takeRequest_settling s _ (servers_settling (k, serve) h body)

/-- Every command settles. -/
theorem exec_settling {c : Instr} {s t : State} (h : exec c s = .next t) : Settling s t := by
  cases c with
  | powerOnReset =>
    cases h
    have hreset : Settling s State.reset := fun _ =>
      ⟨⟨reset_boothsSound.values, reset_boothsSound.quiet, reset_boothsSound.claims⟩, .inr reset_settled⟩
    exact (hreset.trans (.clock _ { Clock.reset with boundaries := s.clock.boundaries })).trans (.queue _ s.pending)
  | frameReceived bytes => cases h; exact Settling.foldl receiveByte_settling bytes s
  | framerGapTimeout => cases h; exact .link s _
  | unknownKind kind tag body =>
    cases h
    split
    exacts [.refl s, takeRequest_settling s _ .refl]
  | frameSent => cases h; exact (Settling.link s _).trans (takeHeld_settling _)
  | readStatus tag body => exact request_settling (serve := serveReadStatus) (by simp [servers]) h
  | openSession tag body => exact request_settling (serve := serveOpenSession) (by simp [servers]) h
  | closeSession tag body => exact request_settling (serve := serveCloseSession) (by simp [servers]) h
  | resetAudio tag body => exact request_settling (serve := serveResetAudio) (by simp [servers]) h
  | setTime tag body => exact request_settling (serve := serveSetTime) (by simp [servers]) h
  | writeLimits tag body => exact request_settling (serve := serveWriteLimits) (by simp [servers]) h
  | readLimits tag body => exact request_settling (serve := serveReadLimits) (by simp [servers]) h
  | readFault tag body => exact request_settling (serve := serveReadFault) (by simp [servers]) h
  | clearFault tag body => exact request_settling (serve := serveClearFault) (by simp [servers]) h
  | writeChannel tag body => exact request_settling (serve := serveWriteChannel) (by simp [servers]) h
  | readChannel tag body => exact request_settling (serve := serveReadChannel) (by simp [servers]) h
  | setFloorLanguage tag body => exact request_settling (serve := serveSetFloorLanguage) (by simp [servers]) h
  | readSources tag body => exact request_settling (serve := serveReadSources) (by simp [servers]) h
  | startAnnouncement tag body => exact request_settling (serve := serveStartAnnouncement) (by simp [servers]) h
  | stopAnnouncement tag body => exact request_settling (serve := serveStopAnnouncement) (by simp [servers]) h
  | writeBooth tag body => exact request_settling (serve := serveWriteBooth) (by simp [servers]) h
  | readBooth tag body => exact request_settling (serve := serveReadBooth) (by simp [servers]) h
  | readDesks tag body => exact request_settling (serve := serveReadDesks) (by simp [servers]) h
  | forceOutputOff tag body => exact request_settling (serve := serveForceOutputOff) (by simp [servers]) h
  | readDeskRecords tag body => exact request_settling (serve := serveReadDeskRecords) (by simp [servers]) h
  | startCheck tag body => exact request_settling (serve := serveStartCheck) (by simp [servers]) h
  | abortCheck tag body => exact request_settling (serve := serveAbortCheck) (by simp [servers]) h
  | readCheck tag body => exact request_settling (serve := serveReadCheck) (by simp [servers]) h
  | readReceiver tag body => exact request_settling (serve := serveReadReceiver) (by simp [servers]) h
  | readRack tag body => exact request_settling (serve := serveReadRack) (by simp [servers]) h
  | setMonitor tag body => exact request_settling (serve := serveSetMonitor) (by simp [servers]) h
  | clearMonitor tag body => exact request_settling (serve := serveClearMonitor) (by simp [servers]) h
  | withdrawReceiver tag body => exact request_settling (serve := serveWithdrawReceiver) (by simp [servers]) h
  | restoreReceiver tag body => exact request_settling (serve := serveRestoreReceiver) (by simp [servers]) h
  | writeSchedule tag body => exact request_settling (serve := serveWriteSchedule) (by simp [servers]) h
  | readListeners tag body => exact request_settling (serve := serveReadListeners) (by simp [servers]) h
  | openHire tag body => exact request_settling (serve := serveOpenHire) (by simp [servers]) h
  | cancelHire tag body => exact request_settling (serve := serveCancelHire) (by simp [servers]) h
  | declareLost tag body => exact request_settling (serve := serveDeclareLost) (by simp [servers]) h
  | readHire tag body => exact request_settling (serve := serveReadHire) (by simp [servers]) h
  | readSettlement tag body => exact request_settling (serve := serveReadSettlement) (by simp [servers]) h
  | takeSettlement tag body => exact request_settling (serve := serveTakeSettlement) (by simp [servers]) h
  | writeTariff tag body => exact request_settling (serve := serveWriteTariff) (by simp [servers]) h
  | readTariff tag body => exact request_settling (serve := serveReadTariff) (by simp [servers]) h
  | freezeTariffs tag body => exact request_settling (serve := serveFreezeTariffs) (by simp [servers]) h
  | readDelegation tag body => exact request_settling (serve := serveReadDelegation) (by simp [servers]) h
  | clearDelegation tag body => exact request_settling (serve := serveClearDelegation) (by simp [servers]) h
  | readService tag body => exact request_settling (serve := serveReadService) (by simp [servers]) h
  | consoleReply booth content => cases h; exact consoleAnswer_settling s booth content
  | rackReply rack content => cases h; exact rackAnswer_settling s rack content
  | radiatorStatusPoll => cases h; exact .unheard Change.radiatorPolled.work rfl
  | radiatorReply => cases h; exact .ite _ fun _ => unitReply_settling s (by decide)
  | unitPollMiss unit =>
    cases h
    refine .ite _ fun hu => unitMiss_settling s (isPolled_ne ?_)
    exact (Bool.and_eq_true _ _ ▸ hu).1
  | unitDeclaredLost unit =>
    cases h
    refine .ite _ fun hu => unitMiss_settling s (isPolled_ne ?_)
    rw [Bool.and_eq_true, Bool.and_eq_true] at hu
    exact hu.1.1
  | beaconPollSend => cases h; exact .unheard (beaconSlot_work s) (beaconSlot_heard s)
  | beaconReply receiver tuned band signature =>
    cases h
    split
    · split
      exacts [completeReply_settling s _ _ _ _, completeMiss_settling s _]
    · exact .refl s
  | beaconMiss =>
    cases h
    split
    exacts [completeMiss_settling s _, .refl s]
  | missLimitReached receiver =>
    cases h
    split
    exacts [.ite _ fun _ => completeMiss_settling s _, .refl s]
  | secondEvent order => cases h; exact secondEvent_settling s order
  | turnLimitReached booth domain =>
    cases h; exact .ite _ fun _ => .unheard (turnSecond_work s booth domain) (turnSecond_heard s booth domain)
  | overrunLimitReached booth domain =>
    cases h; exact .ite _ fun _ => .unheard (turnSecond_work s booth domain) (turnSecond_heard s booth domain)
  | handoverWindowExpiry booth domain => cases h; exact .ite _ fun _ => windowSecond_settling s booth domain
  | issueWindowExpiry hire =>
    cases h; exact .ite _ fun _ => .unheard (issueSecond_work s hire) (issueSecond_heard s hire)
  | missingTimeReached receiver =>
    cases h; exact .ite _ fun _ => .unheard (reportMissing_work s receiver) (reportMissing_heard s receiver)
  | checkDwellExpiry => cases h; exact .ite _ fun _ => dwellSecond_settling _ s
  | referenceGap => cases h; exact referenceGap_settling s
  | stableTimeReached => cases h; exact stableReached_settling s
  | referenceEdgesResume => cases h; exact edgeArrives_settling s
  | consolePoll =>
    cases h
    split
    exacts [sendConsolePoll_settling s, .refl s]
  | rackPoll =>
    cases h
    split
    exacts [.unheard Change.rackPolled.work rfl, .refl s]
  | replyKindDiscarded kind tag body =>
    cases h
    split
    exacts [discardFrame_settling s _, .refl s]

/-- Every step settles. -/
theorem step_settling {s t : State} (h : step s = .next t) : Settling s t := by
  unfold step at h
  split at h
  · exact (Settling.queue s _).trans (exec_settling h)
  · cases h; exact clockPeriod_settling s

/-- Settles O58: a step leaves what is heard as it was, or ends in a settled event (`step_settling`). -/
theorem sourcesStaySettled : Obligations.SourcesStaySettled := by
  unfold Obligations.SourcesStaySettled
  exact ⟨fun s t hvalues hquiet hclaims hi h => ((step_settling h).keeps ⟨hvalues, hquiet, hclaims⟩).1 hi,
    fun s t hvalues hquiet hclaims hi h => ((step_settling h).keeps ⟨hvalues, hquiet, hclaims⟩).2 hi⟩

end Sys2Proof.Machine
end

