-- ==== Sys2Proof/Proofs/Precedence.lean ====
section
/-! O14 and O16: the effective source of a channel, row by row of R19, and READ_SOURCES. -/

namespace Sys2Proof.Machine

/-! ### Serving outputs (R20) -/

theorem State.serving_eq_none {s : State} {c : Nat} (h : ∀ o ∈ (s.planEntry c).outputs, s.liveOn o = none) :
    s.serving c = none := by
  unfold State.serving
  rw [List.findSome?_eq_none_iff]
  exact fun o ho => by rw [h o ho]; rfl

/-- The one output of a channel on which a desk is live serves it. -/
theorem State.serving_eq_some {s : State} {c d : Nat} {o : BoothOutput} (ho : o ∈ (s.planEntry c).outputs)
    (hd : s.liveOn o = some d) (hone : ∀ x ∈ (s.planEntry c).outputs, x ≠ o → s.liveOn x = none) :
    s.serving c = some (o, d) := by
  have key : ∀ l : List BoothOutput, o ∈ l → (∀ x ∈ l, x ≠ o → s.liveOn x = none) →
      (l.findSome? fun x => (s.liveOn x).map fun e => (x, e)) = some (o, d) := by
    intro l
    induction l with
    | nil => exact nofun
    | cons x xs ih =>
      intro hmem hnone
      by_cases hx : x = o
      · subst hx; rw [List.findSome?_cons, hd]; rfl
      · rw [List.findSome?_cons, hnone x List.mem_cons_self hx]
        exact ih ((List.mem_cons.mp hmem).resolve_left (Ne.symm hx)) fun y hy => hnone y (List.mem_cons_of_mem _ hy)
  exact key _ ho hone

/-! ### Rows of R19 -/

section
variable {s : State} {c : Nat}

/-- Row 1: an ACTIVE announcement. -/
theorem State.primary_active {i : AnnInput} (h : s.announcement c = .active i) :
    s.primary c = some ⟨.announce i, false, .announcement i⟩ := by unfold State.primary; rw [h]

/-- Row 2: the desk that serves, where no announcement is ACTIVE. -/
theorem State.primary_serving {o : BoothOutput} {d : Nat} (h : ∀ i, s.announcement c ≠ .active i)
    (hs : s.serving c = some (o, d)) : s.primary c = some (s.boothSource o d) := by
  unfold State.primary
  cases ha : s.announcement c with
  | active i => exact absurd ha (h i)
  | none => rw [hs]
  | deferred i => rw [hs]

/-- Row 3: autofloor, where no announcement is ACTIVE and no desk serves. -/
theorem State.primary_unserved (h : ∀ i, s.announcement c ≠ .active i) (hs : s.serving c = none) :
    s.primary c = if s.autofloors c then some ⟨.autofloor, false, .floor⟩ else none := by
  unfold State.primary
  cases ha : s.announcement c with
  | active i => exact absurd ha (h i)
  | none => rw [hs]
  | deferred i => rw [hs]

theorem State.autofloors_iff : s.autofloors c = true ↔ (s.planEntry c).language ≠ 0 ∧
    (s.planEntry c).autofloor = true ∧ s.plan.floorLanguage = (s.planEntry c).language := by
  simp [State.autofloors, and_assoc]

/-- The identity of rows 1 to 3: ANNOUNCE, BOOTH or AUTOFLOOR. -/
theorem State.primary_identity {x : Source} (h : s.primary c = some x) :
    (∃ i, x.identity = .announce i) ∨ (∃ o, x.identity = .booth o) ∨ x.identity = .autofloor := by
  unfold State.primary at h
  split at h
  · obtain rfl := Option.some.inj h; exact .inl ⟨_, rfl⟩
  · split at h
    · obtain rfl := Option.some.inj h; exact .inr (.inl ⟨_, rfl⟩)
    · split at h
      · obtain rfl := Option.some.inj h; exact .inr (.inr rfl)
      · cases h

theorem State.effective_of_primary {x : Source} (hc : c ≠ 0) (h : s.primary c = some x) : s.effective c = x := by
  unfold State.effective; rw [if_neg hc, h]

/-- Rows 4 and 5: the signature under test, or the fallback. -/
theorem State.effective_of_none (hc : c ≠ 0) (h : s.primary c = none) :
    s.effective c = if s.check.current = some c then ⟨.test, false, .signature⟩ else s.fallbackSource c := by
  unfold State.effective; rw [if_neg hc, h]

/-- Row 5 is UNUSED, FALLBACK or PIVOT. -/
theorem State.fallbackSource_identity :
    (∃ q, (s.fallbackSource c).identity = .pivot q) ∨ (s.fallbackSource c).identity = .fallback ∨
      (s.fallbackSource c).identity = .unused := by
  unfold State.fallbackSource
  split
  · exact .inr (.inr rfl)
  · split
    · exact .inr (.inl rfl)
    · split
      exacts [.inl ⟨_, rfl⟩, .inr (.inl rfl)]
    · exact .inr (.inl rfl)

/-- A channel has no source of rows 1 to 3 exactly when its effective source is TEST, PIVOT, FALLBACK or UNUSED. -/
theorem State.primary_eq_none_iff (hc : c ≠ 0) :
    s.primary c = none ↔ (s.effective c).identity = .test ∨ (∃ q, (s.effective c).identity = .pivot q) ∨
      (s.effective c).identity = .fallback ∨ (s.effective c).identity = .unused := by
  cases hp : s.primary c with
  | none =>
    rw [State.effective_of_none hc hp]
    simp only [true_iff]
    split
    exacts [.inl rfl, .inr State.fallbackSource_identity]
  | some x =>
    rw [State.effective_of_primary hc hp]
    rcases State.primary_identity hp with ⟨i, h⟩ | ⟨o, h⟩ | h <;> simp [h]

/-- The fallback of a channel whose fallback is PIVOT: its pivot while that holds a source of rows 1 to 3 (R23). -/
theorem State.fallbackSource_pivot {p : Nat} (hlang : (s.planEntry c).language ≠ 0)
    (hfall : (s.planEntry c).fallback = .pivot) (hpivot : (s.planEntry c).pivot = some p) :
    s.fallbackSource c =
      ((s.primary p).map fun x => ⟨.pivot p, false, x.program⟩).getD ⟨.fallback, false, .floor⟩ := by
  unfold State.fallbackSource
  rw [if_neg hlang, hfall, hpivot]
  dsimp only
  cases s.primary p <;> rfl

theorem State.fallbackSource_floor (hlang : (s.planEntry c).language ≠ 0) (hfall : (s.planEntry c).fallback = .floor) :
    s.fallbackSource c = ⟨.fallback, false, .floor⟩ := by unfold State.fallbackSource; rw [if_neg hlang, hfall]

theorem State.fallbackSource_silence (hlang : (s.planEntry c).language ≠ 0)
    (hfall : (s.planEntry c).fallback = .silence) : s.fallbackSource c = ⟨.fallback, false, .silence⟩ := by
  unfold State.fallbackSource; rw [if_neg hlang, hfall]
end

/-- Settles O14: the rows of R19 in their order, each a lemma above. -/
theorem sourcePrecedence : Obligations.SourcePrecedence := by
  unfold Obligations.SourcePrecedence
  intro s c
  refine ⟨fun i hi => ?_, fun hann => ⟨fun hc => ?_, fun o d hc ho hd hsel hone => ?_, fun hc hnone => ?_⟩⟩
  · by_cases hc : c = 0
    · subst hc; unfold State.effective; rw [if_pos rfl, hi]
    · exact State.effective_of_primary hc (State.primary_active hi)
  · subst hc
    unfold State.effective
    rw [if_pos rfl]
    cases ha : s.announcement 0 with
    | active i => exact absurd ha (hann i)
    | none => rfl
    | deferred i => rfl
  · have hserving := State.serving_eq_some ho (State.liveOn_eq_some.mpr ⟨hd, hsel⟩) hone
    exact State.effective_of_primary hc (State.primary_serving hann hserving)
  · have hprimary := State.primary_unserved hann (State.serving_eq_none hnone)
    refine ⟨fun hauto => ?_, fun hauto => ?_⟩
    · rw [if_pos (State.autofloors_iff.mpr hauto)] at hprimary
      exact State.effective_of_primary hc hprimary
    · rw [if_neg fun h => hauto (State.autofloors_iff.mp h)] at hprimary
      rw [State.effective_of_none hc hprimary]
      refine ⟨fun htest => if_pos htest, fun htest => ?_⟩
      rw [if_neg htest]
      refine ⟨fun hlang => by unfold State.fallbackSource; rw [if_pos hlang]; rfl, fun hlang =>
        ⟨State.fallbackSource_floor hlang, State.fallbackSource_silence hlang, fun p hfall hpivot hp => ⟨?_, ?_⟩⟩⟩
      · intro hheld
        rw [State.fallbackSource_pivot hlang hfall hpivot]
        cases hpp : s.primary p with
        | some x => rw [State.effective_of_primary (by omega) hpp]; rfl
        | none =>
          have hno := (State.primary_eq_none_iff (by omega)).mp hpp
          rcases hheld with ⟨i, h⟩ | ⟨o, h⟩ | h <;> simp [h] at hno
      · intro hheld
        rw [State.fallbackSource_pivot hlang hfall hpivot, (State.primary_eq_none_iff (by omega)).mpr hheld]
        rfl

/-! ### READ_SOURCES (R27) -/

theorem exec_readSources (tag : Byte) (body : List Byte) (s : State) :
    exec (.readSources tag body) s = .next (takeRequest s ⟨0x13, tag, body⟩ (serveReadSources body)) := rfl

/-- The reply body of READ_SOURCES. -/
def sourcesBody (s : State) : List Byte :=
  [0x00, byteOf s.plan.floorLanguage] ++ allChannels.flatMap (channelRecord s) ++ allBooths.flatMap (boothRecord s)

theorem serveReadSources_nil (s : State) : serveReadSources [] s = (s, sourcesBody s) := rfl

theorem channelRecord_length (s : State) (c : Nat) : (channelRecord s c).length = 7 := by
  unfold channelRecord Identity.bytes
  cases (s.source c).identity <;> rfl

theorem sourcesBody_length (s : State) : (sourcesBody s).length = 298 := by
  have hbooth : ∀ b, (boothRecord s b).length = 3 := fun _ => rfl
  simp [sourcesBody, List.length_flatMap, channelRecord_length, hbooth, allChannels, allBooths]

/-- Settles O16: the body that `serveReadSources` forms, record by record, and its length. -/
theorem readSources : Obligations.ReadSources := by
  unfold Obligations.ReadSources
  intro tag s h
  refine ⟨sourcesBody s, ?_, ?_, sourcesBody_length s⟩
  · rw [exec_readSources, takeRequest_replied h (serveReadSources_nil _)]
    rfl
  · refine congrArg₂ (· ++ ·) (congrArg (_ ++ List.flatMap · (List.range 32)) (funext fun c => ?_))
      (congrArg (List.flatMap · (List.range' 1 24)) (funext fun b => ?_))
    · refine congrArg₂ (· ++ ·) ?_ ?_
      · rcases (s.source c).identity with ⟨⟨⟩⟩ | ⟨b, ⟨⟩⟩ | _ | _ | _ | _ | _ | _ <;> rfl
      · rcases s.announcement c with _ | ⟨⟨⟩⟩ | ⟨⟨⟩⟩ <;> rfl
    · unfold boothRecord
      cases s.relay b <;> cases (s.feed b).relaying <;> rfl

end Sys2Proof.Machine
end

