-- ==== Sys2Proof/Proofs/Announcing.lean ====
section
/-! O15: START_ANNOUNCEMENT and STOP_ANNOUNCEMENT. -/

namespace Sys2Proof.Machine

/-! ### Channel sets (R29) -/

theorem mem_channelsOf {set : ChannelSet} {c : Nat} : c ∈ channelsOf set ↔ set.getLsbD c = true := by
  simp only [channelsOf, allChannels, List.mem_filter, List.mem_range, and_iff_right_iff_imp]
  exact BitVec.lt_of_getLsbD

/-- The set of the channels for which `p` holds names a channel exactly when `p` holds for it. -/
theorem setOf_bit (p : Nat → Bool) (c : Nat) : (setOf p).getLsbD c = (decide (c < 32) && p c) := by
  have key : ∀ (cs : List Nat) (acc : ChannelSet), (∀ d ∈ cs, d < 32) →
      (cs.foldl (fun acc d => if p d then acc ||| (1#32 <<< d) else acc) acc).getLsbD c =
        (acc.getLsbD c || (decide (c ∈ cs) && p c)) := by
    intro cs
    induction cs with
    | nil => simp
    | cons d cs ih =>
      intro acc hlt
      have hd := hlt d List.mem_cons_self
      rw [List.foldl_cons, ih _ fun x hx => hlt x (List.mem_cons_of_mem _ hx)]
      by_cases hc : c = d
      · subst hc
        by_cases hp : p c = true <;> simp [hp, hd]
      · have hbit : (1#32 <<< d).getLsbD c = false := by
          simp only [BitVec.getLsbD_shiftLeft, BitVec.getLsbD_one]
          by_cases hcd : c < d
          · simp [hcd]
          · have : c - d ≠ 0 := by omega
            simp [this]
        split <;> simp [hc, hbit]
  rw [setOf, key allChannels 0#32 fun d hd => List.mem_range.mp hd]
  simp [allChannels]

/-- The input a byte codes (R26). -/
theorem inputOfByte_eq_none {n : Byte} (h1 : n ≠ 1) (h2 : n ≠ 2) : inputOfByte n = none := by
  unfold inputOfByte; rw [if_neg h1, if_neg h2]

theorem inputOfByte_code {n : Byte} {i : AnnInput} (h : n = (match i with | .one => 1 | .two => 2 : Byte)) :
    inputOfByte n = some i := by
  cases i <;> subst h <;> rfl

/-! ### Announcements entered (R29, R31) -/

/-- The announcement states of a list of channels set touch the table of announcements alone. -/
theorem foldl_setAnnouncement (f : Nat → AnnState) (cs : List Nat) (s : State) :
    cs.foldl (fun t c => t.setAnnouncement c (f c)) s =
      { s with arbiter := { s.arbiter with
        announcements := cs.foldl (fun t c => t.write .none c (f c)) s.arbiter.announcements } } := by
  induction cs generalizing s with
  | nil => rfl
  | cons c cs ih => rw [List.foldl_cons, ih]; rfl

/-- The state in which each channel of `set` has the announcement state that `f` gives and input `i` is set to `x`. -/
def announce (s : State) (set : ChannelSet) (f : Nat → AnnState) (i : AnnInput) (x : Option ChannelSet) : State :=
  ((channelsOf set).foldl (fun t c => t.setAnnouncement c (f c)) s).setInput i x

section
variable (s : State) (set : ChannelSet) (f : Nat → AnnState) (i : AnnInput) (x : Option ChannelSet)

/-- Entering announcements touches the announcements and the inputs alone. -/
theorem announce_frame : announce s set f i x =
    { s with arbiter := { s.arbiter with
      announcements := (announce s set f i x).arbiter.announcements
      inputOne := (announce s set f i x).arbiter.inputOne
      inputTwo := (announce s set f i x).arbiter.inputTwo } } := by
  unfold announce
  rw [foldl_setAnnouncement]
  cases i <;> rfl

theorem announce_announcement (c : Nat) : (announce s set f i x).announcement c =
    if set.getLsbD c = true then f c else s.announcement c := by
  have h : (announce s set f i x).arbiter.announcements =
      (channelsOf set).foldl (fun t c => t.write .none c (f c)) s.arbiter.announcements := by
    unfold announce
    rw [foldl_setAnnouncement]
    cases i <;> rfl
  unfold State.announcement
  rw [h, Table.read_foldl_write]
  simp only [mem_channelsOf]

theorem announce_inputSet (j : AnnInput) : (announce s set f i x).inputSet j = if j = i then x else s.inputSet j := by
  unfold announce
  rw [State.inputSet_setInput, foldl_setAnnouncement]
  cases j <;> rfl

/-- What a settled event that enters announcements leaves alone. -/
theorem settled_announce_keeps (before : State) :
    s.sourcesFollow (settleEvent before [] [] (announce s set f i x)) ∧
      (settleEvent before [] [] (announce s set f i x)).booths = s.booths ∧
      (settleEvent before [] [] (announce s set f i x)).turns = s.turns ∧
      s.keepsFleet (settleEvent before [] [] (announce s set f i x)) ∧
      s.keepsMoney (settleEvent before [] [] (announce s set f i x)) ∧
      s.keepsRest (settleEvent before [] [] (announce s set f i x)) := by
  have hframe := announce_frame s set f i x
  generalize announce s set f i x = u at hframe
  refine ⟨⟨settleEvent_settled _ _ _ _, ?_, ?_, ?_⟩, ?_, ?_, ⟨?_, ?_, ?_⟩, ⟨?_, ?_, ?_⟩, ?_, ?_, ?_, ?_⟩ <;>
    rw [settleEvent_frame, hframe]
end

/-! ### START_ANNOUNCEMENT (R29) -/

theorem exec_startAnnouncement (tag : Byte) (body : List Byte) (s : State) :
    exec (.startAnnouncement tag body) s = .next (takeRequest s ⟨0x14, tag, body⟩ (serveStartAnnouncement body)) := rfl

theorem State.handingOver_iff (s : State) (c : Nat) :
    s.handingOver c = true ↔ ∃ o d, s.serving c = some (o, d) ∧ (s.domainOf o).requester ≠ none := by
  unfold State.handingOver
  cases s.serving c with
  | none => simp
  | some x => obtain ⟨o, d⟩ := x; simp [Option.isSome_iff_ne_none]

theorem beginAnnouncement_eq (s : State) (i : AnnInput) (set : ChannelSet) :
    beginAnnouncement s i set = settleEvent s [] []
      (announce s set (fun c => if s.handingOver c then .deferred i else .active i) i (some set)) := rfl

/-- START_ANNOUNCEMENT is refused exactly while its input runs or a named channel has an announcement (R29). -/
theorem State.announcementRefusal_engaged {s : State} {i : AnnInput} {set : ChannelSet}
    (h : s.inputSet i ≠ none ∨ ∃ c, set.getLsbD c = true ∧ s.announcement c ≠ .none) :
    s.announcementRefusal i set = some .engaged := by
  unfold State.announcementRefusal
  split
  · rfl
  · obtain ⟨c, hc, hann⟩ := h.resolve_left ‹_›
    rw [if_pos (List.any_eq_true.mpr ⟨c, mem_channelsOf.mpr hc, decide_eq_true hann⟩)]

theorem State.announcementRefusal_none {s : State} {i : AnnInput} {set : ChannelSet} (hi : s.inputSet i = none)
    (hset : ∀ c, set.getLsbD c = true → s.announcement c = .none) : s.announcementRefusal i set = none := by
  unfold State.announcementRefusal
  rw [if_neg (not_not.mpr hi), if_neg]
  rw [List.any_eq_true]
  rintro ⟨c, hc, hann⟩
  exact of_decide_eq_true hann (hset c (mem_channelsOf.mp hc))

section
variable {n : Byte} {i : AnnInput} {set : ChannelSet}

theorem serveStartAnnouncement_range (h : inputOfByte n = none ∨ set = 0) (s : State) :
    serveStartAnnouncement (n :: be32 set.toNat) s = (s, [0x03]) := by
  simp only [be32, serveStartAnnouncement, setOfBytes_be32]
  split
  · rfl
  · rw [if_pos (h.resolve_left (by simp [*]))]; rfl

theorem serveStartAnnouncement_refused (hn : inputOfByte n = some i) (hset : set ≠ 0) {s : State} {t : Status}
    (ht : s.announcementRefusal i set = some t) :
    serveStartAnnouncement (n :: be32 set.toNat) s = (s, [t.code]) := by
  simp only [be32, serveStartAnnouncement, setOfBytes_be32, hn, if_neg hset, ht]
  rfl

theorem serveStartAnnouncement_begun (hn : inputOfByte n = some i) (hset : set ≠ 0) {s : State}
    (ht : s.announcementRefusal i set = none) :
    serveStartAnnouncement (n :: be32 set.toNat) s =
      (beginAnnouncement s i set, 0x00 :: be32 (setOf fun c => set.getLsbD c && s.handingOver c).toNat) := by
  simp only [be32, serveStartAnnouncement, setOfBytes_be32, hn, if_neg hset, ht]
  rfl

/-- What a settled event that enters announcements leaves of a request's state, answered. -/
theorem startAnnouncement_begun {tag : Byte} {s : State} (h : s.canTake ⟨0x14, tag, n :: be32 set.toNat⟩)
    (hn : inputOfByte n = some i) (hset : set ≠ 0) (hi : s.inputSet i = none)
    (hfree : ∀ c, set.getLsbD c = true → s.announcement c = .none) :
    ∃ t, ∃ deferred : ChannelSet, exec (.startAnnouncement tag (n :: be32 set.toNat)) s = .next t ∧
      (∀ c, deferred.getLsbD c = true ↔
        set.getLsbD c = true ∧ ∃ o d, s.serving c = some (o, d) ∧ (s.domainOf o).requester ≠ none) ∧
      (∀ c, deferred.getLsbD c = true → t.announcement c = .deferred i) ∧
      (∀ c, set.getLsbD c = true → deferred.getLsbD c = false → t.announcement c = .active i) ∧
      (∀ c, set.getLsbD c = false → t.announcement c = s.announcement c) ∧
      t.inputSet i = some set ∧ (∀ j, j ≠ i → t.inputSet j = s.inputSet j) ∧
      s.sourcesFollow t ∧ t.booths = s.booths ∧ t.turns = s.turns ∧
      s.keepsFleet t ∧ s.keepsMoney t ∧ s.keepsRest t ∧
      s.answers t 0x14 tag (0x00 :: be32 deferred.toNat) ∧
      s.answersSettled t 0x14 tag (0x00 :: be32 deferred.toNat) (sourceNotices s t) := by
  set r := s.reserve ⟨0x14, tag, n :: be32 set.toNat⟩ with hr
  have hfree' : r.announcementRefusal i set = none := State.announcementRefusal_none hi hfree
  rw [exec_startAnnouncement, takeRequest_served h (serveStartAnnouncement_begun hn hset hfree'), beginAnnouncement_eq]
  set f : Nat → AnnState := fun c => if r.handingOver c then .deferred i else .active i
  set u := announce r set f i (some set) with hu
  have hbits : ∀ c, (setOf fun c => set.getLsbD c && r.handingOver c).getLsbD c =
      (set.getLsbD c && s.handingOver c) := fun c => by
    rw [setOf_bit]
    by_cases hc : set.getLsbD c = true
    · simp [BitVec.lt_of_getLsbD hc]; rfl
    · simp [hc]
  have hann : ∀ c, (settleEvent r [] [] u).announcement c =
      if set.getLsbD c = true then f c else s.announcement c := fun c =>
    (settleEvent_announcement _ _ _ _ c).trans (announce_announcement r set f i (some set) c)
  have hinput : ∀ j, (settleEvent r [] [] u).inputSet j = if j = i then some set else s.inputSet j := fun j =>
    (settleEvent_inputSet _ _ _ _ j).trans (announce_inputSet r set f i (some set) j)
  have hlink : u.link = r.link := by rw [hu, announce_frame]
  have hcheck : u.check = s.check := by rw [hu, announce_frame]; rfl
  obtain ⟨hsources, hbooths, hturns, hfleet, hmoney, hrest⟩ := settled_announce_keeps r set f i (some set) r
  refine ⟨_, _, rfl, fun c => ?_, fun c hc => ?_, fun c hc hd => ?_, fun c hc => ?_, (hinput i).trans (if_pos rfl),
    fun j hj => (hinput j).trans (if_neg hj), hsources, hbooths, hturns, hfleet, hmoney, hrest,
    settleEvent_answers _ _ _ hlink, settleEvent_answersSettled hlink hcheck⟩
  · rw [hbits, Bool.and_eq_true, State.handingOver_iff]
  · rw [hbits, Bool.and_eq_true] at hc
    exact (hann c).trans ((if_pos hc.1).trans (if_pos hc.2))
  · rw [hbits, hc, Bool.true_and] at hd
    exact (hann c).trans ((if_pos hc).trans
      (if_neg (by rw [show r.handingOver c = s.handingOver c from rfl, hd]; decide)))
  · exact (hann c).trans (if_neg (by simp [hc]))
end

/-! ### STOP_ANNOUNCEMENT (R31) -/

theorem exec_stopAnnouncement (tag : Byte) (body : List Byte) (s : State) :
    exec (.stopAnnouncement tag body) s = .next (takeRequest s ⟨0x15, tag, body⟩ (serveStopAnnouncement body)) := rfl

theorem stopInput_eq (s : State) (i : AnnInput) (set : ChannelSet) :
    stopInput s i set = settleEvent s [] [] (announce s set (fun _ => .none) i none) := rfl

section
variable {n : Byte} {i : AnnInput}

theorem serveStopAnnouncement_range (hn : inputOfByte n = none) (s : State) :
    serveStopAnnouncement [n] s = (s, [0x03]) := by simp only [serveStopAnnouncement, hn]; rfl

theorem serveStopAnnouncement_stopped (hn : inputOfByte n = some i) {s : State} (hi : s.inputSet i = none) :
    serveStopAnnouncement [n] s = (s, [0x00]) := by simp only [serveStopAnnouncement, hn, hi]; rfl

theorem serveStopAnnouncement_running (hn : inputOfByte n = some i) {s : State} {set : ChannelSet}
    (hi : s.inputSet i = some set) : serveStopAnnouncement [n] s = (stopInput s i set, [0x00]) := by
  simp only [serveStopAnnouncement, hn, hi]; rfl

theorem stopAnnouncement_stopped {tag : Byte} {s : State} (h : s.canTake ⟨0x15, tag, [n]⟩)
    (hn : inputOfByte n = some i) {set : ChannelSet} (hi : s.inputSet i = some set) :
    ∃ t, exec (.stopAnnouncement tag [n]) s = .next t ∧
      (∀ c, set.getLsbD c = true → t.announcement c = .none) ∧
      (∀ c, set.getLsbD c = false → t.announcement c = s.announcement c) ∧
      t.inputSet i = none ∧ (∀ j, j ≠ i → t.inputSet j = s.inputSet j) ∧
      s.sourcesFollow t ∧ t.booths = s.booths ∧ t.turns = s.turns ∧
      s.keepsFleet t ∧ s.keepsMoney t ∧ s.keepsRest t ∧ s.answers t 0x15 tag [0x00] ∧
      s.answersSettled t 0x15 tag [0x00] (sourceNotices s t) := by
  set r := s.reserve ⟨0x15, tag, [n]⟩
  have hi' : r.inputSet i = some set := by rw [← hi]; cases i <;> rfl
  rw [exec_stopAnnouncement, takeRequest_served h (serveStopAnnouncement_running hn hi'), stopInput_eq]
  set u := announce r set (fun _ => .none) i none with hu
  have hann : ∀ c, (settleEvent r [] [] u).announcement c = if set.getLsbD c = true then .none else s.announcement c :=
    fun c => (settleEvent_announcement _ _ _ _ c).trans (announce_announcement r set (fun _ => .none) i none c)
  have hinput : ∀ j, (settleEvent r [] [] u).inputSet j = if j = i then none else s.inputSet j := fun j =>
    (settleEvent_inputSet _ _ _ _ j).trans (announce_inputSet r set (fun _ => .none) i none j)
  have hlink : u.link = r.link := by rw [hu, announce_frame]
  have hcheck : u.check = s.check := by rw [hu, announce_frame]; rfl
  obtain ⟨hsources, hbooths, hturns, hfleet, hmoney, hrest⟩ := settled_announce_keeps r set (fun _ => .none) i none r
  exact ⟨_, rfl, fun c hc => (hann c).trans (if_pos hc), fun c hc => (hann c).trans (if_neg (by simp [hc])),
    (hinput i).trans (if_pos rfl), fun j hj => (hinput j).trans (if_neg hj), hsources, hbooths, hturns, hfleet, hmoney,
    hrest, settleEvent_answers _ _ _ hlink, settleEvent_answersSettled hlink hcheck⟩
end

/-- Settles O15: refusals in order, and the settled events of an announcement begun and of an input stopped. -/
theorem announcements : Obligations.Announcements := by
  unfold Obligations.Announcements
  refine ⟨fun tag n set s h => ⟨fun hbad => ?_, fun i hn hset => ⟨fun hheld => ?_, fun hfree => ?_⟩⟩,
    fun tag n s h => ⟨fun hbad => ?_, fun i hn => ⟨fun hi => ?_, fun set hi => ?_⟩⟩⟩
  · rw [exec_startAnnouncement, takeRequest_replied h (serveStartAnnouncement_range
      (hbad.imp (fun h => inputOfByte_eq_none h.1 h.2) id) _)]
  · rw [exec_startAnnouncement, takeRequest_replied h (serveStartAnnouncement_refused (t := .engaged)
      (inputOfByte_code hn) hset (State.announcementRefusal_engaged ?_))]
    · rfl
    · exact hheld
  · exact startAnnouncement_begun h (inputOfByte_code hn) hset hfree.1 hfree.2
  · rw [exec_stopAnnouncement, takeRequest_replied h (serveStopAnnouncement_range
      (inputOfByte_eq_none hbad.1 hbad.2) _)]
  · rw [exec_stopAnnouncement, takeRequest_replied h (serveStopAnnouncement_stopped (inputOfByte_code hn) ?_)]
    exact hi
  · exact stopAnnouncement_stopped h (inputOfByte_code hn) hi

end Sys2Proof.Machine
end

