-- ==== Sys2Proof/Proofs/DomainEvents.lean ====
section
/-! A domain change as one event with its notices (`State.domainEvent`), carried through a flash, a reply and a console's
reply; O20 and O24, FORCE_OUTPUT_OFF and the expiry of the handover window. -/

namespace Sys2Proof.Machine

/-! ### A flash behind an event (R41) -/

theorem flash_frame (s : State) (b d : Nat) :
    flash s b d = { s with booths := { s.booths with desks := (flash s b d).booths.desks } } := by
  unfold flash
  split <;> rfl

theorem flash_desk (s : State) {b d x y : Nat} (hd : d ≤ 7) (hy : y ≤ 7) :
    (flash s b d).desk x y =
      if x = b ∧ y = d ∧ (s.unit b).state ≠ .lost then { s.desk x y with flash := true } else s.desk x y := by
  unfold flash
  split
  · rename_i hlost; rw [if_neg fun h => h.2.2 hlost]
  · rename_i hheard
    rw [State.desk_setDesk _ _ _ _ _ _ hd hy]
    by_cases hxy : x = b ∧ y = d
    · rw [if_pos hxy, if_pos ⟨hxy.1, hxy.2, hheard⟩, hxy.1, hxy.2]
    · rw [if_neg hxy, if_neg fun h => hxy ⟨h.1, h.2.1⟩]

/-- The check follows an event as far as the sources and the check go. -/
theorem State.checkFollows.congr {s t u : State} {late : List Notice} (h : s.checkFollows t late)
    (hcheck : u.check = t.check) (htest : u.withoutTest = t.withoutTest) : s.checkFollows u late := by
  unfold State.checkFollows State.preempted State.openToTest State.result State.progress at h ⊢
  rw [hcheck, htest]
  exact h

theorem State.settles.flash {s t : State} {early : List Notice} (h : s.settles t early) (b d : Nat) :
    s.settles (flash t b d) early := by
  obtain ⟨late, hcheck, hraised⟩ := h
  have hlink : (Machine.flash t b d).link = t.link := by rw [flash_frame]
  exact ⟨late, hcheck.congr (by rw [flash_frame]) (flash_soundsAs t b d).2.2.2, hlink.trans hraised⟩

section
variable {s t : State} {b : Nat} {p : Side} {new : Domain}

theorem State.domainMoved.flash (h : s.domainMoved t b p new none) {e : Nat} (he : e ≤ 7) :
    s.domainMoved (flash t b e) b p new (some e) := by
  obtain ⟨hturns, hdesks, hann, ⟨hsettled, hplan, hrelays, hconfigs⟩, hrest⟩ := h
  have hsound := (flash_soundsAs t b e).sourcesSettled hsettled
  refine ⟨?_, fun x d hd => ?_, ?_, ⟨hsound, ?_, ?_, ?_⟩, ?_⟩
  case refine_2 =>
    obtain ⟨hsel, hport, hcough, hcough', -, hflash⟩ := hdesks x d hd
    have hunit : (Machine.flash t b e).unit b = t.unit b := by rw [flash_frame]; rfl
    rw [flash_desk t he hd, hunit]
    have hiff : (x = b ∧ some e = some d ∧ (t.unit b).state ≠ .lost) ↔ x = b ∧ d = e ∧ (t.unit b).state ≠ .lost := by
      rw [Option.some.injEq, eq_comm (a := e)]
    rw [hiff]
    have hold := hflash fun h => Option.some_ne_none d h.2.1.symm
    by_cases hhere : x = b ∧ d = e ∧ (t.unit b).state ≠ .lost
    · rw [if_pos hhere]; exact ⟨hsel, hport, hcough, hcough', fun _ => rfl, fun hc => absurd hhere hc⟩
    · rw [if_neg hhere]; exact ⟨hsel, hport, hcough, hcough', fun hc => absurd hc hhere, fun _ => hold⟩
  all_goals rw [flash_frame]; assumption

/-! ### A domain change as one event (R51) -/

/-- One event in which the domain at `p` of booth `b` became `new`, with the desk `flashed` refused, the units and polls
kept, and the notices and the check following it (R26, R30, R51, R80). -/
def State.domainEvent (s t : State) (b : Nat) (p : Side) (new : Domain) (flashed : Option Nat) : Prop :=
  s.domainMoved t b p new flashed ∧ t.supervisor = s.supervisor ∧
    s.settles t (s.moveNotices t b p ((s.domain b p).requester.isSome && new.requester.isNone))

theorem changeDomain_event (ho : ∀ d, (s.domain b p).liveDesk = some d → d ≤ 7)
    (hn : ∀ d, new.liveDesk = some d → d ≤ 7) : s.domainEvent (changeDomain s b p new) b p new none :=
  ⟨changeDomain_moved ho hn, changeDomain_supervisor, changeDomain_settles⟩

theorem State.domainEvent.flash (h : s.domainEvent t b p new none) {e : Nat} (he : e ≤ 7) :
    s.domainEvent (flash t b e) b p new (some e) := by
  obtain ⟨hmoved, hsup, hsettles⟩ := h
  refine ⟨hmoved.flash he, ?_, ?_⟩
  · rw [flash_frame]; exact hsup
  · have hnotices := hsettles.flash b e
    rw [flash_frame] at hnotices ⊢
    exact hnotices

/-- An event of a request's state, answered: the request's own event, behind its reply (R171, R172). -/
theorem State.domainEvent.answered {k tag : Byte} {req body : List Byte} {f : Option Nat}
    (h : (s.reserve ⟨k, tag, req⟩).domainEvent t b p new f) :
    s.domainMoved (t.putReply ⟨k, tag, req⟩ body) b p new f ∧
      (t.putReply ⟨k, tag, req⟩ body).supervisor = s.supervisor ∧
      s.answers (t.putReply ⟨k, tag, req⟩ body) k tag body ∧
      s.answersSettled (t.putReply ⟨k, tag, req⟩ body) k tag body
        (s.moveNotices (t.putReply ⟨k, tag, req⟩ body) b p
          ((s.domain b p).requester.isSome && new.requester.isNone)) := by
  obtain ⟨hmoved, hsup, late, hcheck, hraised⟩ := h
  have hlink : t.link = _ := hraised.trans (State.raiseAll_link_eq _ _)
  exact ⟨hmoved, hsup, State.answers_of_raised hlink, late, hcheck, State.answeredWith_of hlink⟩
end

/-! ### FORCE_OUTPUT_OFF (R57) -/

theorem exec_forceOutputOff (tag : Byte) (body : List Byte) (s : State) :
    exec (.forceOutputOff tag body) s = .next (takeRequest s ⟨0x1B, tag, body⟩ (serveForceOutputOff body)) := rfl

/-- An output that is claimed loses its domain, and the requester is refused. -/
theorem forceOff_event {s : State} {o : BoothOutput} (h : s.claimed o = true)
    (hd : ∀ d, (s.domainOf o).names d → d ≤ 4) :
    s.domainEvent (forceOff s o) o.booth (s.placeOf o.booth o.side) .idle (s.domainOf o).requester := by
  have hmoved : s.domainEvent (changeDomain s o.booth (s.placeOf o.booth o.side) .idle) o.booth
      (s.placeOf o.booth o.side) .idle none :=
    changeDomain_event (fun d h => (hd d (.inl h)).trans (by decide)) fun d h => nomatch h
  unfold forceOff
  rw [if_pos h]
  change s.domainEvent (match (s.domainOf o).requester with | some e => _ | none => _) _ _ _ _
  cases hr : (s.domainOf o).requester with
  | none => exact hmoved
  | some e => exact hmoved.flash ((hd e (.inr hr)).trans (by decide))

section
variable {b o : Byte} {side : Side}

theorem sideOfByte_code (h : o = (match side with | .a => 1 | .b => 2 : Byte)) : sideOfByte o = some side := by
  cases side <;> subst h <;> rfl

theorem namesBooth_iff : namesBooth b = true ↔ 1 ≤ b.toNat ∧ b.toNat ≤ 24 := by simp [namesBooth]

theorem serveForceOutputOff_range (h : b.toNat = 0 ∨ 24 < b.toNat ∨ (o ≠ 1 ∧ o ≠ 2)) (s : State) :
    serveForceOutputOff [b, o] s = (s, [0x03]) := by
  simp only [serveForceOutputOff]
  cases hx : sideOfByte o with
  | none => rfl
  | some x =>
    have hb : ¬namesBooth b = true := by
      rw [namesBooth_iff]
      rcases h with h | h | h
      · omega
      · omega
      · rw [sideOfByte, if_neg h.1, if_neg h.2] at hx; exact nomatch hx
    dsimp only
    rw [if_neg hb]
    rfl

theorem serveForceOutputOff_taken (h1 : 1 ≤ b.toNat) (h24 : b.toNat ≤ 24) (ho : sideOfByte o = some side) (s : State) :
    serveForceOutputOff [b, o] s = (forceOff s ⟨b.toNat, side⟩, [0x00]) := by
  simp only [serveForceOutputOff, ho, if_pos (namesBooth_iff.mpr ⟨h1, h24⟩)]
  rfl
end

/-- Settles O20: an unclaimed output is left alone, and a claimed one loses its whole domain in one event. -/
theorem forceOutputOff : Obligations.ForceOutputOff := by
  unfold Obligations.ForceOutputOff
  intro tag b o s h
  refine ⟨fun hbad => ?_, fun side h1 h24 ho => ⟨fun hfree => ?_, ?_⟩⟩
  · rw [exec_forceOutputOff, takeRequest_replied h (serveForceOutputOff_range hbad _)]
  · have hserve := serveForceOutputOff_taken h1 h24 (sideOfByte_code ho) (s.reserve ⟨0x1B, tag, [b, o]⟩)
    rw [forceOff, if_neg (by rw [show (s.reserve _).claimed _ = s.claimed _ from rfl, hfree]; decide)] at hserve
    rw [exec_forceOutputOff, takeRequest_replied h hserve]
  · rintro place rfl hclaimed hd
    rw [exec_forceOutputOff, takeRequest_served h (serveForceOutputOff_taken h1 h24 (sideOfByte_code ho) _)]
    have hevent := (forceOff_event (s := s.reserve ⟨0x1B, tag, [b, o]⟩) (o := ⟨b.toNat, side⟩) hclaimed hd).answered
      (body := [0x00])
    rw [show (Domain.idle).requester.isNone = true from rfl, Bool.and_true] at hevent
    exact ⟨_, rfl, hevent⟩

/-! ### HANDOVER_WINDOW_EXPIRY (R52, R53) -/

section
variable {s : State} {b d e n : Nat} {p : Side} {q : ExpiryPolicy}

/-- A domain change reads the live desk and the requester of the domain, and no window timer. -/
theorem changeDomain_timer (hd : s.domain b p = .pending d e n q) (m : Nat) (new : Domain) :
    changeDomain (s.setDomain b p (.pending d e m q)) b p new = changeDomain s b p new := by
  set u := s.setDomain b p (.pending d e m q) with hu
  have hself : u.domain b p = .pending d e m q := (State.domain_setDomain s b b p p _).trans (if_pos ⟨rfl, rfl⟩)
  have hlive : ∀ x y, (u.domain x y).liveDesk = (s.domain x y).liveDesk := fun x y => by
    rw [hu, State.domain_setDomain]
    split
    · rename_i hxy; rw [hxy.1, hxy.2, hd]; rfl
    · rfl
  have hserving : u.serving = s.serving := by
    funext c
    unfold State.serving
    exact findSome?_congr_mem fun o _ => by
      rw [State.liveOn_congr (s := s) (t := u) (hlive o.booth (s.placeOf o.booth o.side)) fun _ _ => rfl]
  have hdeferred : u.deferredBy b p = s.deferredBy b p := by
    unfold State.deferredBy
    rw [hserving]
    rfl
  have hset : setDomainState u b p new = setDomainState s b p new := by
    have hwrite : u.setDomain b p new = s.setDomain b p new := by
      rw [hu]; simp only [State.setDomain, Table.write_write]
    unfold setDomainState
    rw [hwrite, hself, hd]
    rfl
  rw [changeDomain_eq, changeDomain_eq, hset, hdeferred, hself, hd]
  rfl

theorem exec_handoverWindowExpiry (b : Nat) (p : Side) (s : State) :
    exec (.handoverWindowExpiry b p) s =
      .next (if isBooth b && (s.domain b p).expiresNext then windowSecond s b p else s) := rfl

theorem expireWindow_take (hd : s.domain b p = .pending d e n .take) :
    expireWindow s b p = changeDomain s b p (.live e) := by simp only [expireWindow, hd]

theorem expireWindow_lapse (hd : s.domain b p = .pending d e n .lapse) :
    expireWindow s b p = flash (changeDomain s b p (.live d)) b e := by simp only [expireWindow, hd]

/-- The last second of the window is its expiry and no more. -/
theorem windowSecond_expires (hd : s.domain b p = .pending d e n q) (hn : n ≤ 1) :
    windowSecond s b p = expireWindow s b p := by
  have hzero : n - 1 = 0 := by omega
  have hself : (s.setDomain b p (.pending d e 0 q)).domain b p = .pending d e 0 q :=
    (State.domain_setDomain s b b p p _).trans (if_pos ⟨rfl, rfl⟩)
  have hsecond : windowSecond s b p = expireWindow (s.setDomain b p (.pending d e 0 q)) b p := by
    simp only [windowSecond, hd, hzero, if_true]
  rw [hsecond]
  cases q with
  | take => rw [expireWindow_take hself, expireWindow_take hd, changeDomain_timer hd]
  | lapse => rw [expireWindow_lapse hself, expireWindow_lapse hd, changeDomain_timer hd]
end

/-- Settles O24: away from the expiry the row has no effect, and at the expiry it is one domain change. -/
theorem handoverWindowExpiry : Obligations.HandoverWindowExpiry := by
  unfold Obligations.HandoverWindowExpiry
  refine fun b p s h1 h24 => ⟨fun d e n q hd hne hd4 he4 => ⟨fun hn => ?_, fun hn => ?_⟩, fun hr => ?_⟩
  · rw [exec_handoverWindowExpiry, hd, if_neg (by simp [Domain.expiresNext]; omega)]
  · rw [exec_handoverWindowExpiry, if_pos (by simp [hd, isBooth, Domain.expiresNext, h1, h24, hn]),
      windowSecond_expires hd hn]
    have hold : ∀ x, (s.domain b p).liveDesk = some x → x ≤ 7 := fun x hx => by
      rw [hd] at hx; injection hx; omega
    have hevent : ∀ x, x ≤ 4 → s.domainEvent (changeDomain s b p (.live x)) b p (.live x) none := fun x hx =>
      changeDomain_event hold fun y hy => by injection hy; omega
    have hends : ∀ x, ((s.domain b p).requester.isSome && (Domain.live x).requester.isNone) = true := fun x => by
      rw [hd]; rfl
    cases q with
    | take =>
      obtain ⟨hmoved, hsup, hsettles⟩ := hevent e he4
      rw [hends] at hsettles
      rw [expireWindow_take hd]
      exact ⟨_, rfl, fun _ => hmoved, nofun, hsup, hsettles⟩
    | lapse =>
      obtain ⟨hmoved, hsup, hsettles⟩ := (hevent d hd4).flash (e := e) (he4.trans (by decide))
      rw [hends] at hsettles
      rw [expireWindow_lapse hd]
      exact ⟨_, rfl, nofun, fun _ => hmoved, hsup, hsettles⟩
  · rw [exec_handoverWindowExpiry, if_neg]
    cases hm : s.domain b p with
    | pending d e n q => rw [hm] at hr; exact nomatch hr
    | _ => simp [Domain.expiresNext]

end Sys2Proof.Machine
end

