-- ==== Sys2Proof/Proofs/DeskKeys.lean ====
section
/-! O21, O22 and O23: the keys of a desk, MIC_ON, MIC_OFF and the others, in the reply of its console. -/

namespace Sys2Proof.Machine

/-! ### The events of a console's reply (R45, R165) -/

section
variable {s t : State} {b : Nat} {p : Side} {new : Domain}

theorem exec_consoleReply (b : Nat) (x : ConsoleContent) (s : State) :
    exec (.consoleReply b x) s = .next (consoleAnswer s b x) := rfl

theorem unitReply_unit (s : State) (b : Nat) : (unitReply s b).unit b = ⟨.present, 0⟩ :=
  (State.unit_setUnit (endPoll s b) b b _).trans (if_pos rfl)

/-- A reply of the PRESENT console that is polled gives its first eight events, in order. -/
theorem consoleAnswer_events (h1 : 1 ≤ b) (h24 : b ≤ 24) (hpoll : s.awaitsConsole b)
    (hunit : (s.unit b).state = .present) (l : List DeskEvent) :
    consoleAnswer s b (.events l) = (l.take 8).foldl (fun t e => deskEvent t b e) (unitReply s b) := by
  obtain ⟨q, hq, rfl⟩ := Option.map_eq_some_iff.mp hpoll
  have howes : ¬(s.unit q.booth).owesReturn = true := by simp [UnitEntry.owesReturn, hunit]
  unfold consoleAnswer
  rw [hq]
  dsimp only
  rw [if_pos (by simp [isBooth, h1, h24]), if_pos rfl, takeConsoleReply, if_neg howes]
  rfl

/-- The key of an enabled desk, alone in the reply. -/
theorem exec_key (h1 : 1 ≤ b) (h24 : b ≤ 24) (hpoll : s.awaitsConsole b) (hunit : (s.unit b).state = .present)
    (e : DeskEvent) : exec (.consoleReply b (.events [e])) s = .next (deskEvent (unitReply s b) b e) := by
  rw [exec_consoleReply, consoleAnswer_events h1 h24 hpoll hunit]
  rfl

/-- A desk of the console that replies is PRESENT, so its flash pends (R41). -/
theorem flash_unitReply (s : State) (b d : Nat) :
    flash (unitReply s b) b d = (unitReply s b).setDesk b d { s.desk b d with flash := true } := by
  unfold flash
  rw [unitReply_unit, if_neg (by decide)]
  rfl

/-- What an event raised behind the end of the poll, it raised behind the poll's own state (R165). -/
theorem State.settles.ofUnitReply {early : List Notice} (h : (unitReply s b).settles t early) : s.settles t early := by
  obtain ⟨late, hcheck, hraised⟩ := h
  exact ⟨late, hcheck, State.raised_of (hraised.trans (State.raiseAll_link_eq _ _))⟩

/-- A domain change behind the end of the poll, as an event of the state in which the reply came. -/
theorem changeDomain_unitReply (ho : ∀ d, (s.domain b p).liveDesk = some d → d ≤ 7)
    (hn : ∀ d, new.liveDesk = some d → d ≤ 7) :
    s.domainMoved (changeDomain (unitReply s b) b p new) b p new none ∧
      (changeDomain (unitReply s b) b p new).supervisor = (unitReply s b).supervisor ∧
      s.settles (changeDomain (unitReply s b) b p new)
        (s.moveNotices (changeDomain (unitReply s b) b p new) b p
          ((s.domain b p).requester.isSome && new.requester.isNone)) := by
  obtain ⟨hmoved, hsup, hsettles⟩ := changeDomain_event (s := unitReply s b) ho hn
  exact ⟨hmoved, hsup, hsettles.ofUnitReply⟩

/-! ### The channel interlock (R44) -/

/-- An output that stands in one channel alone is assigned to that channel. -/
theorem State.channelOf_of_only {o : BoothOutput} {c : Nat} (h1 : 1 ≤ c) (h31 : c ≤ 31)
    (ho : o ∈ (s.planEntry c).outputs) (honly : ∀ d, 1 ≤ d → d ≤ 31 → o ∈ (s.planEntry d).outputs → d = c) :
    s.channelOf o = some c := by
  cases hd : s.channelOf o with
  | none => exact absurd hd ((State.channelOf_ne_none_iff s o).mpr ⟨c, h1, h31, ho⟩)
  | some d =>
    obtain ⟨hd1, hd31, hdo⟩ := State.channelOf_some hd
    rw [honly d hd1 hd31 hdo]

theorem State.claimable.allowed {o : BoothOutput} (h : s.claimable o) : s.interlockAllows o = true := by
  obtain ⟨c, h1, h31, ho, honly, hfree⟩ := h
  exact (State.interlockAllows_iff s o).mpr ⟨c, State.channelOf_of_only h1 h31 ho honly, hfree⟩

theorem State.unclaimable.refused {o : BoothOutput} (h : s.unclaimable o) : ¬s.interlockAllows o = true := by
  rw [State.interlockAllows_iff]
  rintro ⟨c, hc, hfree⟩
  rcases h with hnone | ⟨d, h1, h31, ho, honly, x, hx, hne, hclaimed⟩
  · obtain ⟨h1, h31, ho⟩ := State.channelOf_some hc
    exact hnone c h1 h31 ho
  · obtain rfl : d = c := Option.some.inj ((State.channelOf_of_only h1 h31 ho honly).symm.trans hc)
    exact (hfree x hx).elim hne fun hfree => Bool.noConfusion (hfree.symm.trans hclaimed)

/-- An output is claimed when its domain is made IDLE only where its domain is another one. -/
theorem State.claimed_setDomain_idle (s : State) (b : Nat) (p : Side) (x : BoothOutput) :
    (s.setDomain b p .idle).claimed x = if x.booth = b ∧ s.placeOf b x.side = p then false else s.claimed x := by
  have hdomain : (s.setDomain b p .idle).domainOf x =
      if x.booth = b ∧ s.placeOf x.booth x.side = p then .idle else s.domainOf x :=
    State.domain_setDomain s b x.booth p (s.placeOf x.booth x.side) .idle
  unfold State.claimed
  rw [hdomain]
  by_cases hx : x.booth = b ∧ s.placeOf x.booth x.side = p
  · rw [if_pos hx, if_pos ⟨hx.1, hx.1 ▸ hx.2⟩]
  · rw [if_neg hx, if_neg fun h : x.booth = b ∧ s.placeOf b x.side = p => hx ⟨h.1, h.1 ▸ h.2⟩]; rfl

/-- The override counts no claim of the domain that it takes over. -/
theorem State.claimable_override {place : Side} {o : BoothOutput} {c : Nat} (h1 : 1 ≤ c) (h31 : c ≤ 31)
    (ho : o ∈ (s.planEntry c).outputs)
    (honly : ∀ q, 1 ≤ q → q ≤ 31 → o ∈ (s.planEntry q).outputs → q = c)
    (hfree : ∀ x ∈ (s.planEntry c).outputs,
      x = o ∨ s.claimed x = false ∨ (x.booth = b ∧ s.placeOf b x.side = place)) :
    (s.setDomain b place .idle).claimable o := by
  refine ⟨c, h1, h31, ho, honly, fun x hx => (hfree x hx).imp id fun h => ?_⟩
  rw [State.claimed_setDomain_idle]
  split
  · rfl
  · rename_i hne; exact h.resolve_right hne
end

/-! ### MIC_ON (R46 to R49) -/

section
variable {s : State} {b e : Nat}

theorem deskEvent_disabled (hoff : s.enabled b e = false) (k : DeskKey) : deskEvent s b ⟨e, k⟩ = s := by
  unfold deskEvent
  rw [if_neg (by rw [hoff]; decide)]

section
variable (hon : s.enabled b e = true)
include hon

theorem deskEvent_micOn : deskEvent s b ⟨e, .micOn⟩ = micOn s b e := if_pos hon
theorem deskEvent_micOff : deskEvent s b ⟨e, .micOff⟩ = micOff s b e := if_pos hon
theorem deskEvent_cough (on : Bool) :
    deskEvent s b ⟨e, if on = true then .coughOn else .coughOff⟩ = cough s b e on := by
  cases on <;> exact if_pos hon
theorem deskEvent_output (side : Side) :
    deskEvent s b ⟨e, if side = .a then .outputA else .outputB⟩ = selectOutput s b e side := by
  cases side <;> exact if_pos hon
theorem deskEvent_relay (c : Byte) : deskEvent s b ⟨e, .relay c⟩ = relay s b e c := if_pos hon
theorem deskEvent_slow : deskEvent s b ⟨e, .slow⟩ = s.raise (.deskSlow b e) := if_pos hon
theorem deskEvent_other : deskEvent s b ⟨e, .other⟩ = s := if_pos hon
end

theorem micOn_busy (h : s.deskState b e ≠ .idle) : micOn s b e = s := if_pos h

section
variable (hidle : s.deskState b e = .idle)
include hidle

theorem micOn_setup (hall : s.plan.hall = .setup) : micOn s b e = flash s b e := by
  unfold micOn; rw [if_neg (not_not.mpr hidle), if_pos hall]

theorem micOn_pending {d f n : Nat} {q : ExpiryPolicy} (hd : s.deskDomain b e = .pending d f n q) :
    micOn s b e = flash s b e := by
  unfold micOn
  rw [if_neg (not_not.mpr hidle)]
  rw [State.deskDomain] at hd
  simp only [hd, ite_self]

variable (hall : s.plan.hall ≠ .setup)
include hall

theorem micOn_idle (hd : s.deskDomain b e = .idle) :
    micOn s b e = if s.interlockAllows ⟨b, (s.desk b e).selection⟩
      then changeDomain s b (s.deskPlace b e) (.live e) else flash s b e := by
  rw [State.deskDomain] at hd
  simp only [micOn, hidle, ne_eq, not_true_eq_false, if_false, if_neg hall, hd]

theorem micOn_override {d : Nat} (hd : s.deskDomain b e = .live d) (hm : (s.config b).mode = .override) :
    micOn s b e = if (s.setDomain b (s.deskPlace b e) .idle).interlockAllows ⟨b, (s.desk b e).selection⟩
      then changeDomain s b (s.deskPlace b e) (.live e) else flash s b e := by
  rw [State.deskDomain] at hd
  simp only [micOn, hidle, ne_eq, not_true_eq_false, if_false, if_neg hall, hd, hm]

theorem micOn_handshake {d : Nat} (hd : s.deskDomain b e = .live d) (hm : (s.config b).mode = .handshake) :
    micOn s b e = if s.interlockAllows ⟨b, (s.desk b e).selection⟩
      then changeDomain s b (s.deskPlace b e) (.pending d e (s.config b).window (s.config b).policy)
      else flash s b e := by
  rw [State.deskDomain] at hd
  simp only [micOn, hidle, ne_eq, not_true_eq_false, if_false, if_neg hall, hd, hm]
end
end

/-- Settles O21: MIC_ON is a domain change where the interlock allows it, and a flash where it or the domain refuses. -/
theorem microphoneOn : Obligations.MicrophoneOn := by
  unfold Obligations.MicrophoneOn
  refine ⟨?_, fun b e s h1 h24 hpoll hunit => ⟨fun hoff => ?_, fun hon hbusy => ?_, fun hon hidle hrefused => ?_⟩⟩
  · rintro b e place o s h1 h24 he1 he4 hpoll hunit hon hidle hsession rfl rfl
    have hall : (unitReply s b).plan.hall ≠ .setup := fun h => nomatch hsession.symm.trans h
    have hidle' : (unitReply s b).deskState b e = .idle := hidle
    have hlive : ∀ d, (Domain.live e).liveDesk = some d → d ≤ 7 := fun d hd => by injection hd; omega
    rw [exec_key h1 h24 hpoll hunit, deskEvent_micOn (s := unitReply s b) hon]
    refine ⟨fun hd hfree => ?_, fun d hd hd4 => ?_⟩
    · rw [(micOn_idle hidle' hall hd).trans (if_pos hfree.allowed)]
      have hevent := changeDomain_unitReply (s := s) (b := b) (p := s.deskPlace b e) (new := .live e)
        (by rw [hd]; nofun) hlive
      rw [hd] at hevent
      exact ⟨_, rfl, hevent⟩
    · have hold : ∀ x, (s.domain b (s.deskPlace b e)).liveDesk = some x → x ≤ 7 := fun x h => by
        rw [hd] at h; injection h; omega
      refine ⟨fun hm ⟨c, hc1, hc31, ho, honly, hfree⟩ => ?_, fun hm hfree => ?_⟩
      · rw [(micOn_override hidle' hall hd hm).trans
          (if_pos (State.claimable_override hc1 hc31 ho honly hfree).allowed)]
        have hevent := changeDomain_unitReply (new := .live e) hold hlive
        rw [hd] at hevent
        exact ⟨_, rfl, hevent⟩
      · rw [(micOn_handshake hidle' hall hd hm).trans (if_pos hfree.allowed)]
        have hevent := changeDomain_unitReply (new := .pending d e (s.config b).window (s.config b).policy) hold
          fun x hx => by injection hx; omega
        rw [hd] at hevent
        exact ⟨_, rfl, hevent⟩
  · rw [exec_key h1 h24 hpoll hunit, deskEvent_disabled (s := unitReply s b) hoff]
  · rw [exec_key h1 h24 hpoll hunit, deskEvent_micOn (s := unitReply s b) hon, micOn_busy (s := unitReply s b) hbusy]
  · have hidle' : (unitReply s b).deskState b e = .idle := hidle
    rw [exec_key h1 h24 hpoll hunit, deskEvent_micOn (s := unitReply s b) hon, ← flash_unitReply]
    congr 1
    by_cases hall : (unitReply s b).plan.hall = .setup
    · exact micOn_setup hidle' hall
    · rcases hrefused with hsetup | ⟨d, f, n, q, hd⟩ | ⟨hd, hno⟩ | ⟨⟨d, hd⟩, hm, hno⟩ | ⟨⟨d, hd⟩, hm, hno⟩
      · exact absurd hsetup hall
      · exact micOn_pending hidle' hd
      · exact (micOn_idle hidle' hall hd).trans (if_neg hno.refused)
      · exact (micOn_handshake hidle' hall hd hm).trans (if_neg hno.refused)
      · exact (micOn_override hidle' hall hd hm).trans (if_neg hno.refused)

/-! ### MIC_OFF (R50) -/

section
variable {s : State} {b x d e n : Nat} {q : ExpiryPolicy}

theorem micOff_idle (h : s.deskState b x = .idle) : micOff s b x = s := by
  have hnames : ¬(s.deskDomain b x).names x := (Domain.stateOf_idle_iff _ _).mp h
  rw [State.deskDomain] at hnames
  unfold micOff
  dsimp only
  cases hd : s.domain b (s.deskPlace b x) with
  | idle => rfl
  | live d => exact if_neg fun hx : x = d => hnames (.inl (by rw [hd, hx]; rfl))
  | pending d e n q =>
    exact (if_neg fun hx : x = d => hnames (.inl (by rw [hd, hx]; rfl))).trans
      (if_neg fun hx : x = e => hnames (.inr (by rw [hd, hx]; rfl)))

theorem micOff_live (hd : s.domain b (s.deskPlace b x) = .live x) :
    micOff s b x = changeDomain s b (s.deskPlace b x) .idle := by
  simp only [micOff, hd, if_true]

theorem micOff_handsOver (hd : s.domain b (s.deskPlace b x) = .pending x e n q) :
    micOff s b x = changeDomain s b (s.deskPlace b x) (.live e) := by
  simp only [micOff, hd, if_true]

theorem micOff_withdraws (hd : s.domain b (s.deskPlace b x) = .pending d x n q) (hne : d ≠ x) :
    micOff s b x = changeDomain s b (s.deskPlace b x) (.live d) := by
  simp only [micOff, hd, if_neg hne.symm, if_true]
end

/-- Settles O22: MIC_OFF of a desk that its domain names is one domain change. -/
theorem microphoneOff : Obligations.MicrophoneOff := by
  unfold Obligations.MicrophoneOff
  rintro b x place s h1 h24 hx1 hx4 hpoll hunit hon rfl
  rw [exec_key h1 h24 hpoll hunit, deskEvent_micOff (s := unitReply s b) hon]
  have hevent : ∀ new : Domain, (∀ d, (s.domain b (s.deskPlace b x)).liveDesk = some d → d ≤ 4) →
      (∀ d, new.liveDesk = some d → d ≤ 4) → _ := fun new hold hnew =>
    changeDomain_unitReply (s := s) (b := b) (p := s.deskPlace b x) (new := new)
      (fun d h => (hold d h).trans (by decide)) fun d h => (hnew d h).trans (by decide)
  refine ⟨fun hd => ?_, fun e n q hd hne he => ?_, fun d n q hd hne hd4 => ?_, fun hidle => ?_⟩
  · rw [micOff_live (s := unitReply s b) hd]
    have hmoved := hevent .idle (fun y h => by rw [hd] at h; injection h; omega) nofun
    rw [hd] at hmoved
    exact ⟨_, rfl, hmoved⟩
  · rw [micOff_handsOver (s := unitReply s b) hd]
    have hmoved := hevent (.live e) (fun y h => by rw [hd] at h; injection h; omega) fun y h => by injection h; omega
    rw [hd] at hmoved
    exact ⟨_, rfl, hmoved⟩
  · rw [micOff_withdraws (s := unitReply s b) hd hne]
    have hmoved := hevent (.live d) (fun y h => by rw [hd] at h; injection h; omega) fun y h => by injection h; omega
    rw [hd] at hmoved
    exact ⟨_, rfl, hmoved⟩
  · rw [micOff_idle (s := unitReply s b) hidle]

end Sys2Proof.Machine
end

