-- ==== Sys2Proof/Proofs/OtherKeys.lean ====
section
/-! O23: the cough, output, relay and slow keys, and the events of one reply one after another. -/

namespace Sys2Proof.Machine

/-! ### Settled events of a key (R21, R24, R26, R35) -/

/-- A settled event without notices of its own raises its SOURCE_CHANGE notices, and the check follows it. -/
theorem settleEvent_settles {before u : State} (hlink : u.link = before.link) (hcheck : u.check = before.check) :
    before.settles (settleEvent before [] [] u) (sourceNotices before (settleEvent before [] [] u)) := by
  obtain ⟨late, hfollow, hnotices⟩ := settleEvent_follows before [] u hcheck
  exact ⟨late, hfollow, State.raised_of (hnotices.trans (by rw [hlink]; rfl))⟩

theorem settleEvent_keeps (before u : State) (early late : List Notice) :
    u.keepsFleet (settleEvent before early late u) ∧ u.keepsMoney (settleEvent before early late u) ∧
      (settleEvent before early late u).supervisor = u.supervisor ∧
      (settleEvent before early late u).pending = u.pending := by
  refine ⟨⟨?_, ?_, ?_⟩, ⟨?_, ?_, ?_⟩, ?_, ?_⟩ <;> rw [settleEvent_frame]

/-! ### Events one after another (R45) -/

theorem flash_supervisor (s : State) (b d : Nat) : (flash s b d).supervisor = s.supervisor := by rw [flash_frame]

theorem micOn_supervisor (s : State) (b e : Nat) : (micOn s b e).supervisor = s.supervisor := by
  rcases micOn_cases s b e with h | h | ⟨p, new, h⟩ <;> rw [h]
  exacts [flash_supervisor s b e, changeDomain_supervisor]

theorem micOff_supervisor (s : State) (b x : Nat) : (micOff s b x).supervisor = s.supervisor := by
  unfold micOff
  dsimp only
  split
  · rfl
  · split
    exacts [changeDomain_supervisor, rfl]
  · split
    · exact changeDomain_supervisor
    · split
      exacts [changeDomain_supervisor, rfl]

theorem cough_supervisor (s : State) (b d : Nat) (on : Bool) : (cough s b d on).supervisor = s.supervisor := by
  unfold cough
  split
  exacts [settleEvent_supervisor .., rfl]

theorem selectOutput_supervisor (s : State) (b d : Nat) (x : Side) :
    (selectOutput s b d x).supervisor = s.supervisor := by
  unfold selectOutput
  split
  exacts [rfl, flash_supervisor s b d]

theorem relay_supervisor (s : State) (b d : Nat) (c : Byte) : (relay s b d c).supervisor = s.supervisor := by
  unfold relay
  split
  · exact settleEvent_supervisor ..
  · split
    exacts [settleEvent_supervisor .., flash_supervisor s b d]

/-- No desk event reaches the units and the polls. -/
theorem deskEvent_supervisor (s : State) (b : Nat) (e : DeskEvent) : (deskEvent s b e).supervisor = s.supervisor := by
  unfold deskEvent
  split
  · split
    exacts [micOn_supervisor .., micOff_supervisor .., cough_supervisor .., cough_supervisor ..,
      selectOutput_supervisor .., selectOutput_supervisor .., relay_supervisor .., rfl, rfl]
  · rfl

theorem foldl_deskEvent_supervisor (s : State) (b : Nat) (l : List DeskEvent) :
    (l.foldl (fun t e => deskEvent t b e) s).supervisor = s.supervisor :=
  List.foldlRecOn (motive := fun t => t.supervisor = s.supervisor) l _ rfl fun t ht e _ =>
    (deskEvent_supervisor t b e).trans ht

/-- Events past the eighth are not read (R45). -/
theorem takeConsoleReply_take (s : State) (b : Nat) (l : List DeskEvent) :
    takeConsoleReply s b (.events (l.take 8)) = takeConsoleReply s b (.events l) := by
  have htake : (l.take 8).take Config.eventsPerReply = l.take Config.eventsPerReply := List.take_take
  simp only [takeConsoleReply, htake]

theorem consoleAnswer_take (s : State) (b : Nat) (l : List DeskEvent) :
    consoleAnswer s b (.events (l.take 8)) = consoleAnswer s b (.events l) := by
  unfold consoleAnswer
  rw [takeConsoleReply_take]

/-- The state with the booth link's poll put back as it was in `s`. -/
def State.pollAgain (t s : State) : State :=
  { t with supervisor := { t.supervisor with consolePoll := s.supervisor.consolePoll } }

/-- A second reply of the same console to the same poll finds the unit PRESENT already and ends the poll again. -/
theorem unitReply_pollAgain {s t : State} {b : Nat} (hpoll : s.awaitsConsole b)
    (ht : t.supervisor = (unitReply s b).supervisor) : unitReply (t.pollAgain s) b = t := by
  have hpoll' : s.supervisor.consolePoll.map (·.booth) = some b := hpoll
  have hsup : (unitReply (t.pollAgain s) b).supervisor = t.supervisor := by
    simp only [unitReply, endPoll, State.setUnit, State.pollAgain, ht, hpoll', if_true, Table.write_write]
    congr 1
    · split <;> simp
    · simp
  calc unitReply (t.pollAgain s) b
      = { t with supervisor := (unitReply (t.pollAgain s) b).supervisor } := rfl
    _ = t := by rw [hsup]

/-- The last event of a reply of up to eight is taken as if it alone answered the poll (R45). -/
theorem consoleAnswer_last {s : State} {b : Nat} {l : List DeskEvent} (e : DeskEvent) (h1 : 1 ≤ b) (h24 : b ≤ 24)
    (hpoll : s.awaitsConsole b) (hunit : (s.unit b).state = .present) (hl : l.length < 8) :
    consoleAnswer s b (.events (l ++ [e])) =
      consoleAnswer ((consoleAnswer s b (.events l)).pollAgain s) b (.events [e]) := by
  rw [consoleAnswer_events h1 h24 hpoll hunit, consoleAnswer_events h1 h24 hpoll hunit,
    List.take_of_length_le (by simp; omega), List.take_of_length_le (by omega), List.foldl_append]
  set t := l.foldl (fun t e => deskEvent t b e) (unitReply s b) with ht
  have hsup : t.supervisor = (unitReply s b).supervisor := foldl_deskEvent_supervisor _ b l
  have hpresent : (t.unit b).state = .present := by
    rw [show t.unit b = (unitReply s b).unit b by unfold State.unit; rw [hsup], unitReply_unit]
  rw [consoleAnswer_events (s := t.pollAgain s) h1 h24 hpoll hpresent, unitReply_pollAgain hpoll hsup]
  rfl

/-! ### The other keys (R33, R54 to R56) -/

section
variable {s : State} {b d : Nat}

theorem cough_takes {on : Bool} (hlive : s.deskState b d = .live) (hc : (s.desk b d).cough = !on) :
    cough s b d on = settleEvent s [] [] (setCough s b d on) :=
  if_pos ⟨hlive, by rw [hc]; cases on <;> decide⟩

theorem cough_idle {on : Bool} (h : s.deskState b d ≠ .live ∨ (s.desk b d).cough = on) : cough s b d on = s :=
  if_neg fun hboth => h.elim (fun h => h hboth.1) hboth.2

theorem relay_takes {c : Byte} (h : c = 0 ∨ s.relayable b c.toNat = true) :
    relay s b d c = settleEvent s [] [] (s.setRelay b (if c = 0 then none else some c.toNat)) := by
  unfold relay
  by_cases hc : c = 0
  · rw [if_pos hc, if_pos hc]
  · rw [if_neg hc, if_neg hc, if_pos (h.resolve_left hc)]

theorem relay_refused {c : Byte} (hc : c ≠ 0) (h : ¬s.relayable b c.toNat = true) : relay s b d c = flash s b d := by
  unfold relay
  rw [if_neg hc, if_neg h]

theorem State.relayable_iff (s : State) (b c : Nat) :
    s.relayable b c = true ↔
      1 ≤ c ∧ c ≤ 31 ∧ (s.planEntry c).language ≠ 0 ∧ ∃ o ∈ (s.planEntry c).outputs, o.booth ≠ b := by
  simp [State.relayable, and_assoc]
end

/-- Settles O23: each key's event by itself, and a reply as its events one after another. -/
theorem deskKeys : Obligations.DeskKeys := by
  unfold Obligations.DeskKeys
  refine ⟨fun b l s => ?_, fun b l e s t h1 h24 hpoll hunit hl ht => ?_, ?_⟩
  · rw [exec_consoleReply, exec_consoleReply, consoleAnswer_take]
  · rw [exec_consoleReply] at ht
    injection ht with ht
    rw [exec_consoleReply, consoleAnswer_last e h1 h24 hpoll hunit hl, ht]
    rfl
  · intro b d s h1 h24 hd1 hd4 hpoll hunit hon
    have hon' : (unitReply s b).enabled b d = true := hon
    simp only [exec_key h1 h24 hpoll hunit, deskEvent_cough hon', deskEvent_output hon', deskEvent_relay hon']
    refine ⟨fun on hlive hc => ?_, fun on hno => ?_, fun side hidle => ?_, fun side hbusy => ?_, fun c hc => ?_,
      fun c hc hno => ?_, congrArg _ (deskEvent_slow hon'), congrArg _ (deskEvent_other hon')⟩
    · rw [cough_takes (s := unitReply s b) hlive hc]
      set u := setCough (unitReply s b) b d on with hu
      have hdesk : ∀ x y, y ≤ 7 → u.desk x y = if x = b ∧ y = d then { s.desk b d with cough := on } else s.desk x y :=
        fun x y hy => State.desk_setDesk _ b d x y _ (hd4.trans (by decide)) hy
      obtain ⟨hfleet, hmoney, hsup, hpending⟩ := settleEvent_keeps (unitReply s b) u [] []
      have hsettles := (settleEvent_settles (before := unitReply s b) (u := u) rfl rfl).ofUnitReply
      exact ⟨_, rfl, (settleEvent_desk ..).trans ((hdesk b d (by omega)).trans (if_pos ⟨rfl, rfl⟩)),
        fun x y hy hne => (settleEvent_desk ..).trans ((hdesk x y hy).trans (if_neg fun h => hne.elim (· h.1) (· h.2))),
        by rw [settleEvent_booths]; rfl,
        ⟨settleEvent_settled .., settleEvent_plan .., settleEvent_relays .., by rw [settleEvent_booths]; rfl⟩,
        settleEvent_announcements .., settleEvent_turns .., hfleet, hmoney, hsup, hpending,
        hsettles⟩
    · rw [cough_idle (s := unitReply s b) hno]
    · rw [selectOutput, if_pos (show (unitReply s b).deskState b d = .idle from hidle)]; rfl
    · rw [selectOutput, if_neg (show ¬(unitReply s b).deskState b d = .idle from hbusy), flash_unitReply]
    · rw [relay_takes (s := unitReply s b) (hc.imp id (State.relayable_iff s b c.toNat).mpr)]
      set u := (unitReply s b).setRelay b (if c = 0 then none else some c.toNat) with hu
      have hrelay : ∀ x, (settleEvent (unitReply s b) [] [] u).relay x =
          if x = b then (if c = 0 then none else some c.toNat) else s.relay x := fun x => by
        unfold State.relay
        rw [settleEvent_relays]
        exact State.relay_setRelay _ b x _
      obtain ⟨hfleet, hmoney, hsup, hpending⟩ := settleEvent_keeps (unitReply s b) u [] []
      have hsettles := (settleEvent_settles (before := unitReply s b) (u := u) rfl rfl).ofUnitReply
      exact ⟨_, rfl, (hrelay b).trans (if_pos rfl), fun x hx => (hrelay x).trans (if_neg hx), settleEvent_settled ..,
        settleEvent_plan .., settleEvent_booths .., settleEvent_turns .., settleEvent_announcements .., hfleet, hmoney,
        hsup, hpending, hsettles⟩
    · have hrefused : ¬(unitReply s b).relayable b c.toNat = true := by
        rw [show (unitReply s b).relayable b c.toNat = s.relayable b c.toNat from rfl, State.relayable_iff]
        rintro ⟨-, h31, hlang, o, ho, hother⟩
        rcases hno with h | h | h
        exacts [absurd h31 (by omega), hlang h, hother (h o ho)]
      rw [relay_refused hc hrefused, flash_unitReply]

end Sys2Proof.Machine
end

