-- ==== Sys2Proof/Proofs/BoothReads.lean ====
section
/-! O18: READ_BOOTH and READ_DESKS. -/

namespace Sys2Proof.Machine

/-! ### READ_BOOTH (R39) -/

theorem exec_readBooth (tag : Byte) (body : List Byte) (s : State) :
    exec (.readBooth tag body) s = .next (takeRequest s ⟨0x19, tag, body⟩ (serveReadBooth body)) := rfl

section
variable {b : Byte}

theorem not_namesBooth (h : b.toNat = 0 ∨ 24 < b.toNat) : ¬namesBooth b = true := by
  rw [namesBooth_iff]; omega

theorem serveReadBooth_range (h : b.toNat = 0 ∨ 24 < b.toNat) (s : State) : serveReadBooth [b] s = (s, [0x03]) :=
  if_neg (not_namesBooth h)

/-- The reply of READ_BOOTH: the booth's configuration and its four ports (R39). -/
def boothBody (s : State) (b : Byte) : List Byte :=
  0x00 :: b :: (s.config b.toNat).bytes ++ positions.map fun d => byteOf ((s.desk b.toNat d).port.getD 0)

theorem serveReadBooth_read (h1 : 1 ≤ b.toNat) (h24 : b.toNat ≤ 24) (s : State) :
    serveReadBooth [b] s = (s, boothBody s b) := if_pos (namesBooth_iff.mpr ⟨h1, h24⟩)

/-! ### READ_DESKS (R42) -/

theorem exec_readDesks (tag : Byte) (body : List Byte) (s : State) :
    exec (.readDesks tag body) s = .next (takeRequest s ⟨0x1A, tag, body⟩ (serveReadDesks body)) := rfl

theorem serveReadDesks_range (h : b.toNat = 0 ∨ 24 < b.toNat) (s : State) : serveReadDesks [b] s = (s, [0x03]) :=
  if_neg (not_namesBooth h)

/-- The reply of READ_DESKS: the booth's two domain records and its four desk records (R42). -/
def desksBody (s : State) (b : Byte) : List Byte :=
  0x00 :: b :: (s.domain b.toNat .a).bytes ++ (s.secondDomain b.toNat).bytes ++ positions.flatMap (deskBytes s b.toNat)

theorem serveReadDesks_read (h1 : 1 ≤ b.toNat) (h24 : b.toNat ≤ 24) (s : State) :
    serveReadDesks [b] s = (s, desksBody s b) := if_pos (namesBooth_iff.mpr ⟨h1, h24⟩)
end

theorem State.secondDomain_eq (s : State) (b : Nat) :
    s.secondDomain b = if (s.config b).interlock = .single then .idle else s.domain b .b := by
  unfold State.secondDomain
  cases (s.config b).interlock <;> rfl

/-- The record of an enabled position: its state, selection and cough, and its steady lamps (R41, R42). -/
theorem deskBytes_enabled {s : State} {b d : Nat} (h : s.enabled b d = true) :
    deskBytes s b d =
      [(match s.deskState b d with | .idle => 1 | .live => 2 | .requesting => 3), sideCode (s.desk b d).selection,
        flagByte (s.desk b d).cough, flagByte (decide (s.deskState b d = .live)),
        flagByte (decide (s.deskState b d = .requesting)),
        flagByte (decide (s.deskState b d = .live) && (s.deskDomain b d).requester.isSome),
        flagByte (decide (s.deskState b d = .live) && (s.turn b (s.deskPlace b d)).dueRaised),
        flagByte (s.offAir b d), flagByte (s.feed b).fallback] := by
  simp only [deskBytes, State.lamps, if_pos h]; rfl

/-- The record of a DISABLED position: its held selection and cough behind a 0, and every lamp dark (R41, R42). -/
theorem deskBytes_disabled {s : State} {b d : Nat} (h : ¬s.enabled b d = true) :
    deskBytes s b d = [0, sideCode (s.desk b d).selection, flagByte (s.desk b d).cough, 0, 0, 0, 0, 0, 0] := by
  simp only [deskBytes, State.lamps, if_neg h]; rfl

/-- Settles O18: the two bodies, field by field, and the refusals. -/
theorem readBoothAndDesks : Obligations.ReadBoothAndDesks := by
  unfold Obligations.ReadBoothAndDesks
  refine ⟨fun tag b s h => ⟨fun hbad => ?_, fun ⟨h1, h24⟩ => ?_⟩,
    fun tag b s h => ⟨fun hbad => ?_, fun domainBytes deskRecord h1 h24 hdomain hrecord => ?_⟩⟩
  · rw [exec_readBooth, takeRequest_replied h (serveReadBooth_range hbad _)]
  · rw [exec_readBooth, takeRequest_replied h (serveReadBooth_read h1 h24 _)]
    have hport : ∀ p : Option Nat, byteOf (p.getD 0) = (match p with | none => 0 | some q => byteOf q : Byte) := by
      rintro (_ | q) <;> rfl
    have hbytes : ∀ c : BoothConfig, c.bytes = [byteOf c.enabled,
        (match c.interlock with | .single => 1 | .dual => 2 : Byte),
        (match c.mode with | .override => 1 | .handshake => 2 : Byte), byteOf c.window,
        (match c.policy with | .take => 1 | .lapse => 2 : Byte), byteOf c.turnLimit, byteOf c.overrun] := by
      rintro ⟨n, ⟨⟩, ⟨⟩, w, ⟨⟩, l, o⟩ <;> rfl
    unfold boothBody
    simp only [hbytes, hport]
    rfl
  · rw [exec_readDesks, takeRequest_replied h (serveReadDesks_range hbad _)]
  · rw [exec_readDesks, takeRequest_replied h (serveReadDesks_read h1 h24 _)]
    have hbytes : ∀ m : Domain, m.bytes = domainBytes m := by
      rw [hdomain]; rintro (_ | d | ⟨d, e, n, ⟨⟩⟩) <;> rfl
    have hdesk : ∀ d, deskBytes s b.toNat d = deskRecord d := fun d => by
      rw [hrecord]
      by_cases hon : s.enabled b.toNat d = true
      · rw [deskBytes_enabled hon]
        simp only [if_pos hon, flagByte, sideCode, decide_eq_true_eq, Bool.and_eq_true]
        cases (s.desk b.toNat d).selection <;> cases s.deskState b.toNat d <;> rfl
      · rw [deskBytes_disabled hon]
        simp only [if_neg hon, flagByte]
        cases (s.desk b.toNat d).selection <;> rfl
    have hbody : desksBody s b = [0x00, b] ++ (s.domain b.toNat .a).bytes ++ (s.secondDomain b.toNat).bytes ++
        (deskBytes s b.toNat 1 ++ deskBytes s b.toNat 2 ++ deskBytes s b.toNat 3 ++ deskBytes s b.toNat 4) := by
      simp [desksBody, positions, List.range']
    rw [show desksBody (s.reserve _) b = desksBody s b from rfl, hbody, hbytes, hbytes, State.secondDomain_eq]
    simp only [hdesk]

end Sys2Proof.Machine
end

