-- ==== Sys2Proof/Proofs/BoothWrites.lean ====
section
/-! O17: WRITE_BOOTH, the ports of the positions it enables among what it stores. -/

namespace Sys2Proof.Machine

/-! ### The lowest free port (R38) -/

/-- A port that a desk holds is held, whatever the form of the table (R38). -/
theorem State.mem_portsHeld_of_desk {s : State} {x e q : Nat} (h : (s.desk x e).port = some q) : q ∈ s.portsHeld := by
  refine List.mem_filterMap.mpr ⟨(deskKey x e, s.desk x e), Table.mem_of_read_ne fun hdis => ?_, h⟩
  rw [State.desk, hdis] at h
  cases h

/-- In a table in canonical form the ports held are those that the desks read (R38). -/
theorem State.mem_portsHeld {s : State} (hcanon : s.booths.desks.canonical .disabled = true) (q : Nat) :
    q ∈ s.portsHeld ↔ ∃ x e, e ≤ 7 ∧ (s.desk x e).port = some q := by
  refine ⟨fun hq => ?_, fun ⟨x, e, _, hport⟩ => State.mem_portsHeld_of_desk hport⟩
  obtain ⟨⟨j, k⟩, hm, hport⟩ := List.mem_filterMap.mp hq
  refine ⟨j / 8, j % 8, by omega, ?_⟩
  unfold State.desk deskKey
  rw [Nat.div_add_mod' j 8, Table.read_of_mem hcanon hm]
  exact hport

/-- The free port is the lowest of the 64 that no position holds (R38). -/
theorem State.freePort_eq_some (s : State) (q : Nat) :
    s.freePort = some q ↔ 1 ≤ q ∧ q ≤ 64 ∧ q ∉ s.portsHeld ∧ ∀ r, 1 ≤ r → r < q → r ∈ s.portsHeld := by
  unfold State.freePort Config.deskPorts
  rw [List.find?_range'_eq_some]
  simp only [decide_eq_true_eq, List.mem_range'_1, Bool.not_eq_true', decide_eq_false_iff_not, not_not]
  exact ⟨fun ⟨hno, ⟨h1, h64⟩, hall⟩ => ⟨h1, by omega, hno, fun r h1 hr => hall r h1 hr⟩,
    fun ⟨h1, h64, hno, hall⟩ => ⟨hno, ⟨h1, by omega⟩, fun r h1 hr => hall r h1 hr⟩⟩

/-! ### Positions enabled in turn (R38) -/

section
variable {s : State} {b : Nat} {c : BoothConfig}

theorem enabling_le {old new : BoothConfig} : ∀ d ∈ enabling old new, d ≤ 7 := fun d hd => by
  have := mem_enabling.mp hd; omega

theorem enabling_nil {old new : BoothConfig} (h : new.enabled ≤ old.enabled) : enabling old new = [] :=
  List.filter_eq_nil_iff.mpr fun d _ => by simp; omega

/-- The state in which position `d` has its turn: the configuration is stored, and the newly enabled positions below it
have started (R38). -/
def State.turnOf (s : State) (b : Nat) (c : BoothConfig) (d : Nat) : State :=
  (List.range' ((s.config b).enabled + 1) (d - (s.config b).enabled - 1)).foldl (fun t e => enableDesk t b e)
    (s.setConfig b c)

/-- The newly enabled positions, with position `d` reached. -/
theorem enabling_split {old : BoothConfig} {d : Nat} (hc : c.enabled ≤ 4) (hd : old.enabled < d) (hdn : d ≤ c.enabled) :
    enabling old c = List.range' (old.enabled + 1) (d - old.enabled - 1) ++ d :: List.range' (d + 1) (c.enabled - d) := by
  rw [enabling_eq hc, show c.enabled - old.enabled = (d - old.enabled - 1) + (c.enabled - d + 1) by omega,
    ← List.range'_append_1, show old.enabled + 1 + (d - old.enabled - 1) = d by omega, List.range'_succ]

theorem foldl_enableDesk_desk {x y : Nat} {l : List Nat} (hy : y ≤ 7) (hl : ∀ d ∈ l, d ≤ 7) (hxy : x = b → y ∉ l)
    (t : State) : (l.foldl (fun t d => enableDesk t b d) t).desk x y = t.desk x y :=
  desk_foldl_of_not_mem (fun t d hd hn => by rw [enableDesk_desk t b d x y hd hy, if_neg hn]) hl hxy t

/-- With positions to enable there is none to disable, and position `d` starts afresh as its turn comes (R38). -/
theorem withDesks_desk_enabled {d : Nat} (hc : c.enabled ≤ 4) (hd : (s.config b).enabled < d) (hdn : d ≤ c.enabled) :
    (withDesks s b c).desk b d = ⟨.a, false, false, (s.turnOf b c d).freePort⟩ := by
  have hafter : ∀ e ∈ List.range' (d + 1) (c.enabled - d), d < e ∧ e ≤ 7 := fun e he => by
    rw [List.mem_range'_1] at he; omega
  unfold withDesks
  rw [enabling_nil (old := c) (by omega), List.foldl_nil, enabling_split hc hd hdn, List.foldl_append, List.foldl_cons,
    foldl_enableDesk_desk (by omega) (fun e he => (hafter e he).2) fun _ hm => absurd (hafter d hm).1 (Nat.lt_irrefl d),
    enableDesk_desk _ b d b d (by omega) (by omega), if_pos ⟨rfl, rfl⟩]
  rfl

/-- What the desks hold as position `d` has its turn: the newly enabled ones below it as they end, the others as they
were. -/
theorem State.turnOf_desk {d : Nat} (hc : c.enabled ≤ 4) (hd : (s.config b).enabled < d) (hdn : d ≤ c.enabled)
    {x e : Nat} (he : e ≤ 7) :
    (s.turnOf b c d).desk x e =
      if x = b ∧ (s.config b).enabled < e ∧ e < d then (withDesks s b c).desk b e else s.desk x e := by
  have hmem : ∀ y, y ∈ List.range' ((s.config b).enabled + 1) (d - (s.config b).enabled - 1) ↔
      (s.config b).enabled < y ∧ y < d := fun y => by rw [List.mem_range'_1]; omega
  have hrest : ∀ y ∈ d :: List.range' (d + 1) (c.enabled - d), d ≤ y ∧ y ≤ 7 := fun y hy => by
    rw [List.mem_cons, List.mem_range'_1] at hy; omega
  split
  · rename_i hx
    rw [hx.1]
    unfold withDesks State.turnOf
    rw [enabling_nil (old := c) (by omega), List.foldl_nil, enabling_split hc hd hdn, List.foldl_append,
      foldl_enableDesk_desk he (fun y hy => (hrest y hy).2) fun _ hm => absurd (hrest e hm).1 (Nat.not_le.mpr hx.2.2)]
  · rename_i hx
    exact (foldl_enableDesk_desk he (fun y hy => by have := (hmem y).mp hy; omega)
      (fun hxb hm => hx ⟨hxb, (hmem e).mp hm⟩) _)

/-- The table of desks stays in canonical form as positions are enabled. -/
theorem State.turnOf_canonical (h : s.booths.desks.canonical .disabled = true) (d : Nat) :
    (s.turnOf b c d).booths.desks.canonical .disabled = true :=
  List.foldlRecOn (motive := fun t : State => t.booths.desks.canonical .disabled = true) _ _ h
    fun _ ht e _ => Table.canonical_write _ _ (deskKey b e) _ ht

/-- The ports held as position `d` has its turn (R38). -/
theorem State.turnOf_held (hcanon : s.booths.desks.canonical .disabled = true) {d : Nat} (hc : c.enabled ≤ 4)
    (hd : (s.config b).enabled < d) (hdn : d ≤ c.enabled) (q : Nat) :
    q ∈ (s.turnOf b c d).portsHeld ↔
      (∃ x e, e ≤ 7 ∧ (x ≠ b ∨ e ≤ (s.config b).enabled ∨ d ≤ e) ∧ (s.desk x e).port = some q) ∨
        ∃ e, (s.config b).enabled < e ∧ e < d ∧ ((withDesks s b c).desk b e).port = some q := by
  rw [State.mem_portsHeld (State.turnOf_canonical hcanon d)]
  constructor
  · rintro ⟨x, e, he, hport⟩
    rw [State.turnOf_desk hc hd hdn he] at hport
    split at hport
    · rename_i hx; exact .inr ⟨e, hx.2.1, hx.2.2, hport⟩
    · rename_i hx
      refine .inl ⟨x, e, he, ?_, hport⟩
      by_cases hxb : x = b
      · right; by_contra hno; exact hx ⟨hxb, by omega, by omega⟩
      · exact .inl hxb
  · rintro (⟨x, e, he, hx, hport⟩ | ⟨e, he, hed, hport⟩)
    · refine ⟨x, e, he, ?_⟩
      rw [State.turnOf_desk hc hd hdn he, if_neg (fun h => hx.elim (· h.1) fun h' => by omega)]
      exact hport
    · refine ⟨b, e, by omega, ?_⟩
      rw [State.turnOf_desk hc hd hdn (by omega), if_pos ⟨rfl, he, hed⟩]
      exact hport

/-- Of two newly enabled positions the later one takes another port (R38). -/
theorem withDesks_port_distinct {d e : Nat} (hc : c.enabled ≤ 4) (hd : (s.config b).enabled < d) (hde : d < e)
    (hen : e ≤ c.enabled) :
    ((withDesks s b c).desk b e).port = none ∨
      ((withDesks s b c).desk b e).port ≠ ((withDesks s b c).desk b d).port := by
  cases hport : ((withDesks s b c).desk b d).port with
  | none => exact (em _).imp id id
  | some q =>
    right
    have hheld : ((s.turnOf b c e).desk b d).port = some q := by
      rw [State.turnOf_desk hc (by omega) hen (by omega), if_pos ⟨rfl, hd, hde⟩, hport]
    rw [withDesks_desk_enabled hc (by omega) hen]
    intro hfree
    exact ((State.freePort_eq_some _ q).mp hfree).2.2.1 (State.mem_portsHeld_of_desk hheld)

/-! ### A port for every position enabled (R38) -/

/-- What enabling positions makes of the desks depends on the desks alone. -/
theorem foldl_enableDesk_congr {t u : State} (h : u.booths.desks = t.booths.desks) (b : Nat) (l : List Nat) :
    (l.foldl (fun t d => enableDesk t b d) u).desk = (l.foldl (fun t d => enableDesk t b d) t).desk := by
  induction l generalizing t u with
  | nil => funext x y; unfold State.desk; rw [List.foldl_nil, List.foldl_nil, h]
  | cons d l ih =>
    refine ih ?_
    have hport : u.freePort = t.freePort := by unfold State.freePort State.portsHeld; rw [h]
    show u.booths.desks.write _ _ _ = t.booths.desks.write _ _ _
    rw [h, hport]

/-- Where the ports agree with the counts, an accepted configuration finds a port for each position it enables (R37,
R38). -/
theorem withDesks_port_some (hports : s.portsAgree) (hfour : ∀ x, (s.config x).enabled ≤ 4)
    (hcanon : s.booths.desks.canonical .disabled = true) (hb : b ∈ allBooths) (hc : c.enabled ≤ 4)
    (hsum : c.enabled + s.otherDesks b ≤ 64) {d : Nat} (hd : (s.config b).enabled < d) (hdn : d ≤ c.enabled) :
    ((withDesks s b c).desk b d).port ≠ none := by
  obtain ⟨hmatch, hout, -⟩ := (State.portsAgree_iff s).mp hports
  set u : State := { s with booths := ⟨[], s.booths.desks, []⟩, turns := ⟨[], []⟩ } with hu
  have humatch : u.portsMatch s.enabledOf := hmatch.congr fun _ _ _ => rfl
  have hold : s.enabledOf b = (s.config b).enabled := rfl
  have hothers : s.otherDesks b = ((allBooths.filter fun x => decide (x ≠ b)).map s.enabledOf).sum := rfl
  have hall := humatch.enableAll hb (c.enabled - (s.config b).enabled) ⟨rfl, hcanon, rfl, rfl, rfl⟩ hout
    (by omega) (by have := hfour b; omega)
  have hdesk : (withDesks s b c).desk = ((List.range' (s.enabledOf b + 1) (c.enabled - (s.config b).enabled)).foldl
      (fun t d => enableDesk t b d) u).desk := by
    unfold withDesks
    rw [enabling_nil (old := c) (by omega), List.foldl_nil, enabling_eq hc]
    exact (foldl_enableDesk_congr (t := s.setConfig b c) (u := u) rfl b _).symm
  rw [hdesk]
  refine (hall.1 b d (by omega)).mpr ?_
  rw [Function.update_self]
  omega

/-! ### Positions disabled, and desk records (R38, R67) -/

theorem withDesks_desk_disabled {d : Nat} (h1 : 1 ≤ d) (h4 : d ≤ 4) (hd : c.enabled < d) (hdo : d ≤ (s.config b).enabled) :
    (withDesks s b c).desk b d = .disabled := by
  unfold withDesks
  rw [desk_foldl_disableDesk (by omega) enabling_le, if_pos ⟨rfl, mem_enabling.mpr ⟨⟨h1, h4⟩, hd, hdo⟩⟩]

/-- A fold that zeroes the records of a list of positions of booth `b` keeps every other record. -/
theorem foldl_deskRecord {f : State → Nat → State} {l : List Nat} {x y : Nat}
    (hf : ∀ t d, d ≤ 7 → (f t d).deskRecord x y = if x = b ∧ y = d then .zero else t.deskRecord x y)
    (hl : ∀ d ∈ l, d ≤ 7) (t : State) :
    (l.foldl f t).deskRecord x y = if x = b ∧ y ∈ l then .zero else t.deskRecord x y := by
  induction l generalizing t with
  | nil => simp
  | cons d l ih =>
    rw [List.foldl_cons, ih (fun e he => hl e (List.mem_cons_of_mem _ he)), hf t d (hl d (by simp))]
    by_cases hx : x = b <;> by_cases hm : y ∈ l <;> by_cases hyd : y = d <;> simp [hx, hm, hyd]

/-- The records of the positions enabled or disabled are zeros, and every other is kept (R67). -/
theorem withDesks_deskRecord {x y : Nat} (hy : y ≤ 7) :
    (withDesks s b c).deskRecord x y =
      if x = b ∧ (y ∈ enabling (s.config b) c ∨ y ∈ enabling c (s.config b)) then .zero else s.deskRecord x y := by
  unfold withDesks
  rw [foldl_deskRecord (f := fun t d => disableDesk t b d)
      (fun t d hd => State.deskRecord_setDeskRecord _ b d x y .zero hd hy) enabling_le,
    foldl_deskRecord (f := fun t d => enableDesk t b d)
      (fun t d hd => State.deskRecord_setDeskRecord _ b d x y .zero hd hy) enabling_le]
  by_cases hx : x = b <;> by_cases hoff : y ∈ enabling c (s.config b) <;> simp [hx, hoff] <;> rfl

/-- A position that is neither enabled nor disabled keeps its desk and its record (R38, R67). -/
theorem withDesks_kept {x y : Nat} (hy : y ≤ 7)
    (h : x = b → y ∉ enabling (s.config b) c ∧ y ∉ enabling c (s.config b)) :
    (withDesks s b c).desk x y = s.desk x y ∧ (withDesks s b c).deskRecord x y = s.deskRecord x y := by
  refine ⟨?_, (withDesks_deskRecord hy).trans (if_neg fun hm => hm.2.elim (h hm.1).1 (h hm.1).2)⟩
  unfold withDesks
  rw [desk_foldl_disableDesk hy enabling_le, if_neg fun hm => (h hm.1).2 hm.2,
    foldl_enableDesk_desk hy enabling_le fun hx => (h hx).1]
  rfl

theorem storeConfig_deskRecord (s : State) (b : Nat) (c : BoothConfig) :
    (storeConfig s b c).deskRecord = (withDesks s b c).deskRecord := by
  rw [storeConfig_eq]
  split <;> rfl

/-- With the interlock kept the domains and their turns are kept (R39). -/
theorem storeConfig_same (h : c.interlock = (s.config b).interlock) :
    (storeConfig s b c).booths.domains = s.booths.domains ∧ (storeConfig s b c).turns.turns = s.turns.turns := by
  obtain ⟨desks, records, hw⟩ := withDesks_desksAlone s b c
  rw [storeConfig_eq, if_pos h, hw]
  exact ⟨rfl, rfl⟩
end

/-! ### WRITE_BOOTH (R36, R37) -/

theorem exec_writeBooth (tag : Byte) (body : List Byte) (s : State) :
    exec (.writeBooth tag body) s = .next (takeRequest s ⟨0x18, tag, body⟩ (serveWriteBooth body)) := rfl

section
variable {b n i m w p l o : Byte}

theorem interlockOfByte_eq_none (h1 : i ≠ 1) (h2 : i ≠ 2) : interlockOfByte i = none := by
  rw [interlockOfByte, if_neg h1, if_neg h2]

theorem modeOfByte_eq_none (h1 : m ≠ 1) (h2 : m ≠ 2) : modeOfByte m = none := by
  rw [modeOfByte, if_neg h1, if_neg h2]

theorem policyOfByte_eq_none (h1 : p ≠ 1) (h2 : p ≠ 2) : policyOfByte p = none := by
  rw [policyOfByte, if_neg h1, if_neg h2]

theorem interlockCode_of_interlockOfByte {x : Interlock} (h : interlockOfByte i = some x) : interlockCode x = i := by
  unfold interlockOfByte at h
  split at h
  · cases h; symm; assumption
  · split at h
    exacts [by cases h; symm; assumption, nomatch h]

theorem modeCode_of_modeOfByte {x : HandoverMode} (h : modeOfByte m = some x) : modeCode x = m := by
  unfold modeOfByte at h
  split at h
  · cases h; symm; assumption
  · split at h
    exacts [by cases h; symm; assumption, nomatch h]

theorem policyCode_of_policyOfByte {x : ExpiryPolicy} (h : policyOfByte p = some x) : policyCode x = p := by
  unfold policyOfByte at h
  split at h
  · cases h; symm; assumption
  · split at h
    exacts [by cases h; symm; assumption, nomatch h]

theorem serveWriteBooth_range
    (h : b.toNat = 0 ∨ 24 < b.toNat ∨ (i ≠ 1 ∧ i ≠ 2) ∨ (m ≠ 1 ∧ m ≠ 2) ∨ (p ≠ 1 ∧ p ≠ 2)) (s : State) :
    serveWriteBooth [b, n, i, m, w, p, l, o] s = (s, [0x03]) := by
  unfold serveWriteBooth
  by_cases hb : 1 ≤ b.toNat ∧ b.toNat ≤ 24
  · dsimp only
    rw [if_pos hb]
    rcases h with h | h | ⟨h1, h2⟩ | ⟨h1, h2⟩ | ⟨h1, h2⟩
    · omega
    · omega
    · rw [interlockOfByte_eq_none h1 h2]; rfl
    · rw [modeOfByte_eq_none h1 h2]
      cases interlockOfByte i <;> rfl
    · rw [policyOfByte_eq_none h1 h2]
      cases interlockOfByte i <;> cases modeOfByte m <;> rfl
  · exact if_neg hb

/-- A stored configuration of its ranges is the one sent exactly when no number was held to a bound (R36). -/
theorem BoothConfig.bytes_eq_iff {c : BoothConfig} {n w l o : Byte} (h : c.fits) :
    c.bytes = [n, interlockCode c.interlock, modeCode c.mode, w, policyCode c.policy, l, o] ↔
      n.toNat = c.enabled ∧ w.toNat = c.window ∧ l.toNat = c.turnLimit ∧ o.toNat = c.overrun := by
  obtain ⟨hn, -, hw, -, hl, ho⟩ := h
  have hbyte : ∀ {k : Nat} {x : Byte}, k ≤ 90 → (byteOf k = x ↔ x.toNat = k) := fun hk =>
    (byteOf_eq_iff (by omega)).trans eq_comm
  simp only [BoothConfig.bytes, List.cons.injEq, and_true, true_and]
  rw [hbyte (by omega), hbyte (by omega), hbyte hl, hbyte (by omega)]

/-- The bytes of a WRITE_BOOTH code the configuration `c`, each number held to its range (R36, R37). -/
def codesConfig (n i m w p l o : Byte) (c : BoothConfig) : Prop :=
  (interlockOfByte i = some c.interlock ∧ modeOfByte m = some c.mode ∧ policyOfByte p = some c.policy) ∧
    clampConfig n.toNat c.interlock c.mode w.toNat c.policy l.toNat o.toNat = c

theorem codesConfig_of {c : BoothConfig} (hi : i = (match c.interlock with | .single => 1 | .dual => 2 : Byte))
    (hm : m = (match c.mode with | .override => 1 | .handshake => 2 : Byte))
    (hp : p = (match c.policy with | .take => 1 | .lapse => 2 : Byte))
    (hn : c.enabled = min n.toNat 4) (hw : c.window = max 1 (min w.toNat 30))
    (hl : c.turnLimit = max 5 (min l.toNat 90)) (ho : c.overrun = min o.toNat 30) : codesConfig n i m w p l o c := by
  refine ⟨⟨?_, ?_, ?_⟩, ?_⟩
  · rw [hi]; cases c.interlock <;> rfl
  · rw [hm]; cases c.mode <;> rfl
  · rw [hp]; cases c.policy <;> rfl
  · unfold clampConfig clamp
    rw [← hw, ← hl, Nat.zero_max, Nat.zero_max, ← hn, ← ho]

/-- The reply's configuration repeats the codes of the request (R37). -/
theorem codesConfig.bytes {c : BoothConfig} (h : codesConfig n i m w p l o c) :
    c.bytes = [byteOf c.enabled, i, m, byteOf c.window, p, byteOf c.turnLimit, byteOf c.overrun] := by
  obtain ⟨⟨hi, hm, hp⟩, -⟩ := h
  rw [BoothConfig.bytes, interlockCode_of_interlockOfByte hi, modeCode_of_modeOfByte hm, policyCode_of_policyOfByte hp]

/-- A configuration is the one sent exactly when no number was held to a bound, and its status says so (R36, R37). -/
theorem codesConfig.status {c : BoothConfig} (h : codesConfig n i m w p l o c) :
    (clampStatus (decide (c.bytes ≠ [n, interlockCode c.interlock, modeCode c.mode, w, policyCode c.policy, l, o]))).code =
      if n.toNat = c.enabled ∧ w.toNat = c.window ∧ l.toNat = c.turnLimit ∧ o.toNat = c.overrun then 0x00 else 0x01 := by
  have hsent := BoothConfig.bytes_eq_iff (n := n) (w := w) (l := l) (o := o) (h.2 ▸ clampConfig_fits .. : c.fits)
  by_cases hall : n.toNat = c.enabled ∧ w.toNat = c.window ∧ l.toNat = c.turnLimit ∧ o.toNat = c.overrun
  · rw [if_pos hall, decide_eq_false (not_not.mpr (hsent.mpr hall))]; rfl
  · rw [if_neg hall, decide_eq_true (mt hsent.mp hall)]; rfl

section
variable {c : BoothConfig} (h1 : 1 ≤ b.toNat) (h24 : b.toNat ≤ 24) (hcode : codesConfig n i m w p l o c) {s : State}
include h1 h24 hcode

theorem serveWriteBooth_refused {t : Status} (ht : s.boothRefusal b.toNat c = some t) :
    serveWriteBooth [b, n, i, m, w, p, l, o] s = (s, [t.code]) := by
  obtain ⟨⟨hi, hm, hp⟩, hclamp⟩ := hcode
  simp only [serveWriteBooth, if_pos (And.intro h1 h24), hi, hm, hp, hclamp, ht]
  rfl

theorem serveWriteBooth_stored (ht : s.boothRefusal b.toNat c = none) :
    serveWriteBooth [b, n, i, m, w, p, l, o] s =
      (storeConfig s b.toNat c, (clampStatus (decide (c.bytes ≠ [n, interlockCode c.interlock, modeCode c.mode, w,
        policyCode c.policy, l, o]))).code :: b :: c.bytes) := by
  obtain ⟨⟨hi, hm, hp⟩, hclamp⟩ := hcode
  simp only [serveWriteBooth, if_pos (And.intro h1 h24), hi, hm, hp, hclamp, ht]
end
end

theorem State.boothBusy_iff (s : State) (b : Nat) : s.boothBusy b = true ↔ ∃ side, s.domain b side ≠ .idle := by
  simp only [State.boothBusy, Bool.or_eq_true, decide_eq_true_eq]
  exact ⟨fun h => h.elim (fun h => ⟨_, h⟩) fun h => ⟨_, h⟩, fun ⟨x, h⟩ => by cases x; exacts [.inl h, .inr h]⟩

section
variable {s : State} {b : Nat} {c : BoothConfig}

theorem State.boothRefusal_wrongState (h : s.plan.hall = .session ∧ c.enabled < (s.config b).enabled) :
    s.boothRefusal b c = some .wrongState := if_pos h

variable (h3 : ¬(s.plan.hall = .session ∧ c.enabled < (s.config b).enabled))
include h3

theorem State.boothRefusal_full (h : 64 < c.enabled + s.otherDesks b) : s.boothRefusal b c = some .full :=
  (if_neg h3).trans (if_pos h)

variable (h4 : c.enabled + s.otherDesks b ≤ 64)
include h4

theorem State.boothRefusal_inUse
    (h : s.plan.hall = .session ∧ c.interlock ≠ (s.config b).interlock ∧ ∃ side, s.domain b side ≠ .idle) :
    s.boothRefusal b c = some .inUse :=
  (if_neg h3).trans ((if_neg (Nat.not_lt.mpr h4)).trans (if_pos ⟨h.1, h.2.1, (State.boothBusy_iff s b).mpr h.2.2⟩))

theorem State.boothRefusal_passed
    (h : ¬(s.plan.hall = .session ∧ c.interlock ≠ (s.config b).interlock ∧ ∃ side, s.domain b side ≠ .idle)) :
    s.boothRefusal b c = none :=
  (if_neg h3).trans ((if_neg (Nat.not_lt.mpr h4)).trans
    (if_neg fun h' => h ⟨h'.1, h'.2.1, (State.boothBusy_iff s b).mp h'.2.2⟩))
end

/-- Settles O17: the refusals in the order of R37, and the stored configuration with its positions, domains and frame. -/
theorem writeBooth : Obligations.WriteBooth := by
  unfold Obligations.WriteBooth
  intro tag b n i m w p l o s h
  rw [exec_writeBooth]
  refine ⟨fun hbad => ?_, fun new h1 h24 hi hm hp hn hw hl ho => ?_⟩
  · rw [takeRequest_replied h (serveWriteBooth_range hbad _)]
  have hcode : codesConfig n i m w p l o new := codesConfig_of hi hm hp hn hw hl ho
  have hrefused : ∀ t, s.boothRefusal b.toNat new = some t →
      takeRequest s ⟨0x18, tag, [b, n, i, m, w, p, l, o]⟩ (serveWriteBooth [b, n, i, m, w, p, l, o]) =
        s.replied 0x18 tag [t.code] := fun t ht => takeRequest_replied h (serveWriteBooth_refused h1 h24 hcode ht)
  refine ⟨fun hsmall => ?_, fun hgrows => ⟨fun hfull => ?_, fun hroom => ⟨fun huse => ?_, fun hfree => ?_⟩⟩⟩
  · rw [hrefused _ (State.boothRefusal_wrongState hsmall)]; rfl
  · rw [hrefused _ (State.boothRefusal_full hgrows hfull)]; rfl
  · rw [hrefused _ (State.boothRefusal_inUse hgrows hroom huse)]; rfl
  have hfour : new.enabled ≤ 4 := hn ▸ Nat.min_le_right ..
  rw [takeRequest_served h (serveWriteBooth_stored h1 h24 hcode (State.boothRefusal_passed hgrows hroom hfree))]
  set r := s.reserve ⟨0x18, tag, [b, n, i, m, w, p, l, o]⟩ with hr
  have hdesk : ∀ x d, (storeConfig r b.toNat new).desk x d = (withDesks r b.toNat new).desk x d := fun x d => by
    rw [storeConfig_desk]
  have hrecord := fun x d (hd : d ≤ 7) =>
    (congrFun₂ (storeConfig_deskRecord r b.toNat new) x d).trans (withDesks_deskRecord hd)
  obtain ⟨booths, turns, halone⟩ := storeConfig_boothsAlone r b.toNat new
  refine ⟨_, rfl, (storeConfig_config r b.toNat new b.toNat).trans (if_pos rfl),
    fun x hx => (storeConfig_config r b.toNat new x).trans (if_neg hx), fun d hd1 hd4 hold hnew => ?_,
    fun d hd1 hd4 hnew hold => ?_, fun x d hd7 hkept => ?_, fun hsame => storeConfig_same (s := r) hsame,
    fun hother side => ⟨(storeConfig_domain r ..).trans (if_pos ⟨rfl, hother⟩),
      (storeConfig_turn r ..).trans (if_pos ⟨rfl, hother⟩)⟩,
    fun x side hx => ⟨(storeConfig_domain r ..).trans (if_neg fun h => hx h.1),
      (storeConfig_turn r ..).trans (if_neg fun h => hx h.1)⟩, ?_, ?_, ?_, ?_, ?_⟩
  · have hstart := (hdesk b.toNat d).trans (withDesks_desk_enabled (s := r) hfour hold hnew)
    refine ⟨congrArg Desk.selection hstart, congrArg Desk.cough hstart, congrArg Desk.flash hstart, ?_, ?_, ?_⟩
    · exact (hrecord b.toNat d (by omega)).trans
        (if_pos ⟨rfl, .inl (mem_enabling.mpr ⟨⟨hd1, hd4⟩, hold, hnew⟩)⟩)
    · intro hcanon
      refine ⟨fun held hheld q => ?_, fun hports hall => ?_⟩
      · have hport : ∀ q, held q ↔ q ∈ (r.turnOf b.toNat new d).portsHeld := fun q => by
          rw [hheld, State.turnOf_held (s := r) hcanon hfour hold hnew]
          simp only [← hdesk]
          rfl
        simp only [hport]
        exact (Eq.congr_left (congrArg Desk.port hstart)).trans (State.freePort_eq_some _ q)
      · exact (congrArg Desk.port (hdesk b.toNat d)).trans_ne (withDesks_port_some (s := r) hports hall hcanon
          (mem_allBooths.mpr ⟨h1, h24⟩) hfour hroom hold hnew)
    · intro e he4 hde hen
      have hdist := withDesks_port_distinct (s := r) hfour hold hde hen
      rw [← hdesk, ← hdesk] at hdist
      exact hdist
  · exact ⟨(hdesk b.toNat d).trans (withDesks_desk_disabled (s := r) hd1 hd4 hnew hold),
      (hrecord b.toNat d (by omega)).trans (if_pos ⟨rfl, .inr (mem_enabling.mpr ⟨⟨hd1, hd4⟩, hnew, hold⟩)⟩)⟩
  · have hcount : (r.config b.toNat).enabled = (s.config b.toNat).enabled := rfl
    obtain ⟨hdesk', hrecord'⟩ := withDesks_kept (s := r) (b := b.toNat) (c := new) (x := x) hd7 fun hx => by
      constructor <;> rw [mem_enabling] <;> omega
    exact ⟨(hdesk x d).trans hdesk', (congrFun₂ (storeConfig_deskRecord r b.toNat new) x d).trans hrecord'⟩
  · rw [halone]; exact ⟨rfl, rfl, rfl⟩
  · rw [halone]; exact ⟨rfl, rfl, rfl⟩
  · rw [halone]; exact ⟨rfl, rfl, rfl⟩
  · rw [halone]; exact ⟨rfl, rfl, rfl, rfl⟩
  · rw [hcode.status, hcode.bytes]
    exact State.answeredWith_of (by rw [halone]; rfl)

end Sys2Proof.Machine
end

