-- ==== Sys2Proof/Proofs/UnitPolls.lean ====
section
/-! O54: the polls of the three links, their replies and misses, and the loss of a unit. -/

namespace Sys2Proof.Machine

/-! ### Faults recorded (R166) -/

/-- A fault reaches the notices and the fault records alone. -/
theorem recordFault_frame (s : State) (u : Nat) (v : Severity) (c : Cause) (d : Nat) :
    recordFault s u v c d =
      { s with
        link := (recordFault s u v c d).link
        supervisor := { s.supervisor with faults := (recordFault s u v c d).supervisor.faults } } := by
  unfold recordFault
  split <;> rfl

section
variable {s : State} {u : Nat} {v : Severity} {c : Cause} {d : Nat}

theorem recordFault_unit (x : Nat) : (recordFault s u v c d).unit x = s.unit x := by rw [recordFault_frame]; rfl

theorem recordFault_faultRecord_ne {x : Nat} (hx : x ≠ u) : (recordFault s u v c d).faultRecord x = s.faultRecord x := by
  unfold recordFault
  split
  · exact (State.faultRecord_setFaultRecord s u x _).trans (if_neg hx)
  · exact (State.faultRecord_setFaultRecord s u x _).trans (if_neg hx)

/-- A fault that its record accepts stands in it, with its FAULT notice. -/
theorem recordFault_accepted (h : (s.faultRecord u).accepts v = true) :
    (recordFault s u v c d).faultRecord u = ⟨some ⟨v, c, s.clock.seconds, d⟩, (s.faultRecord u).overflow⟩ ∧
      (recordFault s u v c d).link = s.link.raise (.fault u ⟨v, c, s.clock.seconds, d⟩) := by
  unfold recordFault
  rw [if_pos h]
  exact ⟨(State.faultRecord_setFaultRecord s u u _).trans (if_pos rfl), rfl⟩

/-- A fault that its record does not accept leaves the overflow mark and no notice. -/
theorem recordFault_traced (h : ¬(s.faultRecord u).accepts v = true) :
    (recordFault s u v c d).faultRecord u = ⟨(s.faultRecord u).fault, true⟩ ∧ (recordFault s u v c d).link = s.link := by
  unfold recordFault
  rw [if_neg h]
  exact ⟨(State.faultRecord_setFaultRecord s u u _).trans (if_pos rfl), rfl⟩
end

theorem FaultRecord.accepts_empty {f : FaultRecord} (h : f.fault = none) (v : Severity) : f.accepts v = true := by
  simp [FaultRecord.accepts, h]

theorem FaultRecord.accepts_over {f : FaultRecord} {e : FaultEntry} (h : f.fault = some e) (v : Severity) :
    f.accepts v = true ↔ e.severity.rank < v.rank := by simp [FaultRecord.accepts, h]

/-! ### Flashes dropped (R41) -/

theorem dropFlashes_frame (s : State) (b : Nat) :
    dropFlashes s b = { s with booths := { s.booths with desks := (dropFlashes s b).booths.desks } } := by
  unfold dropFlashes
  generalize positions = l
  induction l generalizing s with
  | nil => rfl
  | cons d l ih => rw [List.foldl_cons, ih]; rfl

/-- The flashes of the four positions of booth `b` are dropped, and all else of every desk is kept (R41). -/
theorem dropFlashes_desk (s : State) (b x : Nat) {d : Nat} (hd : d ≤ 7) :
    (dropFlashes s b).desk x d = { s.desk x d with
      flash := (s.desk x d).flash && !(decide (x = b) && decide (1 ≤ d) && decide (d ≤ 4)) } := by
  have hfold : ∀ (l : List Nat), (∀ e ∈ l, e ≤ 7) → ∀ t : State,
      (l.foldl (fun t e => t.setDesk b e { t.desk b e with flash := false }) t).desk x d =
        { t.desk x d with flash := (t.desk x d).flash && !(decide (x = b) && decide (d ∈ l)) } := by
    intro l
    induction l with
    | nil => intro _ t; simp
    | cons e l ih =>
      intro hl t
      rw [List.foldl_cons, ih (fun y hy => hl y (List.mem_cons_of_mem _ hy)),
        State.desk_setDesk t b e x d _ (hl e (by simp)) hd]
      by_cases hx : x = b <;> by_cases he : d = e <;> simp [hx, he]
  have hpos : decide (d ∈ positions) = (decide (1 ≤ d) && decide (d ≤ 4)) := by
    rw [← Bool.decide_and]; exact decide_eq_decide.mpr mem_positions
  rw [Bool.and_assoc, ← hpos]
  exact hfold positions (by decide) s

/-! ### Polls that complete (R165) -/

section
variable {s : State} {u : Nat}

/-- A poll that completes leaves no poll of its unit under way. -/
theorem endPoll_not_polls (s : State) (u : Nat) : (endPoll s u).polls u = false := by
  unfold State.polls endPoll
  dsimp only
  have hclear : ∀ {α : Type} (p : Option α) (f : α → Nat), (if p.map f = some u then none else p).map f ≠ some u := by
    intro α p f
    split
    · exact nofun
    · assumption
  rw [decide_eq_false (hclear _ _), decide_eq_false (hclear _ _)]
  by_cases hu : u = radiatorUnit <;> simp [hu]

theorem missed_eq (e : UnitEntry) : e.missed = min (e.failures + 1) 15 := rfl

theorem missLoses_iff :
    s.missLoses u = true ↔ (s.unit u).state = .present ∧ s.limits.failureLimit ≤ (s.unit u).missed := by
  simp [State.missLoses]

/-- A miss that does not lose the unit counts and ends the poll. -/
theorem unitMiss_counts (h : ¬s.missLoses u = true) :
    unitMiss s u = (endPoll s u).setUnit u { s.unit u with failures := (s.unit u).missed } := if_neg h

/-- The unit is LOST with the count of its misses, and its block has taken the loss; its fault is not yet recorded. -/
def lostUnit (s : State) (u : Nat) : State :=
  ownLoss ((endPoll s u).setUnit u { state := .lost, failures := (s.unit u).missed }) u

theorem unitMiss_loses (h : s.missLoses u = true) :
    unitMiss s u = recordFault (lostUnit s u) u .lost .unitLost (s.unit u).missed := if_pos h

/-- The loss of a unit reaches the units, the polls, the desks and the beacon alone. -/
theorem lostUnit_frame (s : State) (u : Nat) :
    ∃ desks beacon, lostUnit s u =
      { s with
        supervisor := ((endPoll s u).setUnit u { state := .lost, failures := (s.unit u).missed }).supervisor
        booths := { s.booths with desks := desks }
        beacon := beacon } := by
  unfold lostUnit ownLoss
  split
  · exact ⟨_, _, rfl⟩
  · split
    · rw [dropFlashes_frame]; exact ⟨_, _, rfl⟩
    · exact ⟨_, _, rfl⟩

theorem lostUnit_unit (s : State) (u x : Nat) :
    (lostUnit s u).unit x = if x = u then ⟨.lost, (s.unit u).missed⟩ else s.unit x := by
  obtain ⟨desks, beacon, hlost⟩ := lostUnit_frame s u
  rw [hlost]
  exact State.unit_setUnit (endPoll s u) u x ⟨.lost, (s.unit u).missed⟩

theorem lostUnit_beacon (s : State) (u : Nat) :
    (lostUnit s u).beacon = if u = 41 then { s.beacon with inFlight := none } else s.beacon := by
  have hdrop : ∀ t : State, (dropFlashes t u).beacon = t.beacon := fun t => by rw [dropFlashes_frame]
  unfold lostUnit ownLoss radiatorUnit
  by_cases h41 : u = 41
  · rw [if_pos h41, if_pos h41]; rfl
  · rw [if_neg h41, if_neg h41]
    split
    · rw [hdrop]; rfl
    · rfl

theorem lostUnit_desk (s : State) (u x : Nat) {d : Nat} (hd : d ≤ 7) :
    (lostUnit s u).desk x d = { s.desk x d with
      flash := (s.desk x d).flash && !(decide (x = u) && decide (1 ≤ d) && decide (d ≤ 4) && decide (u ≤ 24)) } := by
  unfold lostUnit ownLoss radiatorUnit
  split
  · rename_i hu
    rw [decide_eq_false (p := u ≤ 24) (by omega), Bool.and_false, Bool.not_false, Bool.and_true]
    rfl
  · split
    · rename_i hle
      rw [dropFlashes_desk _ u x hd, decide_eq_true hle, Bool.and_true]
      rfl
    · rename_i hle
      rw [decide_eq_false hle, Bool.and_false, Bool.not_false, Bool.and_true]
      rfl
end

/-! ### Answers on the links (R165) -/

theorem exec_unitPollMiss (u : Nat) (s : State) :
    exec (.unitPollMiss u) s = .next (if isPolled u && s.polls u then unitMiss s u else s) := rfl

theorem exec_unitDeclaredLost (u : Nat) (s : State) :
    exec (.unitDeclaredLost u) s = .next (if isPolled u && s.polls u && s.missLoses u then unitMiss s u else s) := rfl

theorem exec_radiatorReply (s : State) :
    exec .radiatorReply s = .next (if s.polls 41 then unitReply s 41 else s) := rfl

theorem exec_rackReply (k : Nat) (x : RackContent) (s : State) :
    exec (.rackReply k x) s = .next (rackAnswer s k x) := rfl

theorem isPolled_of {u : Nat} (h1 : 1 ≤ u) (h41 : u ≤ 41) : isPolled u = true := by simp [isPolled, h1, h41]

section
variable {s : State} {b : Nat}

theorem owesReturn_iff (e : UnitEntry) : e.owesReturn = true ↔ e.state ≠ .present := by simp [UnitEntry.owesReturn]

theorem State.awaitsConsole.polls (h : s.awaitsConsole b) : s.polls b = true := by
  unfold State.polls
  rw [decide_eq_true (show s.supervisor.consolePoll.map (·.booth) = some b from h), Bool.true_or, Bool.true_or]

/-- The miss of a poll that is under way. -/
theorem exec_unitPollMiss_polled (h1 : 1 ≤ b) (h41 : b ≤ 41) (h : s.polls b = true) :
    exec (.unitPollMiss b) s = .next (unitMiss s b) := by
  rw [exec_unitPollMiss, isPolled_of h1 h41, h]; rfl

/-- The reply of the console that is polled is taken, and one of another is a miss of the console polled. -/
theorem consoleAnswer_awaited (h1 : 1 ≤ b) (h24 : b ≤ 24) (h : s.awaitsConsole b) (x : Nat) (c : ConsoleContent) :
    consoleAnswer s x c = if x = b then takeConsoleReply s x c else unitMiss s b := by
  obtain ⟨q, hq, rfl⟩ := Option.map_eq_some_iff.mp h
  unfold consoleAnswer
  rw [hq]
  exact if_pos (by simp [isBooth, h1, h24])

theorem consoleAnswer_unpolled (h : s.supervisor.consolePoll = none) (x : Nat) (c : ConsoleContent) :
    consoleAnswer s x c = s := by unfold consoleAnswer; rw [h]

theorem takeConsoleReply_events (h : (s.unit b).state ≠ .present) (l : List DeskEvent) :
    takeConsoleReply s b (.events l) = unitMiss s b := if_pos ((owesReturn_iff _).mpr h)

theorem takeConsoleReply_report (h : (s.unit b).state = .present) (d1 d2 d3 d4 : DeskReport) :
    takeConsoleReply s b (.report d1 d2 d3 d4) = unitMiss s b := if_neg fun ho => (owesReturn_iff _).mp ho h
end

section
variable {s : State} {k : Nat}

theorem State.awaitsRack.polls (h : s.awaitsRack k) : s.polls (24 + k) = true := by
  obtain ⟨q, hq, rfl⟩ := Option.map_eq_some_iff.mp h
  unfold State.polls
  rw [hq, decide_eq_true (p := (some q).map (fun p => rackUnit p.rack) = some (24 + q.rack)) rfl, Bool.or_true,
    Bool.true_or]

/-- The reply of the rack that is polled is taken, and one of another is a miss of the rack polled. -/
theorem rackAnswer_awaited (h1 : 1 ≤ k) (h16 : k ≤ 16) (h : s.awaitsRack k) (x : Nat) (c : RackContent) :
    rackAnswer s x c = if x = k then takeRackReply s x c else unitMiss s (24 + k) := by
  obtain ⟨q, hq, rfl⟩ := Option.map_eq_some_iff.mp h
  unfold rackAnswer
  rw [hq]
  exact if_pos (by simp [isRack, h1, h16])

theorem rackAnswer_unpolled (h : s.supervisor.rackPoll = none) (x : Nat) (c : RackContent) : rackAnswer s x c = s := by
  unfold rackAnswer; rw [h]

theorem takeRackReply_reports (h : (s.unit (24 + k)).state ≠ .present) (l : List RackReport) :
    takeRackReply s k (.reports l) = unitMiss s (24 + k) := if_pos ((owesReturn_iff _).mpr h)

theorem takeRackReply_inventory (h : (s.unit (24 + k)).state = .present) (l : List InventoryEntry) :
    takeRackReply s k (.inventory l) = unitMiss s (24 + k) := if_neg fun ho => (owesReturn_iff _).mp ho.1 h
end

/-! ### The polls (R41, R165) -/

theorem exec_consolePoll (s : State) :
    exec .consolePoll s = .next (if s.supervisor.consolePoll = none then sendConsolePoll s else s) := rfl

theorem exec_rackPoll (s : State) :
    exec .rackPoll s = .next (if s.supervisor.rackPoll = none then sendRackPoll s else s) := rfl

/-- The console link's poll changes the link's own record and the flashes of the desks alone (R41, R165). -/
theorem sendConsolePoll_eq (s : State) :
    sendConsolePoll s =
      { s with
        booths := { s.booths with desks := (dropFlashes s s.supervisor.nextConsole).booths.desks }
        supervisor := { s.supervisor with
          consolePoll := some ⟨s.supervisor.nextConsole, (s.unit s.supervisor.nextConsole).owesReturn,
            positions.map (s.lamps s.supervisor.nextConsole)⟩
          nextConsole := nextAddress 24 s.supervisor.nextConsole } } := by
  unfold sendConsolePoll
  dsimp only
  rw [dropFlashes_frame]

theorem sendConsolePoll_desk (s : State) (x d : Nat) :
    (sendConsolePoll s).desk x d = (dropFlashes s s.supervisor.nextConsole).desk x d := by
  unfold State.desk
  rw [sendConsolePoll_eq]

/-- Settles O54: each row by the operation that it names. -/
theorem unitPolling : Obligations.UnitPolling := by
  unfold Obligations.UnitPolling
  refine ⟨fun u n s h1 h41 hn => ⟨fun hidle => ?_, fun hpoll hkeeps => ?_, fun hpoll hpresent hlimit => ?_, fun hidle => ?_,
    fun hpoll => ?_⟩, fun s => ⟨fun hbusy => ?_, ?_, fun hbusy => ?_, ?_, rfl, fun b h1 h24 => ⟨fun hnone c => ?_,
    fun x hx hawait c => ?_, fun hawait hunit l => ?_, fun hawait hunit d1 d2 d3 d4 => ?_⟩, fun k h1 h16 =>
    ⟨fun hnone c => ?_, fun x hx hawait c => ?_, fun hawait hunit l => ?_, fun hawait hunit l => ?_⟩⟩⟩
  · rw [exec_unitPollMiss, exec_unitDeclaredLost, hidle]
    simp
  · have hstays : ¬s.missLoses u = true := by
      rw [missLoses_iff, missed_eq, ← hn]
      exact fun h => hkeeps.elim (· h.1) (Nat.not_lt.mpr h.2)
    rw [exec_unitDeclaredLost, if_neg (by simp [hstays]), exec_unitPollMiss_polled h1 h41 hpoll, unitMiss_counts hstays,
      missed_eq, ← hn]
    exact ⟨rfl, _, rfl, endPoll_not_polls s u, (State.unit_setUnit _ u u _).trans (if_pos rfl),
      fun x hx => (State.unit_setUnit _ u x _).trans (if_neg hx), rfl, ⟨rfl, rfl, rfl, rfl, rfl⟩, ⟨rfl, rfl, rfl⟩,
      ⟨rfl, rfl, rfl⟩, rfl, rfl, rfl, rfl⟩
  · have hloses : s.missLoses u = true := missLoses_iff.mpr ⟨hpresent, by rw [missed_eq, ← hn]; exact hlimit⟩
    rw [exec_unitDeclaredLost, if_pos (by simp [isPolled_of h1 h41, hpoll, hloses]),
      exec_unitPollMiss_polled h1 h41 hpoll, unitMiss_loses hloses, missed_eq, ← hn]
    obtain ⟨desks, beacon, hlost⟩ := lostUnit_frame s u
    have hrecord : (lostUnit s u).faultRecord = s.faultRecord := by rw [hlost]; rfl
    have hlink : (lostUnit s u).link = s.link := by rw [hlost]
    have hclock : (lostUnit s u).clock = s.clock := by rw [hlost]
    have hfault := recordFault_frame (lostUnit s u) u .lost .unitLost n
    have haccepted := recordFault_accepted (s := lostUnit s u) (u := u) (v := .lost) (c := .unitLost) (d := n)
    have htraced := recordFault_traced (s := lostUnit s u) (u := u) (v := .lost) (c := .unitLost) (d := n)
    rw [hrecord, hlink] at haccepted htraced
    rw [hclock] at haccepted
    refine ⟨_, rfl, rfl, ?_, ?_, fun x hx => ?_, fun x hx => ?_, fun hrank => ?_, fun e he hrank => ?_, ?_⟩
    · rw [hfault, hlost]; exact endPoll_not_polls s u
    · rw [recordFault_unit, lostUnit_unit, if_pos rfl, missed_eq, ← hn]
    · rw [recordFault_unit, lostUnit_unit, if_neg hx]
    · rw [recordFault_faultRecord_ne hx, hrecord]
    · refine haccepted ?_
      rcases hrank with hnone | ⟨e, he, hrank⟩
      · exact FaultRecord.accepts_empty hnone _
      · rw [FaultRecord.accepts_over he]
        cases hsev : e.severity
        exacts [by decide, by decide, absurd hsev hrank]
    · rw [← he]
      exact htraced (by rw [FaultRecord.accepts_over he, hrank]; decide)
    · have hdesk := fun x d (hd : d ≤ 7) => lostUnit_desk s u x hd
      have hbeacon := lostUnit_beacon s u
      rw [hfault]
      refine ⟨fun h41 => hbeacon.trans (if_pos h41), fun h41 => hbeacon.trans (if_neg h41), hdesk, ?_⟩
      rw [hlost]
      exact ⟨⟨rfl, rfl, rfl, rfl, rfl, rfl, rfl, rfl⟩, ⟨rfl, rfl, rfl⟩, rfl, rfl, rfl⟩
  · rw [exec_radiatorReply, hidle]; rfl
  · rw [exec_radiatorReply, hpoll]
    exact ⟨_, rfl, endPoll_not_polls s 41, unitReply_unit s 41, fun x hx => (State.unit_setUnit _ 41 x _).trans (if_neg hx),
      rfl, ⟨rfl, rfl, rfl, rfl, rfl⟩, ⟨rfl, rfl, rfl⟩, ⟨rfl, rfl, rfl⟩, rfl, rfl, rfl, rfl⟩
  · rw [exec_consolePoll, if_neg hbusy]
  · rintro hnone b rfl
    rw [exec_consolePoll, if_pos hnone]
    refine ⟨_, rfl, ?_, fun x d hd => (sendConsolePoll_desk s x d).trans (dropFlashes_desk s _ x hd), ?_⟩ <;>
      rw [sendConsolePoll_eq]
    · rfl
    · exact ⟨⟨rfl, rfl, rfl, rfl, rfl, rfl⟩, ⟨rfl, rfl, rfl⟩, ⟨rfl, rfl, rfl⟩, rfl, rfl, rfl, rfl⟩
  · rw [exec_rackPoll, if_neg hbusy]
  · rintro hnone k rfl
    rw [exec_rackPoll, if_pos hnone]
    rfl
  · rw [exec_consoleReply, consoleAnswer_unpolled hnone]
  · rw [exec_consoleReply, consoleAnswer_awaited h1 h24 hawait, if_neg hx,
      exec_unitPollMiss_polled h1 (by omega) hawait.polls]
  · rw [exec_consoleReply, consoleAnswer_awaited h1 h24 hawait, if_pos rfl, takeConsoleReply_events hunit,
      exec_unitPollMiss_polled h1 (by omega) hawait.polls]
  · rw [exec_consoleReply, consoleAnswer_awaited h1 h24 hawait, if_pos rfl, takeConsoleReply_report hunit,
      exec_unitPollMiss_polled h1 (by omega) hawait.polls]
  · rw [exec_rackReply, rackAnswer_unpolled hnone]
  · rw [exec_rackReply, rackAnswer_awaited h1 h16 hawait, if_neg hx,
      exec_unitPollMiss_polled (by omega) (by omega) hawait.polls]
  · rw [exec_rackReply, rackAnswer_awaited h1 h16 hawait, if_pos rfl, takeRackReply_reports hunit,
      exec_unitPollMiss_polled (by omega) (by omega) hawait.polls]
  · rw [exec_rackReply, rackAnswer_awaited h1 h16 hawait, if_pos rfl, takeRackReply_inventory hunit,
      exec_unitPollMiss_polled (by omega) (by omega) hawait.polls]

end Sys2Proof.Machine
end

