-- ==== Sys2Proof/Proofs/SecondTakers.lean ====
section
/-! The takers of a second event: each goes once, in whatever order (`secondEvent_pair`), raises notices and leaves alone what is not its own (`takeSecond_leaves`). -/

namespace Sys2Proof.Machine

/-! ### Lists taken element by element -/

section
variable {σ α : Type} {f : σ → α → σ} {l : List α}

/-- A property that an element brings about, and that the others keep as they keep what it is brought about from, holds
behind a list that names the element once. -/
theorem foldl_once {P Q : σ → Prop} {k : α} (hk : k ∈ l) (hl : l.Nodup) (hkeep : ∀ x ∈ l, x ≠ k → ∀ t, P t → P (f t x))
    (htake : ∀ t, P t → Q (f t k)) (hkept : ∀ x ∈ l, x ≠ k → ∀ t, Q t → Q (f t x)) {s : σ} (hs : P s) : Q (l.foldl f s) := by
  obtain ⟨before, behind, rfl⟩ := List.append_of_mem hk
  have hk' := List.nodup_middle.mp hl |>.notMem
  have hne : ∀ x ∈ before ++ behind, x ≠ k := fun x hx h => hk' (h ▸ hx)
  rw [List.foldl_append, List.foldl_cons]
  refine List.foldlRecOn behind _ (htake _ (List.foldlRecOn before _ hs ?_)) ?_
  · exact fun t ht x hx => hkeep x (by simp [hx]) (hne x (by simp [hx])) t ht
  · exact fun t ht x hx => hkept x (by simp [hx]) (hne x (by simp [hx])) t ht

/-- Two elements of a list that names each once, taken in the order of the list, with a property between them. -/
theorem foldl_twice {P Q R : σ → Prop} {j k : α} (hjk : [j, k].Sublist l) (hl : l.Nodup)
    (hP : ∀ x ∈ l, x ≠ j → x ≠ k → ∀ t, P t → P (f t x)) (hPQ : ∀ t, P t → Q (f t j))
    (hQ : ∀ x ∈ l, x ≠ j → x ≠ k → ∀ t, Q t → Q (f t x)) (hQR : ∀ t, Q t → R (f t k))
    (hR : ∀ x ∈ l, x ≠ j → x ≠ k → ∀ t, R t → R (f t x)) {s : σ} (hs : P s) : R (l.foldl f s) := by
  obtain ⟨before, behind, rfl, hj, hk⟩ := List.cons_sublist_iff.mp hjk
  have hk := List.singleton_sublist.mp hk
  obtain ⟨hbefore, hbehind, hdisjoint⟩ := List.nodup_append.mp hl
  rw [List.foldl_append]
  have hmid : Q (before.foldl f s) := foldl_once hj hbefore
    (fun x hx hxj => hP x (by simp [hx]) hxj fun h => hdisjoint x hx k hk h)
    hPQ (fun x hx hxj => hQ x (by simp [hx]) hxj fun h => hdisjoint x hx k hk h) hs
  exact foldl_once hk hbehind
    (fun x hx hxk => hQ x (by simp [hx]) (fun h => hdisjoint j hj x hx h.symm) hxk)
    hQR (fun x hx hxk => hR x (by simp [hx]) (fun h => hdisjoint j hj x hx h.symm) hxk) hmid

/-- A list that names an element once comes to it, and goes on behind it, by steps of the others alone. -/
theorem foldl_single {N : σ → σ → Prop} (hrefl : ∀ t, N t t) (htrans : ∀ {t u v}, N t u → N u v → N t v) {k : α}
    (hk : k ∈ l) (hl : l.Nodup) (hother : ∀ x ∈ l, x ≠ k → ∀ t, N t (f t x)) (s : σ) :
    ∃ t, N s t ∧ N (f t k) (l.foldl f s) :=
  foldl_once (P := fun t => N s t) (Q := fun u => ∃ t, N s t ∧ N (f t k) u) hk hl
    (fun x hx hxk t ht => htrans ht (hother x hx hxk t)) (fun t ht => ⟨t, ht, hrefl _⟩)
    (fun x hx hxk u ⟨t, ht, hu⟩ => ⟨t, ht, htrans hu (hother x hx hxk u)⟩) (hrefl s)

/-- A list that names two elements once comes to the one and then to the other, by steps of the others alone. -/
theorem foldl_pair {N : σ → σ → Prop} (hrefl : ∀ t, N t t) (htrans : ∀ {t u v}, N t u → N u v → N t v) {j k : α}
    (hj : j ∈ l) (hk : k ∈ l) (hjk : j ≠ k) (hl : l.Nodup) (hother : ∀ x ∈ l, x ≠ j → x ≠ k → ∀ t, N t (f t x)) (s : σ) :
    ∃ t v, N s t ∧
      ((N (f t j) v ∧ N (f v k) (l.foldl f s)) ∨ (N (f t k) v ∧ N (f v j) (l.foldl f s))) := by
  obtain ⟨before, behind, rfl⟩ := List.append_of_mem hj
  have hsplit := List.nodup_append.mp hl
  have hbehind := List.nodup_cons.mp hsplit.2.1
  have hbefore : ∀ x ∈ before, x ≠ j := fun x hx => hsplit.2.2 x hx j List.mem_cons_self
  have hafter : ∀ x ∈ behind, x ≠ j := fun x hx h => hbehind.1 (h ▸ hx)
  rw [List.foldl_append, List.foldl_cons]
  rcases List.mem_append.mp hk with hk | hk
  · obtain ⟨t, ht, hv⟩ := foldl_single hrefl htrans hk hsplit.1
      (fun x hx hxk => hother x (by simp [hx]) (hbefore x hx) hxk) s
    refine ⟨t, _, ht, .inr ⟨hv, List.foldlRecOn (motive := N _) behind f (hrefl _) fun u hu x hx => ?_⟩⟩
    exact htrans hu (hother x (by simp [hx]) (hafter x hx) (fun h => hsplit.2.2 k hk x (by simp [hx]) h.symm) u)
  · have hk := (List.mem_cons.mp hk).resolve_left hjk.symm
    obtain ⟨v, hv, hu⟩ := foldl_single hrefl htrans hk hbehind.2
      (fun x hx hxk => hother x (by simp [hx]) (hafter x hx) hxk) (f (before.foldl f s) j)
    refine ⟨_, v, List.foldlRecOn (motive := N _) before f (hrefl _) fun t ht x hx => ?_, .inl ⟨hv, hu⟩⟩
    exact htrans ht (hother x (by simp [hx]) (hbefore x hx) (fun h => hsplit.2.2 x hx k (by simp [hk]) h) t)
end

/-! ### The order of the takers (R66, R158, log entry 3) -/

/-- Naming each element once keeps a list free of repetition and names them all. -/
theorem foldl_insertNew {α : Type} [DecidableEq α] (l acc : List α) (hacc : acc.Nodup) :
    (l.foldl (fun acc x => if x ∈ acc then acc else acc ++ [x]) acc).Nodup ∧
      ∀ x, x ∈ l.foldl (fun acc x => if x ∈ acc then acc else acc ++ [x]) acc ↔ x ∈ acc ∨ x ∈ l := by
  induction l generalizing acc with
  | nil => simp [hacc]
  | cons y l ih =>
    rw [List.foldl_cons]
    split
    · rename_i hy
      refine ⟨(ih acc hacc).1, fun x => ?_⟩
      rw [(ih acc hacc).2, List.mem_cons]
      constructor
      · rintro (h | h) <;> simp [h]
      · rintro (h | rfl | h) <;> simp [*]
    · rename_i hy
      have hnew : (acc ++ [y]).Nodup := by
        rw [List.nodup_append]
        exact ⟨hacc, List.nodup_singleton y, fun a ha b hb h => hy (List.mem_singleton.mp hb ▸ h ▸ ha)⟩
      refine ⟨(ih _ hnew).1, fun x => ?_⟩
      rw [(ih _ hnew).2, List.mem_append, List.mem_singleton, List.mem_cons, or_assoc]

theorem completeOrder_nodup (order : List SecondTaker) : (completeOrder order).Nodup :=
  (foldl_insertNew _ [] List.nodup_nil).1

theorem mem_completeOrder (order : List SecondTaker) (x : SecondTaker) : x ∈ completeOrder order := by
  refine ((foldl_insertNew _ [] List.nodup_nil).2 x).mpr (.inr (List.mem_append_right _ ?_))
  cases x <;> decide

/-- The clock runs on to the second boundary, where the takers stand in line (R160). -/
def State.atBoundary (s : State) : State := s.onClock fun c => (c.run c.left).boundary

theorem exec_secondEvent (order : List SecondTaker) (s : State) :
    exec (.secondEvent order) s = .next (secondEvent s order) := rfl

/-! ### Notices raised -/

/-- The link of `t` is that of `s` with notices raised. -/
def State.grows (s t : State) : Prop := ∃ ns : List Notice, t.link = ns.foldl Link.raise s.link

theorem State.grows.refl (s : State) : s.grows s := ⟨[], rfl⟩

theorem State.grows.trans {s t u : State} (h : s.grows t) (k : t.grows u) : s.grows u := by
  obtain ⟨ns, h⟩ := h
  obtain ⟨ms, k⟩ := k
  exact ⟨ns ++ ms, by rw [List.foldl_append, ← h, k]⟩

/-- What is said of the link is said of the notices raised. -/
theorem State.grows.of_raises {P : Link → Prop} (hraise : ∀ l n, P l → P (Link.raise l n)) {s t : State} (h : s.grows t)
    (hs : P s.link) : P t.link := by
  obtain ⟨ns, h⟩ := h
  rw [h]
  exact List.foldlRecOn (motive := P) ns _ hs fun l hl n _ => hraise l n hl

theorem State.grows.tells {s t : State} (h : s.grows t) {n : Notice} (hs : s.tells n) : t.tells n :=
  h.of_raises (P := fun l => ({ s with link := l } : State).tells n)
    (fun _ m hl => State.tells_raise_of hl m) hs

theorem State.grows.tellsInOrder {s t : State} (h : s.grows t) {n m : Notice} (hs : s.tellsInOrder n m) :
    t.tellsInOrder n m :=
  h.of_raises (P := fun l => ({ s with link := l } : State).tellsInOrder n m)
    (fun _ p hl => State.tellsInOrder_raise_of hl p) hs

/-! ### What each taker leaves alone -/

/-- `t` is `s` as the takers of `own` can leave it: notices raised, and the blocks that are not theirs kept. -/
structure Leaves (own : SecondTaker → Prop) (s t : State) : Prop where
  grows : s.grows t
  plan : t.plan = s.plan
  configs : t.booths.configs = s.booths.configs
  limits : t.limits = s.limits
  seconds : t.clock.seconds = s.clock.seconds
  booths : ¬own .handoverWindows → t.booths = s.booths
  turns : ¬own .handoverWindows → ¬own .turnMeter → t.turns = s.turns
  check : ¬own .handoverWindows → ¬own .checkDwell → t.check = s.check
  arbiter : ¬own .handoverWindows → ¬own .checkDwell → t.arbiter = s.arbiter
  announcements : ¬own .handoverWindows → t.arbiter.announcements = s.arbiter.announcements
  hires : ¬own .issueWindows → t.hires = s.hires
  fleet : ¬own .issueWindows → ¬own .missingTimers → t.fleet = s.fleet

namespace Leaves
variable {own : SecondTaker → Prop} {s t u : State}

theorem refl (own : SecondTaker → Prop) (s : State) : Leaves own s s :=
  ⟨.refl s, rfl, rfl, rfl, rfl, fun _ => rfl, fun _ _ => rfl, fun _ _ => rfl, fun _ _ => rfl, fun _ => rfl,
    fun _ => rfl, fun _ _ => rfl⟩

theorem trans (h : Leaves own s t) (k : Leaves own t u) : Leaves own s u where
  grows := h.grows.trans k.grows
  plan := k.plan.trans h.plan
  configs := k.configs.trans h.configs
  limits := k.limits.trans h.limits
  seconds := k.seconds.trans h.seconds
  booths hx := (k.booths hx).trans (h.booths hx)
  turns hx hx' := (k.turns hx hx').trans (h.turns hx hx')
  check hx hx' := (k.check hx hx').trans (h.check hx hx')
  arbiter hx hx' := (k.arbiter hx hx').trans (h.arbiter hx hx')
  announcements hx := (k.announcements hx).trans (h.announcements hx)
  hires hx := (k.hires hx).trans (h.hires hx)
  fleet hx hx' := (k.fleet hx hx').trans (h.fleet hx hx')

theorem mono {also : SecondTaker → Prop} (h : Leaves own s t) (hown : ∀ x, own x → also x) : Leaves also s t where
  grows := h.grows
  plan := h.plan
  configs := h.configs
  limits := h.limits
  seconds := h.seconds
  booths hx := h.booths (mt (hown _) hx)
  turns hx hx' := h.turns (mt (hown _) hx) (mt (hown _) hx')
  check hx hx' := h.check (mt (hown _) hx) (mt (hown _) hx')
  arbiter hx hx' := h.arbiter (mt (hown _) hx) (mt (hown _) hx')
  announcements hx := h.announcements (mt (hown _) hx)
  hires hx := h.hires (mt (hown _) hx)
  fleet hx hx' := h.fleet (mt (hown _) hx) (mt (hown _) hx')

theorem foldl {α : Type} {f : State → α → State} (h : ∀ t y, Leaves own t (f t y)) (l : List α) (s : State) :
    Leaves own s (l.foldl f s) :=
  List.foldlRecOn (motive := Leaves own s) l f (refl own s) fun t ht y _ => ht.trans (h t y)

end Leaves

section
variable (s : State) (ns : List Notice)

theorem leaves_turns (y : Turns) :
    Leaves (Eq .turnMeter) s { s with turns := y, link := ns.foldl Link.raise s.link } :=
  ⟨⟨ns, rfl⟩, rfl, rfl, rfl, rfl, fun _ => rfl, fun _ h => absurd rfl h, fun _ _ => rfl, fun _ _ => rfl, fun _ => rfl,
    fun _ => rfl, fun _ _ => rfl⟩

theorem leaves_meters (y : Meters) : Leaves (Eq .accountingMeters) s { s with meters := y } :=
  ⟨.refl s, rfl, rfl, rfl, rfl, fun _ => rfl, fun _ _ => rfl, fun _ _ => rfl, fun _ _ => rfl, fun _ => rfl,
    fun _ => rfl, fun _ _ => rfl⟩

theorem leaves_hires (y : Hires) (z : Fleet) :
    Leaves (Eq .issueWindows) s { s with hires := y, fleet := z, link := ns.foldl Link.raise s.link } :=
  ⟨⟨ns, rfl⟩, rfl, rfl, rfl, rfl, fun _ => rfl, fun _ _ => rfl, fun _ _ => rfl, fun _ _ => rfl, fun _ => rfl,
    fun h => absurd rfl h, fun h => absurd rfl h⟩

theorem leaves_fleet (y : Fleet) :
    Leaves (Eq .missingTimers) s { s with fleet := y, link := ns.foldl Link.raise s.link } :=
  ⟨⟨ns, rfl⟩, rfl, rfl, rfl, rfl, fun _ => rfl, fun _ _ => rfl, fun _ _ => rfl, fun _ _ => rfl, fun _ => rfl,
    fun _ => rfl, fun _ h => absurd rfl h⟩

theorem leaves_clock (y : Clock) (z : Supervisor) (h : y.seconds = s.clock.seconds) :
    Leaves (Eq .clockReturn) s { s with clock := y, supervisor := z, link := ns.foldl Link.raise s.link } :=
  ⟨⟨ns, rfl⟩, rfl, rfl, rfl, h, fun _ => rfl, fun _ _ => rfl, fun _ _ => rfl, fun _ _ => rfl, fun _ => rfl,
    fun _ => rfl, fun _ _ => rfl⟩

theorem leaves_check (y : Check) : Leaves (Eq .checkDwell) s { s with check := y } :=
  ⟨.refl s, rfl, rfl, rfl, rfl, fun _ => rfl, fun _ _ => rfl, fun _ h => absurd rfl h, fun _ h => absurd rfl h,
    fun _ => rfl, fun _ => rfl, fun _ _ => rfl⟩

theorem leaves_windows (y : Booths) (z : Turns) (h : y.configs = s.booths.configs) :
    Leaves (Eq .handoverWindows) s { s with booths := y, turns := z } :=
  ⟨.refl s, rfl, h, rfl, rfl, fun h => absurd rfl h, fun h => absurd rfl h, fun h => absurd rfl h, fun h => absurd rfl h,
    fun h => absurd rfl h, fun _ => rfl, fun _ _ => rfl⟩

theorem leaves_announcements (y : Table AnnState) :
    Leaves (Eq .handoverWindows) s { s with arbiter := { s.arbiter with announcements := y } } :=
  ⟨.refl s, rfl, rfl, rfl, rfl, fun h => absurd rfl h, fun h => absurd rfl h, fun h => absurd rfl h,
    fun h => absurd rfl h, fun h => absurd rfl h, fun _ => rfl, fun _ _ => rfl⟩
end

/-- A settled event raises notices. -/
theorem settleEvent_grows (before : State) (early late : List Notice) (s : State) :
    s.grows (settleEvent before early late s) :=
  ⟨_, by unfold settleEvent; rw [State.raiseAll_link_eq, State.recompute_frame, preemptCheck_frame]⟩

/-- A settled event is within what the takers of the windows and of the dwell may do. -/
theorem settleEvent_leaves {x : SecondTaker} (hx : x = .handoverWindows ∨ x = .checkDwell) (before : State)
    (early late : List Notice) (s : State) : Leaves (Eq x) s (settleEvent before early late s) := by
  have hgrows := settleEvent_grows before early late s
  rw [settleEvent_frame] at hgrows ⊢
  refine ⟨hgrows, rfl, rfl, rfl, rfl, fun _ => rfl, fun _ _ => rfl, fun h h' => ?_, fun h h' => ?_, fun _ => rfl,
    fun _ => rfl, fun _ _ => rfl⟩
  all_goals exact absurd hx (not_or.mpr ⟨h, h'⟩)

theorem turnSecond_leaves (s : State) (b : Nat) (p : Side) : Leaves (Eq .turnMeter) s (turnSecond s b p) := by
  have hcount : ∀ t : State, Leaves (Eq .turnMeter) t (turnCount t b p) := fun t => by
    unfold turnCount
    split
    exacts [.refl _ t, leaves_turns t [] _]
  have hdue : ∀ t : State, Leaves (Eq .turnMeter) t (turnDue t b p) := fun t => by
    unfold turnDue
    split
    · exact .refl _ t
    · split
      exacts [leaves_turns t [_] _, .refl _ t]
  have hlate : ∀ t : State, Leaves (Eq .turnMeter) t (turnOverrun t b p) := fun t => by
    unfold turnOverrun
    split
    · exact .refl _ t
    · split
      exacts [leaves_turns t [_] _, .refl _ t]
  exact ((hcount s).trans (hdue _)).trans (hlate _)

theorem meterChannel_leaves (s : State) (c : Nat) : Leaves (Eq .accountingMeters) s (meterChannel s c) := by
  unfold meterChannel
  dsimp only
  split
  exacts [(leaves_meters s _).trans (leaves_meters _ _), leaves_meters s _]

theorem flash_leaves (s : State) (b d : Nat) : Leaves (Eq .handoverWindows) s (flash s b d) := by
  rw [flash_frame]; exact leaves_windows s _ _ rfl

theorem changeDomain_leaves (s : State) (b : Nat) (p : Side) (new : Domain) :
    Leaves (Eq .handoverWindows) s (changeDomain s b p new) := by
  rw [changeDomain_eq]
  refine Leaves.trans ?_ (settleEvent_leaves (.inl rfl) _ _ _ _)
  refine Leaves.trans (t := setDomainState s b p new) ?_ ?_
  · rw [setDomainState_frame]; exact leaves_windows s _ _ rfl
  · rw [activate_frame]; exact leaves_announcements _ _

theorem expireWindow_leaves (s : State) (b : Nat) (p : Side) : Leaves (Eq .handoverWindows) s (expireWindow s b p) := by
  unfold expireWindow
  split
  · split
    exacts [changeDomain_leaves _ _ _ _, (changeDomain_leaves _ _ _ _).trans (flash_leaves _ _ _)]
  · exact .refl _ _

theorem windowSecond_leaves (s : State) (b : Nat) (p : Side) : Leaves (Eq .handoverWindows) s (windowSecond s b p) := by
  have htimer : ∀ m : Domain, Leaves (Eq .handoverWindows) s (s.setDomain b p m) := fun m => leaves_windows s _ _ rfl
  unfold windowSecond
  split
  · dsimp only
    split
    exacts [(htimer _).trans (expireWindow_leaves _ b p), htimer _]
  · exact .refl _ s

theorem issueSecond_leaves (s : State) (n : Nat) : Leaves (Eq .issueWindows) s (issueSecond s n) := by
  unfold issueSecond
  split
  · split
    · split
      exacts [leaves_hires s [_] _ _, leaves_hires s [] _ _]
    · exact .refl _ s
  · exact .refl _ s

theorem expireDwell_leaves (s : State) (c : Nat) : Leaves (Eq .checkDwell) s (expireDwell s c) := by
  have hfail := failOpen_scores c (positionsOf s.checkMonitors) s
  unfold expireDwell
  generalize (positionsOf s.checkMonitors).foldl _ s = u at hfail ⊢
  obtain ⟨⟨r, f, g, rfl⟩, -⟩ := hfail
  refine Leaves.trans ?_ (settleEvent_leaves (.inr rfl) _ _ _ _)
  rw [endChannel_frame]
  exact leaves_check s _

theorem dwellSecond_leaves (placed : Nat) (s : State) : Leaves (Eq .checkDwell) s (dwellSecond placed s) := by
  unfold dwellSecond
  split
  · exact .refl _ s
  · split
    · dsimp only
      split
      exacts [(leaves_check s _).trans (expireDwell_leaves _ _), leaves_check s _]
    · exact .refl _ s

theorem clockReturn_leaves (s : State) : Leaves (Eq .clockReturn) s (clockReturn s) := by
  unfold clockReturn
  split
  exacts [leaves_clock s [_] _ _ rfl, .refl _ s]

theorem turnMeterSecond_leaves (s : State) : Leaves (Eq .turnMeter) s (turnMeterSecond s) := by
  unfold turnMeterSecond
  refine Leaves.foldl ?_ _ s
  exact fun t q => turnSecond_leaves t q.1 q.2

theorem windowsSecond_leaves (s : State) : Leaves (Eq .handoverWindows) s (windowsSecond s) := by
  unfold windowsSecond
  refine Leaves.foldl ?_ _ s
  exact fun t q => windowSecond_leaves t q.1 q.2

/-- Each taker raises notices and leaves alone what is not its own (R66, R158, R160). -/
theorem takeSecond_leaves (placed : Nat) (s : State) (x : SecondTaker) : Leaves (Eq x) s (takeSecond placed s x) := by
  cases x with
  | turnMeter => exact turnMeterSecond_leaves s
  | accountingMeters => exact .foldl meterChannel_leaves allChannels s
  | handoverWindows => exact windowsSecond_leaves s
  | issueWindows => exact .foldl issueSecond_leaves _ s
  | missingTimers =>
    refine .foldl (fun t r => ?_) _ s
    split
    exacts [leaves_fleet t [_] _, .refl _ t]
  | checkDwell => exact dwellSecond_leaves placed s
  | clockReturn => exact clockReturn_leaves s

/-- A second event comes to one of two takers and then to the other, by the other takers alone. -/
theorem secondEvent_pair (order : List SecondTaker) {j k : SecondTaker} (hjk : j ≠ k) (s : State) :
    ∃ t v u, Leaves (fun x => x ≠ j ∧ x ≠ k) s.atBoundary t ∧
      ((Leaves (fun x => x ≠ j ∧ x ≠ k) (takeSecond s.check.placements t j) v ∧
          Leaves (fun x => x ≠ j ∧ x ≠ k) (takeSecond s.check.placements v k) u) ∨
        (Leaves (fun x => x ≠ j ∧ x ≠ k) (takeSecond s.check.placements t k) v ∧
          Leaves (fun x => x ≠ j ∧ x ≠ k) (takeSecond s.check.placements v j) u)) ∧
      secondEvent s order = u.onClock Clock.settle := by
  obtain ⟨t, v, ht, h⟩ := foldl_pair (N := Leaves fun x => x ≠ j ∧ x ≠ k) (f := takeSecond s.check.placements) (.refl _)
    .trans (mem_completeOrder order j) (mem_completeOrder order k) hjk (completeOrder_nodup order)
    (fun x _ hx hx' t => (takeSecond_leaves _ t x).mono fun y hy => hy ▸ ⟨hx, hx'⟩) s.atBoundary
  exact ⟨t, v, _, ht, h, rfl⟩

end Sys2Proof.Machine
end

