-- ==== Sys2Proof/Proofs/TurnSeconds.lean ====
section
/-! One second of the turn meter: each live turn counted, with its notices in the order of the domains (R61 to R68). -/

namespace Sys2Proof.Machine

/-- A turn after one more second: counted, and marked at its thresholds (R61, R64, R65). -/
def TurnRecord.counted (r : TurnRecord) : TurnRecord :=
  { r with
    counter := satAdd r.counter 1
    dueRaised := r.dueRaised || r.dueAt (satAdd r.counter 1)
    overrunRaised := r.overrunRaised || r.overrunAt (satAdd r.counter 1) }

/-- The record of a live desk after one more second on the output it selects (R68). -/
def State.recordLived (s : State) (b d : Nat) : DeskRecord :=
  match (s.desk b d).selection with
  | .a => { s.deskRecord b d with liveA := satAdd (s.deskRecord b d).liveA 1 }
  | .b => { s.deskRecord b d with liveB := satAdd (s.deskRecord b d).liveB 1 }

theorem State.recordLived_turnDue (s : State) (b d : Nat) : (s.recordLived b d).turnDue = (s.deskRecord b d).turnDue := by
  unfold State.recordLived; cases (s.desk b d).selection <;> rfl

/-- The record of desk `d`, live in the domain at `p`, after one more second (R64, R68). -/
def State.recordCounted (s : State) (b : Nat) (p : Side) (d : Nat) : DeskRecord :=
  { s.recordLived b d with
    turnDue := if (s.turn b p).dueAt (satAdd (s.turn b p).counter 1) then satAdd (s.deskRecord b d).turnDue 1
      else (s.deskRecord b d).turnDue }

/-- The notices of one more second of desk `d` live in the domain at `p` (R64 to R66). -/
def State.turnNotices (s : State) (b : Nat) (p : Side) (d : Nat) : List Notice :=
  (if (s.turn b p).dueAt (satAdd (s.turn b p).counter 1) then [.turnDue b d] else []) ++
    if (s.turn b p).overrunAt (satAdd (s.turn b p).counter 1) then [.turnOverrun b d] else []

section
variable {s : State} {b d : Nat} {p : Side}

/-- A domain with no live desk has no turn to count. -/
theorem turnSecond_idle (h : (s.domain b p).liveDesk = none) : turnSecond s b p = s := by
  simp only [turnSecond, turnCount, turnDue, turnOverrun, h]

/-- A turn meter's write of one turn and the record of its desk. -/
def State.putTurn (s : State) (b : Nat) (p : Side) (d : Nat) (r : TurnRecord) (k : DeskRecord) : State :=
  (s.setTurn b p r).setDeskRecord b d k

theorem State.putTurn_turn (r : TurnRecord) (k : DeskRecord) : (s.putTurn b p d r k).turn b p = r :=
  (State.turn_setTurn _ b b p p r).trans (if_pos ⟨rfl, rfl⟩)

theorem State.putTurn_deskRecord (r : TurnRecord) (k : DeskRecord) : (s.putTurn b p d r k).deskRecord b d = k :=
  (State.deskRecord_setDeskRecord_booth _ b d d k).trans (if_pos rfl)

theorem State.putTurn_putTurn (r r' : TurnRecord) (k k' : DeskRecord) :
    (s.putTurn b p d r k).putTurn b p d r' k' = s.putTurn b p d r' k' := by
  unfold State.putTurn State.setTurn State.setDeskRecord
  simp only [Table.write_write]

theorem State.putTurn_setTurn (r r' : TurnRecord) (k : DeskRecord) :
    (s.putTurn b p d r k).setTurn b p r' = s.putTurn b p d r' k := by
  unfold State.putTurn State.setTurn State.setDeskRecord
  simp only [Table.write_write]

/-- A second of a live turn: its record and its desk's, and the notices of its thresholds (R61, R64, R65, R68). -/
theorem turnSecond_live (h : (s.domain b p).liveDesk = some d) :
    turnSecond s b p =
      (s.putTurn b p d (s.turn b p).counted (s.recordCounted b p d)).raiseAll (s.turnNotices b p d) := by
  set r := s.turn b p with hr
  set n := satAdd r.counter 1 with hn
  have hcount : turnCount s b p = s.putTurn b p d { r with counter := n } (s.recordLived b d) := by
    simp only [turnCount, h]
    rfl
  have hdue : ∀ x k, turnDue (s.putTurn b p d x k) b p =
      if x.dueAt x.counter then
        (s.raise (.turnDue b d)).putTurn b p d { x with dueRaised := true } { k with turnDue := satAdd k.turnDue 1 }
      else s.putTurn b p d x k := fun x k => by
    have hlive : ((s.putTurn b p d x k).domain b p).liveDesk = some d := h
    simp only [turnDue, hlive, State.putTurn_turn, State.putTurn_deskRecord]
    rw [show ∀ y l m, (s.raise m).putTurn b p d y l = (s.putTurn b p d y l).raise m from fun _ _ _ => rfl,
      ← State.putTurn_putTurn (s := s) x { x with dueRaised := true } k]
    rfl
  have hlate : ∀ (u : State) x k, (u.domain b p).liveDesk = some d → turnOverrun (u.putTurn b p d x k) b p =
      if x.overrunAt x.counter then
        (u.raise (.turnOverrun b d)).putTurn b p d { x with overrunRaised := true } k
      else u.putTurn b p d x k := fun u x k hu => by
    have hlive : ((u.putTurn b p d x k).domain b p).liveDesk = some d := hu
    simp only [turnOverrun, hlive, State.putTurn_turn]
    rw [State.putTurn_setTurn]
    rfl
  have hdueAt : ({ r with counter := n } : TurnRecord).dueAt n = r.dueAt n := rfl
  have hlateAt : ∀ m x, ({ r with counter := m, dueRaised := x } : TurnRecord).overrunAt n = r.overrunAt n :=
    fun _ _ => rfl
  have hkept : ({ s.recordLived b d with turnDue := (s.deskRecord b d).turnDue } : DeskRecord) = s.recordLived b d := by
    rw [← State.recordLived_turnDue]
  have hraise : ∀ (u : State) m x k, (u.putTurn b p d x k).raise m = (u.raise m).putTurn b p d x k := fun _ _ _ _ => rfl
  rw [turnSecond, hcount, hdue]
  unfold TurnRecord.counted State.recordCounted State.turnNotices
  rw [← hr, ← hn]
  have hlate' : ((s.raise (.turnDue b d)).domain b p).liveDesk = some d := h
  cases hd : r.dueAt n <;> cases hl : r.overrunAt n
  all_goals
    simp [hd, hl, hdueAt, hlate _ _ _ h, hlate _ _ _ hlate', hlateAt, hkept, State.raiseAll, State.recordLived_turnDue,
      hraise]

/-- A second of one domain touches no other turn. -/
theorem turnSecond_turn_ne {x : Nat} {q : Side} (hne : ¬(b = x ∧ p = q)) : (turnSecond s x q).turn b p = s.turn b p := by
  cases h : (s.domain x q).liveDesk with
  | none => rw [turnSecond_idle h]
  | some e =>
    rw [turnSecond_live h, State.raiseAll_frame]
    exact (State.turn_setTurn s x b q p _).trans (if_neg hne)

/-- A second of one domain touches the record of its live desk alone. -/
theorem turnSecond_deskRecord_ne {x : Nat} {q : Side} (hd : d ≤ 7)
    (hne : ∀ e, (s.domain x q).liveDesk = some e → e ≤ 7 ∧ ¬(b = x ∧ d = e)) :
    (turnSecond s x q).deskRecord b d = s.deskRecord b d := by
  cases h : (s.domain x q).liveDesk with
  | none => rw [turnSecond_idle h]
  | some e =>
    obtain ⟨he, hne⟩ := hne e h
    rw [turnSecond_live h, State.raiseAll_frame]
    exact (State.deskRecord_setDeskRecord (s.setTurn x q _) x e b d _ he hd).trans (if_neg hne)

theorem State.raiseAll_grows (s : State) (ns : List Notice) : s.grows (s.raiseAll ns) := ⟨ns, State.raiseAll_link_eq s ns⟩

/-- Each notice of a row of them is told. -/
theorem State.tells_raiseAll {n : Notice} {ns : List Notice} (hn : n ∈ ns) (s : State) : (s.raiseAll ns).tells n := by
  obtain ⟨before, behind, rfl⟩ := List.append_of_mem hn
  rw [State.raiseAll_append, State.raiseAll_cons]
  exact (State.raiseAll_grows _ behind).tells (State.tells_raise _ n)

/-- Each notice of a row of them is told behind what has been told. -/
theorem State.tellsInOrder_raiseAll {n m : Notice} {ns : List Notice} (hm : m ∈ ns) {s : State} (hn : s.tells n) :
    (s.raiseAll ns).tellsInOrder n m := by
  obtain ⟨before, behind, rfl⟩ := List.append_of_mem hm
  rw [State.raiseAll_append, State.raiseAll_cons]
  exact (State.raiseAll_grows _ behind).tellsInOrder
    (State.tellsInOrder_raise ((State.raiseAll_grows s before).tells hn) m)
end

/-! ### The turn meter (R61 to R68) -/

/-- In a list that rises, the lesser of two elements stands before the greater. -/
theorem List.pair_sublist_of_rising {α : Type} {key : α → Nat} {l : List α} (hl : l.Pairwise fun x y => key x < key y)
    {x y : α} (hx : x ∈ l) (hy : y ∈ l) (hxy : key x < key y) : [x, y].Sublist l := by
  obtain ⟨before, behind, rfl⟩ := List.append_of_mem hx
  obtain ⟨-, hrising, hbefore⟩ := List.pairwise_append.mp hl
  have hy' : y ∈ behind := by
    rcases List.mem_append.mp hy with h | h
    · exact absurd (hbefore y h x List.mem_cons_self) (by omega)
    · rcases List.mem_cons.mp h with rfl | h
      exacts [absurd hxy (by omega), h]
  exact ((List.singleton_sublist.mpr hy').cons_cons x).trans (List.sublist_append_right before _)

theorem domainPlaces_rising : domainPlaces.Pairwise fun j k => domainKey j.1 j.2 < domainKey k.1 k.2 := by decide

theorem domainPlaces_nodup : domainPlaces.Nodup := by decide

theorem domainKey_lt_of_placeBefore {b c : Nat} {x y : Side} (h : placeBefore b x c y) :
    domainKey b x < domainKey c y := by
  rcases h with h | ⟨rfl, rfl, rfl⟩
  · cases x <;> cases y <;> simp only [domainKey, sideIndex] <;> omega
  · simp [domainKey, sideIndex]

section
variable {f : State → Nat → Side → State} {s : State} {P Q : State → Prop} {b : Nat} {p : Side}

/-- One place among all, each taken once. -/
theorem places_once (h1 : 1 ≤ b) (h24 : b ≤ 24)
    (hkeep : ∀ x q, 1 ≤ x → x ≤ 24 → ¬(b = x ∧ p = q) → ∀ t, P t → P (f t x q)) (htake : ∀ t, P t → Q (f t b p))
    (hkept : ∀ x q, 1 ≤ x → x ≤ 24 → ¬(b = x ∧ p = q) → ∀ t, Q t → Q (f t x q)) (hs : P s) :
    Q (domainPlaces.foldl (fun t q => f t q.1 q.2) s) := by
  have hin : ∀ z ∈ domainPlaces, 1 ≤ z.1 ∧ z.1 ≤ 24 := fun z hz => (mem_domainPlaces z.1 z.2).mp hz
  have hne : ∀ z : Nat × Side, z ≠ (b, p) → ¬(b = z.1 ∧ p = z.2) := fun z h hz => h (by rw [hz.1, hz.2])
  have hk := (mem_domainPlaces b p).mpr ⟨h1, h24⟩
  have hnodup := domainPlaces_nodup
  generalize domainPlaces = ps at hin hk hnodup ⊢
  exact foldl_once (f := fun t q => f t q.1 q.2) (P := P) (Q := Q) hk hnodup
    (fun z hz hzk => hkeep z.1 z.2 (hin z hz).1 (hin z hz).2 (hne z hzk)) htake
    (fun z hz hzk => hkept z.1 z.2 (hin z hz).1 (hin z hz).2 (hne z hzk)) hs

/-- Two places among all, each taken once, the earlier before the later. -/
theorem places_twice {R : State → Prop} {c : Nat} {q : Side} (h1 : 1 ≤ b) (h24 : b ≤ 24) (hc1 : 1 ≤ c) (hc24 : c ≤ 24)
    (hbc : placeBefore b p c q)
    (hP : ∀ x y, ¬(b = x ∧ p = y) → ¬(c = x ∧ q = y) → ∀ t, P t → P (f t x y)) (hPQ : ∀ t, P t → Q (f t b p))
    (hQ : ∀ x y, ¬(b = x ∧ p = y) → ¬(c = x ∧ q = y) → ∀ t, Q t → Q (f t x y)) (hQR : ∀ t, Q t → R (f t c q))
    (hR : ∀ x y, ¬(b = x ∧ p = y) → ¬(c = x ∧ q = y) → ∀ t, R t → R (f t x y)) (hs : P s) :
    R (domainPlaces.foldl (fun t q => f t q.1 q.2) s) := by
  have hpair := List.pair_sublist_of_rising domainPlaces_rising ((mem_domainPlaces b p).mpr ⟨h1, h24⟩)
    ((mem_domainPlaces c q).mpr ⟨hc1, hc24⟩) (domainKey_lt_of_placeBefore hbc)
  have hnodup := domainPlaces_nodup
  have hne : ∀ (z : Nat × Side) x y, z ≠ (x, y) → ¬(x = z.1 ∧ y = z.2) := fun z x y h hz => h (by rw [hz.1, hz.2])
  generalize domainPlaces = ps at hpair hnodup ⊢
  exact foldl_twice (f := fun t z => f t z.1 z.2) (P := P) (Q := Q) (R := R) hpair hnodup
    (fun z _ hj hk => hP z.1 z.2 (hne z b p hj) (hne z c q hk)) hPQ
    (fun z _ hj hk => hQ z.1 z.2 (hne z b p hj) (hne z c q hk)) hQR
    (fun z _ hj hk => hR z.1 z.2 (hne z b p hj) (hne z c q hk)) hs

theorem places_keep (hkeep : ∀ x q, 1 ≤ x → x ≤ 24 → ∀ t, P t → P (f t x q)) (hs : P s) :
    P (domainPlaces.foldl (fun t q => f t q.1 q.2) s) := by
  have hin : ∀ z ∈ domainPlaces, 1 ≤ z.1 ∧ z.1 ≤ 24 := fun z hz => (mem_domainPlaces z.1 z.2).mp hz
  generalize domainPlaces = ps at hin ⊢
  exact List.foldlRecOn (motive := P) ps _ hs fun t ht z hz => hkeep z.1 z.2 (hin z hz).1 (hin z hz).2 t ht
end

section
variable {s : State} {b d : Nat} {p : Side}

theorem turnSecond_booths (s : State) (b : Nat) (p : Side) : (turnSecond s b p).booths = s.booths :=
  (turnSecond_leaves s b p).booths (by decide)

/-- A state whose booths are those of `s` has the domains, desks and configurations of `s`. -/
theorem State.domain_of_booths {t : State} (h : t.booths = s.booths) : t.domain = s.domain := by
  unfold State.domain; rw [h]

theorem State.desk_of_booths {t : State} (h : t.booths = s.booths) : t.desk = s.desk := by
  unfold State.desk; rw [h]

/-- A domain with no live desk keeps its turn as the seconds are counted. -/
theorem turnMeterSecond_turn_idle (h1 : 1 ≤ b) (h24 : b ≤ 24) (h : (s.domain b p).liveDesk = none) :
    (turnMeterSecond s).turn b p = s.turn b p := by
  have hkeep : ∀ x q (t : State), ¬(b = x ∧ p = q) → t.booths = s.booths ∧ t.turn b p = s.turn b p →
      (turnSecond t x q).booths = s.booths ∧ (turnSecond t x q).turn b p = s.turn b p :=
    fun x q t hne ht => ⟨(turnSecond_booths t x q).trans ht.1, (turnSecond_turn_ne hne).trans ht.2⟩
  suffices h : (turnMeterSecond s).booths = s.booths ∧ (turnMeterSecond s).turn b p = s.turn b p from h.2
  refine places_once (f := turnSecond) (P := fun t => t.booths = s.booths ∧ t.turn b p = s.turn b p)
    (Q := fun t => t.booths = s.booths ∧ t.turn b p = s.turn b p) h1 h24
    (fun x q _ _ hne t => hkeep x q t hne) (fun t ht => ?_) (fun x q _ _ hne t => hkeep x q t hne) ⟨rfl, rfl⟩
  rw [turnSecond_idle (by rw [State.domain_of_booths ht.1, h])]
  exact ht

/-- The seconds are counted: a live turn is counted, with the notices of its thresholds (R61, R64, R65). -/
theorem turnMeterSecond_turn_live (h1 : 1 ≤ b) (h24 : b ≤ 24) (h : (s.domain b p).liveDesk = some d) :
    (turnMeterSecond s).turn b p = (s.turn b p).counted ∧ ∀ n ∈ s.turnNotices b p d, (turnMeterSecond s).tells n := by
  refine places_once (f := turnSecond) (P := fun t => t.booths = s.booths ∧ t.turn b p = s.turn b p)
    (Q := fun t => t.turn b p = (s.turn b p).counted ∧ ∀ n ∈ s.turnNotices b p d, t.tells n) h1 h24
    (fun x q _ _ hne t ht => ⟨(turnSecond_booths t x q).trans ht.1, (turnSecond_turn_ne hne).trans ht.2⟩)
    (fun t ht => ?_)
    (fun x q _ _ hne t ht => ⟨(turnSecond_turn_ne hne).trans ht.1, fun n hn =>
      (turnSecond_leaves t x q).grows.tells (ht.2 n hn)⟩) ⟨rfl, rfl⟩
  have hnotices : t.turnNotices b p d = s.turnNotices b p d := by unfold State.turnNotices; rw [ht.2]
  rw [turnSecond_live (by rw [State.domain_of_booths ht.1, h]), hnotices, ht.2]
  refine ⟨?_, fun n hn => State.tells_raiseAll hn _⟩
  rw [State.raiseAll_frame]
  exact State.putTurn_turn _ _

/-- The seconds are counted: so is the record of a live desk that no other domain names (R64, R68). -/
theorem turnMeterSecond_deskRecord (h1 : 1 ≤ b) (h24 : b ≤ 24) (h : (s.domain b p).liveDesk = some d) (hd : d ≤ 7)
    (hnames : ∀ x q e, 1 ≤ x → x ≤ 24 → ¬(b = x ∧ p = q) → (s.domain x q).liveDesk = some e → e ≤ 7 ∧ ¬(b = x ∧ d = e)) :
    (turnMeterSecond s).deskRecord b d = s.recordCounted b p d := by
  have hother : ∀ x q, 1 ≤ x → x ≤ 24 → ¬(b = x ∧ p = q) → ∀ t : State, t.booths = s.booths →
      (turnSecond t x q).deskRecord b d = t.deskRecord b d := fun x q hx1 hx24 hne t ht =>
    turnSecond_deskRecord_ne hd fun e he => hnames x q e hx1 hx24 hne (State.domain_of_booths ht ▸ he)
  suffices h : (turnMeterSecond s).booths = s.booths ∧ (turnMeterSecond s).deskRecord b d = s.recordCounted b p d from h.2
  refine places_once (f := turnSecond)
    (P := fun t => t.booths = s.booths ∧ t.turn b p = s.turn b p ∧ t.deskRecord b d = s.deskRecord b d)
    (Q := fun t => t.booths = s.booths ∧ t.deskRecord b d = s.recordCounted b p d) h1 h24
    (fun x q hx1 hx24 hne t ht => ⟨(turnSecond_booths t x q).trans ht.1, (turnSecond_turn_ne hne).trans ht.2.1,
      (hother x q hx1 hx24 hne t ht.1).trans ht.2.2⟩)
    (fun t ht => ⟨(turnSecond_booths t b p).trans ht.1, ?_⟩)
    (fun x q hx1 hx24 hne t ht => ⟨(turnSecond_booths t x q).trans ht.1, (hother x q hx1 hx24 hne t ht.1).trans ht.2⟩)
    ⟨rfl, rfl, rfl⟩
  obtain ⟨hbooths, hturn, hrecord⟩ := ht
  have hcounted : t.recordCounted b p d = s.recordCounted b p d := by
    unfold State.recordCounted State.recordLived; rw [hturn, hrecord, State.desk_of_booths hbooths]
  rw [turnSecond_live (by rw [State.domain_of_booths hbooths, h]), hcounted, State.raiseAll_frame]
  exact State.putTurn_deskRecord _ _

/-- The notices of an earlier domain go ahead of those of a later one (R66, log entry 11). -/
theorem turnMeterSecond_inOrder {c e : Nat} {q : Side} {n m : Notice} (h1 : 1 ≤ b) (h24 : b ≤ 24) (hc1 : 1 ≤ c)
    (hc24 : c ≤ 24) (hbc : placeBefore b p c q) (h : (s.domain b p).liveDesk = some d)
    (hc : (s.domain c q).liveDesk = some e) (hn : n ∈ s.turnNotices b p d) (hm : m ∈ s.turnNotices c q e) :
    (turnMeterSecond s).tellsInOrder n m := by
  have hplace : ¬(c = b ∧ q = p) := fun h => by
    have := domainKey_lt_of_placeBefore hbc; rw [h.1, h.2] at this; omega
  have hnotices : ∀ (t : State) x y f, t.turn x y = s.turn x y → t.turnNotices x y f = s.turnNotices x y f :=
    fun t x y f ht => by unfold State.turnNotices; rw [ht]
  refine places_twice (f := turnSecond)
    (P := fun t => t.booths = s.booths ∧ t.turn b p = s.turn b p ∧ t.turn c q = s.turn c q)
    (Q := fun t => t.booths = s.booths ∧ t.tells n ∧ t.turn c q = s.turn c q)
    (R := fun t => t.tellsInOrder n m) h1 h24 hc1 hc24 hbc ?_ ?_ ?_ ?_ ?_ ⟨rfl, rfl, rfl⟩
  · exact fun x y hj hk t ht => ⟨(turnSecond_booths t x y).trans ht.1, (turnSecond_turn_ne hj).trans ht.2.1,
      (turnSecond_turn_ne hk).trans ht.2.2⟩
  · rintro t ⟨hbooths, hturn, hturn'⟩
    refine ⟨(turnSecond_booths t b p).trans hbooths, ?_, (turnSecond_turn_ne hplace).trans hturn'⟩
    rw [turnSecond_live (by rw [State.domain_of_booths hbooths, h])]
    exact State.tells_raiseAll (by rw [hnotices t b p d hturn]; exact hn) _
  · exact fun x y _ hk t ht => ⟨(turnSecond_booths t x y).trans ht.1,
      (turnSecond_leaves t x y).grows.tells ht.2.1, (turnSecond_turn_ne hk).trans ht.2.2⟩
  · rintro t ⟨hbooths, htells, hturn⟩
    rw [turnSecond_live (d := e) (by rw [State.domain_of_booths hbooths, hc])]
    exact State.tellsInOrder_raiseAll (by rw [hnotices t c q e hturn]; exact hm) htells
  · exact fun x y _ _ t ht => (turnSecond_leaves t x y).grows.tellsInOrder ht
end

end Sys2Proof.Machine
end

