-- ==== Sys2Proof/Proofs/WindowSeconds.lean ====
section
/-! One second of the handover windows, and of windows and turns in either order (R52, R53, R61). -/

namespace Sys2Proof.Machine

/-! ### One window (R52, R53) -/

/-- A domain after one more second of its window: one in its last second has ended by its policy (R52, R53). -/
def Domain.second : Domain → Domain
  | .pending d e n q =>
    if n ≤ 1 then
      match q with
      | .take => .live e
      | .lapse => .live d
    else .pending d e (n - 1) q
  | m => m

/-- The turn of a domain after one more second of its window: a live desk that changes starts anew (R53, R62). -/
def State.turnCrossed (s : State) (b : Nat) (p : Side) : TurnRecord :=
  if (s.domain b p).liveDesk = (s.domain b p).second.liveDesk then s.turn b p
  else ⟨0, some (s.config b).turnLimit, some (s.config b).overrun, false, false⟩

theorem Domain.second_liveDesk_none {m : Domain} : m.second.liveDesk = none ↔ m.liveDesk = none := by
  unfold Domain.second
  split
  · split
    · split <;> simp [Domain.liveDesk]
    · simp [Domain.liveDesk]
  · rfl

theorem Domain.names_of_second {m : Domain} {d : Nat} (h : m.second.names d) : m.names d := by
  unfold Domain.second at h
  split at h
  · split at h
    · split at h
      · obtain h | h := h
        exacts [.inr h, nomatch h]
      · obtain h | h := h
        exacts [.inl h, nomatch h]
    · exact h
  · exact h

section
variable {s : State} {b d e n : Nat} {p : Side} {q : ExpiryPolicy}

theorem windowSecond_still (h : ∀ d e n q, s.domain b p ≠ .pending d e n q) : windowSecond s b p = s := by
  unfold windowSecond
  split
  · exact absurd ‹_› (h _ _ _ _)
  · rfl

theorem windowSecond_counts (h : s.domain b p = .pending d e n q) (hn : 1 < n) :
    windowSecond s b p = s.setDomain b p (.pending d e (n - 1) q) := by
  simp only [windowSecond, h, if_neg (show ¬n - 1 = 0 by omega)]

/-- A second of a window does nothing, counts, or ends it by a domain change. -/
theorem windowSecond_cases (s : State) (b : Nat) (p : Side) :
    (windowSecond s b p = s ∧ (s.domain b p).second = s.domain b p) ∨
      (∃ d e n q, s.domain b p = .pending d e n q ∧ (s.domain b p).second = .pending d e (n - 1) q ∧
        windowSecond s b p = s.setDomain b p (.pending d e (n - 1) q)) ∨
      (∃ d e n, s.domain b p = .pending d e n .take ∧ (s.domain b p).second = .live e ∧
        windowSecond s b p = changeDomain s b p (.live e)) ∨
      ∃ d e n, s.domain b p = .pending d e n .lapse ∧ (s.domain b p).second = .live d ∧
        windowSecond s b p = flash (changeDomain s b p (.live d)) b e := by
  cases h : s.domain b p with
  | idle => exact .inl ⟨windowSecond_still (by rw [h]; exact nofun), rfl⟩
  | live d => exact .inl ⟨windowSecond_still (by rw [h]; exact nofun), rfl⟩
  | pending d e n q =>
    by_cases hn : n ≤ 1
    · cases q with
      | take =>
        exact .inr (.inr (.inl ⟨d, e, n, rfl, by simp [Domain.second, hn],
          (windowSecond_expires h hn).trans (expireWindow_take h)⟩))
      | lapse =>
        exact .inr (.inr (.inr ⟨d, e, n, rfl, by simp [Domain.second, hn],
          (windowSecond_expires h hn).trans (expireWindow_lapse h)⟩))
    · exact .inr (.inl ⟨d, e, n, q, rfl, by simp [Domain.second, hn], windowSecond_counts h (by omega)⟩)

theorem flash_domain (s : State) (b d : Nat) : (flash s b d).domain = s.domain := by rw [flash_frame]; rfl

theorem flash_turn (s : State) (b d : Nat) : (flash s b d).turn = s.turn := by rw [flash_frame]; rfl

theorem changeDomain_turn (new : Domain) (x : Nat) (y : Side) (hnew : new.liveDesk ≠ none) :
    (changeDomain s b p new).turn x y =
      if (x = b ∧ y = p) ∧ (s.domain b p).liveDesk ≠ new.liveDesk then
        ⟨0, some (s.config b).turnLimit, some (s.config b).overrun, false, false⟩
      else s.turn x y := by
  have hturn : (changeDomain s b p new).turn x y =
      (turnChange (s.setDomain b p new) b p (s.domain b p).liveDesk new.liveDesk).turn x y := by
    unfold State.turn; rw [changeDomain_turns]
  obtain ⟨e, he⟩ := Option.ne_none_iff_exists'.mp hnew
  rw [hturn]
  by_cases h : (s.domain b p).liveDesk = new.liveDesk
  · rw [h, turnChange_same, if_neg fun h => h.2 rfl]; rfl
  · rw [turnChange_turn _ _ _ _ _ h, he]
    by_cases hxy : x = b ∧ y = p
    · rw [if_pos hxy, if_pos ⟨hxy, he ▸ h⟩]; rfl
    · rw [if_neg hxy, if_neg fun h => hxy h.1]; rfl

/-- A second of a window moves its own domain alone. -/
theorem windowSecond_domain (x : Nat) (y : Side) :
    (windowSecond s b p).domain x y = if x = b ∧ y = p then (s.domain b p).second else s.domain x y := by
  rcases windowSecond_cases s b p with ⟨h, hm⟩ | ⟨d, e, n, q, -, hm, h⟩ | ⟨d, e, n, -, hm, h⟩ | ⟨d, e, n, -, hm, h⟩
  · rw [h, hm]
    split
    · rename_i hxy; rw [hxy.1, hxy.2]
    · rfl
  · rw [h, hm, State.domain_setDomain]
  · rw [h, hm, changeDomain_domain]
  · rw [h, hm, flash_domain, changeDomain_domain]

/-- A second of a window moves its own domain's turn alone. -/
theorem windowSecond_turn (x : Nat) (y : Side) :
    (windowSecond s b p).turn x y = if x = b ∧ y = p then s.turnCrossed b p else s.turn x y := by
  have hchange : ∀ d, (s.domain b p).second = .live d →
      (changeDomain s b p (.live d)).turn x y = if x = b ∧ y = p then s.turnCrossed b p else s.turn x y := fun d hm => by
    rw [changeDomain_turn (.live d) x y (Option.some_ne_none d), State.turnCrossed, hm]
    by_cases hxy : x = b ∧ y = p
    · obtain ⟨rfl, rfl⟩ := hxy
      by_cases hl : (s.domain x y).liveDesk = (Domain.live d).liveDesk <;> simp [hl]
    · rw [if_neg hxy, if_neg fun h => hxy h.1]
  have hsame : (s.domain b p).liveDesk = (s.domain b p).second.liveDesk →
      s.turn x y = if x = b ∧ y = p then s.turnCrossed b p else s.turn x y := fun hl => by
    rw [State.turnCrossed, if_pos hl]
    split
    · rename_i hxy; rw [hxy.1, hxy.2]
    · rfl
  rcases windowSecond_cases s b p with ⟨h, hm⟩ | ⟨d, e, n, q, hd, hm, h⟩ | ⟨d, e, n, -, hm, h⟩ | ⟨d, e, n, -, hm, h⟩
  · rw [h]; exact hsame (by rw [hm])
  · rw [h]; exact hsame (by rw [hm, hd]; rfl)
  · rw [h]; exact hchange e hm
  · rw [h, flash_turn]; exact hchange d hm

/-- A second of a window keeps every desk's output and port. -/
theorem windowSecond_desksHeld (s : State) (b : Nat) (p : Side) : s.desksHeld (windowSecond s b p) := by
  have hchange : ∀ m, s.desksHeld (changeDomain s b p m) := fun m x y => by
    rw [changeDomain_desk]; exact setDomainState_desksHeld s b p m x y
  rcases windowSecond_cases s b p with ⟨h, -⟩ | ⟨d, e, n, q, -, -, h⟩ | ⟨d, e, n, -, -, h⟩ | ⟨d, e, n, -, -, h⟩
  · rw [h]; exact fun _ _ => ⟨rfl, rfl⟩
  · rw [h]; exact fun _ _ => ⟨rfl, rfl⟩
  · rw [h]; exact hchange _
  · rw [h]; exact (hchange _).trans (flash_desksHeld _ _ _)

/-- A second of a window touches the records of the desks its domain names alone. -/
theorem windowSecond_deskRecord {x y : Nat} (hy : y ≤ 7)
    (hne : (s.domain b p).second.liveDesk = (s.domain b p).liveDesk ∨
      ∀ d, (s.domain b p).names d → d ≤ 7 ∧ ¬(x = b ∧ y = d)) :
    (windowSecond s b p).deskRecord x y = s.deskRecord x y := by
  have hchange : ∀ d, (s.domain b p).second = .live d → (changeDomain s b p (.live d)).deskRecord x y = s.deskRecord x y :=
      fun d hm => by
    rcases hne with hl | hne
    · have hrec : (changeDomain s b p (.live d)).turns = s.turns := by
        rw [changeDomain_turns, ← hl, hm, turnChange_same]; rfl
      unfold State.deskRecord; rw [hrec]
    · have hnew : (s.domain b p).names d := Domain.names_of_second (by rw [hm]; exact .inl rfl)
      obtain ⟨-, -, -, -, -, -, hkept⟩ := changeDomain_turnsFollow (s := s) (b := b) (p := p) (new := .live d)
        (fun z hz => (hne z (.inl hz)).1) (fun z hz => Option.some.inj hz ▸ (hne d hnew).1)
      refine hkept x y hy ?_
      by_cases hx : x = b
      · refine .inr ⟨fun h => (hne y (.inl h)).2 ⟨hx, rfl⟩, fun h => (hne d hnew).2 ⟨hx, ?_⟩⟩
        exact (Option.some.inj h).symm
      · exact .inl hx
  rcases windowSecond_cases s b p with ⟨h, -⟩ | ⟨d, e, n, q, -, -, h⟩ | ⟨d, e, n, -, hm, h⟩ | ⟨d, e, n, -, hm, h⟩
  · rw [h]
  · rw [h]; rfl
  · rw [h]; exact hchange e hm
  · rw [h]
    have hflash : (flash (changeDomain s b p (.live d)) b e).deskRecord x y =
        (changeDomain s b p (.live d)).deskRecord x y := by rw [flash_frame]; rfl
    rw [hflash]; exact hchange d hm
end

/-! ### All windows (R52) -/

section
variable {s : State} {b : Nat} {p : Side}

theorem State.config_of_configs {t : State} (h : t.booths.configs = s.booths.configs) : t.config = s.config := by
  unfold State.config; rw [h]

/-- The windows take a second: each domain and its turn by its own window (R52, R53). -/
theorem windowsSecond_domain (h1 : 1 ≤ b) (h24 : b ≤ 24) :
    (windowsSecond s).domain b p = (s.domain b p).second ∧ (windowsSecond s).turn b p = s.turnCrossed b p := by
  have hne : ∀ {x y} {t : State}, ¬(b = x ∧ p = y) →
      (windowSecond t x y).domain b p = t.domain b p ∧ (windowSecond t x y).turn b p = t.turn b p :=
    fun h => ⟨(windowSecond_domain b p).trans (if_neg h), (windowSecond_turn b p).trans (if_neg h)⟩
  refine places_once (f := windowSecond)
    (P := fun t => t.booths.configs = s.booths.configs ∧ t.domain b p = s.domain b p ∧ t.turn b p = s.turn b p)
    (Q := fun t => t.domain b p = (s.domain b p).second ∧ t.turn b p = s.turnCrossed b p) h1 h24
    (fun x y _ _ h t ht => ⟨(windowSecond_leaves t x y).configs.trans ht.1, (hne h).1.trans ht.2.1, (hne h).2.trans ht.2.2⟩)
    (fun t ht => ?_) (fun x y _ _ h t ht => ⟨(hne h).1.trans ht.1, (hne h).2.trans ht.2⟩) ⟨rfl, rfl, rfl⟩
  obtain ⟨hconfigs, hdomain, hturn⟩ := ht
  rw [windowSecond_domain, if_pos ⟨rfl, rfl⟩, windowSecond_turn, if_pos ⟨rfl, rfl⟩, hdomain]
  refine ⟨rfl, ?_⟩
  unfold State.turnCrossed
  rw [hdomain, hturn, State.config_of_configs hconfigs]

/-- The domains of `t` name no desk that those of `s` do not. -/
def State.namesWithin (s t : State) : Prop := ∀ x y d, (t.domain x y).names d → (s.domain x y).names d

theorem windowSecond_namesWithin (s : State) (b : Nat) (p : Side) : s.namesWithin (windowSecond s b p) := by
  intro x y d h
  rw [windowSecond_domain] at h
  split at h
  · rename_i hxy; rw [hxy.1, hxy.2]; exact Domain.names_of_second h
  · exact h

theorem windowsSecond_keeps (s : State) : s.namesWithin (windowsSecond s) ∧ s.desksHeld (windowsSecond s) := by
  refine places_keep (f := windowSecond) (P := fun t => s.namesWithin t ∧ s.desksHeld t)
    (fun x y _ _ t ht => ⟨fun u v d h => ht.1 u v d (windowSecond_namesWithin t x y u v d h),
      ht.2.trans (windowSecond_desksHeld t x y)⟩) ⟨fun _ _ _ h => h, fun _ _ => ⟨rfl, rfl⟩⟩

/-- The windows take a second: the record of a desk that stays live, and that no other domain names, is kept. -/
theorem windowsSecond_deskRecord {d : Nat} (h1 : 1 ≤ b) (h24 : b ≤ 24) (hd : d ≤ 7)
    (hstays : (s.domain b p).second.liveDesk = (s.domain b p).liveDesk)
    (hnames : ∀ x y e, 1 ≤ x → x ≤ 24 → ¬(b = x ∧ p = y) → (s.domain x y).names e → e ≤ 7 ∧ ¬(b = x ∧ d = e)) :
    (windowsSecond s).deskRecord b d = s.deskRecord b d := by
  have hother : ∀ x y, 1 ≤ x → x ≤ 24 → ¬(b = x ∧ p = y) → ∀ t, s.namesWithin t →
      (windowSecond t x y).deskRecord b d = t.deskRecord b d := fun x y hx1 hx24 hne t ht =>
    windowSecond_deskRecord hd (.inr fun e he => hnames x y e hx1 hx24 hne (ht x y e he))
  have hwithin : ∀ x y t, s.namesWithin t → s.namesWithin (windowSecond t x y) := fun x y t ht u v e h =>
    ht u v e (windowSecond_namesWithin t x y u v e h)
  suffices h : s.namesWithin (windowsSecond s) ∧ (windowsSecond s).deskRecord b d = s.deskRecord b d from h.2
  refine places_once (f := windowSecond)
    (P := fun t => s.namesWithin t ∧ t.deskRecord b d = s.deskRecord b d ∧ t.domain b p = s.domain b p)
    (Q := fun t => s.namesWithin t ∧ t.deskRecord b d = s.deskRecord b d) h1 h24
    (fun x y hx1 hx24 hne t ht => ⟨hwithin x y t ht.1, (hother x y hx1 hx24 hne t ht.1).trans ht.2.1,
      ((windowSecond_domain b p).trans (if_neg hne)).trans ht.2.2⟩)
    (fun t ht => ⟨hwithin b p t ht.1, ?_⟩)
    (fun x y hx1 hx24 hne t ht => ⟨hwithin x y t ht.1, (hother x y hx1 hx24 hne t ht.1).trans ht.2⟩)
    ⟨fun _ _ _ h => h, rfl, rfl⟩
  exact (windowSecond_deskRecord hd (.inl (by rw [ht.2.2, hstays]))).trans ht.2.1
end

/-! ### Windows and turns of a second event (R52, R61) -/

/-- `t` has the booths and the turns of `s`, with notices raised. -/
def State.alike (s t : State) : Prop := t.booths = s.booths ∧ t.turns = s.turns ∧ s.grows t

section
variable {s t : State} (h : s.alike t) (b : Nat) (p : Side)
include h

theorem State.alike.domain : t.domain b p = s.domain b p := by unfold State.domain; rw [h.1]
theorem State.alike.config : t.config b = s.config b := by unfold State.config; rw [h.1]
theorem State.alike.desk (d : Nat) : t.desk b d = s.desk b d := by unfold State.desk; rw [h.1]
theorem State.alike.turn : t.turn b p = s.turn b p := by unfold State.turn; rw [h.2.1]
theorem State.alike.deskRecord (d : Nat) : t.deskRecord b d = s.deskRecord b d := by unfold State.deskRecord; rw [h.2.1]

theorem State.alike.turnCrossed : t.turnCrossed b p = s.turnCrossed b p := by
  unfold State.turnCrossed; rw [h.domain, h.turn, h.config]
end

/-- Of the booths and turns, a second event is the windows' and the turn meter's, in one order or the other. -/
theorem secondEvent_alike (order : List SecondTaker) (s : State) :
    ∃ t v, s.alike t ∧
      (((windowsSecond t).alike v ∧ (turnMeterSecond v).alike (secondEvent s order)) ∨
        ((turnMeterSecond t).alike v ∧ (windowsSecond v).alike (secondEvent s order))) := by
  have halike : ∀ {x y : State}, Leaves (fun x => x ≠ .handoverWindows ∧ x ≠ .turnMeter) x y → x.alike y := fun h =>
    ⟨h.booths fun k => k.1 rfl, h.turns (fun k => k.1 rfl) fun k => k.2 rfl, h.grows⟩
  obtain ⟨t, v, u, ht, h, he⟩ := secondEvent_pair order (j := .handoverWindows) (k := .turnMeter) (by decide) s
  rw [he]
  have hstart := halike ht
  refine ⟨t, v, hstart, h.imp (fun h => ⟨halike h.1, ?_⟩) fun h => ⟨halike h.1, ?_⟩⟩
  all_goals
    have hend := halike h.2
    exact hend

section
variable {s : State} {b d : Nat} {p : Side} (order : List SecondTaker) (h1 : 1 ≤ b) (h24 : b ≤ 24)

theorem turnMeterSecond_domain (s : State) : (turnMeterSecond s).domain = s.domain :=
  State.domain_of_booths ((turnMeterSecond_leaves s).booths (by decide))

include h1 h24

/-- A second event moves each domain by its own window (R52, R53). -/
theorem secondEvent_domain : (secondEvent s order).domain b p = (s.domain b p).second := by
  obtain ⟨t, v, ht, ⟨hv, hu⟩ | ⟨hv, hu⟩⟩ := secondEvent_alike order s
  · rw [hu.domain, turnMeterSecond_domain, hv.domain, (windowsSecond_domain h1 h24).1, ht.domain]
  · rw [hu.domain, (windowsSecond_domain h1 h24).1, hv.domain, turnMeterSecond_domain, ht.domain]

/-- The turn of an IDLE domain is kept. -/
theorem secondEvent_turn_idle (h : (s.domain b p).liveDesk = none) : (secondEvent s order).turn b p = s.turn b p := by
  have hcrossed : s.turnCrossed b p = s.turn b p := if_pos (h.trans (Domain.second_liveDesk_none.mpr h).symm)
  obtain ⟨t, v, ht, ⟨hv, hu⟩ | ⟨hv, hu⟩⟩ := secondEvent_alike order s
  · have hlive : (v.domain b p).liveDesk = none := by
      rw [hv.domain, (windowsSecond_domain h1 h24).1, ht.domain]; exact Domain.second_liveDesk_none.mpr h
    rw [hu.turn, turnMeterSecond_turn_idle h1 h24 hlive, hv.turn, (windowsSecond_domain h1 h24).2, ht.turnCrossed, hcrossed]
  · have hturn : v.turn b p = s.turn b p := by
      rw [hv.turn, turnMeterSecond_turn_idle h1 h24 (by rw [ht.domain, h]), ht.turn]
    have hdomain : v.domain b p = s.domain b p := by rw [hv.domain, turnMeterSecond_domain, ht.domain]
    rw [hu.turn, (windowsSecond_domain h1 h24).2, State.turnCrossed, hdomain,
      if_pos (h.trans (Domain.second_liveDesk_none.mpr h).symm), hturn]

/-- The turn of a desk that stays live is counted, with the notices of its thresholds (R61, R64, R65). -/
theorem secondEvent_turn_live (h : (s.domain b p).liveDesk = some d)
    (hstays : (s.domain b p).second.liveDesk = (s.domain b p).liveDesk) :
    (secondEvent s order).turn b p = (s.turn b p).counted ∧
      ∀ n ∈ s.turnNotices b p d, (secondEvent s order).tells n := by
  have hnotices : ∀ {t : State}, t.turn b p = s.turn b p → t.turnNotices b p d = s.turnNotices b p d := fun ht => by
    unfold State.turnNotices; rw [ht]
  obtain ⟨t, v, ht, ⟨hv, hu⟩ | ⟨hv, hu⟩⟩ := secondEvent_alike order s
  · have hlive : (v.domain b p).liveDesk = some d := by
      rw [hv.domain, (windowsSecond_domain h1 h24).1, ht.domain, hstays, h]
    have hturn : v.turn b p = s.turn b p := by
      rw [hv.turn, (windowsSecond_domain h1 h24).2, ht.turnCrossed, State.turnCrossed, if_pos hstays.symm]
    obtain ⟨hcounted, htells⟩ := turnMeterSecond_turn_live h1 h24 hlive
    exact ⟨by rw [hu.turn, hcounted, hturn], fun n hn => hu.2.2.tells (htells n (by rw [hnotices hturn]; exact hn))⟩
  · obtain ⟨hcounted, htells⟩ := turnMeterSecond_turn_live (s := t) h1 h24 (by rw [ht.domain, h])
    have hdomain : v.domain b p = s.domain b p := by rw [hv.domain, turnMeterSecond_domain, ht.domain]
    refine ⟨?_, fun n hn => ?_⟩
    · rw [hu.turn, (windowsSecond_domain h1 h24).2, State.turnCrossed, hdomain, if_pos hstays.symm, hv.turn, hcounted,
        ht.turn]
    · exact hu.2.2.tells ((windowsSecond_leaves v).grows.tells (hv.2.2.tells
        (htells n (by rw [hnotices (ht.turn b p)]; exact hn))))

/-- The turn of a desk that becomes live as its window ends is at most a second old (R53, R62). -/
theorem secondEvent_turn_taken (hmoves : (s.domain b p).liveDesk ≠ (s.domain b p).second.liveDesk)
    (h : (s.domain b p).second.liveDesk = some d) :
    ((secondEvent s order).turn b p).counter ≤ 1 ∧
      ((secondEvent s order).turn b p).limit = some (s.config b).turnLimit ∧
      ((secondEvent s order).turn b p).overrun = some (s.config b).overrun := by
  obtain ⟨t, v, ht, ⟨hv, hu⟩ | ⟨hv, hu⟩⟩ := secondEvent_alike order s
  · have hlive : (v.domain b p).liveDesk = some d := by rw [hv.domain, (windowsSecond_domain h1 h24).1, ht.domain, h]
    rw [hu.turn, (turnMeterSecond_turn_live h1 h24 hlive).1, hv.turn, (windowsSecond_domain h1 h24).2, ht.turnCrossed,
      State.turnCrossed, if_neg hmoves]
    exact ⟨Nat.min_le_left _ _, rfl, rfl⟩
  · have hdomain : v.domain b p = s.domain b p := by rw [hv.domain, turnMeterSecond_domain, ht.domain]
    have hconfig : v.config b = s.config b := by
      rw [hv.config, State.config_of_configs ((turnMeterSecond_leaves t).configs), ht.config]
    rw [hu.turn, (windowsSecond_domain h1 h24).2, State.turnCrossed, hdomain, if_neg hmoves, hconfig]
    exact ⟨Nat.zero_le 1, rfl, rfl⟩

/-- The record of a desk that stays live, and that no other domain names, is counted (R64, R68). -/
theorem secondEvent_deskRecord (h : (s.domain b p).liveDesk = some d)
    (hstays : (s.domain b p).second.liveDesk = (s.domain b p).liveDesk) (hd : d ≤ 7)
    (hnames : ∀ x y e, 1 ≤ x → x ≤ 24 → ¬(b = x ∧ p = y) → (s.domain x y).names e → e ≤ 7 ∧ ¬(b = x ∧ d = e)) :
    (secondEvent s order).deskRecord b d = s.recordCounted b p d := by
  have hcounted : ∀ {t : State}, (t.desk b d).selection = (s.desk b d).selection → t.turn b p = s.turn b p →
      t.deskRecord b d = s.deskRecord b d → t.recordCounted b p d = s.recordCounted b p d := fun h h' h'' => by
    unfold State.recordCounted State.recordLived; rw [h, h', h'']
  obtain ⟨t, v, ht, ⟨hv, hu⟩ | ⟨hv, hu⟩⟩ := secondEvent_alike order s
  · obtain ⟨hwithin, hheld⟩ := windowsSecond_keeps t
    have hlive : (v.domain b p).liveDesk = some d := by
      rw [hv.domain, (windowsSecond_domain h1 h24).1, ht.domain, hstays, h]
    have hrecord : v.deskRecord b d = s.deskRecord b d := by
      rw [hv.deskRecord, windowsSecond_deskRecord h1 h24 hd (by rw [ht.domain, hstays]) fun x y e hx1 hx24 hne he =>
        hnames x y e hx1 hx24 hne (ht.domain x y ▸ he), ht.deskRecord]
    rw [hu.deskRecord, turnMeterSecond_deskRecord h1 h24 hlive hd fun x y e hx1 hx24 hne he =>
      hnames x y e hx1 hx24 hne (by rw [← ht.domain]; exact hwithin x y e (by rw [← hv.domain]; exact .inl he))]
    refine hcounted ?_ ?_ hrecord
    · rw [hv.desk, (hheld b d).1, ht.desk]
    · rw [hv.turn, (windowsSecond_domain h1 h24).2, ht.turnCrossed, State.turnCrossed, if_pos hstays.symm]
  · have hdomain : ∀ x y, v.domain x y = s.domain x y := fun x y => by rw [hv.domain, turnMeterSecond_domain, ht.domain]
    rw [hu.deskRecord, windowsSecond_deskRecord h1 h24 hd (by rw [hdomain, hstays]) fun x y e hx1 hx24 hne he =>
      hnames x y e hx1 hx24 hne (hdomain x y ▸ he), hv.deskRecord,
      turnMeterSecond_deskRecord h1 h24 (by rw [ht.domain, h]) hd fun x y e hx1 hx24 hne he =>
        hnames x y e hx1 hx24 hne (.inl (ht.domain x y ▸ he))]
    exact hcounted (by rw [ht.desk]) (ht.turn b p) (ht.deskRecord b d)

/-- The turn notices of two domains are told in the order of the domains (R66, log entry 11). -/
theorem secondEvent_turns_inOrder {c e : Nat} {q : Side} {n m : Notice} (hc1 : 1 ≤ c) (hc24 : c ≤ 24)
    (hbc : placeBefore b p c q) (h : (s.domain b p).liveDesk = some d)
    (hstays : (s.domain b p).second.liveDesk = (s.domain b p).liveDesk) (hc : (s.domain c q).liveDesk = some e)
    (hstays' : (s.domain c q).second.liveDesk = (s.domain c q).liveDesk) (hn : n ∈ s.turnNotices b p d)
    (hm : m ∈ s.turnNotices c q e) : (secondEvent s order).tellsInOrder n m := by
  have hnotices : ∀ {t : State} {x y f k}, t.turn x y = s.turn x y → k ∈ s.turnNotices x y f → k ∈ t.turnNotices x y f :=
    fun ht hk => by unfold State.turnNotices; rw [ht]; exact hk
  obtain ⟨t, v, ht, ⟨hv, hu⟩ | ⟨hv, hu⟩⟩ := secondEvent_alike order s
  · have hready : ∀ x y, 1 ≤ x → x ≤ 24 → (s.domain x y).second.liveDesk = (s.domain x y).liveDesk →
        (v.domain x y).liveDesk = (s.domain x y).liveDesk ∧ v.turn x y = s.turn x y := fun x y hx1 hx24 hx => by
      rw [hv.domain, hv.turn, (windowsSecond_domain hx1 hx24).1, (windowsSecond_domain hx1 hx24).2, ht.turnCrossed,
        ht.domain, State.turnCrossed, if_pos hx.symm]
      exact ⟨hx, rfl⟩
    obtain ⟨hlive, hturn⟩ := hready b p h1 h24 hstays
    obtain ⟨hlive', hturn'⟩ := hready c q hc1 hc24 hstays'
    exact hu.2.2.tellsInOrder (turnMeterSecond_inOrder h1 h24 hc1 hc24 hbc (hlive.trans h) (hlive'.trans hc)
      (hnotices hturn hn) (hnotices hturn' hm))
  · refine hu.2.2.tellsInOrder ((windowsSecond_leaves v).grows.tellsInOrder (hv.2.2.tellsInOrder ?_))
    exact turnMeterSecond_inOrder h1 h24 hc1 hc24 hbc (by rw [ht.domain, h]) (by rw [ht.domain, hc])
      (hnotices (ht.turn b p) hn) (hnotices (ht.turn c q) hm)
end

end Sys2Proof.Machine
end

