-- ==== Sys2Proof/Proofs/DwellSeconds.lean ====
section
/-! One second of the check: its dwell, a channel placed in the second, and its expiry where no window ends (R79, R80, log entry 24). -/

namespace Sys2Proof.Machine

/-! ### Where the check moves on to (R75, R78, R80) -/

/-- The check `k'` is `k`, with no channel under test if there was none, or it has moved on: a channel then under test was
placed since, with its whole dwell (R75, R80). -/
def Check.movesOn (k k' : Check) : Prop :=
  k.placements ≤ k'.placements ∧ (k.current = none → k' = k) ∧
    (k'.current ≠ none → k' = k ∨ (k.placements < k'.placements ∧ k'.dwell = 10))

theorem Check.movesOn.refl (k : Check) : k.movesOn k := ⟨Nat.le_refl _, fun _ => rfl, fun _ => .inl rfl⟩

theorem Check.movesOn.trans {k l m : Check} (h : k.movesOn l) (h' : l.movesOn m) : k.movesOn m := by
  obtain ⟨hle, hnone, hsome⟩ := h
  obtain ⟨hle', hnone', hsome'⟩ := h'
  refine ⟨hle.trans hle', fun hk => ?_, fun hm => ?_⟩
  · have hl := hnone hk
    rw [hnone' (by rw [hl, hk]), hl]
  · rcases hsome' hm with rfl | ⟨hlt, hten⟩
    · exact hsome hm
    · exact .inr ⟨Nat.lt_of_le_of_lt hle hlt, hten⟩

/-- The advance places a channel anew, or leaves none under test (R75, R78). -/
theorem takeNextChannel_placed {s : State} (h : s.check.current = none) (cs : List Nat) :
    s.check.placements ≤ (takeNextChannel s cs).1.check.placements ∧
      ((takeNextChannel s cs).1.check.current ≠ none →
        s.check.placements < (takeNextChannel s cs).1.check.placements ∧ (takeNextChannel s cs).1.check.dwell = 10) := by
  induction cs generalizing s with
  | nil => exact ⟨Nat.le_refl _, fun hc => absurd h hc⟩
  | cons c cs ih =>
    unfold takeNextChannel
    split
    · exact ⟨Nat.le_succ _, fun _ => ⟨Nat.lt_succ_self _, rfl⟩⟩
    · obtain ⟨r, hr⟩ := s.enterResults_frame c (fun _ => true) .excluded
      rw [hr]
      exact ih (s := { s with check := { s.check with results := r } }) h

/-- A channel that ends leaves a channel placed anew under test, or none (R78). -/
theorem endChannel_placed (s : State) (c : Nat) :
    s.check.placements ≤ (endChannel s c).1.check.placements ∧
      ((endChannel s c).1.check.current ≠ none →
        s.check.placements < (endChannel s c).1.check.placements ∧ (endChannel s c).1.check.dwell = 10) :=
  takeNextChannel_placed (s := s.liftSignature) rfl _

theorem preemptCheck_movesOn (s : State) : s.check.movesOn (preemptCheck s).1.check := by
  unfold preemptCheck
  split
  · exact .refl _
  · rename_i c hc
    split
    · exact .refl _
    · obtain ⟨r, hr⟩ := s.enterResults_frame c (fun r => decide (r = .notRun)) .preempted
      have h := endChannel_placed (s.enterResults c (fun r => decide (r = .notRun)) .preempted) c
      rw [hr] at h ⊢
      exact ⟨h.1, fun hn => absurd hn (by rw [hc]; exact Option.some_ne_none c), fun hk => .inr (h.2 hk)⟩

theorem settleEvent_check (before : State) (early late : List Notice) (s : State) :
    (settleEvent before early late s).check = (preemptCheck s).1.check := by
  unfold settleEvent; rw [State.raiseAll_frame]; rfl

theorem changeDomain_movesOn (s : State) (b : Nat) (p : Side) (new : Domain) :
    s.check.movesOn (changeDomain s b p new).check := by
  rw [changeDomain_eq, settleEvent_check]
  have h := preemptCheck_movesOn (activate (setDomainState s b p new)
    (if (s.domain b p).requester.isSome && new.requester.isNone then s.deferredBy b p else []))
  rw [show (activate (setDomainState s b p new) _).check = s.check by
    rw [activate_frame, setDomainState_frame]] at h
  exact h

theorem windowSecond_movesOn (s : State) (b : Nat) (p : Side) : s.check.movesOn (windowSecond s b p).check := by
  rcases windowSecond_cases s b p with ⟨h, -⟩ | ⟨d, e, n, q, -, -, h⟩ | ⟨d, e, n, -, -, h⟩ | ⟨d, e, n, -, -, h⟩
  · rw [h]; exact .refl _
  · rw [h]; exact .refl _
  · rw [h]; exact changeDomain_movesOn s b p _
  · rw [h, flash_frame]; exact changeDomain_movesOn s b p _

theorem windowsSecond_movesOn (s : State) : s.check.movesOn (windowsSecond s).check :=
  places_keep (f := windowSecond) (P := fun t => s.check.movesOn t.check)
    (fun x y _ _ t ht => ht.trans (windowSecond_movesOn t x y)) (.refl _)

/-- Of the check `k`, a second event has made `k'`: the channel still under test has `n` s left, one placed since has
its 10 s (R79, log entry 24). -/
def Check.dwells (k k' : Check) (n : Nat) : Prop :=
  k.placements ≤ k'.placements ∧
    (k'.current ≠ none → k'.dwell = if k'.placements = k.placements then n else 10)

theorem Check.dwells.movesOn {k l m : Check} {n : Nat} (h : k.dwells l n) (h' : l.movesOn m) : k.dwells m n := by
  obtain ⟨hle, hdwell⟩ := h
  obtain ⟨hle', -, hsome'⟩ := h'
  refine ⟨hle.trans hle', fun hm => ?_⟩
  rcases hsome' hm with rfl | ⟨hlt, hten⟩
  · exact hdwell hm
  · rw [hten, if_neg (by omega)]

/-- The dwell of a check expires: its channel has ended (R79). -/
theorem expireDwell_placed (s : State) (c : Nat) :
    s.check.placements ≤ (expireDwell s c).check.placements ∧
      ((expireDwell s c).check.current ≠ none →
        s.check.placements < (expireDwell s c).check.placements ∧ (expireDwell s c).check.dwell = 10) := by
  have hfail := failOpen_scores c (positionsOf s.checkMonitors) s
  unfold expireDwell
  generalize (positionsOf s.checkMonitors).foldl _ s = u at hfail ⊢
  obtain ⟨⟨r, f, g, rfl⟩, -⟩ := hfail
  obtain ⟨hle, hsome⟩ := endChannel_placed { s with check := { s.check with results := r, failed := f, progress := g } } c
  obtain ⟨hle', -, hsome'⟩ := preemptCheck_movesOn
    (endChannel { s with check := { s.check with results := r, failed := f, progress := g } } c).1
  dsimp only
  rw [settleEvent_check]
  refine ⟨hle.trans hle', fun hc => ?_⟩
  rcases hsome' hc with h | ⟨hlt, hten⟩
  · rw [h] at hc ⊢; exact hsome hc
  · exact ⟨Nat.lt_of_le_of_lt hle hlt, hten⟩

/-- The dwell timer takes a second from a channel that was under test as the second began (R79, log entry 24). -/
theorem Check.dwells.second {k : Check} {s : State} (h : k.dwells s.check k.dwell) :
    k.dwells (dwellSecond k.placements s).check (k.dwell - 1) := by
  obtain ⟨hle, hdwell⟩ := h
  unfold dwellSecond
  split
  · rename_i hnone; exact ⟨hle, fun hc => absurd hnone hc⟩
  · rename_i c hc
    have hdwell := hdwell (by rw [hc]; exact Option.some_ne_none c)
    split
    · rename_i hsame
      rw [if_pos hsame] at hdwell
      dsimp only
      split
      · obtain ⟨hle', hten⟩ := expireDwell_placed { s with check := { s.check with dwell := s.check.dwell - 1 } } c
        refine ⟨hle.trans hle', fun hc' => ?_⟩
        obtain ⟨hlt, hten⟩ := hten hc'
        rw [hten, if_neg (Nat.ne_of_gt (Nat.lt_of_le_of_lt hle hlt))]
      · exact ⟨hle, fun _ => by rw [if_pos hsame, ← hdwell]⟩
    · rename_i hne
      rw [if_neg hne] at hdwell
      exact ⟨hle, fun _ => by rw [if_neg hne, hdwell]⟩

section
variable {s : State} (order : List SecondTaker)

/-- Of the checker and the sources, a second event is the windows' and the dwell's, in one order or the other. -/
theorem secondEvent_checks (order : List SecondTaker) (s : State) :
    ∃ t v, t.check = s.check ∧ (t.arbiter = s.arbiter ∧ t.booths = s.booths ∧ t.plan = s.plan) ∧
      (((v.check = (windowsSecond t).check ∧ v.arbiter = (windowsSecond t).arbiter ∧
            v.booths = (windowsSecond t).booths ∧ v.plan = t.plan) ∧
          (secondEvent s order).check = (dwellSecond s.check.placements v).check ∧
          (secondEvent s order).arbiter = (dwellSecond s.check.placements v).arbiter) ∨
        ((v.check = (dwellSecond s.check.placements t).check ∧ v.arbiter = (dwellSecond s.check.placements t).arbiter ∧
            v.booths = t.booths ∧ v.plan = t.plan) ∧
          (secondEvent s order).check = (windowsSecond v).check ∧
          (secondEvent s order).arbiter = (windowsSecond v).arbiter)) := by
  have hkept : ∀ {x y : State}, Leaves (fun x => x ≠ .handoverWindows ∧ x ≠ .checkDwell) x y →
      y.check = x.check ∧ y.arbiter = x.arbiter ∧ y.booths = x.booths ∧ y.plan = x.plan := fun h =>
    ⟨h.check (fun k => k.1 rfl) fun k => k.2 rfl, h.arbiter (fun k => k.1 rfl) fun k => k.2 rfl, h.booths fun k => k.1 rfl,
      h.plan⟩
  obtain ⟨t, v, u, ht, h, he⟩ := secondEvent_pair order (j := .handoverWindows) (k := .checkDwell) (by decide) s
  obtain ⟨hcheck, hrest⟩ := hkept ht
  rw [he]
  refine ⟨t, v, hcheck, hrest, h.imp (fun ⟨hv, hu⟩ => ?_) fun ⟨hv, hu⟩ => ?_⟩
  · obtain ⟨h1, h2, h3, h4⟩ := hkept hv
    exact ⟨⟨h1, h2, h3, h4.trans (windowsSecond_leaves t).plan⟩, (hkept hu).1, (hkept hu).2.1⟩
  · have hdwell := dwellSecond_leaves s.check.placements t
    obtain ⟨h1, h2, h3, h4⟩ := hkept hv
    exact ⟨⟨h1, h2, h3.trans (hdwell.booths (by decide)), h4.trans hdwell.plan⟩, (hkept hu).1, (hkept hu).2.1⟩

/-- With no channel under test a second event keeps the check. -/
theorem secondEvent_check_none (h : s.check.current = none) : (secondEvent s order).check = s.check := by
  have hdwell : ∀ (t : State) n, t.check.current = none → dwellSecond n t = t := fun t n ht => by
    unfold dwellSecond; rw [ht]
  obtain ⟨t, v, ht, -, ⟨⟨hv, -⟩, hu, -⟩ | ⟨⟨hv, -⟩, hu, -⟩⟩ := secondEvent_checks order s
  · have hw : v.check = s.check := hv.trans (((windowsSecond_movesOn t).2.1 (by rw [ht, h])).trans ht)
    rw [hu, hdwell v _ (by rw [hw, h]), hw]
  · rw [hdwell t _ (by rw [ht, h])] at hv
    rw [hu, (windowsSecond_movesOn v).2.1 (by rw [hv, ht, h]), hv, ht]

/-- A second event takes a second of the dwell; a channel placed in it has its whole 10 s left (R79, log entry 24). -/
theorem secondEvent_dwell (h : (secondEvent s order).check.current ≠ none) :
    (secondEvent s order).check.dwell =
      if (secondEvent s order).check.placements = s.check.placements then s.check.dwell - 1 else 10 := by
  suffices hdwells : s.check.dwells (secondEvent s order).check (s.check.dwell - 1) from hdwells.2 h
  have hstart : s.check.dwells s.check s.check.dwell := ⟨Nat.le_refl _, fun _ => (if_pos rfl).symm⟩
  obtain ⟨t, v, ht, -, ⟨⟨hv, -⟩, hu, -⟩ | ⟨⟨hv, -⟩, hu, -⟩⟩ := secondEvent_checks order s
  · rw [hu]
    refine Check.dwells.second ?_
    rw [hv]
    exact (ht ▸ hstart : s.check.dwells t.check s.check.dwell).movesOn (windowsSecond_movesOn t)
  · rw [hu]
    refine Check.dwells.movesOn ?_ (windowsSecond_movesOn v)
    rw [hv]
    exact Check.dwells.second (by rw [ht]; exact hstart)
end

/-! ### A second in which no window ends (R52, R79) -/

/-- No window of a booth is in its last second. -/
def State.windowsGoOn (s : State) : Prop :=
  ∀ b side d e n p, 1 ≤ b → b ≤ 24 → s.domain b side = .pending d e n p → 1 < n

/-- In `v` the check, and the sources as they are formed apart from the test, are what they are in `s`. -/
def State.testsAs (s v : State) : Prop :=
  v.check = s.check ∧ v.announcement = s.announcement ∧ v.primary = s.primary ∧ v.fallbackSource = s.fallbackSource

theorem State.testsAs.trans {s t u : State} (h : s.testsAs t) (k : t.testsAs u) : s.testsAs u :=
  ⟨k.1.trans h.1, k.2.1.trans h.2.1, k.2.2.1.trans h.2.2.1, k.2.2.2.trans h.2.2.2⟩

/-- The sources are formed of the plan, the booths' live desks and the announcements. -/
theorem State.testsAs_of {s v : State} (hcheck : v.check = s.check)
    (hann : v.arbiter.announcements = s.arbiter.announcements) (hplan : v.plan = s.plan)
    (hdesks : v.booths.desks = s.booths.desks) (hconfigs : v.booths.configs = s.booths.configs)
    (hlive : ∀ x y, (v.domain x y).liveDesk = (s.domain x y).liveDesk) : s.testsAs v := by
  have hentry : v.planEntry = s.planEntry := by unfold State.planEntry; rw [hplan]
  have hdesk : v.desk = s.desk := by unfold State.desk; rw [hdesks]
  have hann' : v.announcement = s.announcement := by unfold State.announcement; rw [hann]
  have hdomain : ∀ o, (v.domainOf o).liveDesk = (s.domainOf o).liveDesk := fun o => by
    unfold State.domainOf; rw [hlive, State.placeOf_congr (State.config_of_configs hconfigs)]
  have hserving : v.serving = s.serving := by
    funext c
    unfold State.serving
    rw [hentry]
    exact findSome?_congr_mem fun o _ => by rw [State.liveOn_congr (hdomain o) fun _ _ => by rw [hdesk]]
  have hbooth : v.boothSource = s.boothSource := by unfold State.boothSource; rw [hdesk]
  have hauto : v.autofloors = s.autofloors := by unfold State.autofloors; rw [hentry, hplan]
  have hprimary : v.primary = s.primary := by unfold State.primary; rw [hann', hserving, hbooth, hauto]
  exact ⟨hcheck, hann', hprimary, by unfold State.fallbackSource; rw [hentry, hprimary]⟩

theorem State.testsAs.withoutTest {s v : State} (h : s.testsAs v) : v.withoutTest = s.withoutTest := by
  unfold State.withoutTest; rw [h.2.2.1, h.2.2.2]

theorem State.testsAs.effective {s v : State} (h : s.testsAs v) : v.effective = s.effective := by
  obtain ⟨hcheck, hann, hprimary, hfall⟩ := h
  unfold State.effective; rw [hcheck, hann, hprimary, hfall]

/-- An edit of the checker alone leaves what the sources are formed of. -/
theorem State.testsAs.check {s v : State} (h : s.testsAs v) (k : Check) :
    State.testsAs { s with check := k } { v with check := k } := ⟨rfl, h.2⟩

section
variable {s v : State}

/-- States that test alike enter the same results. -/
theorem State.testsAs.enterResults (h : s.testsAs v) (c : Nat) (only : CheckResult → Bool) (r : CheckResult) :
    (s.enterResults c only r).testsAs (v.enterResults c only r) := by
  have hmonitors : v.checkMonitors = s.checkMonitors := by unfold State.checkMonitors; rw [h.1]
  unfold State.enterResults
  rw [hmonitors]
  generalize positionsOf s.checkMonitors = ms
  clear hmonitors
  induction ms generalizing s v with
  | nil => exact h
  | cons m ms ih =>
    have hresult : v.result c m = s.result c m := by unfold State.result; rw [h.1]
    rw [List.foldl_cons, List.foldl_cons, hresult]
    split
    · refine ih ⟨?_, h.2⟩
      unfold State.setResult; rw [h.1]
    · exact ih h

theorem State.testsAs.failOpen (h : s.testsAs v) (c : Nat) (ms : List Nat) :
    (ms.foldl (fun t m => if t.result c m = .notRun then failEntry t c m else t) s).testsAs
      (ms.foldl (fun t m => if t.result c m = .notRun then failEntry t c m else t) v) := by
  induction ms generalizing s v with
  | nil => exact h
  | cons m ms ih =>
    have hresult : v.result c m = s.result c m := by unfold State.result; rw [h.1]
    have hprogress : v.progress m = s.progress m := by unfold State.progress; rw [h.1]
    rw [List.foldl_cons, List.foldl_cons, hresult]
    split
    · refine ih ⟨?_, h.2⟩
      unfold failEntry State.setFailed State.setResult; rw [hprogress, h.1]
    · exact ih h

theorem State.testsAs.takeNextChannel (h : s.testsAs v) (cs : List Nat) :
    (takeNextChannel s cs).1.testsAs (takeNextChannel v cs).1 := by
  induction cs generalizing s v with
  | nil => exact ⟨by unfold Machine.takeNextChannel; rw [h.1], h.2⟩
  | cons c cs ih =>
    unfold Machine.takeNextChannel
    rw [h.withoutTest]
    split
    · exact ⟨by unfold State.placeSignature; rw [h.1], h.2⟩
    · exact ih (h.enterResults c _ _)

theorem State.testsAs.endChannel (h : s.testsAs v) (c : Nat) : (endChannel s c).1.testsAs (endChannel v c).1 := by
  have hchannels : v.checkChannels = s.checkChannels := by unfold State.checkChannels; rw [h.1]
  have hlift : s.liftSignature.testsAs v.liftSignature := ⟨by unfold State.liftSignature; rw [h.1], h.2⟩
  unfold Machine.endChannel
  rw [hchannels]
  exact hlift.takeNextChannel _

theorem State.testsAs.preemptCheck (h : s.testsAs v) : (preemptCheck s).1.testsAs (preemptCheck v).1 := by
  unfold Machine.preemptCheck
  rw [h.1]
  split
  · exact h
  · rw [h.withoutTest]
    split
    · exact h
    · exact (h.enterResults _ _ _).endChannel _

/-- A settled event of states that test alike. -/
theorem State.testsAs.settleEvent (h : s.testsAs v) (before before' : State) (e l e' l' : List Notice) :
    (settleEvent before e l s).testsAs (settleEvent before' e' l' v) := by
  have hrest : ∀ (x : State) y e l, (Machine.settleEvent y e l x).testsAs (Machine.preemptCheck x).1 := fun x y e l => by
    refine State.testsAs_of (settleEvent_check y e l x).symm ?_ ?_ ?_ ?_ fun _ _ => ?_ <;>
      rw [settleEvent_frame, preemptCheck_frame]
    all_goals rfl
  have hrest' : ∀ (x : State) y e l, (Machine.preemptCheck x).1.testsAs (Machine.settleEvent y e l x) := fun x y e l =>
    ⟨(hrest x y e l).1.symm, (hrest x y e l).2.1.symm, (hrest x y e l).2.2.1.symm, (hrest x y e l).2.2.2.symm⟩
  exact ((hrest s before e l).trans h.preemptCheck).trans (hrest' v before' e' l')

theorem State.testsAs.expireDwell (h : s.testsAs v) (c : Nat) :
    (expireDwell s c).testsAs (expireDwell v c) ∧
      ∀ d, d < 32 → (Machine.expireDwell v c).source d = (Machine.expireDwell s c).source d := by
  have hmonitors : v.checkMonitors = s.checkMonitors := by unfold State.checkMonitors; rw [h.1]
  have hfail := h.failOpen c (positionsOf s.checkMonitors)
  unfold Machine.expireDwell
  rw [hmonitors]
  generalize List.foldl _ s _ = s' at hfail ⊢
  generalize List.foldl _ v _ = v' at hfail ⊢
  have hends := (hfail.endChannel c).settleEvent s v [] (Machine.endChannel s' c).2 [] (Machine.endChannel v' c).2
  exact ⟨hends, fun d hd => by
    dsimp only; rw [settleEvent_source _ _ _ _ hd, settleEvent_source _ _ _ _ hd, hends.effective]⟩

/-- The last second of the dwell in states that test alike ends alike, with the same sources. -/
theorem State.testsAs.lastDwell (h : s.testsAs v) (hcur : s.check.current ≠ none) (hdwell : s.check.dwell ≤ 1) :
    (dwellSecond s.check.placements v).check = (dwellSecond s.check.placements s).check ∧
      ∀ c, c < 32 → (dwellSecond s.check.placements v).source c = (dwellSecond s.check.placements s).source c := by
  obtain ⟨c, hc⟩ := Option.ne_none_iff_exists'.mp hcur
  have hlast : ∀ x : State, x.check = s.check →
      dwellSecond s.check.placements x =
        Machine.expireDwell { x with check := { s.check with dwell := s.check.dwell - 1 } } c := fun x hx => by
    unfold dwellSecond
    rw [hx, hc]
    simp only [if_true, if_pos (show s.check.dwell - 1 = 0 by omega)]
  obtain ⟨hends, hsources⟩ := (h.check { s.check with dwell := s.check.dwell - 1 }).expireDwell c
  rw [hlast s rfl, hlast v h.1]
  exact ⟨hends.1, hsources⟩
end

/-- Windows of which none is in its last second keep the live desks, and touch the domains alone. -/
theorem foldl_windowSecond_counts {ps : List (Nat × Side)} (hnodup : ps.Nodup) {s : State}
    (h : ∀ z ∈ ps, ∀ d e n q, s.domain z.1 z.2 = .pending d e n q → 1 < n) :
    (∃ ds, ps.foldl (fun t z => windowSecond t z.1 z.2) s = { s with booths := { s.booths with domains := ds } }) ∧
      ∀ x y, ((ps.foldl (fun t z => windowSecond t z.1 z.2) s).domain x y).liveDesk = (s.domain x y).liveDesk := by
  induction ps generalizing s with
  | nil => exact ⟨⟨_, rfl⟩, fun _ _ => rfl⟩
  | cons z ps ih =>
    obtain ⟨hz, hnodup⟩ := List.nodup_cons.mp hnodup
    have hfirst : (∃ ds, windowSecond s z.1 z.2 = { s with booths := { s.booths with domains := ds } }) ∧
        ∀ x y, ((windowSecond s z.1 z.2).domain x y).liveDesk = (s.domain x y).liveDesk := by
      cases hd : s.domain z.1 z.2 with
      | pending d e n q =>
        rw [windowSecond_counts hd (h z List.mem_cons_self d e n q hd)]
        refine ⟨⟨_, rfl⟩, fun x y => ?_⟩
        rw [State.domain_setDomain]
        split
        · rename_i hxy; rw [hxy.1, hxy.2, hd]; rfl
        · rfl
      | _ => rw [windowSecond_still (by rw [hd]; exact nofun)]; exact ⟨⟨_, rfl⟩, fun _ _ => rfl⟩
    obtain ⟨⟨ds, hds⟩, hlive⟩ := hfirst
    obtain ⟨⟨ds', hds'⟩, hlive'⟩ := ih hnodup (s := windowSecond s z.1 z.2) fun w hw d e n q hd => by
      rw [windowSecond_domain, if_neg fun hwz => hz (by rwa [show z = w from (Prod.ext hwz.1 hwz.2).symm])] at hd
      exact h w (List.mem_cons_of_mem z hw) d e n q hd
    rw [List.foldl_cons]
    exact ⟨⟨ds', by rw [hds', hds]⟩, fun x y => (hlive' x y).trans (hlive x y)⟩

section
variable {s : State} (order : List SecondTaker)

/-- With no window in its last second, the windows keep the check, the sources and what they are formed of. -/
theorem windowsSecond_goOn (h : s.windowsGoOn) :
    s.testsAs (windowsSecond s) ∧ (windowsSecond s).arbiter = s.arbiter := by
  have hcounts := foldl_windowSecond_counts domainPlaces_nodup (s := s) fun z hz d e n q hd =>
    h z.1 z.2 d e n q ((mem_domainPlaces z.1 z.2).mp hz).1 ((mem_domainPlaces z.1 z.2).mp hz).2 hd
  change (∃ ds, windowsSecond s = _) ∧ ∀ x y, ((windowsSecond s).domain x y).liveDesk = _ at hcounts
  obtain ⟨⟨ds, hds⟩, hlive⟩ := hcounts
  rw [hds] at hlive ⊢
  exact ⟨State.testsAs_of rfl rfl rfl rfl rfl hlive, rfl⟩

/-- Where no window ends in the second, the check and the sources are those of the dwell timer alone (R79). -/
theorem secondEvent_windowsGoOn (h : s.windowsGoOn) :
    (∃ v, s.testsAs v ∧ (secondEvent s order).check = (dwellSecond s.check.placements v).check ∧
      (secondEvent s order).arbiter = (dwellSecond s.check.placements v).arbiter) := by
  have hgoOn : ∀ {t : State}, t.booths = s.booths → t.windowsGoOn := fun ht b side d e n p h1 h24 hd =>
    h b side d e n p h1 h24 (State.domain_of_booths ht ▸ hd)
  have hlive : ∀ {t v : State}, v.booths = t.booths → ∀ x y, (v.domain x y).liveDesk = (t.domain x y).liveDesk :=
    fun hb x y => by rw [State.domain_of_booths hb]
  obtain ⟨t, v, ht, ⟨harb, hbooths, hplan⟩, h | h⟩ := secondEvent_checks order s
  · obtain ⟨⟨hcheck, harb', hbooths', hplan'⟩, hu⟩ := h
    have hw := (windowsSecond_goOn (hgoOn hbooths)).1
    have hstart : s.testsAs t := State.testsAs_of ht (by rw [harb]) hplan (by rw [hbooths]) (by rw [hbooths]) (hlive hbooths)
    refine ⟨v, hstart.trans (hw.trans (State.testsAs_of hcheck (by rw [harb']) ?_ (by rw [hbooths']) (by rw [hbooths'])
      (hlive hbooths'))), hu⟩
    rw [hplan', (windowsSecond_leaves t).plan]
  · obtain ⟨⟨hcheck, harb', hbooths', hplan'⟩, hu⟩ := h
    have hstart : s.testsAs t := State.testsAs_of ht (by rw [harb]) hplan (by rw [hbooths]) (by rw [hbooths]) (hlive hbooths)
    obtain ⟨hw, hwarb⟩ := windowsSecond_goOn (hgoOn (hbooths'.trans hbooths))
    exact ⟨t, hstart, hu.1.trans (hw.1.trans hcheck), hu.2.trans (hwarb.trans harb')⟩

/-- Where no window ends in the second, the dwell falls by 1 (R79). -/
theorem secondEvent_dwell_goesOn (h : s.windowsGoOn) (hcur : s.check.current ≠ none) (hdwell : 1 < s.check.dwell) :
    (secondEvent s order).check = { s.check with dwell := s.check.dwell - 1 } := by
  obtain ⟨v, hv, hcheck, -⟩ := secondEvent_windowsGoOn order h
  obtain ⟨c, hc⟩ := Option.ne_none_iff_exists'.mp hcur
  rw [hcheck]
  unfold dwellSecond
  rw [hv.1, hc]
  simp only [if_true, if_neg (show ¬s.check.dwell - 1 = 0 by omega)]

theorem exec_checkDwellExpiry (s : State) :
    exec .checkDwellExpiry s =
      .next (if s.check.current.isSome && decide (s.check.dwell ≤ 1) then dwellSecond s.check.placements s else s) := rfl

/-- Where no window ends in the second, the last second of the dwell is its expiry (R79). -/
theorem secondEvent_dwell_expires (h : s.windowsGoOn) (hcur : s.check.current ≠ none) (hdwell : s.check.dwell ≤ 1) :
    ∃ u, exec .checkDwellExpiry s = .next u ∧ (secondEvent s order).check = u.check ∧
      ∀ c, c < 32 → (secondEvent s order).source c = u.source c := by
  obtain ⟨v, hv, hcheck, harb⟩ := secondEvent_windowsGoOn order h
  obtain ⟨hends, hsources⟩ := hv.lastDwell hcur hdwell
  refine ⟨dwellSecond s.check.placements s, ?_, hcheck.trans hends, fun c hc => ?_⟩
  · rw [exec_checkDwellExpiry, if_pos (by simp [Option.isSome_iff_ne_none, hcur, hdwell])]
  · rw [← hsources c hc]; unfold State.source; rw [harb]
end

end Sys2Proof.Machine
end

