-- ==== Sys2Proof/Proofs/FleetSeconds.lean ====
section
/-! One second of the issue windows and of the missing timers (R113, R123). -/

namespace Sys2Proof.Machine

/-! ### Keys of a table -/

theorem Table.keys_rising {α : Type} [DecidableEq α] {d : α} {t : Table α} (h : t.canonical d = true) :
    (t.map (·.1)).Pairwise (· < ·) := by
  induction t with
  | nil => exact List.Pairwise.nil
  | cons e t ih =>
    obtain ⟨-, habove, ht⟩ := (Table.canonical_cons d e.1 e.2 t).mp h
    refine List.pairwise_cons.mpr ⟨fun x hx => ?_, ih ht⟩
    obtain ⟨y, hy, rfl⟩ := List.mem_map.mp hx
    exact habove y hy

theorem Table.key_of_read_ne {α : Type} {d : α} {t : Table α} {k : Nat} (h : t.read d k ≠ d) : k ∈ t.map (·.1) :=
  List.mem_map.mpr ⟨_, Table.mem_of_read_ne h, rfl⟩

/-! ### One issue window (R123) -/

/-- A PENDING hire stands under its own number, and its receiver is RESERVED for it (R85, R119). -/
def State.pendingAgree (s : State) : Prop :=
  ∀ n h w, s.hire n = some h → h.state = .pending w →
    h.number = n ∧ (s.receiver h.receiver).state = .reserved ∧ (s.receiver h.receiver).hire = some n

theorem State.hiresAgree.pending {s : State} (hi : s.hiresAgree) : s.pendingAgree := by
  intro n h w hn hw
  obtain ⟨hnumber, hstate⟩ := hi.1 n h hn
  rw [hw] at hstate
  refine ⟨hnumber, ?_, hstate.2⟩
  have hholds := hstate.1
  cases hr : (s.receiver h.receiver).state with
  | reserved => rfl
  | _ => rw [hr] at hholds; exact nomatch hholds

/-- A hire after one more second of its issue window: one in its last second is gone (R123). -/
def Hire.second (h : Hire) : Option Hire :=
  match h.state with
  | .pending w => if w ≤ 1 then none else some { h with state := .pending (w - 1) }
  | _ => some h

/-- Whether hire `n` is PENDING in the last second of its window. -/
def State.lapsing (s : State) (n : Nat) (h : Hire) : Prop := s.hire n = some h ∧ ∃ w, h.state = .pending w ∧ w ≤ 1

section
variable {s : State} {n : Nat} {h : Hire}

/-- A hire whose window does not end takes its second alone. -/
theorem issueSecond_counts (hn : s.hire n = some h) (hgoes : ∀ w, h.state = .pending w → 1 < w) :
    issueSecond s n = s ∧ h.second = some h ∨ issueSecond s n = s.setHire n h.second := by
  cases hs : h.state with
  | pending w =>
    have hw := hgoes w hs
    refine .inr ?_
    simp only [issueSecond, hn, hs, Hire.second, if_neg (show ¬w - 1 = 0 by omega), if_neg (show ¬w ≤ 1 by omega)]
  | _ => exact .inl ⟨by simp only [issueSecond, hn, hs], by simp only [Hire.second, hs]⟩

theorem issueSecond_lapses (hlapse : s.lapsing n h) :
    issueSecond s n = (removePending s h).raise (.hireLapsed n h.receiver) := by
  obtain ⟨hn, w, hs, hw⟩ := hlapse
  simp only [issueSecond, hn, hs, if_pos (show w - 1 = 0 by omega)]

theorem issueSecond_none (hn : s.hire n = none) : issueSecond s n = s := by simp only [issueSecond, hn]

/-- One issue window moves its own hire alone (R123). -/
theorem issueSecond_hire (hi : s.pendingAgree) (n m : Nat) :
    (issueSecond s n).hire m = if m = n then (s.hire n).bind Hire.second else s.hire m := by
  cases hn : s.hire n with
  | none =>
    rw [issueSecond_none hn]
    split
    · rename_i h; rw [h, hn]; rfl
    · rfl
  | some h =>
    by_cases hlapse : s.lapsing n h
    · obtain ⟨-, w, hs, hw⟩ := hlapse
      have hgone : h.second = none := by simp only [Hire.second, hs, if_pos hw]
      have hkept : ∀ x : Notice, ((removePending s h).raise x).hire m = (s.setHire h.number none).hire m := fun _ => rfl
      rw [issueSecond_lapses ⟨hn, w, hs, hw⟩, hkept, State.hire_setHire, (hi n h w hn hs).1]
      simp only [Option.bind_some, hgone]
    · have hgoes : ∀ w, h.state = .pending w → 1 < w := fun w hs => by
        by_contra hw; exact hlapse ⟨hn, w, hs, by omega⟩
      rcases issueSecond_counts hn hgoes with ⟨he, hsame⟩ | he
      · rw [he, Option.bind_some, hsame]
        split
        · rename_i h; rw [h, hn]
        · rfl
      · rw [he, State.hire_setHire]; rfl

/-- One issue window leaves a receiver that is not RESERVED for its hire (R123). -/
theorem issueSecond_receiver_ne (hi : s.pendingAgree) {r : Nat}
    (hr : (s.receiver r).hire ≠ some n ∨ (s.receiver r).state ≠ .reserved) :
    (issueSecond s n).receiver r = s.receiver r := by
  cases hn : s.hire n with
  | none => rw [issueSecond_none hn]
  | some h =>
    by_cases hlapse : s.lapsing n h
    · obtain ⟨-, w, hs, hw⟩ := hlapse
      obtain ⟨-, hreserved, hhire⟩ := hi n h w hn hs
      have hne : r ≠ h.receiver := fun hrh => by
        subst hrh; exact hr.elim (absurd hhire) (absurd hreserved)
      rw [issueSecond_lapses ⟨hn, w, hs, hw⟩]
      exact (State.receiver_setReceiver _ _ _ _).trans (if_neg hne)
    · rcases issueSecond_counts hn (fun w hs => by by_contra hw; exact hlapse ⟨hn, w, hs, by omega⟩) with ⟨he, -⟩ | he <;>
        rw [he]
      rfl

/-- One issue window that goes on leaves every receiver. -/
theorem issueSecond_receiver_goesOn (hn : s.hire n = some h) (hgoes : ∀ w, h.state = .pending w → 1 < w) (r : Nat) :
    (issueSecond s n).receiver r = s.receiver r := by
  rcases issueSecond_counts hn hgoes with ⟨he, -⟩ | he <;> rw [he]
  rfl

/-- One issue window that ends makes its receiver DOCKED again, with HIRE_LAPSED (R123). -/
theorem issueSecond_lapsed (hlapse : s.lapsing n h) :
    (issueSecond s n).receiver h.receiver = { s.receiver h.receiver with state := .docked, hire := none } ∧
      (issueSecond s n).tells (.hireLapsed n h.receiver) ∧
      ∀ m, s.tells m → (issueSecond s n).tellsInOrder m (.hireLapsed n h.receiver) := by
  rw [issueSecond_lapses hlapse]
  exact ⟨(State.receiver_setReceiver _ _ _ _).trans (if_pos rfl), State.tells_raise _ _,
    fun m hm => State.tellsInOrder_raise (s := removePending s h) hm _⟩

theorem issueSecond_pendingAgree (hi : s.pendingAgree) (n : Nat) : (issueSecond s n).pendingAgree := by
  intro m k w hm hw
  rw [issueSecond_hire hi] at hm
  by_cases hmn : m = n
  · subst hmn
    rw [if_pos rfl] at hm
    obtain ⟨h, hh, hk⟩ := Option.bind_eq_some_iff.mp hm
    cases hs : h.state with
    | pending v =>
      simp only [Hire.second, hs] at hk
      split at hk
      · exact nomatch hk
      · obtain rfl := Option.some.inj hk
        rw [issueSecond_receiver_goesOn hh fun u hu => by rw [hs] at hu; injection hu; omega]
        exact hi m h v hh hs
    | _ =>
      simp only [Hire.second, hs, Option.some.injEq] at hk
      exact nomatch (hk ▸ hs).symm.trans hw
  · rw [if_neg hmn] at hm
    obtain ⟨hnumber, hreserved, hhire⟩ := hi m k w hm hw
    rw [issueSecond_receiver_ne hi (.inl (by rw [hhire]; exact fun h => hmn (Option.some.inj h)))]
    exact ⟨hnumber, hreserved, hhire⟩
end

/-! ### All issue windows (R123) -/

section
variable {s : State} {n : Nat} {h : Hire} (hi : s.pendingAgree)
include hi

/-- The receivers that are not RESERVED are left by the issue windows. -/
theorem issuesSecond_receiver_unreserved {r : Nat} (hr : (s.receiver r).state ≠ .reserved) :
    (issuesSecond s).receiver r = s.receiver r := by
  suffices hkept : (issuesSecond s).pendingAgree ∧ (issuesSecond s).receiver r = s.receiver r from hkept.2
  refine List.foldlRecOn (motive := fun t => t.pendingAgree ∧ t.receiver r = s.receiver r) _ issueSecond ⟨hi, rfl⟩ ?_
  rintro t ⟨ht, hrt⟩ x -
  exact ⟨issueSecond_pendingAgree ht x, (issueSecond_receiver_ne ht (.inr (by rw [hrt]; exact hr))).trans hrt⟩

theorem issuesSecond_hire_none (hn : s.hire n = none) : (issuesSecond s).hire n = none := by
  suffices hkept : (issuesSecond s).pendingAgree ∧ (issuesSecond s).hire n = none from hkept.2
  refine List.foldlRecOn (motive := fun t => t.pendingAgree ∧ t.hire n = none) _ issueSecond ⟨hi, hn⟩ ?_
  rintro t ⟨ht, hnt⟩ x -
  refine ⟨issueSecond_pendingAgree ht x, ?_⟩
  rw [issueSecond_hire ht]
  split
  · rename_i hx; rw [← hx, hnt]; rfl
  · exact hnt

/-- The issue windows take a second: the hire is taken once, and the receiver RESERVED for it is touched by no other. -/
theorem issuesSecond_once {Q : State → Prop} (hcanon : s.hires.records.canonical none = true) (hn : s.hire n = some h)
    (htake : ∀ t, t.pendingAgree → t.hire n = some h → t.receiver h.receiver = s.receiver h.receiver → Q (issueSecond t n))
    (hkept : ∀ x, x ≠ n → ∀ t, t.pendingAgree → Q t → Q (issueSecond t x))
    (hpending : ∃ w, h.state = .pending w) : Q (issuesSecond s) := by
  obtain ⟨w, hw⟩ := hpending
  obtain ⟨-, -, hhire⟩ := hi n h w hn hw
  suffices hall : (issuesSecond s).pendingAgree ∧ Q (issuesSecond s) from hall.2
  refine foldl_once
    (P := fun t => t.pendingAgree ∧ t.hire n = some h ∧ t.receiver h.receiver = s.receiver h.receiver)
    (Q := fun t => t.pendingAgree ∧ Q t) (k := n) (Table.key_of_read_ne (d := none) ?_) (Table.nodup_keys hcanon) ?_ ?_ ?_
    ⟨hi, hn, rfl⟩
  · show s.hire n ≠ none
    rw [hn]; exact Option.some_ne_none h
  · rintro x - hx t ⟨ht, hnt, hrt⟩
    refine ⟨issueSecond_pendingAgree ht x, ?_, ?_⟩
    · rw [issueSecond_hire ht, if_neg (Ne.symm hx), hnt]
    · rw [issueSecond_receiver_ne ht (.inl ?_), hrt]
      rw [hrt, hhire]; exact fun h => hx (Option.some.inj h).symm
  · exact fun t ⟨ht, hnt, hrt⟩ => ⟨issueSecond_pendingAgree ht n, htake t ht hnt hrt⟩
  · exact fun x _ hx t ⟨ht, hq⟩ => ⟨issueSecond_pendingAgree ht x, hkept x hx t ht hq⟩

/-- The issue windows take a second: each hire by its own (R123). -/
theorem issuesSecond_hire (hcanon : s.hires.records.canonical none = true) (hn : s.hire n = some h) :
    (issuesSecond s).hire n = h.second := by
  by_cases hpending : ∃ w, h.state = .pending w
  · refine issuesSecond_once (Q := fun t => t.hire n = h.second) hi hcanon hn (fun t ht hnt _ => ?_) (fun x hx t ht hq => ?_)
      hpending
    · rw [issueSecond_hire ht, if_pos rfl, hnt]; rfl
    · rw [issueSecond_hire ht, if_neg (Ne.symm hx), hq]
  · have hsecond : h.second = some h := by
      unfold Hire.second
      split
      · exact absurd ⟨_, ‹_›⟩ hpending
      · rfl
    suffices hkept : (issuesSecond s).pendingAgree ∧ (issuesSecond s).hire n = some h from hkept.2.trans hsecond.symm
    refine List.foldlRecOn (motive := fun t => t.pendingAgree ∧ t.hire n = some h) _ issueSecond ⟨hi, hn⟩ ?_
    rintro t ⟨ht, hnt⟩ x -
    refine ⟨issueSecond_pendingAgree ht x, ?_⟩
    rw [issueSecond_hire ht]
    split
    · rename_i hx; rw [← hx, hnt]; exact hsecond
    · exact hnt

/-- The receiver of a hire whose window goes on is kept. -/
theorem issuesSecond_receiver_goesOn (hcanon : s.hires.records.canonical none = true) (hn : s.hire n = some h) {w : Nat}
    (hs : h.state = .pending w) (hw : 1 < w) : (issuesSecond s).receiver h.receiver = s.receiver h.receiver := by
  obtain ⟨-, -, hhire⟩ := hi n h w hn hs
  refine issuesSecond_once (Q := fun t => t.receiver h.receiver = s.receiver h.receiver) hi hcanon hn
    (fun t _ hnt hrt => ?_) (fun x hx t ht hq => ?_) ⟨w, hs⟩
  · rw [issueSecond_receiver_goesOn hnt fun v hv => by rw [hs] at hv; injection hv; omega, hrt]
  · rw [issueSecond_receiver_ne ht (.inl ?_), hq]
    rw [hq, hhire]; exact fun h => hx (Option.some.inj h).symm

/-- A hire in the last second of its window lapses: its receiver is DOCKED again, with HIRE_LAPSED (R123). -/
theorem issuesSecond_lapsed (hcanon : s.hires.records.canonical none = true) (hlapse : s.lapsing n h) :
    (issuesSecond s).receiver h.receiver = { s.receiver h.receiver with state := .docked, hire := none } ∧
      (issuesSecond s).tells (.hireLapsed n h.receiver) := by
  obtain ⟨hn, w, hs, hw⟩ := hlapse
  refine issuesSecond_once (Q := fun t =>
      t.receiver h.receiver = { s.receiver h.receiver with state := .docked, hire := none } ∧
        t.tells (.hireLapsed n h.receiver)) hi hcanon hn
    (fun t _ hnt hrt => ?_) (fun x hx t ht hq => ?_) ⟨w, hs⟩
  · obtain ⟨hdocked, htells, -⟩ := issueSecond_lapsed (s := t) ⟨hnt, w, hs, hw⟩
    exact ⟨by rw [hdocked, hrt], htells⟩
  · exact ⟨(issueSecond_receiver_ne ht (.inr (by rw [hq.1]; exact nofun))).trans hq.1,
      (issueSecond_leaves t x).grows.tells hq.2⟩

/-- Hires that lapse are told in ascending hire number order (R123). -/
theorem issuesSecond_inOrder (hcanon : s.hires.records.canonical none = true) (hlapse : s.lapsing n h) {q : Nat} {k : Hire}
    (hnq : n < q) (hlapse' : s.lapsing q k) :
    (issuesSecond s).tellsInOrder (.hireLapsed n h.receiver) (.hireLapsed q k.receiver) := by
  obtain ⟨hn, hend⟩ := hlapse
  obtain ⟨hq, hend'⟩ := hlapse'
  have hkey : ∀ {m j}, s.hire m = some j → m ∈ s.hires.records.map (·.1) := fun hm =>
    Table.key_of_read_ne (d := none) (by rw [show s.hires.records.read none _ = s.hire _ from rfl, hm]; exact nofun)
  refine foldl_twice (f := issueSecond) (P := fun t => t.pendingAgree ∧ t.hire n = some h ∧ t.hire q = some k)
    (Q := fun t => t.pendingAgree ∧ t.tells (.hireLapsed n h.receiver) ∧ t.hire q = some k)
    (R := fun t => t.tellsInOrder (.hireLapsed n h.receiver) (.hireLapsed q k.receiver))
    (List.pair_sublist_of_rising (key := id) (Table.keys_rising hcanon) (hkey hn) (hkey hq) hnq) (Table.nodup_keys hcanon)
    ?_ ?_ ?_ ?_ ?_ ⟨hi, hn, hq⟩
  · rintro x - hxn hxq t ⟨ht, hnt, hqt⟩
    exact ⟨issueSecond_pendingAgree ht x, by rw [issueSecond_hire ht, if_neg (Ne.symm hxn), hnt],
      by rw [issueSecond_hire ht, if_neg (Ne.symm hxq), hqt]⟩
  · rintro t ⟨ht, hnt, hqt⟩
    exact ⟨issueSecond_pendingAgree ht n, (issueSecond_lapsed (s := t) ⟨hnt, hend⟩).2.1,
      by rw [issueSecond_hire ht, if_neg (Nat.ne_of_gt hnq), hqt]⟩
  · rintro x - - hxq t ⟨ht, htells, hqt⟩
    exact ⟨issueSecond_pendingAgree ht x, (issueSecond_leaves t x).grows.tells htells,
      by rw [issueSecond_hire ht, if_neg (Ne.symm hxq), hqt]⟩
  · rintro t ⟨ht, htells, hqt⟩
    exact (issueSecond_lapsed (s := t) ⟨hqt, hend'⟩).2.2 _ htells
  · exact fun x _ _ _ t ht => (issueSecond_leaves t x).grows.tellsInOrder ht
end

theorem issuesSecond_canonical {s : State} (h : s.fleet.receivers.canonical .unseen = true) :
    (issuesSecond s).fleet.receivers.canonical .unseen = true := by
  refine List.foldlRecOn (motive := fun t : State => t.fleet.receivers.canonical .unseen = true) _ issueSecond h ?_
  intro t ht n _
  unfold issueSecond
  split
  · split
    · split
      · rename_i h _ _ _ _ _
        exact Table.canonical_write .unseen t.fleet.receivers h.receiver
          { t.receiver h.receiver with state := .docked, hire := none } ht
      · exact ht
    · exact ht
  · exact ht

theorem issuesSecond_leaves (s : State) : Leaves (Eq .issueWindows) s (issuesSecond s) := .foldl issueSecond_leaves _ s

/-! ### The missing timers (R113) -/

/-- A receiver as the missing timers leave it: a silence that is due is reported (R113). -/
def State.missed (s : State) (r : Nat) : Receiver :=
  if s.missingDue r s.now then { s.receiver r with missingReported := true } else s.receiver r

/-- The MISSING notice of a receiver (R113). -/
def State.missingNotice (s : State) (r : Nat) : Notice :=
  .missing r ((s.receiver r).hire.getD 0) ((s.receiver r).silentSince.getD 0)

/-- The missing timer of one receiver takes a second (R113). -/
def missingOne (s : State) (r : Nat) : State := if s.missingDue r s.now then reportMissing s r else s

theorem missingSecond_eq (s : State) : missingSecond s = (s.fleet.receivers.map (·.1)).foldl missingOne s := rfl

section
variable {s : State} {r : Nat}

theorem missingOne_leaves (s : State) (r : Nat) : Leaves (Eq .missingTimers) s (missingOne s r) := by
  unfold missingOne
  split
  exacts [leaves_fleet s [_] _, .refl _ s]

theorem missingSecond_leaves (s : State) : Leaves (Eq .missingTimers) s (missingSecond s) :=
  .foldl missingOne_leaves _ s

theorem missingOne_receiver (q : Nat) :
    (missingOne s q).receiver r = if r = q then s.missed r else s.receiver r := by
  unfold missingOne State.missed
  by_cases hdue : s.missingDue q s.now = true
  · rw [if_pos hdue]
    refine (State.receiver_setReceiver s q r _).trans ?_
    split
    · rename_i hrq; rw [hrq, if_pos hdue]
    · rfl
  · rw [if_neg hdue]
    split
    · rename_i hrq; rw [hrq, if_neg hdue]
    · rfl

theorem missingOne_told (hdue : s.missingDue r s.now = true) :
    (missingOne s r).tells (s.missingNotice r) ∧ ∀ m, s.tells m → (missingOne s r).tellsInOrder m (s.missingNotice r) := by
  unfold missingOne
  rw [if_pos hdue]
  exact ⟨State.tells_raise _ _, fun m hm =>
    State.tellsInOrder_raise (s := s.setReceiver r { s.receiver r with missingReported := true }) hm _⟩

/-- What a missing timer goes by: the counter, the missing time, and its receiver. -/
theorem State.missingDue_congr {t : State} (hseconds : t.clock.seconds = s.clock.seconds) (hlimits : t.limits = s.limits)
    (hr : t.receiver r = s.receiver r) :
    t.missingDue r t.now = s.missingDue r s.now ∧ t.missed r = s.missed r ∧ t.missingNotice r = s.missingNotice r := by
  have hdue : t.missingDue r t.now = s.missingDue r s.now := by
    unfold State.missingDue State.missingAt State.now; rw [hseconds, hlimits, hr]
  refine ⟨hdue, ?_, ?_⟩
  · unfold State.missed; rw [hdue, hr]
  · unfold State.missingNotice; rw [hr]

theorem State.key_of_missingDue (hdue : s.missingDue r s.now = true) : r ∈ s.fleet.receivers.map (·.1) := by
  refine Table.key_of_read_ne (d := .unseen) fun h => ?_
  have hr : s.receiver r = .unseen := h
  unfold State.missingDue at hdue
  rw [hr] at hdue
  exact nomatch hdue

/-- A property that goes from receiver to receiver while the counter and the missing time stand. -/
theorem missing_steps {P : State → Prop} (hP : ∀ t q, t.clock.seconds = s.clock.seconds → t.limits = s.limits → P t →
      P (missingOne t q)) (hs : P s) : P (missingSecond s) := by
  suffices h : ((missingSecond s).clock.seconds = s.clock.seconds ∧ (missingSecond s).limits = s.limits) ∧
    P (missingSecond s) from h.2
  refine List.foldlRecOn
    (motive := fun t : State => (t.clock.seconds = s.clock.seconds ∧ t.limits = s.limits) ∧ P t) _ missingOne
    ⟨⟨rfl, rfl⟩, hs⟩ ?_
  rintro t ⟨⟨hseconds, hlimits⟩, ht⟩ q -
  have hleaves := missingOne_leaves t q
  exact ⟨⟨hleaves.seconds.trans hseconds, hleaves.limits.trans hlimits⟩, hP t q hseconds hlimits ht⟩

/-- A receiver that is not due is kept by the missing timers. -/
theorem missingSecond_receiver_kept (hdue : ¬s.missingDue r s.now = true) :
    (missingSecond s).receiver r = s.receiver r := by
  refine missing_steps (P := fun t => t.receiver r = s.receiver r) (fun t q hseconds hlimits ht => ?_) rfl
  rw [missingOne_receiver]
  split
  · rw [(State.missingDue_congr hseconds hlimits ht).2.1, State.missed, if_neg hdue]
  · exact ht

/-- The missing timers in their order: a receiver that is due is reported, once (R113). -/
theorem missingSecond_told (hcanon : s.fleet.receivers.canonical .unseen = true) (hdue : s.missingDue r s.now = true) :
    (missingSecond s).receiver r = { s.receiver r with missingReported := true } ∧
      (missingSecond s).tells (s.missingNotice r) := by
  have hfixed : ∀ t q, t.clock.seconds = s.clock.seconds ∧ t.limits = s.limits →
      (missingOne t q).clock.seconds = s.clock.seconds ∧ (missingOne t q).limits = s.limits := fun t q ht =>
    ⟨(missingOne_leaves t q).seconds.trans ht.1, (missingOne_leaves t q).limits.trans ht.2⟩
  rw [missingSecond_eq]
  refine foldl_once (f := missingOne)
    (P := fun t => (t.clock.seconds = s.clock.seconds ∧ t.limits = s.limits) ∧ t.receiver r = s.receiver r)
    (Q := fun t => t.receiver r = { s.receiver r with missingReported := true } ∧ t.tells (s.missingNotice r))
    (s.key_of_missingDue hdue) (Table.nodup_keys hcanon) (fun q _ hq t ht => ⟨hfixed t q ht.1, ?_⟩) (fun t ht => ?_)
    (fun q _ hq t ht => ⟨?_, (missingOne_leaves t q).grows.tells ht.2⟩) ⟨⟨rfl, rfl⟩, rfl⟩
  · rw [missingOne_receiver, if_neg (Ne.symm hq), ht.2]
  · obtain ⟨hdue', hmissed, hnotice⟩ := State.missingDue_congr ht.1.1 ht.1.2 ht.2
    have htold := (missingOne_told (hdue'.trans hdue)).1
    rw [missingOne_receiver, if_pos rfl, hmissed, State.missed, if_pos hdue]
    exact ⟨rfl, hnotice ▸ htold⟩
  · rw [missingOne_receiver, if_neg (Ne.symm hq), ht.1]

/-- Silences that go missing are told in ascending receiver order (R113). -/
theorem missingSecond_inOrder {q : Nat} (hcanon : s.fleet.receivers.canonical .unseen = true)
    (hdue : s.missingDue r s.now = true) (hrq : r < q) (hdue' : s.missingDue q s.now = true) :
    (missingSecond s).tellsInOrder (s.missingNotice r) (s.missingNotice q) := by
  have hfixed : ∀ t x, t.clock.seconds = s.clock.seconds ∧ t.limits = s.limits →
      (missingOne t x).clock.seconds = s.clock.seconds ∧ (missingOne t x).limits = s.limits := fun t x ht =>
    ⟨(missingOne_leaves t x).seconds.trans ht.1, (missingOne_leaves t x).limits.trans ht.2⟩
  have hkept : ∀ {t : State} {x y}, x ≠ y → t.receiver y = s.receiver y → (missingOne t x).receiver y = s.receiver y :=
    fun hxy ht => by rw [missingOne_receiver, if_neg (Ne.symm hxy), ht]
  rw [missingSecond_eq]
  refine foldl_twice (f := missingOne)
    (P := fun t => (t.clock.seconds = s.clock.seconds ∧ t.limits = s.limits) ∧ t.receiver r = s.receiver r ∧
      t.receiver q = s.receiver q)
    (Q := fun t => (t.clock.seconds = s.clock.seconds ∧ t.limits = s.limits) ∧ t.tells (s.missingNotice r) ∧
      t.receiver q = s.receiver q)
    (R := fun t => t.tellsInOrder (s.missingNotice r) (s.missingNotice q))
    (List.pair_sublist_of_rising (key := id) (Table.keys_rising hcanon) (s.key_of_missingDue hdue)
      (s.key_of_missingDue hdue') hrq) (Table.nodup_keys hcanon) ?_ ?_ ?_ ?_ ?_ ⟨⟨rfl, rfl⟩, rfl, rfl⟩
  · exact fun x _ hxr hxq t ht => ⟨hfixed t x ht.1, hkept hxr ht.2.1, hkept hxq ht.2.2⟩
  · rintro t ⟨hfix, hr, hq⟩
    obtain ⟨hd, -, hnotice⟩ := State.missingDue_congr hfix.1 hfix.2 hr
    exact ⟨hfixed t r hfix, hnotice ▸ (missingOne_told (hd.trans hdue)).1, hkept (Nat.ne_of_lt hrq) hq⟩
  · exact fun x _ _ hxq t ht => ⟨hfixed t x ht.1, (missingOne_leaves t x).grows.tells ht.2.1, hkept hxq ht.2.2⟩
  · rintro t ⟨hfix, htells, hq⟩
    obtain ⟨hd, -, hnotice⟩ := State.missingDue_congr hfix.1 hfix.2 hq
    exact hnotice ▸ (missingOne_told (hd.trans hdue')).2 _ htells
  · exact fun x _ _ _ t ht => (missingOne_leaves t x).grows.tellsInOrder ht
end

end Sys2Proof.Machine
end

