-- ==== Sys2Proof/Proofs/SecondTimers.lean ====
section
/-! O51: turns, windows, the check dwell, issue windows and silences of a second event, in whatever order. -/

namespace Sys2Proof.Machine

/-! ### Issue windows and silences of a second event (R113, R123) -/

/-- `t` has the hires and the fleet of `s`, its limits and its counter, with notices raised. -/
def State.fleetAlike (s t : State) : Prop :=
  t.hires = s.hires ∧ t.fleet = s.fleet ∧ t.limits = s.limits ∧ t.clock.seconds = s.clock.seconds ∧ s.grows t

/-- Of the hires and the fleet, a second event is the issue windows' and the missing timers', in one order or the other. -/
theorem secondEvent_fleetAlike (order : List SecondTaker) (s : State) :
    ∃ t v, s.atBoundary.fleetAlike t ∧
      (((issuesSecond t).fleetAlike v ∧ (missingSecond v).fleetAlike (secondEvent s order)) ∨
        ((missingSecond t).fleetAlike v ∧ (issuesSecond v).fleetAlike (secondEvent s order))) := by
  have halike : ∀ {x y : State}, Leaves (fun x => x ≠ .issueWindows ∧ x ≠ .missingTimers) x y → x.fleetAlike y := fun h =>
    ⟨h.hires fun k => k.1 rfl, h.fleet (fun k => k.1 rfl) fun k => k.2 rfl, h.limits, h.seconds, h.grows⟩
  obtain ⟨t, v, u, ht, h, he⟩ := secondEvent_pair order (j := .issueWindows) (k := .missingTimers) (by decide) s
  rw [he]
  refine ⟨t, v, halike ht, h.imp (fun h => ⟨halike h.1, ?_⟩) fun h => ⟨halike h.1, ?_⟩⟩
  all_goals
    have hend := halike h.2
    exact hend

theorem State.receiver_of_fleet {s t : State} (h : t.fleet = s.fleet) : t.receiver = s.receiver := by
  unfold State.receiver; rw [h]

theorem State.hire_of_hires {s t : State} (h : t.hires = s.hires) : t.hire = s.hire := by unfold State.hire; rw [h]

theorem State.pendingAgree.congr {s t : State} (hi : s.pendingAgree) (hhires : t.hires = s.hires)
    (hfleet : ∀ r, (s.receiver r).state = .reserved → t.receiver r = s.receiver r) : t.pendingAgree := by
  intro n h w hn hw
  rw [State.hire_of_hires hhires] at hn
  obtain ⟨hnumber, hreserved, hhire⟩ := hi n h w hn hw
  rw [hfleet _ hreserved]
  exact ⟨hnumber, hreserved, hhire⟩

theorem State.silent_of_missingDue {s : State} {r n : Nat} (h : s.missingDue r n = true) :
    (s.receiver r).state = .silent := by
  unfold State.missingDue at h
  split at h
  · simp only [Bool.and_eq_true, decide_eq_true_eq] at h; exact h.1.1
  · exact nomatch h

/-- A silence after the second is reported if it was, or if its missing time is reached at the boundary (R113). -/
theorem State.missed_silent {s : State} {r since : Nat} (hsilent : (s.receiver r).state = .silent)
    (hsince : (s.receiver r).silentSince = some since) :
    s.atBoundary.missed r = { s.receiver r with
      missingReported := (s.receiver r).missingReported ||
        decide (min (since + 64 * 2 ^ s.limits.missingCode) 4294967295 ≤ min (s.clock.seconds + 1) 4294967295) } := by
  have hmark : ∀ (e : Receiver) (reached : Bool),
      (if (!e.missingReported && reached) = true then { e with missingReported := true } else e) =
        { e with missingReported := e.missingReported || reached } := by
    rintro ⟨a, b, c, d, e, f, g, h, reported⟩ reached
    cases reported <;> cases reached <;> rfl
  have hdue : s.atBoundary.missingDue r s.atBoundary.now = (!(s.receiver r).missingReported &&
      decide (min (since + 64 * 2 ^ s.limits.missingCode) 4294967295 ≤ min (s.clock.seconds + 1) 4294967295)) := by
    have hreceiver : s.atBoundary.receiver r = s.receiver r := rfl
    simp only [State.missingDue, hreceiver, hsince, hsilent, decide_true, Bool.true_and]
    rfl
  rw [State.missed, hdue]
  exact hmark _ _

/-- The missing timers leave a receiver that is not SILENT. -/
theorem missingSecond_receiver_heard {s : State} {r : Nat} (h : (s.receiver r).state ≠ .silent) :
    (missingSecond s).receiver r = s.receiver r :=
  missingSecond_receiver_kept fun hdue => h (State.silent_of_missingDue hdue)

section
variable {s : State} (order : List SecondTaker)

/-- The issue windows take their second of the hires as they were, and what they leave stands in the end (R123). -/
theorem secondEvent_issues (hi : s.pendingAgree) :
    ∃ x : State, x.hires = s.hires ∧ x.pendingAgree ∧
      (∀ r, (s.receiver r).state ≠ .silent → x.receiver r = s.receiver r) ∧
      (secondEvent s order).hires = (issuesSecond x).hires ∧
      (∀ r, ((issuesSecond x).receiver r).state ≠ .silent → (secondEvent s order).receiver r = (issuesSecond x).receiver r) ∧
      (issuesSecond x).grows (secondEvent s order) := by
  obtain ⟨t, v, ⟨hthires, htfleet, -, -, -⟩, ⟨⟨hvhires, hvfleet, -, -, hvgrows⟩, huhires, hufleet, -, -, hugrows⟩ |
    ⟨⟨hvhires, hvfleet, -, -, -⟩, huhires, hufleet, -, -, hugrows⟩⟩ := secondEvent_fleetAlike order s
  · have htr : ∀ r, t.receiver r = s.receiver r := fun r => by rw [State.receiver_of_fleet htfleet]; rfl
    refine ⟨t, hthires, hi.congr hthires fun r _ => htr r, fun r _ => htr r, ?_, fun r hr => ?_, ?_⟩
    · rw [huhires, (missingSecond_leaves v).hires (by decide), hvhires]
    · rw [State.receiver_of_fleet hufleet, missingSecond_receiver_heard (by rw [State.receiver_of_fleet hvfleet]; exact hr),
        State.receiver_of_fleet hvfleet]
    · exact hvgrows.trans ((missingSecond_leaves v).grows.trans hugrows)
  · have hhires : v.hires = s.hires := by rw [hvhires, (missingSecond_leaves t).hires (by decide), hthires]; rfl
    have hvr : ∀ r, (s.receiver r).state ≠ .silent → v.receiver r = s.receiver r := fun r hr => by
      have htr : t.receiver r = s.receiver r := by rw [State.receiver_of_fleet htfleet]; rfl
      rw [State.receiver_of_fleet hvfleet, missingSecond_receiver_heard (by rw [htr]; exact hr), htr]
    refine ⟨v, hhires, hi.congr hhires fun r hr => hvr r (by rw [hr]; exact nofun), hvr, huhires, fun r _ => ?_, hugrows⟩
    rw [State.receiver_of_fleet hufleet]

/-- The missing timers take their second of the silences as they were, and what they leave stands in the end (R113). -/
theorem secondEvent_missing (hi : s.pendingAgree) (hcanon : s.fleet.receivers.canonical .unseen = true) :
    ∃ x : State, x.clock.seconds = s.atBoundary.clock.seconds ∧ x.limits = s.limits ∧
      x.fleet.receivers.canonical .unseen = true ∧
      (∀ r, (s.receiver r).state ≠ .reserved → x.receiver r = s.receiver r) ∧
      (∀ r, ((missingSecond x).receiver r).state ≠ .reserved →
        (secondEvent s order).receiver r = (missingSecond x).receiver r) ∧
      (missingSecond x).grows (secondEvent s order) := by
  obtain ⟨t, v, ⟨hthires, htfleet, htlimits, htseconds, -⟩, ⟨⟨-, hvfleet, hvlimits, hvseconds, -⟩, -, hufleet, -, -, hugrows⟩ |
    ⟨⟨hvhires, hvfleet, -, -, hvgrows⟩, -, hufleet, -, -, hugrows⟩⟩ := secondEvent_fleetAlike order s
  · have htr : ∀ r, t.receiver r = s.receiver r := fun r => by rw [State.receiver_of_fleet htfleet]; rfl
    have hit : t.pendingAgree := hi.congr hthires fun r _ => htr r
    refine ⟨v, ?_, ?_, ?_, fun r hr => ?_, fun r _ => ?_, hugrows⟩
    · rw [hvseconds, (issuesSecond_leaves t).seconds, htseconds]
    · rw [hvlimits, (issuesSecond_leaves t).limits, htlimits]; rfl
    · rw [hvfleet]; exact issuesSecond_canonical (by rw [htfleet]; exact hcanon)
    · rw [State.receiver_of_fleet hvfleet, issuesSecond_receiver_unreserved hit (by rw [htr]; exact hr), htr]
    · rw [State.receiver_of_fleet hufleet]
  · have htr : ∀ r, t.receiver r = s.receiver r := fun r => by rw [State.receiver_of_fleet htfleet]; rfl
    have hvr : v.receiver = (missingSecond t).receiver := State.receiver_of_fleet hvfleet
    have hhires : v.hires = s.hires := by rw [hvhires, (missingSecond_leaves t).hires (by decide), hthires]; rfl
    have hiv : v.pendingAgree := hi.congr hhires fun r hr => by
      rw [hvr, missingSecond_receiver_heard (by rw [htr, hr]; exact nofun), htr]
    refine ⟨t, htseconds, htlimits, by rw [htfleet]; exact hcanon, fun r _ => htr r, fun r hr => ?_, ?_⟩
    · rw [State.receiver_of_fleet hufleet, issuesSecond_receiver_unreserved hiv (by rw [hvr]; exact hr), hvr]
    · exact hvgrows.trans ((issuesSecond_leaves v).grows.trans hugrows)

section
variable {n : Nat} {h : Hire} (hi : s.pendingAgree) (hhires : s.hires.records.canonical none = true)
include hi

/-- A number with no hire has none after a second. -/
theorem secondEvent_hire_none (hn : s.hire n = none) : (secondEvent s order).hire n = none := by
  obtain ⟨x, hx, hix, -, hends, -⟩ := secondEvent_issues order hi
  rw [State.hire_of_hires hends]
  exact issuesSecond_hire_none hix (by rw [State.hire_of_hires hx, hn])

include hhires

/-- A second event moves each hire by its own issue window (R123). -/
theorem secondEvent_hire (hn : s.hire n = some h) : (secondEvent s order).hire n = h.second := by
  obtain ⟨x, hx, hix, -, hends, -⟩ := secondEvent_issues order hi
  rw [State.hire_of_hires hends]
  exact issuesSecond_hire hix (by rw [hx]; exact hhires) (by rw [State.hire_of_hires hx, hn])

/-- The receiver of a hire whose window goes on is kept. -/
theorem secondEvent_receiver_reserved (hn : s.hire n = some h) {w : Nat} (hs : h.state = .pending w) (hw : 1 < w) :
    (secondEvent s order).receiver h.receiver = s.receiver h.receiver := by
  obtain ⟨x, hx, hix, hreceivers, -, hends, -⟩ := secondEvent_issues order hi
  obtain ⟨-, hreserved, -⟩ := hi n h w hn hs
  have hstart := hreceivers h.receiver (by rw [hreserved]; exact nofun)
  have hkept := issuesSecond_receiver_goesOn hix (by rw [hx]; exact hhires) (by rw [State.hire_of_hires hx, hn]) hs hw
  rw [hends h.receiver (by rw [hkept, hstart, hreserved]; exact nofun), hkept, hstart]

/-- A hire in the last second of its window lapses, with its receiver DOCKED again and HIRE_LAPSED told (R123). -/
theorem secondEvent_lapsed (hlapse : s.lapsing n h) :
    (secondEvent s order).receiver h.receiver = { s.receiver h.receiver with state := .docked, hire := none } ∧
      (secondEvent s order).tells (.hireLapsed n h.receiver) := by
  obtain ⟨x, hx, hix, hreceivers, -, hends, hgrows⟩ := secondEvent_issues order hi
  obtain ⟨hn, w, hs, hw⟩ := hlapse
  obtain ⟨-, hreserved, -⟩ := hi n h w hn hs
  obtain ⟨hdocked, htells⟩ := issuesSecond_lapsed hix (by rw [hx]; exact hhires)
    (n := n) (h := h) ⟨by rw [State.hire_of_hires hx, hn], w, hs, hw⟩
  rw [hends h.receiver (by rw [hdocked]; exact nofun), hdocked, hreceivers h.receiver (by rw [hreserved]; exact nofun)]
  exact ⟨rfl, hgrows.tells htells⟩

/-- Hires that lapse are told in ascending hire number order (R123). -/
theorem secondEvent_lapses_inOrder (hlapse : s.lapsing n h) {q : Nat} {k : Hire} (hnq : n < q)
    (hlapse' : s.lapsing q k) :
    (secondEvent s order).tellsInOrder (.hireLapsed n h.receiver) (.hireLapsed q k.receiver) := by
  obtain ⟨x, hx, hix, -, -, -, hgrows⟩ := secondEvent_issues order hi
  have hin : ∀ {m j}, s.lapsing m j → x.lapsing m j := fun hl => ⟨by rw [State.hire_of_hires hx, hl.1], hl.2⟩
  exact hgrows.tellsInOrder (issuesSecond_inOrder hix (by rw [hx]; exact hhires) (hin hlapse) hnq (hin hlapse'))
end

section
variable {r : Nat} (hi : s.pendingAgree) (hcanon : s.fleet.receivers.canonical .unseen = true)

/-- A silence goes missing where its timer is due at the second boundary (R113). -/
theorem State.goesMissing_iff (m : Notice) :
    s.goesMissing r m ↔ s.atBoundary.missingDue r s.atBoundary.now = true ∧ m = s.missingNotice r := by
  have hreceiver : s.atBoundary.receiver r = s.receiver r := rfl
  unfold State.missingDue State.missingNotice
  rw [hreceiver]
  cases hsince : (s.receiver r).silentSince with
  | none => simp [State.goesMissing, hsince]
  | some since =>
    constructor
    · rintro ⟨since', hsilent, hsince', hnew, hreached, rfl⟩
      obtain rfl := Option.some.inj (hsince.symm.trans hsince')
      refine ⟨?_, rfl⟩
      rw [hsilent, hnew]
      exact decide_eq_true hreached
    · rintro ⟨hdue, rfl⟩
      simp only [Bool.and_eq_true, decide_eq_true_eq, Bool.not_eq_true'] at hdue
      exact ⟨since, hdue.1.1, hsince, hdue.1.2, hdue.2, rfl⟩

include hi hcanon

/-- A receiver that is not RESERVED is left by a second event, but for a silence that goes missing (R113). -/
theorem secondEvent_receiver (hr : (s.receiver r).state ≠ .reserved) :
    (secondEvent s order).receiver r = s.atBoundary.missed r := by
  obtain ⟨x, hseconds, hlimits, hxcanon, hreceivers, hends, -⟩ := secondEvent_missing order hi hcanon
  obtain ⟨hdue, hmissed, -⟩ := State.missingDue_congr (s := s.atBoundary) hseconds hlimits (hreceivers r hr)
  have hafter : (missingSecond x).receiver r = x.missed r := by
    unfold State.missed
    split
    · exact (missingSecond_told hxcanon ‹_›).1
    · exact missingSecond_receiver_kept ‹_›
  have hstate : (s.atBoundary.missed r).state ≠ .reserved := by
    unfold State.missed
    split
    exacts [hr, hr]
  rw [hends r (by rw [hafter, hmissed]; exact hstate), hafter, hmissed]

/-- A silence that goes missing is told (R113). -/
theorem secondEvent_missing_told {m : Notice} (h : s.goesMissing r m) : (secondEvent s order).tells m := by
  obtain ⟨x, hseconds, hlimits, hxcanon, hreceivers, -, hgrows⟩ := secondEvent_missing order hi hcanon
  obtain ⟨since, hsilent, -⟩ := id h
  obtain ⟨hdue, rfl⟩ := (State.goesMissing_iff m).mp h
  obtain ⟨hdue', -, hnotice⟩ := State.missingDue_congr (s := s.atBoundary) hseconds hlimits
    (hreceivers r (by rw [hsilent]; exact nofun))
  have htold := (missingSecond_told hxcanon (hdue'.trans hdue)).2
  rw [hnotice] at htold
  exact hgrows.tells htold

/-- Silences that go missing are told in ascending receiver order (R113). -/
theorem secondEvent_missing_inOrder {q : Nat} {m p : Notice} (hrq : r < q) (h : s.goesMissing r m)
    (h' : s.goesMissing q p) : (secondEvent s order).tellsInOrder m p := by
  obtain ⟨x, hseconds, hlimits, hxcanon, hreceivers, -, hgrows⟩ := secondEvent_missing order hi hcanon
  obtain ⟨since, hsilent, -⟩ := id h
  obtain ⟨since', hsilent', -⟩ := id h'
  obtain ⟨hdue, rfl⟩ := (State.goesMissing_iff m).mp h
  obtain ⟨hdue', rfl⟩ := (State.goesMissing_iff p).mp h'
  obtain ⟨hd, -, hnotice⟩ := State.missingDue_congr (s := s.atBoundary) hseconds hlimits
    (hreceivers r (by rw [hsilent]; exact nofun))
  obtain ⟨hd', -, hnotice'⟩ := State.missingDue_congr (s := s.atBoundary) hseconds hlimits
    (hreceivers q (by rw [hsilent']; exact nofun))
  have htold := missingSecond_inOrder hxcanon (hd.trans hdue) hrq (hd'.trans hdue')
  rw [hnotice, hnotice'] at htold
  exact hgrows.tellsInOrder htold
end
end

/-! ### What the obligation names -/

section
variable {s : State} {b d : Nat} {p : Side}

/-- The thresholds of a turn at its next count (R64, R65). -/
theorem TurnRecord.dueAt_iff (r : TurnRecord) (n : Nat) :
    r.dueAt n = true ↔ ∃ l, r.limit = some l ∧ l * 60 = n ∧ r.dueRaised = false := by
  simp only [TurnRecord.dueAt, Bool.and_eq_true, decide_eq_true_eq, Option.map_eq_some_iff, Bool.not_eq_true',
    ← exists_and_right, and_assoc]

theorem TurnRecord.overrunAt_iff (r : TurnRecord) (n : Nat) :
    r.overrunAt n = true ↔
      ∃ l o, r.limit = some l ∧ r.overrun = some o ∧ o ≠ 0 ∧ (l + o) * 60 = n ∧ r.overrunRaised = false := by
  unfold TurnRecord.overrunAt
  cases r.limit <;> cases r.overrun <;> simp [and_assoc]

/-- A desk that lives on through the second is live in its domain, before and behind its window's second. -/
theorem State.livesOn.stays (h : s.livesOn b p d) :
    (s.domain b p).liveDesk = some d ∧ (s.domain b p).second.liveDesk = (s.domain b p).liveDesk ∧
      (s.domain b p).second = (match s.domain b p with
        | .pending d e n q => .pending d e (n - 1) q
        | m => m) := by
  rcases h with h | ⟨e, n, q, h, hn⟩
  · rw [h]; exact ⟨rfl, rfl, rfl⟩
  · have hsecond : (Domain.pending d e n q).second = .pending d e (n - 1) q := if_neg (show ¬n ≤ 1 by omega)
    rw [h, hsecond]
    exact ⟨rfl, rfl, rfl⟩

/-- What the obligation calls the notices of a turn. -/
theorem State.turnRaises.notices {n : Notice} (h : s.turnRaises b p n) :
    ∃ d, s.livesOn b p d ∧ n ∈ s.turnNotices b p d := by
  obtain ⟨d, hlive, ⟨hdue, rfl⟩ | ⟨hlate, rfl⟩⟩ := h
  · have hat := (TurnRecord.dueAt_iff (s.turn b p) (satAdd (s.turn b p).counter 1)).mpr hdue
    exact ⟨d, hlive, by simp [State.turnNotices, hat]⟩
  · have hat := (TurnRecord.overrunAt_iff (s.turn b p) (satAdd (s.turn b p).counter 1)).mpr hlate
    exact ⟨d, hlive, by simp [State.turnNotices, hat]⟩
end

/-- Settles O51: each block of a second event takes its second once, wherever it stands in the order. -/
theorem secondEventTimers : Obligations.SecondEventTimers := by
  unfold Obligations.SecondEventTimers
  intro order s hagree hhires hcanon
  have hi := hagree.pending
  refine ⟨_, exec_secondEvent order s, ?domains, ?turnOrder, secondEvent_check_none order, secondEvent_dwell order,
    fun hwindows hcur => ⟨secondEvent_dwell_goesOn order hwindows hcur, secondEvent_dwell_expires order hwindows hcur⟩,
    ?hires, fun n hn => secondEvent_hire_none order hi hn, ?lapses, ?lapseOrder,
    fun r m h => secondEvent_missing_told order hi hcanon h,
    fun r q m p hrq h h' => secondEvent_missing_inOrder order hi hcanon hrq h h', ?silent, ?unmoved⟩
  case domains =>
    intro b side h1 h24
    have hdomain := secondEvent_domain order (s := s) (p := side) h1 h24
    refine ⟨fun hidle => ⟨?_, ?_⟩, fun d e n p hd hn => ⟨?_, ?_⟩, ?_⟩
    · rw [hdomain, hidle]; rfl
    · exact secondEvent_turn_idle order h1 h24 (by rw [hidle]; rfl)
    · rintro rfl
      have hsecond : (s.domain b side).second = .live d := by rw [hd]; exact if_pos hn
      have hcounted := (secondEvent_turn_live order (s := s) (d := d) h1 h24 (by rw [hd]; rfl) (by rw [hsecond, hd]; rfl)).1
      rw [hdomain, hcounted]
      exact ⟨hsecond, rfl, rfl, rfl⟩
    · rintro rfl
      have hsecond : (s.domain b side).second = .live e := by rw [hd]; exact if_pos hn
      refine ⟨hdomain.trans hsecond, fun hde => secondEvent_turn_taken order h1 h24 ?_ (by rw [hsecond]; rfl)⟩
      rw [hsecond, hd]
      exact fun h => hde (Option.some.inj h)
    · rintro d counter due late live hlives rfl hdue hlate rfl
      obtain ⟨hlive, hstays, hsecond⟩ := hlives.stays
      have hdueAt : due = (s.turn b side).dueAt (s.nextCounter b side) :=
        Bool.eq_iff_iff.mpr (hdue.trans (TurnRecord.dueAt_iff _ _).symm)
      have hlateAt : late = (s.turn b side).overrunAt (s.nextCounter b side) :=
        Bool.eq_iff_iff.mpr (hlate.trans (TurnRecord.overrunAt_iff _ _).symm)
      obtain ⟨hcounted, htells⟩ := secondEvent_turn_live order h1 h24 hlive hstays
      have htold : ∀ n, s.turnRaises b side n → (secondEvent s order).tells n := fun n hn => by
        obtain ⟨d', hd', hn⟩ := hn.notices
        obtain rfl := Option.some.inj (hlive.symm.trans hd'.stays.1)
        exact htells n hn
      refine ⟨hdomain.trans hsecond, by rw [hcounted, hdueAt, hlateAt]; rfl,
        fun h => htold _ ⟨d, hlives, .inl ⟨hdue.mp h, rfl⟩⟩, fun h => htold _ ⟨d, hlives, .inr ⟨hlate.mp h, rfl⟩⟩,
        fun hnames hothers => ?_⟩
      have hd4 := hnames b side d h1 h24 (.inl hlive)
      rw [secondEvent_deskRecord order h1 h24 hlive hstays (by omega) fun x y e hx1 hx24 hne he =>
        ⟨(hnames x y e hx1 hx24 he).trans (by decide), ?_⟩, hdueAt]
      · unfold State.recordCounted State.recordLived
        cases (s.desk b d).selection <;> rfl
      · rintro ⟨rfl, rfl⟩
        obtain ⟨hnlive, hnreq⟩ := hothers y fun h => hne ⟨rfl, h.symm⟩
        exact he.elim hnlive hnreq
  case turnOrder =>
    intro b c x y n m h1 h24 hc1 hc24 hbc hn hm
    obtain ⟨d, hd, hn⟩ := hn.notices
    obtain ⟨e, he, hm⟩ := hm.notices
    exact secondEvent_turns_inOrder order h1 h24 hc1 hc24 hbc hd.stays.1 hd.stays.2.1 he.stays.1 he.stays.2.1 hn hm
  case hires =>
    intro n h hn
    have hsecond := secondEvent_hire order hi hhires hn
    refine ⟨fun w hs hw => ⟨?_, secondEvent_receiver_reserved order hi hhires hn hs hw⟩, fun w hs hw => ⟨?_, ?_⟩,
      fun hne => ?_⟩
    · rw [hsecond]; simp only [Hire.second, hs, if_neg (show ¬w ≤ 1 by omega)]
    · rw [hsecond]; simp only [Hire.second, hs, if_pos hw]
    · exact (secondEvent_lapsed order hi hhires ⟨hn, w, hs, hw⟩).1
    · rw [hsecond]
      unfold Hire.second
      split
      exacts [absurd ‹_› (hne _), rfl]
  case lapses =>
    rintro n m ⟨h, w, hn, hs, hw, rfl⟩
    exact (secondEvent_lapsed order hi hhires ⟨hn, w, hs, hw⟩).2
  case lapseOrder =>
    rintro n q m p hnq ⟨h, w, hn, hs, hw, rfl⟩ ⟨k, v, hq, hs', hv, rfl⟩
    exact secondEvent_lapses_inOrder order hi hhires ⟨hn, w, hs, hw⟩ hnq ⟨hq, v, hs', hv⟩
  case silent =>
    intro r since hsilent hsince
    rw [secondEvent_receiver order hi hcanon (by rw [hsilent]; exact nofun), State.missed_silent hsilent hsince]
  case unmoved =>
    intro r hsilent hreserved
    rw [secondEvent_receiver order hi hcanon hreserved, State.missed, if_neg]
    · rfl
    · exact fun hdue => hsilent (State.silent_of_missingDue hdue)

end Sys2Proof.Machine
end

