-- ==== Sys2Proof/Proofs/ReturnsRefuted.lean ====
section
/-! O36 refuted: a return whose MIC_ON the interlock refuses, at a state in which a domain names no desk position. -/

namespace Sys2Proof.Machine

/-- Console 24 is polled for its return in SESSION, and its one desk selects output B. Output A of booth 24 shares channel 5
with output A of booth 23, whose domain holds position 9 LIVE: no run names a position above 4, and the key of that position
is the key of desk 1 of booth 24. -/
def misnamed : State :=
  let s : State :=
    { State.reset with
      plan := { State.reset.plan with hall := .session }
      supervisor := { State.reset.supervisor with consolePoll := some ⟨24, true, []⟩ } }
  (((s.setPlanEntry 5 { PlanEntry.unused with language := 1, first := some ⟨24, .a⟩, second := some ⟨23, .a⟩ }).setConfig 24
    { BoothConfig.default with enabled := 1 }).setDesk 24 1 { Desk.disabled with selection := .b }).setDomain 23 .a (.live 9)

/-- The report of the console: the key of desk 1 is down, and every desk selects output A. -/
def misnamedReport (d : Nat) : DeskReport := ⟨decide (d = 1), .a⟩

/-- What the return leaves. -/
def misnamedReturn : State :=
  reconcileConsole (unitReply misnamed 24) 24
    [(1, misnamedReport 1), (2, misnamedReport 2), (3, misnamedReport 3), (4, misnamedReport 4)]

theorem misnamed_awaits : misnamed.awaitsConsole 24 := by unfold State.awaitsConsole; rfl

theorem exec_misnamed :
    exec (.consoleReply 24 (.report (misnamedReport 1) (misnamedReport 2) (misnamedReport 3) (misnamedReport 4))) misnamed =
      .next misnamedReturn := by
  rw [exec_consoleReply, consoleAnswer_awaited (by decide) (by decide) misnamed_awaits]
  rfl

/-- No other output of channel 5 is claimed: the desk that position 9 of booth 23 stands for selects output B. -/
theorem misnamed_claimable : misnamed.claimable ⟨24, .a⟩ := by
  refine ⟨5, by decide, by decide, by decide, fun d _ _ hd => ?_, by decide⟩
  by_contra hne
  have hunused : State.reset.planEntry d = .unused := by unfold State.planEntry; split <;> rfl
  have hentry : misnamed.planEntry d = State.reset.planEntry d :=
    (State.planEntry_setPlanEntry _ 5 d _ (by decide)).trans (if_neg hne)
  rw [hentry, hunused] at hd
  exact nomatch hd

/-- Pass 2 gives desk 1 output A, and with it position 9 of booth 23 a claim on channel 5: pass 3 refuses the MIC_ON. -/
theorem misnamedReturn_refused : misnamedReturn.domain 24 .a = .idle := by decide

/-- Refutes O36: the interlock is judged behind pass 2, and the statement does not ask that domains name desk positions
alone. Where the domain of another booth names a position whose key is that of a desk of the console, the selection taken in
pass 2 is a claim of that booth, and the key held down is refused where the statement has it taken as a MIC_ON. -/
theorem not_returnsReconcile : ¬Obligations.ReturnsReconcile := by
  unfold Obligations.ReturnsReconcile
  intro h
  obtain ⟨hconsole, -⟩ := h misnamed
  obtain ⟨-, -, hclaims⟩ := hconsole 24 misnamedReport (by decide) (by decide) misnamed_awaits (by decide)
  obtain ⟨t, ht, -, -, hlive, -⟩ := hclaims 1 .a (by decide) (by decide) rfl rfl (fun side => by cases side <;> rfl) rfl
    misnamed_claimable rfl fun d _ _ hd _ => decide_eq_false hd
  rw [exec_misnamed] at ht
  injection ht with ht
  rw [← ht, misnamedReturn_refused] at hlive
  exact nomatch hlive

end Sys2Proof.Machine
end

