-- ==== Sys2Proof/Proofs/TurnThresholds.lean ====
section
/-! O25: TURN_LIMIT_REACHED and OVERRUN_LIMIT_REACHED, the second of one domain that brings its turn to a threshold. -/

namespace Sys2Proof.Machine

theorem exec_turnLimitReached (b : Nat) (p : Side) (s : State) :
    exec (.turnLimitReached b p) s =
      .next (if isBooth b && (s.domain b p).liveDesk.isSome && (s.turn b p).dueAt (satAdd (s.turn b p).counter 1)
        then turnSecond s b p else s) := rfl

theorem exec_overrunLimitReached (b : Nat) (p : Side) (s : State) :
    exec (.overrunLimitReached b p) s =
      .next (if isBooth b && (s.domain b p).liveDesk.isSome && (s.turn b p).overrunAt (satAdd (s.turn b p).counter 1)
        then turnSecond s b p else s) := rfl

/-- A counter below its largest value rises by 1. -/
theorem satAdd_one_of_lt {n : Nat} (h : n < 4294967295) : satAdd n 1 = n + 1 := Nat.min_eq_left h

/-- The two thresholds of a turn are apart: the held overrun is not 0 (R65). -/
theorem TurnRecord.dueAt_overrunAt_apart {r : TurnRecord} {n : Nat} (hdue : r.dueAt n = true) :
    r.overrunAt n = false := by
  by_contra hlate
  obtain ⟨l, hl, hn, -⟩ := (r.dueAt_iff n).mp hdue
  obtain ⟨l', o, hl', -, ho, hn', -⟩ := (r.overrunAt_iff n).mp (Bool.eq_true_of_not_eq_false hlate)
  obtain rfl : l = l' := Option.some.inj (hl.symm.trans hl')
  omega

section
variable {s : State} {b d l o : Nat} {p : Side}

/-- With the limit held, the due threshold is one value of the counter, and counts once (R64). -/
theorem TurnRecord.dueAt_iff_of_limit {r : TurnRecord} {n : Nat} (hl : r.limit = some l) :
    r.dueAt n = true ↔ n = l * 60 ∧ r.dueRaised = false := by
  simp [TurnRecord.dueAt_iff, hl, eq_comm (a := n)]

/-- With limit and overrun held, the overrun threshold is one value of the counter, counts once, and is none for the
overrun 0 (R65). -/
theorem TurnRecord.overrunAt_iff_of_held {r : TurnRecord} {n : Nat} (hl : r.limit = some l) (ho : r.overrun = some o) :
    r.overrunAt n = true ↔ n = (l + o) * 60 ∧ o ≠ 0 ∧ r.overrunRaised = false := by
  simp [TurnRecord.overrunAt_iff, hl, ho, eq_comm (a := n), and_left_comm]

/-- The second that brings a turn to its due threshold marks it, counts it to the live desk and raises TURN_DUE (R64). -/
theorem turnSecond_due (hd : (s.domain b p).liveDesk = some d)
    (hdue : (s.turn b p).dueAt (satAdd (s.turn b p).counter 1) = true) :
    turnSecond s b p =
      ((s.setTurn b p
          { s.turn b p with counter := satAdd (s.turn b p).counter 1, dueRaised := true }).setDeskRecord b d
        { s.recordLived b d with turnDue := satAdd (s.deskRecord b d).turnDue 1 }).raise (.turnDue b d) := by
  have hlate := TurnRecord.dueAt_overrunAt_apart hdue
  have hcounted : (s.turn b p).counted =
      { s.turn b p with counter := satAdd (s.turn b p).counter 1, dueRaised := true } := by
    simp [TurnRecord.counted, hdue, hlate]
  have hrecord : s.recordCounted b p d =
      { s.recordLived b d with turnDue := satAdd (s.deskRecord b d).turnDue 1 } := by
    simp only [State.recordCounted, if_pos hdue]
  have hnotices : s.turnNotices b p d = [.turnDue b d] := by simp [State.turnNotices, hdue, hlate]
  rw [turnSecond_live hd, hcounted, hrecord, hnotices]
  rfl

/-- The second that brings a turn to its overrun threshold marks it and raises TURN_OVERRUN (R65). -/
theorem turnSecond_overrun (hd : (s.domain b p).liveDesk = some d)
    (hlate : (s.turn b p).overrunAt (satAdd (s.turn b p).counter 1) = true) :
    turnSecond s b p =
      ((s.setTurn b p
          { s.turn b p with counter := satAdd (s.turn b p).counter 1, overrunRaised := true }).setDeskRecord b d
        (s.recordLived b d)).raise (.turnOverrun b d) := by
  have hdue : (s.turn b p).dueAt (satAdd (s.turn b p).counter 1) = false := by
    by_contra hdue
    exact Bool.false_ne_true
      ((TurnRecord.dueAt_overrunAt_apart (Bool.eq_true_of_not_eq_false hdue)).symm.trans hlate)
  have hcounted : (s.turn b p).counted =
      { s.turn b p with counter := satAdd (s.turn b p).counter 1, overrunRaised := true } := by
    simp [TurnRecord.counted, hdue, hlate]
  have hrecord : s.recordCounted b p d = s.recordLived b d := by
    simp [State.recordCounted, hdue, ← State.recordLived_turnDue]
  have hnotices : s.turnNotices b p d = [.turnOverrun b d] := by simp [State.turnNotices, hdue, hlate]
  rw [turnSecond_live hd, hcounted, hrecord, hnotices]
  rfl
end

/-- Settles O25: each row is the second of its one domain at the threshold, and has no effect away from it. -/
theorem turnThresholds : Obligations.TurnThresholds := by
  unfold Obligations.TurnThresholds
  intro b p d l s live h1 h24 _ hd hl hmax hlive
  have hnamed : (isBooth b && (s.domain b p).liveDesk.isSome) = true := by simp [isBooth, h1, h24, hd]
  have hcount := satAdd_one_of_lt hmax
  have hlived : live (s.deskRecord b d) = s.recordLived b d := by
    rw [hlive]; unfold State.recordLived; cases (s.desk b d).selection <;> rfl
  rw [exec_turnLimitReached, exec_overrunLimitReached, hnamed, Bool.true_and, Bool.true_and, hlived]
  refine ⟨fun hn hmark => ?_, fun hoff => ?_, fun o ho => ⟨fun hn ho0 hmark => ?_, fun hoff => ?_⟩⟩
  · have hdue := (TurnRecord.dueAt_iff_of_limit hl).mpr ⟨hcount.trans hn, hmark⟩
    rw [if_pos hdue, turnSecond_due hd hdue, hcount]
    rfl
  · rw [if_neg]
    rw [TurnRecord.dueAt_iff_of_limit hl, hcount]
    rintro ⟨hn, hmark⟩
    exact hoff.elim (fun h => h hn) fun h => Bool.false_ne_true (hmark.symm.trans h)
  · have hlate := (TurnRecord.overrunAt_iff_of_held hl ho).mpr ⟨hcount.trans hn, ho0, hmark⟩
    rw [if_pos hlate, turnSecond_overrun hd hlate, hcount]
  · rw [if_neg]
    rw [TurnRecord.overrunAt_iff_of_held hl ho, hcount]
    rintro ⟨hn, ho0, hmark⟩
    rcases hoff with h | h | h
    exacts [h hn, ho0 h, Bool.false_ne_true (hmark.symm.trans h)]

end Sys2Proof.Machine
end

