-- ==== Sys2Proof/Proofs/DeskRecords.lean ====
section
/-! O19: READ_DESK_RECORDS, its read-out updates and its layout. -/

namespace Sys2Proof.Machine

theorem exec_readDeskRecords (tag : Byte) (body : List Byte) (s : State) :
    exec (.readDeskRecords tag body) s = .next (takeRequest s ⟨0x1C, tag, body⟩ (serveReadDeskRecords body)) := rfl

/-! ### The read-out updates (R69) -/

/-- The counter of desk `d`'s turn in the domain at `p`, 0 where it is not live there (R61, R69). -/
def State.turnRun (s : State) (b d : Nat) (p : Side) : Nat :=
  if (s.domain b p).liveDesk = some d then (s.turn b p).counter else 0

/-- The read-out update of one domain touches the desk records alone. -/
theorem raiseLongest_frame (s : State) (b : Nat) (p : Side) :
    raiseLongest s b p = { s with turns := { s.turns with records := (raiseLongest s b p).turns.records } } := by
  unfold raiseLongest
  split <;> rfl

theorem readOut_frame (s : State) (b : Nat) :
    readOut s b = { s with turns := { s.turns with records := (readOut s b).turns.records } } := by
  unfold readOut
  rw [raiseLongest_frame, raiseLongest_frame]

theorem raiseLongest_turnRun (s : State) (b d : Nat) (p q : Side) :
    (raiseLongest s b p).turnRun b d q = s.turnRun b d q := by
  rw [raiseLongest_frame]; rfl

section
variable {s : State} {b : Nat}

/-- The update of one domain raises its live desk's longest turn to the counter, and no other record (R69). -/
theorem raiseLongest_deskRecord {p : Side} (hlive : ∀ e, (s.domain b p).liveDesk = some e → e ≤ 7) (x : Nat) {d : Nat}
    (hd : d ≤ 7) :
    (raiseLongest s b p).deskRecord x d =
      { s.deskRecord x d with
        longestTurn := max (s.deskRecord x d).longestTurn (if x = b then s.turnRun b d p else 0) } := by
  cases h : (s.domain b p).liveDesk with
  | none => simp [raiseLongest, State.turnRun, h]
  | some e =>
    have hraise : raiseLongest s b p = endTurn s b p e := by simp only [raiseLongest, h]
    rw [hraise, endTurn, State.deskRecord_setDeskRecord s b e x d _ (hlive e h) hd]
    by_cases hx : x = b <;> by_cases hde : d = e
    · subst hx hde; simp [State.turnRun, h]
    · simp [State.turnRun, h, hde, Ne.symm hde]
    · simp [hx]
    · simp [hx]

/-- The updates of a booth raise the longest turn of each desk whose turn runs, in either domain (R69). -/
theorem readOut_deskRecord (hlive : ∀ p e, (s.domain b p).liveDesk = some e → e ≤ 7) (x : Nat) {d : Nat} (hd : d ≤ 7) :
    (readOut s b).deskRecord x d =
      { s.deskRecord x d with
        longestTurn := max (max (s.deskRecord x d).longestTurn (if x = b then s.turnRun b d .a else 0))
          (if x = b then s.turnRun b d .b else 0) } := by
  have hlive' : ∀ e, ((raiseLongest s b .a).domain b .b).liveDesk = some e → e ≤ 7 := by
    rw [raiseLongest_frame]; exact hlive .b
  rw [readOut, raiseLongest_deskRecord hlive' x hd, raiseLongest_turnRun, raiseLongest_deskRecord (hlive .a) x hd]
end

/-! ### The layout (R70) -/

/-- The reply of READ_DESK_RECORDS: the booth's two turn records and its four desk records (R70). -/
def recordsBody (s : State) (b : Byte) : List Byte :=
  0x00 :: b :: (s.turn b.toNat .a).bytes ++ (s.secondTurn b.toNat).bytes ++
    positions.flatMap (deskRecordBytes s b.toNat)

@[simp] theorem TurnRecord.bytes_length (r : TurnRecord) : r.bytes.length = 8 := rfl

@[simp] theorem deskRecordBytes_length (s : State) (b d : Nat) : (deskRecordBytes s b d).length = 21 := rfl

theorem recordsBody_length (s : State) (b : Byte) : (recordsBody s b).length = 102 := by
  simp [recordsBody, positions, List.range']

theorem State.secondTurn_eq (s : State) (b : Nat) :
    s.secondTurn b = if (s.config b).interlock = .single then .idle else s.turn b .b := by
  unfold State.secondTurn
  cases (s.config b).interlock <;> rfl

/-- The record of a position: its five figures, each 0 while it is DISABLED (R67, R70). -/
theorem deskRecordBytes_eq (s : State) (b d : Nat) :
    deskRecordBytes s b d = if s.enabled b d = true then
      1 :: (be32 (s.deskRecord b d).liveA ++ be32 (s.deskRecord b d).liveB ++ be32 (s.deskRecord b d).turnsStarted ++
        be32 (s.deskRecord b d).longestTurn ++ be32 (s.deskRecord b d).turnDue)
      else 0 :: (be32 0 ++ be32 0 ++ be32 0 ++ be32 0 ++ be32 0) := by
  unfold deskRecordBytes
  cases s.enabled b d <;> rfl

/-! ### READ_DESK_RECORDS (R70) -/

theorem serveReadDeskRecords_range {b : Byte} (h : b.toNat = 0 ∨ 24 < b.toNat) (s : State) :
    serveReadDeskRecords [b] s = (s, [0x03]) := if_neg (not_namesBooth h)

theorem serveReadDeskRecords_read {b : Byte} (h1 : 1 ≤ b.toNat) (h24 : b.toNat ≤ 24) (s : State) :
    serveReadDeskRecords [b] s = (readOut s b.toNat, recordsBody (readOut s b.toNat) b) :=
  if_pos (namesBooth_iff.mpr ⟨h1, h24⟩)

/-- Settles O19: the updates of the booth's two domains, and then the layout, field by field, of what they leave. -/
theorem readDeskRecords : Obligations.ReadDeskRecords := by
  unfold Obligations.ReadDeskRecords
  refine fun tag b s h => ⟨fun hbad => ?_, fun runs turnBytes h1 h24 hlive hruns hturn => ?_⟩
  · rw [exec_readDeskRecords, takeRequest_replied h (serveReadDeskRecords_range hbad _)]
  set f : Frame := ⟨0x1C, tag, [b]⟩
  set u := readOut (s.reserve f) b.toNat
  have hframe : u = { s.reserve f with turns := { s.turns with records := u.turns.records } } := readOut_frame _ _
  refine ⟨u.putReply f (recordsBody u b), recordsBody u b, ?_, fun x d hd => ?_, ?_, ?_, ?_, ?_, ?_, ?_,
    recordsBody_length u b⟩
  · rw [exec_readDeskRecords, takeRequest_taken h, serveReadDeskRecords_read h1 h24]
  · have hrun : ∀ p, runs x d p = if x = b.toNat then (s.reserve f).turnRun b.toNat d p else 0 := fun p => by
      rw [hruns]
      by_cases hx : x = b.toNat
      · simp only [hx, true_and, if_true]; rfl
      · simp [hx]
    rw [hrun, hrun]
    exact readOut_deskRecord (s := s.reserve f) (fun p e he => (hlive p e he).trans (by decide)) x hd
  · rw [hframe]; exact ⟨rfl, rfl, rfl, rfl, rfl⟩
  · rw [hframe]; exact ⟨rfl, rfl, rfl⟩
  · rw [hframe]; exact ⟨rfl, rfl, rfl⟩
  · rw [hframe]; exact ⟨rfl, rfl, rfl, rfl⟩
  · exact State.answeredWith_of (by rw [hframe]; rfl)
  · have hbytes : ∀ r : TurnRecord, r.bytes = turnBytes r := by
      rw [hturn]; rintro ⟨n, _ | l, _ | o, _, _⟩ <;> rfl
    have hfirst : u.turn b.toNat .a = s.turn b.toNat .a := by rw [hframe]; rfl
    have hsecond : u.secondTurn b.toNat =
        if (s.config b.toNat).interlock = .single then .idle else s.turn b.toNat .b := by
      rw [← State.secondTurn_eq, hframe]; rfl
    have henabled : ∀ d, u.enabled b.toNat d = s.enabled b.toNat d := fun d => by rw [hframe]; rfl
    rw [recordsBody, hfirst, hsecond, hbytes, hbytes, funext (deskRecordBytes_eq u b.toNat)]
    simp only [henabled]
    rfl

end Sys2Proof.Machine
end

