-- ==== Sys2Proof/Proofs/CheckEvents.lean ====
section
/-! The events of the coverage check: where a channel that ends takes it, and an event that edits the checker alone, settled (R75, R78 to R81). -/

namespace Sys2Proof.Machine

/-! ### The end of a channel (R75, R78) -/

/-- The first channel above `c` of the program's set that may be under test, as R75 and R78 search it. -/
def State.nextOpen (s : State) (p : CheckProgram) (c : Nat) : Option Nat :=
  (List.range' 1 31).find? fun d => decide (c < d) && p.channels.getLsbD d && (s.withoutTest d).testable

/-- The check, in its search above `c`, has passed over channel `d` of the program before it came to `next` or to the end:
the entry of position `m` is EXCLUDED (R75). -/
def CheckProgram.passes (p : CheckProgram) (c : Nat) (next : Option Nat) (d m : Nat) : Prop :=
  c < d ∧ p.channels.getLsbD d = true ∧ p.monitors.getLsbD m = true ∧ ∀ n, next = some n → d < n

/-- The test of channel `c` under program `p` that `s` has scored is over in `t`: the check has gone on to `next`, or is
DONE, and the channels passed over are EXCLUDED (R75, R78). -/
def State.endsChannel (s t : State) (c : Nat) (p : CheckProgram) (next : Option Nat) : Prop :=
  (t.check.program = some p ∧ t.check.current = next ∧ t.check.state = (if next = none then .done else s.check.state) ∧
    t.check.generator = next.map (fun d => p.seed + BitVec.ofNat 16 (257 * d)) ∧
    t.check.dwell = (if next = none then 0 else 10) ∧ (∀ m, t.progress m = ⟨0, false⟩) ∧ ∀ d, t.failed d = s.failed d) ∧
  ∀ d m, m < 8 → (p.passes c next d m → t.result d m = .excluded) ∧ (¬p.passes c next d m → t.result d m = s.result d m)

/-- The CHECK_DONE of a check that finds no next channel (R78). -/
def State.endNotices (s : State) (next : Option Nat) : List Notice :=
  if next = none then [.checkDone false s.failedCount] else []

/-- States with the same checker tell the same end of a channel. -/
theorem State.endsChannel.of_check {s t u : State} {c : Nat} {p : CheckProgram} {next : Option Nat}
    (h : s.endsChannel t c p next) (hu : u.check = t.check) : s.endsChannel u c p next := by
  unfold State.endsChannel State.progress State.failed State.result
  rw [hu]; exact h

section
variable {s : State} {p : CheckProgram}

/-- The channels that the advance passes over, for the positions of the program. -/
theorem passes_iff (c d m : Nat) :
    (d ∈ ((channelsOf p.channels).filter fun d => decide (c < d)).takeWhile (fun d => !(s.withoutTest d).testable) ∧
      p.monitors.getLsbD m = true) ↔ p.passes c (s.nextOpen p c) d m := by
  have hin := mem_takeWhile_find (fun d => (s.withoutTest d).testable) _ (channelsAbove_rising p.channels c) d
  rw [mem_channelsAbove, find_channelsAbove] at hin
  rw [hin]
  exact ⟨fun ⟨⟨⟨hlt, hbit⟩, hbefore⟩, hmon⟩ => ⟨hlt, hbit, hmon, hbefore⟩,
    fun ⟨hlt, hbit, hmon, hbefore⟩ => ⟨⟨⟨hlt, hbit⟩, hbefore⟩, hmon⟩⟩

/-- What the end of a channel does to the check, and the notices it is due (R75, R78). -/
theorem endChannel_ends (hp : s.check.program = some p) (c : Nat) :
    s.endsChannel (endChannel s c).1 c p (s.nextOpen p c) ∧ (endChannel s c).2 = s.endNotices (s.nextOpen p c) := by
  have hset : s.checkChannels = p.channels := by unfold State.checkChannels; rw [hp]; rfl
  have hmonitors : s.liftSignature.checkMonitors = p.monitors := by
    show (s.check.program.map _).getD 0 = _; rw [hp]; rfl
  obtain ⟨hnotices, ⟨hprogram, hfailed⟩, hnone, hsome, hresult⟩ :=
    takeNextChannel_spec s.liftSignature ((channelsOf p.channels).filter fun d => decide (c < d))
  have hnext : ((channelsOf p.channels).filter fun d => decide (c < d)).find?
      (fun d => (s.liftSignature.withoutTest d).testable) = s.nextOpen p c := find_channelsAbove _ _ _
  rw [hnext] at hnotices hnone hsome
  unfold endChannel
  rw [hset]
  refine ⟨⟨?_, fun d m hm => ?_⟩, hnotices⟩
  · have hflags : ∀ d, (takeNextChannel s.liftSignature _).1.failed d = s.failed d := fun d =>
      congrArg (Table.read false · d) hfailed
    cases hn : s.nextOpen p c with
    | none =>
      obtain ⟨hcur, hstate, hgen, hdwell, hprogress⟩ := hnone hn
      exact ⟨hprogram.trans hp, hcur, hstate, hgen, hdwell, fun m => congrArg (Table.read _ · m) hprogress, hflags⟩
    | some n =>
      obtain ⟨hcur, hstate, hgen, hdwell, hprogress⟩ := hsome n hn
      refine ⟨hprogram.trans hp, hcur, hstate, hgen.trans ?_, hdwell, fun m => congrArg (Table.read _ · m) hprogress,
        hflags⟩
      show s.check.program.map _ = _
      rw [hp]; rfl
  · have hpassed := passes_iff (s := s) (p := p) c d m
    rw [hresult d m hm, hmonitors]
    exact ⟨fun h => if_pos (hpassed.mpr h), fun h => if_neg fun k => h (hpassed.mp k)⟩

theorem State.nextOpen_testable {c n : Nat} (h : s.nextOpen p c = some n) : (s.withoutTest n).testable = true := by
  have h := List.find?_some h
  rw [Bool.and_eq_true] at h
  exact h.2

/-- The channel that the check goes on to may be under test, so the end of the event does not preempt it (R75, R80). -/
theorem endChannel_testSound (hp : s.check.program = some p) (c : Nat) : (endChannel s c).1.testSound := by
  rw [State.testSound_iff]
  intro n hn
  obtain ⟨⟨⟨-, hcur, -⟩, -⟩, -⟩ := endChannel_ends hp c
  rw [endChannel_frame]
  exact State.nextOpen_testable (hcur.symm.trans hn)

/-- The event in which a channel ends, settled: the check goes on, and CHECK_DONE, if the check is DONE, stands behind the
SOURCE_CHANGE notices (R26, R78). -/
theorem endChannel_settled (hp : s.check.program = some p) (c : Nat) (before : State) :
    s.endsChannel (settleEvent before [] (endChannel s c).2 (endChannel s c).1) c p (s.nextOpen p c) ∧
      (settleEvent before [] (endChannel s c).2 (endChannel s c).1).link =
        (sourceNotices before (settleEvent before [] (endChannel s c).2 (endChannel s c).1) ++
          s.endNotices (s.nextOpen p c)).foldl Link.raise s.link := by
  obtain ⟨hends, hnotices⟩ := endChannel_ends hp c
  obtain ⟨hcheck, hlink⟩ := settleEvent_unpreempted before [] (endChannel s c).2
    (preemptCheck_sound (endChannel_testSound hp c))
  refine ⟨hends.of_check hcheck, hlink.trans ?_⟩
  rw [hnotices, endChannel_frame, List.nil_append]
end

/-! ### An event of the checker alone -/

/-- A settled event that edits the checker alone leaves the sources formed anew and every other block as it was (R24). -/
theorem settleEvent_checker_keeps {s u : State} (hu : ∃ k, u = { s with check := k }) (before : State)
    (early late : List Notice) :
    s.sourcesFollow (settleEvent before early late u) ∧
      (settleEvent before early late u).arbiter.announcements = s.arbiter.announcements ∧
      (settleEvent before early late u).booths = s.booths ∧ (settleEvent before early late u).turns = s.turns ∧
      s.keepsFleet (settleEvent before early late u) ∧ s.keepsMoney (settleEvent before early late u) ∧
      s.keepsRest (settleEvent before early late u) := by
  obtain ⟨k, rfl⟩ := hu
  refine ⟨⟨settleEvent_settled _ _ _ _, ?_, ?_, ?_⟩, ?_, ?_, ?_, ⟨?_, ?_, ?_⟩, ⟨?_, ?_, ?_⟩, ?_, ?_, ?_, ?_⟩ <;>
    rw [settleEvent_frame]

end Sys2Proof.Machine
end

