-- ==== Sys2Proof/Proofs/CheckRequests.lean ====
section
/-! O26 and O28: START_CHECK and READ_CHECK. -/

namespace Sys2Proof.Machine

/-! ### Monitor sets (R73) -/

/-- Setting the bits of a list for which `p` holds sets those bits and no other. -/
theorem foldl_setBit_getLsbD {w : Nat} (p : Nat → Bool) (ms : List Nat) (acc : BitVec w) {i : Nat} (hi : i < w) :
    (ms.foldl (fun acc m => if p m then acc ||| (1#w <<< m) else acc) acc).getLsbD i =
      (acc.getLsbD i || (decide (i ∈ ms) && p i)) := by
  induction ms generalizing acc with
  | nil => simp
  | cons m ms ih =>
    have hbit : (1#w <<< m).getLsbD i = decide (i = m) := by
      rw [BitVec.getLsbD_shiftLeft, BitVec.getLsbD_one, decide_eq_true hi, decide_eq_true (by omega : 0 < w)]
      rcases Nat.lt_trichotomy i m with h | h | h
      · simp [h, h.ne]
      · simp [h]
      · simp [h.ne', h.not_gt, Nat.sub_ne_zero_of_lt h]
    rw [List.foldl_cons, ih]
    by_cases hp : p m = true
    · rw [if_pos hp, BitVec.getLsbD_or, hbit]
      by_cases him : i = m
      · simp [him, hp]
      · simp [him]
    · rw [if_neg hp]
      by_cases him : i = m
      · simp [him, hp]
      · simp [him]

/-- The positions held are those named that hold a monitor (R73). -/
theorem State.monitorsHeld_eq {s : State} {m held : MonitorSet}
    (h : ∀ p, held.getLsbD p = true ↔ m.getLsbD p = true ∧ s.monitorAt p ≠ none) : s.monitorsHeld m = held := by
  refine BitVec.eq_of_getLsbD_eq fun p hp => Bool.eq_iff_iff.mpr ?_
  rw [h, State.monitorsHeld, monitorSetOf, foldl_setBit_getLsbD _ _ _ hp]
  simp [monitorPositions, hp, Option.isSome_iff_ne_none]

/-! ### START_CHECK (R73, R74) -/

theorem exec_startCheck (tag : Byte) (body : List Byte) (s : State) :
    exec (.startCheck tag body) s = .next (takeRequest s ⟨0x20, tag, body⟩ (serveStartCheck body)) := rfl

/-- The check as an accepted START_CHECK leaves it before its first advance (R74). -/
def State.started (s : State) (p : CheckProgram) : State :=
  { s with check :=
      { s.check with
        state := .running, program := some p, results := [], failed := [], current := none, generator := none,
        dwell := 0, progress := [] } }

/-- A check begins as one whose channel has ended goes on, from below every channel (R74, R75). -/
theorem beginCheck_eq {s : State} {p : CheckProgram} (h0 : p.channels.getLsbD 0 = false) :
    beginCheck s p = settleEvent s [] (endChannel (s.started p) 0).2 (endChannel (s.started p) 0).1 := by
  have hall : (channelsOf p.channels).filter (fun d => decide (0 < d)) = channelsOf p.channels := by
    refine List.filter_eq_self.mpr fun d hd => decide_eq_true (Nat.pos_of_ne_zero ?_)
    rintro rfl
    rw [mem_channelsOf, h0] at hd
    cases hd
  have hend : endChannel (s.started p) 0 = takeNextChannel (s.started p) (channelsOf p.channels) := by
    rw [← hall]; rfl
  rw [hend]; rfl

/-- The first channel of a check is searched among the language channels. -/
theorem State.nextOpen_zero (s : State) (p : CheckProgram) :
    s.nextOpen p 0 = (List.range' 1 31).find? fun d => p.channels.getLsbD d && (s.withoutTest d).testable := by
  have habove : List.range' 1 31 = (List.range' 1 31).filter fun d => decide (0 < d) := by decide
  rw [State.nextOpen, habove, List.find?_filter, List.find?_filter]
  congr 1
  funext d
  cases decide (0 < d) <;> simp

section
variable {set : ChannelSet} {m : MonitorSet} {seed : Code16} {r : Byte} {s : State}

theorem serveStartCheck_refused {t : Status} (h : s.checkRefusal set m = some t) :
    serveStartCheck (be32 set.toNat ++ [m] ++ be16 seed.toNat ++ [r]) s = (s, [t.code]) := by
  have hbytes : ∀ c3 c2 c1 c0 g1 g0 : Byte, setOfBytes c3 c2 c1 c0 = set →
      serveStartCheck [c3, c2, c1, c0, m, g1, g0, r] s = (s, [t.code]) := by
    intro c3 c2 c1 c0 g1 g0 hset
    generalize hb : [c3, c2, c1, c0, m, g1, g0, r] = body
    fun_cases serveStartCheck body s with
    | case1 =>
      rename_i hrefused
      cases hb
      subst hset
      obtain rfl := Option.some.inj (h.symm.trans hrefused)
      rfl
    | case2 =>
      rename_i haccepted _ _
      cases hb
      subst hset
      cases h.symm.trans haccepted
    | case3 =>
      rename_i hform
      exact absurd hb.symm (hform _ _ _ _ _ _ _ _)
  exact hbytes _ _ _ _ _ _ (setOfBytes_be32 set)

theorem serveStartCheck_begun {held : MonitorSet} (h : s.checkRefusal set m = none) (hheld : s.monitorsHeld m = held) :
    serveStartCheck (be32 set.toNat ++ [m] ++ be16 seed.toNat ++ [r]) s =
      (beginCheck s ⟨set, held, seed, clamp 1 16 r.toNat⟩,
        [if r.toNat = clamp 1 16 r.toNat then 0x00 else 0x01, held, byteOf (clamp 1 16 r.toNat)]) := by
  have hstatus : ∀ n k : Nat, (clampStatus (decide (n ≠ k))).code = if k = n then 0x00 else 0x01 := fun n k => by
    by_cases hnk : k = n
    · rw [if_pos hnk, decide_eq_false (not_not.mpr hnk.symm)]; rfl
    · rw [if_neg hnk, decide_eq_true (Ne.symm hnk)]; rfl
  have hbytes : ∀ c3 c2 c1 c0 g1 g0 : Byte, setOfBytes c3 c2 c1 c0 = set → BitVec.ofNat 16 (nat16 g1 g0) = seed →
      serveStartCheck [c3, c2, c1, c0, m, g1, g0, r] s = (beginCheck s ⟨set, held, seed, clamp 1 16 r.toNat⟩,
        [if r.toNat = clamp 1 16 r.toNat then 0x00 else 0x01, held, byteOf (clamp 1 16 r.toNat)]) := by
    intro c3 c2 c1 c0 g1 g0 hset hseed
    generalize hb : [c3, c2, c1, c0, m, g1, g0, r] = body
    fun_cases serveStartCheck body s with
    | case1 =>
      rename_i hrefused
      cases hb
      subst hset
      cases h.symm.trans hrefused
    | case2 =>
      rename_i set' haccepted held' repeats'
      cases hb
      subst hset
      rw [hstatus, hseed, show held' = held from hheld]
    | case3 =>
      rename_i hform
      exact absurd hb.symm (hform _ _ _ _ _ _ _ _)
  refine hbytes _ _ _ _ _ _ (setOfBytes_be32 set) ?_
  rw [nat16_be16 seed.isLt, BitVec.ofNat_toNat, BitVec.setWidth_eq]

theorem namesTest_iff : namesTest set m = true ↔ set ≠ 0 ∧ set.getLsbD 0 = false ∧ m ≠ 0 := by
  simp [namesTest, and_assoc]

theorem State.checkRefusal_range (h : namesTest set m ≠ true) : s.checkRefusal set m = some .range := by
  simp [State.checkRefusal, h]

theorem State.checkRefusal_busy (h : namesTest set m = true) (hrun : s.check.state = .running) :
    s.checkRefusal set m = some .busy := by
  simp [State.checkRefusal, h, hrun]

theorem State.checkRefusal_idle (h : namesTest set m = true) (hrun : s.check.state ≠ .running) :
    s.checkRefusal set m = if s.monitorsHeld m = 0 then some .wrongState else none := by
  simp [State.checkRefusal, h, hrun]

/-- A START_CHECK that none of the checks of R73 refuses begins the check and settles the event (R74, R75). -/
theorem startCheck_begun {tag : Byte} {held : MonitorSet} {p : CheckProgram} {next : Option Nat}
    (h : s.canTake ⟨0x20, tag, be32 set.toNat ++ [m] ++ be16 seed.toNat ++ [r]⟩) (hzero : set.getLsbD 0 = false)
    (haccept : s.checkRefusal set m = none) (hheld : s.monitorsHeld m = held)
    (hp : p = ⟨set, held, seed, clamp 1 16 r.toNat⟩) (hnext : s.nextOpen p 0 = next) :
    ∃ t, exec (.startCheck tag (be32 set.toNat ++ [m] ++ be16 seed.toNat ++ [r])) s = .next t ∧
      (s.started p).endsChannel t 0 p next ∧ s.sourcesFollow t ∧ t.arbiter.announcements = s.arbiter.announcements ∧
      t.booths = s.booths ∧ t.turns = s.turns ∧ s.keepsFleet t ∧ s.keepsMoney t ∧ s.keepsRest t ∧
      s.answeredWith t 0x20 tag
        [if r.toNat = clamp 1 16 r.toNat then 0x00 else 0x01, held, byteOf (clamp 1 16 r.toNat)]
        (sourceNotices s t ++ (s.started p).endNotices next) := by
  subst hnext
  generalize hf : be32 set.toNat ++ [m] ++ be16 seed.toNat ++ [r] = body at h
  set u := s.reserve ⟨0x20, tag, body⟩
  have hserve := serveStartCheck_begun (seed := seed) (r := r) (s := u) haccept hheld
  rw [hf, ← hp, beginCheck_eq (by rw [hp]; exact hzero)] at hserve
  obtain ⟨hends, hlink⟩ := endChannel_settled (s := u.started p) rfl 0 u
  obtain ⟨hsources, hann, hbooths, hturns, hfleet, hmoney, hrest⟩ :=
    settleEvent_checker_keeps (s := u) ⟨_, endChannel_frame (u.started p) 0⟩ u [] (endChannel (u.started p) 0).2
  rw [exec_startCheck, takeRequest_served h hserve]
  exact ⟨_, rfl, hends, hsources, hann, hbooths, hturns, hfleet, hmoney, hrest, State.answeredWith_of hlink⟩
end

/-- Settles O26: the refusals in the order of R73, and the check begun, settled. -/
theorem startCheck : Obligations.StartCheck := by
  unfold Obligations.StartCheck
  rintro tag m r set seed held body s rfl h hheld
  replace hheld := State.monitorsHeld_eq hheld
  have hrefused : ∀ {t : Status}, s.checkRefusal set m = some t →
      exec (.startCheck tag (be32 set.toNat ++ [m] ++ be16 seed.toNat ++ [r])) s =
        .next (s.replied 0x20 tag [t.code]) := fun ht => by
    rw [exec_startCheck, takeRequest_replied h (serveStartCheck_refused ht)]
  refine ⟨fun hbad => hrefused (t := .range) (State.checkRefusal_range ?_), fun hset hzero hm => ?_⟩
  · rw [ne_eq, namesTest_iff]
    rintro ⟨hset, hzero, hm⟩
    rcases hbad with h | h | h
    exacts [hset h, Bool.false_ne_true (hzero.symm.trans h), hm h]
  have hnames : namesTest set m = true := namesTest_iff.mpr ⟨hset, hzero, hm⟩
  refine ⟨fun hrun => hrefused (t := .busy) (State.checkRefusal_busy hnames hrun),
    fun hrun hno => hrefused (t := .wrongState) ?_, fun hrun hsome repeats next hrepeats hnext => ?_⟩
  · rw [State.checkRefusal_idle hnames hrun, hheld, if_pos hno]
  have haccept : s.checkRefusal set m = none := by rw [State.checkRefusal_idle hnames hrun, hheld, if_neg hsome]
  obtain rfl : clamp 1 16 r.toNat = repeats := hrepeats.symm
  obtain ⟨t, hexec, ⟨⟨hprogram, hcurrent, hstate, hgen, hdwell, hprogress, hfailed⟩, hresult⟩, hkeeps⟩ :=
    startCheck_begun h hzero haccept hheld rfl ((State.nextOpen_zero s _).trans hnext.symm)
  refine ⟨t, hexec, hprogram, hcurrent, hstate, hgen, hdwell, hprogress, hfailed, fun c q hq => ?_, hkeeps⟩
  obtain ⟨hpassed, helse⟩ := hresult c q hq
  refine ⟨fun ⟨hbit, hmon, hlt⟩ => hpassed ⟨Nat.pos_of_ne_zero ?_, hbit, hmon, hlt⟩,
    fun hnot => helse fun ⟨_, hbit, hmon, hlt⟩ => hnot ⟨hbit, hmon, hlt⟩⟩
  rintro rfl
  exact Bool.false_ne_true (hzero.symm.trans hbit)

/-! ### READ_CHECK (R82) -/

theorem exec_readCheck (tag : Byte) (body : List Byte) (s : State) :
    exec (.readCheck tag body) s = .next (takeRequest s ⟨0x22, tag, body⟩ (serveReadCheck body)) := rfl

theorem serveReadCheck_nil (s : State) : serveReadCheck [] s = (s, checkBody s) := rfl

theorem checkBody_length (s : State) : (checkBody s).length = 272 := by
  simp [checkBody, List.length_flatMap, monitorPositions, langChannels]

/-- The failure flags as READ_CHECK reports them (R82). -/
theorem State.failedSet_eq {s : State} {flags : ChannelSet}
    (h : ∀ c, flags.getLsbD c = true ↔ 1 ≤ c ∧ c ≤ 31 ∧ s.failed c = true) :
    (setOf fun c => decide (c ≠ 0) && s.failed c) = flags := by
  refine BitVec.eq_of_getLsbD_eq fun c hc => Bool.eq_iff_iff.mpr ?_
  rw [h, setOf_bit]
  simp only [Bool.and_eq_true, decide_eq_true_eq]
  exact ⟨fun ⟨_, hc0, hfailed⟩ => ⟨Nat.pos_of_ne_zero hc0, Nat.le_of_lt_succ hc, hfailed⟩,
    fun ⟨h1, _, hfailed⟩ => ⟨hc, Nat.ne_of_gt h1, hfailed⟩⟩

/-- The program as READ_CHECK reports it: its four figures, each 0 while it is absent (R72, R82). -/
theorem State.checkProgram_figures {s : State} {set : ChannelSet} {monitors : MonitorSet} {seed : Code16} {repeats : Nat}
    (hnone : s.check.program = none → set = 0 ∧ monitors = 0 ∧ seed = 0 ∧ repeats = 0)
    (hsome : ∀ p, s.check.program = some p →
      set = p.channels ∧ monitors = p.monitors ∧ seed = p.seed ∧ repeats = p.repeats) :
    s.checkChannels = set ∧ s.checkMonitors = monitors ∧ s.checkSeed = seed ∧ s.repeats = repeats := by
  unfold State.checkChannels State.checkMonitors State.checkSeed State.repeats
  cases hp : s.check.program with
  | none => obtain ⟨rfl, rfl, rfl, rfl⟩ := hnone hp; exact ⟨rfl, rfl, rfl, rfl⟩
  | some p => obtain ⟨rfl, rfl, rfl, rfl⟩ := hsome p hp; exact ⟨rfl, rfl, rfl, rfl⟩

/-- Settles O28: the body that `serveReadCheck` forms, field by field, and its length. -/
theorem readCheck : Obligations.ReadCheck := by
  unfold Obligations.ReadCheck
  intro tag s set flags monitors seed repeats h hnone hsome hflags
  obtain ⟨hset, hmonitors, hseed, hrepeats⟩ := State.checkProgram_figures hnone hsome
  refine ⟨checkBody s, ?_, ?_, checkBody_length s⟩
  · rw [exec_readCheck, takeRequest_replied h (serveReadCheck_nil _)]
    rfl
  have hstate : s.check.state.code = (match s.check.state with | .idle => 0 | .running => 1 | .done => 2 : Byte) := by
    cases s.check.state <;> rfl
  have hresult : ∀ c m, (s.result c m).code = (match s.result c m with
      | .notRun => 0
      | .pass => 1
      | .miscompare => 2
      | .noReply => 3
      | .preempted => 4
      | .excluded => 5 : Byte) := fun c m => by cases s.result c m <;> rfl
  have hpolls : ∀ m, byteOf (s.pollsTaken m) =
      if s.check.current ≠ none ∧ monitors.getLsbD m = true then byteOf (s.progress m).polls else 0 := fun m => by
    unfold State.pollsTaken
    simp only [hmonitors, Bool.and_eq_true, Option.isSome_iff_ne_none]
    split <;> rfl
  rw [checkBody, hset, hmonitors, hseed, hrepeats, State.failedSet_eq hflags, hstate]
  simp only [hresult, hpolls]
  cases s.check.current <;> rfl

end Sys2Proof.Machine
end

