-- ==== Sys2Proof/Proofs/CheckEnds.lean ====
section
/-! O27: ABORT_CHECK and CHECK_DWELL_EXPIRY. -/

namespace Sys2Proof.Machine

/-! ### ABORT_CHECK (R81) -/

theorem exec_abortCheck (tag : Byte) (body : List Byte) (s : State) :
    exec (.abortCheck tag body) s = .next (takeRequest s ⟨0x21, tag, body⟩ (serveAbortCheck body)) := rfl

theorem serveAbortCheck_still {s : State} (h : s.check.state ≠ .running) : serveAbortCheck [] s = (s, [0x00]) := by
  simp only [serveAbortCheck, abortCheck, if_neg h]; rfl

theorem serveAbortCheck_aborted {s : State} (h : s.check.state = .running) :
    serveAbortCheck [] s = (settleEvent s [] s.abortNotices { s with check := s.abortedCheck }, [0x00]) := by
  simp only [serveAbortCheck, abortCheck, if_pos h, abortCheckState_eq]; rfl

/-- An ABORT_CHECK of a RUNNING check (R81). -/
theorem abortCheck_aborted {tag : Byte} {s : State} (h : s.canTake ⟨0x21, tag, []⟩) (hrun : s.check.state = .running) :
    ∃ t, exec (.abortCheck tag []) s = .next t ∧
      t.check = { s.check with state := .done, current := none, generator := none, dwell := 0, progress := [] } ∧
      s.sourcesFollow t ∧ t.arbiter.announcements = s.arbiter.announcements ∧ t.booths = s.booths ∧
      t.turns = s.turns ∧ s.keepsFleet t ∧ s.keepsMoney t ∧ s.keepsRest t ∧
      s.answeredWith t 0x21 tag [0x00] (sourceNotices s t ++
        [.checkDone true ((List.range' 1 31).filter fun c => s.failed c).length]) := by
  set u := s.reserve ⟨0x21, tag, []⟩
  have hrun' : u.check.state = .running := hrun
  have haborted : u.abortedCheck =
      { s.check with state := .done, current := none, generator := none, dwell := 0, progress := [] } := if_pos hrun
  have hnotices : u.abortNotices = [.checkDone true ((List.range' 1 31).filter fun c => s.failed c).length] := if_pos hrun
  rw [exec_abortCheck, takeRequest_served h (serveAbortCheck_aborted hrun')]
  have hcurrent : ({ u with check := u.abortedCheck } : State).check.current = none := by rw [haborted]
  have hlink := settleEvent_link_none u [] u.abortNotices hcurrent
  have hcheck := settleEvent_check_none u [] u.abortNotices hcurrent
  obtain ⟨hsources, hann, hbooths, hturns, hfleet, hmoney, hrest⟩ :=
    settleEvent_checker_keeps (s := u) ⟨u.abortedCheck, rfl⟩ u [] u.abortNotices
  rw [hnotices, List.nil_append] at hlink
  rw [hnotices] at hcheck hsources hann hbooths hturns hfleet hmoney hrest ⊢
  exact ⟨_, rfl, hcheck.trans haborted, hsources, hann, hbooths, hturns, hfleet, hmoney, hrest,
    State.answeredWith_of hlink⟩

/-! ### Entries that fail (R77, R79) -/

/-- The result of an entry that fails: MISCOMPARE where a mismatch was seen, NO_REPLY elsewhere (R77). -/
def Progress.failure (p : Progress) : CheckResult := if p.mismatch = true then .miscompare else .noReply

section
variable (s : State) (c m : Nat)

theorem failEntry_result {n : Nat} (hm : m < 8) (hn : n < 8) (d : Nat) :
    (failEntry s c m).result d n = if d = c ∧ n = m then (s.progress m).failure else s.result d n :=
  State.result_setResult s c m d n _ hm hn

theorem failEntry_failed (d : Nat) : (failEntry s c m).failed d = if d = c then true else s.failed d :=
  State.failed_setFailed (s.setResult c m (s.progress m).failure) c d

theorem failEntry_progress (n : Nat) : (failEntry s c m).progress n = s.progress n := rfl
end

/-- The open entries of channel `c` at a list of positions fail, and with one of them the channel (R77, R79). -/
theorem failOpen_entries (c : Nat) {ms : List Nat} (h8 : ∀ m ∈ ms, m < 8) (s : State) :
    (∀ d n, n < 8 →
      (ms.foldl (fun t m => if t.result c m = .notRun then failEntry t c m else t) s).result d n =
        if d = c ∧ n ∈ ms ∧ s.result c n = .notRun then (s.progress n).failure else s.result d n) ∧
    ∀ d, (ms.foldl (fun t m => if t.result c m = .notRun then failEntry t c m else t) s).failed d = true ↔
      s.failed d = true ∨ d = c ∧ ∃ m ∈ ms, s.result c m = .notRun := by
  induction ms generalizing s with
  | nil => simp
  | cons m ms ih =>
    have hm := h8 m List.mem_cons_self
    have ih := fun u => ih (fun x hx => h8 x (List.mem_cons_of_mem _ hx)) u
    rw [List.foldl_cons]
    by_cases hopen : s.result c m = .notRun
    · rw [if_pos hopen]
      obtain ⟨hresult, hfailed⟩ := ih (failEntry s c m)
      have hone : ∀ d n, n < 8 → (failEntry s c m).result d n =
          if d = c ∧ n = m then (s.progress m).failure else s.result d n := fun d n hn => failEntry_result s c m hm hn d
      have hset : (s.progress m).failure ≠ .notRun := by unfold Progress.failure; split <;> decide
      refine ⟨fun d n hn => ?_, fun d => ?_⟩
      · rw [hresult d n hn, hone c n hn, hone d n hn, failEntry_progress]
        by_cases hnm : n = m
        · subst hnm
          by_cases hd : d = c <;> simp [hd, hset, hopen]
        · simp [hnm]
      · rw [hfailed, failEntry_failed]
        by_cases hd : d = c
        · simp [hd, hopen]
        · simp [hd]
    · rw [if_neg hopen]
      obtain ⟨hresult, hfailed⟩ := ih s
      refine ⟨fun d n hn => ?_, fun d => ?_⟩
      · rw [hresult d n hn]
        by_cases hnm : n = m
        · subst hnm; simp [hopen]
        · simp [hnm]
      · rw [hfailed]
        simp [hopen]

/-! ### CHECK_DWELL_EXPIRY (R79) -/

/-- The open entries of channel `c` have failed in `u`, and with one of them the channel (R79). -/
def State.failsOpen (s u : State) (c : Nat) (p : CheckProgram) : Prop :=
  (∀ d n, n < 8 → u.result d n =
    if d = c ∧ p.monitors.getLsbD n = true ∧ s.result c n = .notRun then (s.progress n).failure else s.result d n) ∧
  ∀ d, u.failed d = true ↔
    s.failed d = true ∨ d = c ∧ ∃ m, m < 8 ∧ p.monitors.getLsbD m = true ∧ s.result c m = .notRun

/-- The expiry of a dwell fails the open entries, and ends the channel in a settled event (R79). -/
theorem dwellSecond_expires {s : State} {c : Nat} {p : CheckProgram} (hc : s.check.current = some c)
    (hdwell : s.check.dwell ≤ 1) (hp : s.check.program = some p) :
    ∃ u k, u = { s with check := k } ∧ k.program = some p ∧ k.state = s.check.state ∧ s.failsOpen u c p ∧
      dwellSecond s.check.placements s = settleEvent { s with check := { s.check with dwell := 0 } } []
        (endChannel u c).2 (endChannel u c).1 := by
  set v : State := { s with check := { s.check with dwell := 0 } } with hv
  have hmonitors : v.checkMonitors = p.monitors := by unfold State.checkMonitors; rw [hv, hp]; rfl
  have hsecond : dwellSecond s.check.placements s = expireDwell v c := by
    have hzero : s.check.dwell - 1 = 0 := by omega
    unfold dwellSecond
    simp only [hc, hzero, if_true, hv]
  have hmem := mem_positionsOf p.monitors
  obtain ⟨hresult, hfailed⟩ := failOpen_entries c (fun m hm => ((hmem m).mp hm).1) v
  obtain ⟨⟨r, f, g, hu⟩, -⟩ := failOpen_scores c (positionsOf p.monitors) v
  unfold expireDwell at hsecond
  rw [hmonitors] at hsecond
  refine ⟨_, _, hu, hp, rfl, ⟨fun d n hn => ?_, fun d => ?_⟩, hsecond⟩
  · rw [hresult d n hn]
    simp only [hmem, hn, true_and]
    rfl
  · rw [hfailed]
    simp only [hmem, and_assoc]
    rfl

/-- Settles O27: the abort and the expiry of the dwell, each one settled event of the checker, and no effect elsewhere. -/
theorem checkEnds : Obligations.CheckEnds := by
  unfold Obligations.CheckEnds
  refine ⟨fun tag s h => ⟨fun hrun => ?_, fun hrun => abortCheck_aborted h hrun⟩, fun s => ⟨fun hoff => ?_, ?_⟩⟩
  · rw [exec_abortCheck, takeRequest_replied h (serveAbortCheck_still (by exact hrun))]
  · rw [exec_checkDwellExpiry, if_neg]
    rw [Bool.and_eq_true, Option.isSome_iff_ne_none, decide_eq_true_eq]
    exact fun ⟨hcur, hdwell⟩ => hoff.elim hcur (Nat.not_lt.mpr hdwell)
  rintro c p next hc hdwell hp hnext
  obtain ⟨u, k, hu, hprog, hkstate, ⟨hopenResult, hopenFailed⟩, hsecond⟩ := dwellSecond_expires hc hdwell hp
  obtain rfl : u.nextOpen p c = next := by rw [hnext, hu]; rfl
  obtain ⟨⟨⟨hprogram, hcurrent, hstate, hgen, hdwell', hprogress, hfailed⟩, hresult⟩, hlink⟩ :=
    endChannel_settled (s := u) (by rw [hu]; exact hprog) c { s with check := { s.check with dwell := 0 } }
  obtain ⟨hsources, hann, hbooths, hturns, hfleet, hmoney, hrest⟩ :=
    settleEvent_checker_keeps (s := s) (u := (endChannel u c).1) ⟨_, (endChannel_frame u c).trans (by rw [hu])⟩
      { s with check := { s.check with dwell := 0 } } [] (endChannel u c).2
  rw [exec_checkDwellExpiry, if_pos (by simp [hc, hdwell]), hsecond]
  refine ⟨_, rfl, hprogram, hcurrent, hstate.trans (by rw [hu, ← hkstate]), hgen, hdwell', hprogress, fun m hm => ?_,
    fun d m hd hm => ?_, ?_, fun d hd => ?_, hsources, hann, hbooths, hturns, hfleet, hmoney, hrest, State.raised_of ?_⟩
  · have hnot : ¬p.passes c (u.nextOpen p c) c m := fun h => Nat.lt_irrefl c h.1
    rw [(hresult c m hm).2 hnot, hopenResult c m hm]
    exact ⟨fun ⟨hmon, hopen⟩ => if_pos ⟨rfl, hmon, hopen⟩, fun h => if_neg fun k => h k.2⟩
  · have hkept : u.result d m = s.result d m := (hopenResult d m hm).trans (if_neg fun k => hd k.1)
    rw [← hkept]
    exact hresult d m hm
  · rw [hfailed, hopenFailed]
    simp
  · rw [hfailed]
    refine Bool.eq_iff_iff.mpr ((hopenFailed d).trans ?_)
    simp [hd]
  · simp only [hfailed]
    rw [show s.link = u.link by rw [hu]]
    exact hlink

end Sys2Proof.Machine
end

