-- ==== Sys2Proof/Proofs/MonitorPolls.lean ====
section
/-! O29: the completed polls of a monitor, in time and late. -/

namespace Sys2Proof.Machine

/-! ### A completed poll of a monitor (R107, R111, R112) -/

/-- The poll in flight is over, and its receiver `r` holds `e` (R107). -/
def State.polled (s : State) (r : Nat) (e : Receiver) : State := (s.setInFlight none).setReceiver r e

/-- The state in which the reply of the monitor polled has been heard (R108, R111). -/
def State.heardPoll (s : State) (r tuned band : Nat) : State := s.polled r ((s.receiver r).heard s.now tuned band)

/-- The state in which the miss of the monitor polled has been counted (R112). -/
def State.missedPoll (s : State) (r : Nat) : State :=
  s.polled r { s.receiver r with misses := (s.receiver r).missed }

/-- What a reply to a decode request brings the checker: the signature heard, or none (R76). -/
def PollOutcome.ofReply : Option Code16 → PollOutcome
  | some x => .code x
  | none => .noCode

section
variable {s : State} {r : Nat} {q : DecodeRequest}

theorem State.takesPoll_monitor (hmem : r ∈ s.beacon.l3.members) : s.takesPoll ⟨r, .l3, none, some q⟩ = true :=
  (Bool.and_true _).trans (decide_eq_true hmem)

/-- A reply of the monitor polled is heard, and passed to the checker (R107, R108, R111). -/
theorem exec_beaconReply_monitor (hin : s.beacon.inFlight = some ⟨r, .l3, none, some q⟩) (hmem : r ∈ s.beacon.l3.members)
    {tuned band : Nat} (htuned : tuned ≤ 31) (hband : band ≤ 7) (x : Option Code16) :
    exec (.beaconReply r tuned band x) s =
      .next (passToChecker (s.heardPoll r tuned band) ⟨r, .l3, none, some q⟩ (.ofReply x)) := by
  have hanswered : InFlight.answeredBy ⟨r, .l3, none, some q⟩ r tuned band = true := by
    simp [InFlight.answeredBy, htuned, hband]
  show execBeaconReply r tuned band x s = _
  unfold execBeaconReply
  rw [hin]
  dsimp only
  rw [if_pos hanswered]
  unfold completeReply
  dsimp only
  rw [if_pos (State.takesPoll_monitor hmem)]
  cases x <;> rfl

/-- A miss of the monitor polled is counted, and passed to the checker (R107, R112). -/
theorem exec_beaconMiss_monitor (hin : s.beacon.inFlight = some ⟨r, .l3, none, some q⟩)
    (hmem : r ∈ s.beacon.l3.members) :
    exec .beaconMiss s = .next (passToChecker (s.missedPoll r) ⟨r, .l3, none, some q⟩ .miss) := by
  show execBeaconMiss s = _
  unfold execBeaconMiss
  rw [hin]
  dsimp only
  unfold completeMiss
  dsimp only
  rw [if_pos (State.takesPoll_monitor hmem)]
  rfl

theorem passToChecker_placed {m : Nat} (hm : s.positionOf r = some m) (e : Receiver) (o : PollOutcome) :
    passToChecker (s.polled r e) ⟨r, .l3, none, some q⟩ o = checkPoll (s.polled r e) m q o := by
  have hpolled : (s.polled r e).positionOf r = some m := hm
  unfold passToChecker; rw [hpolled]

theorem passToChecker_unplaced (h : s.positionOf r = none) (e : Receiver) (o : PollOutcome) :
    passToChecker (s.polled r e) ⟨r, .l3, none, some q⟩ o = s.polled r e := by
  have hpolled : (s.polled r e).positionOf r = none := h
  unfold passToChecker; rw [hpolled]

theorem State.positionOf_lt {m : Nat} (h : s.positionOf r = some m) : m < 8 :=
  List.mem_range.mp (List.mem_of_find?_eq_some h)
end

/-! ### The entry a poll is for (R77) -/

section
variable {s : State} {c m : Nat}

theorem pollEntry_match {g : Code16} (hg : s.check.generator = some g) :
    pollEntry s c m (.ofReply (some g)) = s.setResult c m .pass := if_pos hg

theorem pollEntry_mismatch {g : Code16} {x : Option Code16} (hg : s.check.generator = some g) (hx : x ≠ some g) :
    pollEntry s c m (.ofReply x) = countPoll s c m true := by
  cases x with
  | none => rfl
  | some y => exact if_neg fun h => hx (h.symm.trans hg)

theorem pollEntry_miss : pollEntry s c m .miss = countPoll s c m false := rfl

theorem State.repeats_eq {p : CheckProgram} (hp : s.check.program = some p) : s.repeats = p.repeats := by
  unfold State.repeats; rw [hp]; rfl

/-- A poll counted below the repeats leaves the entry open (R77). -/
theorem countPoll_counts {p : CheckProgram} (hp : s.check.program = some p) (h : (s.progress m).polls + 1 < p.repeats)
    (b : Bool) :
    countPoll s c m b = s.setProgress m ⟨(s.progress m).polls + 1, (s.progress m).mismatch || b⟩ :=
  if_neg (by rw [State.repeats_eq hp]; exact Nat.not_le.mpr h)

/-- The poll that reaches the repeats fails the entry and its channel (R77). -/
theorem countPoll_fails {p : CheckProgram} (hp : s.check.program = some p) (h : p.repeats ≤ (s.progress m).polls + 1)
    (b : Bool) :
    countPoll s c m b = ((s.setProgress m ⟨(s.progress m).polls + 1, (s.progress m).mismatch || b⟩).setResult c m
      (Progress.failure ⟨(s.progress m).polls + 1, (s.progress m).mismatch || b⟩)).setFailed c := by
  have hprogress : ∀ q, (s.setProgress m q).progress m = q := fun q =>
    (State.progress_setProgress s m m q).trans (if_pos rfl)
  unfold countPoll
  dsimp only
  rw [if_pos (by rw [State.repeats_eq hp]; exact h), failEntry, hprogress]
  rfl

/-- `t` is `s` with the result `v` entered for position `m` on channel `c`, and the channel failed unless `v` is PASS
(R77). -/
def State.enters (s t : State) (c m : Nat) (v : CheckResult) : Prop :=
  (∀ d n, n < 8 → t.result d n = if d = c ∧ n = m then v else s.result d n) ∧
    ∀ d, t.failed d = (s.failed d || (decide (d = c) && decide (v ≠ .pass)))

theorem setResult_pass_enters (hm : m < 8) : s.enters (s.setResult c m .pass) c m .pass :=
  ⟨fun d n hn => State.result_setResult s c m d n .pass hm hn, fun d => by simp; rfl⟩

theorem countPoll_enters {p : CheckProgram} (hp : s.check.program = some p) (h : p.repeats ≤ (s.progress m).polls + 1)
    (hm : m < 8) (b : Bool) :
    s.enters (countPoll s c m b) c m (Progress.failure ⟨(s.progress m).polls + 1, (s.progress m).mismatch || b⟩) := by
  rw [countPoll_fails hp h]
  refine ⟨fun d n hn => State.result_setResult (s.setProgress m _) c m d n _ hm hn, fun d => ?_⟩
  have hfail : ∀ q : Progress, q.failure ≠ .pass := fun q => by unfold Progress.failure; split <;> decide
  rw [State.failed_setFailed, decide_eq_true (hfail _), Bool.and_true]
  by_cases hd : d = c
  · simp [hd]
  · simp [hd]; rfl

theorem countPoll_result_ne {n : Nat} (hm : m < 8) (hn : n < 8) (hne : n ≠ m) (b : Bool) (d : Nat) :
    (countPoll s c m b).result d n = s.result d n := by
  unfold countPoll
  dsimp only
  split
  · exact (failEntry_result _ c m hm hn d).trans (if_neg fun h => hne h.2)
  · rfl

/-- A poll touches no other position's entry. -/
theorem pollEntry_result_ne {n : Nat} (hm : m < 8) (hn : n < 8) (hne : n ≠ m) (o : PollOutcome) (d : Nat) :
    (pollEntry s c m o).result d n = s.result d n := by
  unfold pollEntry
  split
  · split
    · exact (State.result_setResult s c m d n .pass hm hn).trans (if_neg fun h => hne h.2)
    · exact countPoll_result_ne hm hn hne true d
  · exact countPoll_result_ne hm hn hne true d
  · exact countPoll_result_ne hm hn hne false d

theorem pollEntry_settled_iff {p : CheckProgram} (hp : s.check.program = some p) (o : PollOutcome) :
    (pollEntry s c m o).channelSettled c = true ↔
      ∀ n, n < 8 → p.monitors.getLsbD n = true → (pollEntry s c m o).result c n ≠ .notRun := by
  have hmonitors : (pollEntry s c m o).checkMonitors = p.monitors := by
    obtain ⟨⟨x, f, g, h⟩, -⟩ := pollEntry_scores s c m o
    unfold State.checkMonitors; rw [h, hp]; rfl
  unfold State.channelSettled
  simp only [hmonitors, List.all_eq_true, mem_positionsOf, decide_eq_true_eq, and_imp]

/-! ### The check and a completed poll (R76 to R78) -/

/-- A poll for a test that is over, or for an entry already settled, is nothing to the checker (R76). -/
theorem checkPoll_late {q : DecodeRequest} (h : s.check.current ≠ some q.channel ∨ s.check.placements ≠ q.placement ∨
    s.result q.channel m ≠ .notRun) (o : PollOutcome) : checkPoll s m q o = s :=
  if_neg fun ⟨hcur, hplaced, hopen⟩ =>
    h.elim (fun k => k hcur) fun k => k.elim (fun k => k hplaced) fun k => k hopen

section
variable {p : CheckProgram} (hcur : s.check.current = some c) (hp : s.check.program = some p)
  (hopen : s.result c m = .notRun)
include hcur hp hopen

/-- While another entry is open a poll is for its own entry alone (R77). -/
theorem checkPoll_open {n : Nat} (hm : m < 8) (hn : n < 8) (hne : n ≠ m) (hmon : p.monitors.getLsbD n = true)
    (hother : s.result c n = .notRun) (o : PollOutcome) :
    checkPoll s m ⟨c, s.check.placements⟩ o = pollEntry s c m o := by
  unfold checkPoll
  rw [if_pos ⟨hcur, rfl, hopen⟩]
  dsimp only
  rw [if_neg]
  rw [pollEntry_settled_iff hp]
  exact fun h => h n hn hmon ((pollEntry_result_ne hm hn hne o c).trans hother)

/-- The poll that settles the last open entry ends the channel (R78). -/
theorem checkPoll_last {o : PollOutcome} {v : CheckResult} (henters : s.enters (pollEntry s c m o) c m v)
    (hv : v ≠ .notRun)
    (hothers : ∀ n, n < 8 → n ≠ m → p.monitors.getLsbD n = true → s.result c n ≠ .notRun) :
    checkPoll s m ⟨c, s.check.placements⟩ o = settleEvent s [] (endChannel (pollEntry s c m o) c).2
      (endChannel (pollEntry s c m o) c).1 := by
  unfold checkPoll
  rw [if_pos ⟨hcur, rfl, hopen⟩]
  dsimp only
  rw [if_pos]
  refine (pollEntry_settled_iff hp o).mpr fun n hn hmon => ?_
  rw [henters.1 c n hn]
  by_cases hne : n = m
  · rw [if_pos ⟨rfl, hne⟩]; exact hv
  · rw [if_neg fun h => hne h.2]; exact hothers n hn hne hmon
end
end

/-- The poll that settles the last open entry with `v`: what it leaves, and the notices of its event (R77, R78). -/
theorem checkPoll_last_settled {u : State} {c m : Nat} {p : CheckProgram} {o : PollOutcome} {v : CheckResult}
    (hcur : u.check.current = some c) (hp : u.check.program = some p) (hopen : u.result c m = .notRun)
    (henters : u.enters (pollEntry u c m o) c m v) (hv : v ≠ .notRun)
    (hothers : ∀ n, n < 8 → n ≠ m → p.monitors.getLsbD n = true → u.result c n ≠ .notRun) :
    ∃ t w, checkPoll u m ⟨c, u.check.placements⟩ o = t ∧ u.enters w c m v ∧ w.endsChannel t c p (u.nextOpen p c) ∧
      w.check.state = u.check.state ∧
      t.link = (sourceNotices u t ++ w.endNotices (u.nextOpen p c)).foldl Link.raise u.link ∧
      u.sourcesFollow t ∧ t.arbiter.announcements = u.arbiter.announcements ∧ t.booths = u.booths ∧
      t.turns = u.turns ∧ u.keepsFleet t ∧ u.keepsMoney t ∧ u.keepsRest t := by
  rw [checkPoll_last hcur hp hopen henters hv hothers]
  obtain ⟨⟨x, f, g, hw⟩, -⟩ := pollEntry_scores u c m o
  generalize pollEntry u c m o = w at *
  have hprogram : w.check.program = some p := by rw [hw]; exact hp
  obtain ⟨hends, hlink⟩ := endChannel_settled hprogram c u
  have hkeeps := settleEvent_checker_keeps (s := u) (u := (endChannel w c).1) ⟨_, (endChannel_frame w c).trans (by rw [hw])⟩
    u [] (endChannel w c).2
  have hnext : w.nextOpen p c = u.nextOpen p c := by rw [hw]; rfl
  rw [hnext] at hends hlink
  exact ⟨_, w, rfl, henters, hends, by rw [hw], hlink.trans (by rw [hw]), hkeeps⟩

/-! ### The polls of O29 -/

section
variable {s : State} {r m c tuned band : Nat} {p : CheckProgram} {g : Code16}

section
variable (hin : s.beacon.inFlight = some ⟨r, .l3, none, some ⟨c, s.check.placements⟩⟩) (hmem : r ∈ s.beacon.l3.members)
  (hpos : s.positionOf r = some m)
include hin hmem hpos

/-- A reply in time of the monitor at position `m` is the checker's. -/
theorem exec_beaconReply_inTime (htuned : tuned ≤ 31) (hband : band ≤ 7) (x : Option Code16) :
    exec (.beaconReply r tuned band x) s =
      .next (checkPoll (s.heardPoll r tuned band) m ⟨c, s.check.placements⟩ (.ofReply x)) := by
  rw [exec_beaconReply_monitor hin hmem htuned hband, State.heardPoll, passToChecker_placed hpos]

/-- A miss in time of the monitor at position `m` is the checker's. -/
theorem exec_beaconMiss_inTime :
    exec .beaconMiss s = .next (checkPoll (s.missedPoll r) m ⟨c, s.check.placements⟩ .miss) := by
  rw [exec_beaconMiss_monitor hin hmem, State.missedPoll, passToChecker_placed hpos]

/-- The poll of the last open entry settles it with `v`: the signature with PASS, and the poll that reaches the repeats
with the failure (R77). -/
theorem lastPoll_enters {i : Instr} {v : CheckResult} {e : Receiver} (hp : s.check.program = some p)
    (hg : s.check.generator = some g) (htuned : tuned ≤ 31) (hband : band ≤ 7)
    (hcase : (e = (s.receiver r).heard s.now tuned band ∧
        ((v = .pass ∧ i = .beaconReply r tuned band (some g)) ∨
          (v = .miscompare ∧ p.repeats ≤ (s.progress m).polls + 1 ∧ ∃ x, x ≠ some g ∧ i = .beaconReply r tuned band x))) ∨
      (e = { s.receiver r with misses := (s.receiver r).missed } ∧ v = (s.progress m).failure ∧
        p.repeats ≤ (s.progress m).polls + 1 ∧ i = .beaconMiss)) :
    ∃ o, exec i s = .next (checkPoll (s.polled r e) m ⟨c, s.check.placements⟩ o) ∧
      (s.polled r e).enters (pollEntry (s.polled r e) c m o) c m v ∧ v ≠ .notRun := by
  have hm := State.positionOf_lt hpos
  rcases hcase with ⟨rfl, ⟨rfl, rfl⟩ | ⟨rfl, hreached, x, hx, rfl⟩⟩ | ⟨rfl, rfl, hreached, rfl⟩
  · refine ⟨_, exec_beaconReply_inTime hin hmem hpos htuned hband _, ?_, by decide⟩
    rw [pollEntry_match (s := s.polled r _) hg]
    exact setResult_pass_enters hm
  · refine ⟨_, exec_beaconReply_inTime hin hmem hpos htuned hband _, ?_, by decide⟩
    rw [pollEntry_mismatch (s := s.polled r _) hg hx]
    have h := countPoll_enters (s := s.polled r ((s.receiver r).heard s.now tuned band)) (c := c) hp hreached hm true
    rw [Bool.or_true] at h
    exact h
  · refine ⟨_, exec_beaconMiss_inTime hin hmem hpos, ?_, by unfold Progress.failure; split <;> decide⟩
    have h := countPoll_enters (s := s.missedPoll r) (c := c) hp hreached hm false
    rw [Bool.or_false] at h
    exact h
end

/-- A late poll, or one of a receiver at no position, is nothing to the checker (R76, R107). -/
theorem passToChecker_late {q : DecodeRequest} (h : s.check.current ≠ some q.channel ∨
      s.check.placements ≠ q.placement ∨ s.positionOf r = none ∨
      ∃ m, s.positionOf r = some m ∧ s.result q.channel m ≠ .notRun) (e : Receiver) (o : PollOutcome) :
    passToChecker (s.polled r e) ⟨r, .l3, none, some q⟩ o = s.polled r e := by
  cases hpos : s.positionOf r with
  | none => exact passToChecker_unplaced hpos e o
  | some m =>
    rw [passToChecker_placed hpos]
    refine checkPoll_late (s := s.polled r e) ?_ o
    rcases h with h | h | h | ⟨n, hn, h⟩
    · exact .inl h
    · exact .inr (.inl h)
    · rw [hpos] at h; cases h
    · obtain rfl := Option.some.inj (hpos.symm.trans hn)
      exact .inr (.inr h)
end

/-- Settles O29: a poll for an open entry among others, the poll that settles the last one, and the late polls. -/
theorem monitorPolls : Obligations.MonitorPolls := by
  unfold Obligations.MonitorPolls
  refine ⟨?_, ?_, ?_⟩
  · rintro r m n c tuned band p g x s u hcur hp hg hin hmem hpos hmon hopen hne hn hmonn hother htuned hband rfl
    have hentry : ∀ e o, checkPoll (s.polled r e) m ⟨c, s.check.placements⟩ o = pollEntry (s.polled r e) c m o := fun e o =>
      checkPoll_open (s := s.polled r e) hcur hp hopen (State.positionOf_lt hpos) hn hne hmonn hother o
    have hreply : ∀ x, exec (.beaconReply r tuned band x) s =
        .next (pollEntry (s.heardPoll r tuned band) c m (.ofReply x)) := fun x => by
      rw [exec_beaconReply_inTime hin hmem hpos htuned hband, State.heardPoll, hentry]
    have hcounted : ∀ x, x ≠ some g → exec (.beaconReply r tuned band x) s =
        .next (countPoll (s.heardPoll r tuned band) c m true) := fun x hx => by
      rw [hreply, pollEntry_mismatch (s := s.heardPoll r tuned band) hg hx]
    have hmiss : exec .beaconMiss s = .next (countPoll (s.missedPoll r) c m false) := by
      rw [exec_beaconMiss_inTime hin hmem hpos, State.missedPoll, hentry, pollEntry_miss]
    have hdiffers : ∀ {x}, x ≠ g → some x ≠ some g := fun hx h => hx (Option.some.inj h)
    refine ⟨?_, fun hbelow => ?_, fun hreached => ?_⟩
    · rw [hreply, pollEntry_match (s := s.heardPoll r tuned band) hg]
      rfl
    · have hheard := countPoll_counts (s := s.heardPoll r tuned band) (c := c) (m := m) hp hbelow true
      have hmissed := countPoll_counts (s := s.missedPoll r) (c := c) (m := m) hp hbelow false
      rw [Bool.or_true] at hheard
      rw [Bool.or_false] at hmissed
      exact ⟨fun hx => (hcounted _ (hdiffers hx)).trans (congrArg _ hheard),
        (hcounted _ (Option.some_ne_none g).symm).trans (congrArg _ hheard), hmiss.trans (congrArg _ hmissed)⟩
    · have hheard := countPoll_fails (s := s.heardPoll r tuned band) (c := c) (m := m) hp hreached true
      have hmissed := countPoll_fails (s := s.missedPoll r) (c := c) (m := m) hp hreached false
      rw [Bool.or_true] at hheard
      rw [Bool.or_false] at hmissed
      exact ⟨fun hx => (hcounted _ (hdiffers hx)).trans (congrArg _ hheard),
        (hcounted _ (Option.some_ne_none g).symm).trans (congrArg _ hheard), hmiss.trans (congrArg _ hmissed)⟩
  · intro r m c tuned band p g i v e next s hcur hp hg hin hmem hpos hm hmon hopen hothers htuned hband hcase hnext
    obtain ⟨o, hexec, henters, hv⟩ := lastPoll_enters hin hmem hpos hp hg htuned hband hcase
    obtain ⟨t, w, ht, ⟨hentered, hflags⟩,
        ⟨⟨hprogram, hcurrent, hstate, hgen, hdwell, hprogress, hfailed⟩, hresult⟩, hwstate, hlink, hsources, hann, hbooths,
        hturns, ⟨hracks, hfleet, hbeacon⟩, hmoney, hrest⟩ :=
      checkPoll_last_settled (u := s.polled r e) hcur hp hopen henters hv hothers
    obtain rfl : (s.polled r e).nextOpen p c = next := hnext.symm
    have hreceiver : ∀ q, t.receiver q = if q = r then e else s.receiver q := fun q => by
      rw [← State.receiver_setReceiver]; unfold State.receiver; rw [hfleet]; rfl
    have hflag : ∀ d, t.failed d = (s.failed d || (decide (d = c) && decide (v ≠ .pass))) := fun d =>
      (hfailed d).trans (hflags d)
    have hcurrentEntry : ∀ n, n < 8 → t.result c n = if n = m then v else s.result c n := fun n hn => by
      rw [(hresult c n hn).2 fun h => Nat.lt_irrefl c h.1, hentered c n hn]
      simp only [true_and]; rfl
    refine ⟨t, hexec.trans (congrArg _ ht), (hcurrentEntry m hm).trans (if_pos rfl),
      fun n hn hne => (hcurrentEntry n hn).trans (if_neg hne), by rw [hflag]; simp, fun d hd => by rw [hflag]; simp [hd],
      fun d n hd hn => ?_, hprogram, hcurrent, hstate.trans (by rw [hwstate]; rfl), hgen, hdwell, hprogress,
      (hreceiver r).trans (if_pos rfl), fun q hq => (hreceiver q).trans (if_neg hq), by rw [hfleet]; rfl, hracks, hbeacon,
      hsources, hann, hbooths, hturns, hmoney, hrest, State.raised_of ?_⟩
    · have hkept : w.result d n = s.result d n := (hentered d n hn).trans (if_neg fun h => hd h.1)
      rw [← hkept]
      exact hresult d n hn
    · simp only [hfailed]
      exact hlink
  · intro r tuned band q x s hin hmem htuned hband hlate
    rw [exec_beaconReply_monitor hin hmem htuned hband, exec_beaconMiss_monitor hin hmem, State.heardPoll,
      State.missedPoll, passToChecker_late hlate, passToChecker_late hlate]
    exact ⟨rfl, rfl⟩

end Sys2Proof.Machine
end

