-- ==== Sys2Proof/Proofs/Monitors.lean ====
section
/-! O31: SET_MONITOR and CLEAR_MONITOR. -/

namespace Sys2Proof.Machine

/-! ### A receiver released from a position (R96) -/

theorem Receiver.restState_eq (e : Receiver) : e.restState = if e.location = none then .unknown else .docked := by
  unfold Receiver.restState
  cases e.location <;> rfl

/-- In `t` the receiver that position `p` holds in `s`, if any, is DOCKED or UNKNOWN and off L3, and nothing else has
changed; the position is left as it was (R96). -/
def State.releases (s t : State) (p : Nat) : Prop :=
  (∀ q, t.receiver q =
    if s.monitorAt p = some q then
      { s.receiver q with state := if (s.receiver q).location = none then .unknown else .docked }
    else s.receiver q) ∧
  ((s.monitorAt p = none → t.beacon.l3 = s.beacon.l3) ∧ ∀ m, s.monitorAt p = some m → s.beacon.l3.loses m t.beacon.l3) ∧
  ∃ rs l, t = { s with fleet := { s.fleet with receivers := rs }, beacon := { s.beacon with l3 := l } }

theorem releaseMonitor_releases (s : State) (p : Nat) : s.releases (releaseMonitor s p) p := by
  unfold releaseMonitor
  cases hm : s.monitorAt p with
  | none => exact ⟨fun q => by rw [hm]; rfl, ⟨fun _ => rfl, fun m h => by rw [hm] at h; cases h⟩, _, _, rfl⟩
  | some m =>
    refine ⟨fun q => ?_, ⟨fun h => (by rw [hm] at h; cases h), fun n hn => ?_⟩, _, _, rfl⟩
    · rw [State.receiver_setReceiver, Receiver.restState_eq, hm]
      by_cases hq : q = m
      · subst hq; rw [if_pos rfl, if_pos rfl]; rfl
      · rw [if_neg hq, if_neg fun h => hq (Option.some.inj h).symm]; rfl
    · obtain rfl := Option.some.inj (hm.symm.trans hn)
      exact s.beacon.l3.leave_loses m

/-! ### A receiver placed at a position (R95) -/

section
variable {s : State} {p q r : Nat}

theorem State.monitorAt_positionOf (h : s.positionOf r = some q) : s.monitorAt q = some r := by
  have hholds := List.find?_some (p := fun p => decide (s.monitorAt p = some r)) h
  exact of_decide_eq_true hholds

/-- Receiver `r` joins L3 as MONITOR, and a STRAY one leaves L1 (R95, R102). -/
def admitMonitor (s : State) (r : Nat) : State :=
  let u := if (s.receiver r).state = .stray then leaveList s .l1 r else s
  joinList (u.setReceiver r { u.receiver r with state := .monitor }) .l3 r

theorem placeMonitor_same (h : s.monitorAt p = some r) : placeMonitor s p r = s := if_pos h

theorem placeMonitor_moved (h : s.monitorAt p ≠ some r) (hq : s.positionOf r = some q) :
    placeMonitor s p r = ((releaseMonitor s p).setMonitorAt q none).setMonitorAt p (some r) := by
  unfold placeMonitor
  rw [if_neg h, hq]

theorem placeMonitor_new (h : s.monitorAt p ≠ some r) (hq : s.positionOf r = none) :
    placeMonitor s p r = (admitMonitor (releaseMonitor s p) r).setMonitorAt p (some r) := by
  unfold placeMonitor
  rw [if_neg h, hq]
  rfl

theorem admitMonitor_receiver (s : State) (r q : Nat) :
    (admitMonitor s r).receiver q =
      if q = r then { s.receiver r with state := .monitor, misses := 0 } else s.receiver q := by
  have hjoin : ∀ u : State, u.fleet = s.fleet → (joinList (u.setReceiver r { u.receiver r with state := .monitor }) .l3
      r).receiver q = if q = r then { s.receiver r with state := .monitor, misses := 0 } else s.receiver q := fun u hu => by
    have hreceiver : u.receiver = s.receiver := by unfold State.receiver; rw [hu]
    unfold joinList
    rw [State.receiver_setReceiver, State.receiver_setReceiver, if_pos rfl, hreceiver]
    by_cases hq : q = r
    · rw [if_pos hq, if_pos hq]
    · rw [if_neg hq, if_neg hq]
      exact (State.receiver_setReceiver u r q _).trans ((if_neg hq).trans (congrFun hreceiver q))
  unfold admitMonitor
  dsimp only
  split
  exacts [hjoin _ rfl, hjoin s rfl]

theorem admitMonitor_frame (s : State) (r : Nat) :
    ∃ rs, admitMonitor s r = { s with
      fleet := { s.fleet with receivers := rs }
      beacon := { s.beacon with
        l1 := if (s.receiver r).state = .stray then s.beacon.l1.leave r else s.beacon.l1
        l3 := s.beacon.l3.join r } } := by
  unfold admitMonitor
  dsimp only
  split <;> exact ⟨_, rfl⟩

/-- Receiver `r`, which stood at no position, or at another, is at position `p` in `t`, and the receiver that `p` held is
released (R95). -/
def State.places (s t : State) (p r : Nat) : Prop :=
  t.monitorAt p = some r ∧
    (∀ q, q ≠ p → s.positionOf r ≠ some q → t.monitorAt q = s.monitorAt q) ∧
    (∀ q, s.positionOf r = some q → t.monitorAt q = none ∧ t.receiver r = s.receiver r) ∧
    (s.positionOf r = none → t.receiver r = { s.receiver r with state := .monitor, misses := 0 }) ∧
    (∀ m, s.monitorAt p = some m → t.receiver m =
      { s.receiver m with state := if (s.receiver m).location = none then .unknown else .docked }) ∧
    (∀ q, q ≠ r → s.monitorAt p ≠ some q → t.receiver q = s.receiver q) ∧
    (∃ l3 : PollList, (s.monitorAt p = none → l3 = s.beacon.l3) ∧
      (∀ m, s.monitorAt p = some m → s.beacon.l3.loses m l3) ∧
      (s.positionOf r = none → l3.gains r t.beacon.l3) ∧ (s.positionOf r ≠ none → t.beacon.l3 = l3)) ∧
    ((s.positionOf r = none ∧ (s.receiver r).state = .stray) → s.beacon.l1.loses r t.beacon.l1) ∧
    (¬(s.positionOf r = none ∧ (s.receiver r).state = .stray) → t.beacon.l1 = s.beacon.l1) ∧
    (t.beacon = { s.beacon with l1 := t.beacon.l1, l3 := t.beacon.l3 } ∧ t.racks = s.racks)

/-- A receiver that moves from another position stays in L3 as it is (R95). -/
theorem placeMonitor_moved_places (h : s.monitorAt p ≠ some r) (hq : s.positionOf r = some q) :
    s.places (placeMonitor s p r) p r := by
  obtain ⟨hreceiver, ⟨hkept, hlost⟩, rs, l, ht⟩ := releaseMonitor_releases s p
  have hpq : q ≠ p := by rintro rfl; exact h (State.monitorAt_positionOf hq)
  rw [placeMonitor_moved h hq]
  generalize releaseMonitor s p = t at *
  have hat : ∀ x, ((t.setMonitorAt q none).setMonitorAt p (some r)).monitorAt x =
      if x = p then some r else if x = q then none else s.monitorAt x := fun x => by
    rw [State.monitorAt_setMonitorAt, State.monitorAt_setMonitorAt, ht]; rfl
  refine ⟨(hat p).trans (if_pos rfl), fun x hx hr => ?_, fun x hx => ⟨?_, (hreceiver r).trans (if_neg h)⟩,
    fun hno => ?_, fun m hm => (hreceiver m).trans (if_pos hm), fun x _ hx => (hreceiver x).trans (if_neg hx),
    ⟨_, hkept, hlost, fun hno => ?_, fun _ => rfl⟩, fun hno => ?_, fun _ => ?_, ?_, ?_⟩
  · rw [hat, if_neg hx, if_neg fun e : x = q => hr (by rw [hq, e])]
  · obtain rfl := Option.some.inj (hq.symm.trans hx)
    rw [hat, if_neg hpq, if_pos rfl]
  · rw [hq] at hno; cases hno
  · rw [hq] at hno; cases hno
  · rw [hq] at hno; cases hno.1
  all_goals rw [ht]; rfl

/-- A receiver that stood at no position joins L3 as MONITOR, and a STRAY one leaves L1 (R95). -/
theorem placeMonitor_new_places (h : s.monitorAt p ≠ some r) (hno : s.positionOf r = none) :
    s.places (placeMonitor s p r) p r := by
  obtain ⟨hreceiver, ⟨hkept, hlost⟩, rs, l, ht⟩ := releaseMonitor_releases s p
  rw [placeMonitor_new h hno]
  generalize releaseMonitor s p = t at *
  have hr : t.receiver r = s.receiver r := (hreceiver r).trans (if_neg h)
  have hadmit := admitMonitor_receiver t r
  obtain ⟨rs', hframe⟩ := admitMonitor_frame t r
  rw [hr] at hframe hadmit
  generalize admitMonitor t r = u at *
  have hat : ∀ x, (u.setMonitorAt p (some r)).monitorAt x = if x = p then some r else s.monitorAt x := fun x => by
    rw [State.monitorAt_setMonitorAt, hframe, ht]; rfl
  have hothers : ∀ x, x ≠ r → (u.setMonitorAt p (some r)).receiver x = t.receiver x := fun x hx =>
    (hadmit x).trans (if_neg hx)
  have hl1 : (u.setMonitorAt p (some r)).beacon.l1 =
      if (s.receiver r).state = .stray then s.beacon.l1.leave r else s.beacon.l1 := by
    show u.beacon.l1 = _; rw [hframe, ht]
  refine ⟨(hat p).trans (if_pos rfl), fun x hx _ => (hat x).trans (if_neg hx), fun x hx => ?_,
    fun _ => (hadmit r).trans (if_pos rfl), fun m hm => ?_, fun x hx hnot => (hothers x hx).trans ?_,
    ⟨t.beacon.l3, hkept, hlost, fun _ => ?_, fun hsome => absurd hno hsome⟩, fun hstray => ?_, fun hnot => ?_, ?_, ?_⟩
  · rw [hno] at hx; cases hx
  · exact (hothers m fun e => h (e ▸ hm)).trans ((hreceiver m).trans (if_pos hm))
  · exact (hreceiver x).trans (if_neg hnot)
  · show t.beacon.l3.gains r u.beacon.l3
    rw [hframe]
    exact t.beacon.l3.join_gains r
  · rw [hl1, if_pos hstray.2]
    exact s.beacon.l1.leave_loses r
  · rw [hl1, if_neg fun hs => hnot ⟨hno, hs⟩]
  all_goals rw [hframe, ht]; rfl

theorem placeMonitor_places (h : s.monitorAt p ≠ some r) : s.places (placeMonitor s p r) p r := by
  cases hq : s.positionOf r with
  | none => exact placeMonitor_new_places h hq
  | some q => exact placeMonitor_moved_places h hq
end

/-! ### What monitors leave alone -/

/-- `t` is `s` but for the receivers, the monitor positions and the beacon. -/
def State.onlyMonitors (s t : State) : Prop := ∃ f b, t = { s with fleet := f, beacon := b }

theorem releaseMonitor_only (s : State) (p : Nat) : s.onlyMonitors (releaseMonitor s p) := by
  obtain ⟨-, -, rs, l, ht⟩ := releaseMonitor_releases s p
  exact ⟨_, _, ht⟩

theorem State.onlyMonitors.setMonitorAt {s t : State} (h : s.onlyMonitors t) (p : Nat) (r : Option Nat) :
    s.onlyMonitors (t.setMonitorAt p r) := by
  obtain ⟨f, b, rfl⟩ := h; exact ⟨_, _, rfl⟩

theorem placeMonitor_only (s : State) (p r : Nat) : s.onlyMonitors (placeMonitor s p r) := by
  by_cases h : s.monitorAt p = some r
  · rw [placeMonitor_same h]; exact ⟨_, _, rfl⟩
  cases hq : s.positionOf r with
  | none =>
    rw [placeMonitor_new h hq]
    obtain ⟨rs, hframe⟩ := admitMonitor_frame (releaseMonitor s p) r
    obtain ⟨f, b, hrelease⟩ := releaseMonitor_only s p
    exact State.onlyMonitors.setMonitorAt ⟨_, _, by rw [hframe, hrelease]⟩ p _
  | some q =>
    rw [placeMonitor_moved h hq]
    exact ((releaseMonitor_only s p).setMonitorAt q none).setMonitorAt p _

/-- A request whose service touches monitors alone is answered without a notice, and the rest is kept. -/
theorem State.onlyMonitors.answered {s t : State} {k tag : Byte} {b body : List Byte}
    (h : (s.reserve ⟨k, tag, b⟩).onlyMonitors t) :
    s.keepsAudio (t.putReply ⟨k, tag, b⟩ body) ∧ s.keepsMoney (t.putReply ⟨k, tag, b⟩ body) ∧
      s.keepsRest (t.putReply ⟨k, tag, b⟩ body) ∧ s.answeredWith (t.putReply ⟨k, tag, b⟩ body) k tag body [] := by
  obtain ⟨f, c, rfl⟩ := h
  exact ⟨⟨rfl, rfl, rfl, rfl, rfl⟩, ⟨rfl, rfl, rfl⟩, ⟨rfl, rfl, rfl, rfl⟩, State.answeredWith_of rfl⟩

/-! ### SET_MONITOR (R95) -/

theorem exec_setMonitor (tag : Byte) (body : List Byte) (s : State) :
    exec (.setMonitor tag body) s = .next (takeRequest s ⟨0x2A, tag, body⟩ (serveSetMonitor body)) := rfl

section
variable {p : Byte} {r : Nat} {s : State}

theorem serveSetMonitor_refused (hr : r < 65536) {t : Status} (h : s.monitorRefusal p.toNat r = some t) :
    serveSetMonitor (p :: be16 r) s = (s, [t.code]) := by
  simp only [be16, serveSetMonitor, nat16_be16 hr, h]; rfl

theorem serveSetMonitor_placed (hr : r < 65536) (h : s.monitorRefusal p.toNat r = none) :
    serveSetMonitor (p :: be16 r) s = (placeMonitor s p.toNat r, [0x00]) := by
  simp only [be16, serveSetMonitor, nat16_be16 hr, h]; rfl

theorem ReceiverState.placeable_iff (x : ReceiverState) :
    x.placeable = true ↔ ¬(x = .reserved ∨ x = .out ∨ x = .silent ∨ x = .lost) := by
  cases x <;> decide

theorem State.monitorRefusal_range {n : Nat} (h : 7 < n ∨ 4095 < r) : s.monitorRefusal n r = some .range := if_pos h

theorem State.monitorRefusal_busy {n : Nat} (h : ¬(7 < n ∨ 4095 < r)) (hrun : s.check.state = .running) :
    s.monitorRefusal n r = some .busy := (if_neg h).trans (if_pos hrun)

theorem State.monitorRefusal_idle {n : Nat} (h : ¬(7 < n ∨ 4095 < r)) (hrun : s.check.state ≠ .running) :
    s.monitorRefusal n r = if (s.receiver r).state.placeable = true then none else some .notAvailable := by
  unfold State.monitorRefusal
  rw [if_neg h, if_neg hrun]
  cases (s.receiver r).state.placeable <;> rfl
end

/-! ### CLEAR_MONITOR (R96) -/

theorem exec_clearMonitor (tag : Byte) (body : List Byte) (s : State) :
    exec (.clearMonitor tag body) s = .next (takeRequest s ⟨0x2B, tag, body⟩ (serveClearMonitor body)) := rfl

section
variable {p : Byte} {s : State}

theorem serveClearMonitor_range (h : 7 < p.toNat) : serveClearMonitor [p] s = (s, [0x03]) := if_pos h

theorem serveClearMonitor_busy (h : p.toNat ≤ 7) (hrun : s.check.state = .running) :
    serveClearMonitor [p] s = (s, [0x02]) := (if_neg (Nat.not_lt.mpr h)).trans (if_pos hrun)

theorem serveClearMonitor_cleared (h : p.toNat ≤ 7) (hrun : s.check.state ≠ .running) :
    serveClearMonitor [p] s = (clearMonitorAt s p.toNat, [0x00]) := (if_neg (Nat.not_lt.mpr h)).trans (if_neg hrun)

theorem clearMonitorAt_empty {n : Nat} (h : s.monitorAt n = none) : clearMonitorAt s n = s := if_pos h

theorem clearMonitorAt_held {n m : Nat} (h : s.monitorAt n = some m) :
    clearMonitorAt s n = (releaseMonitor s n).setMonitorAt n none := if_neg (by rw [h]; exact Option.some_ne_none m)

/-- An accepted CLEAR_MONITOR of a position that holds a receiver (R96). -/
theorem clearMonitor_cleared {tag : Byte} {m : Nat} (h : s.canTake ⟨0x2B, tag, [p]⟩) (hp : p.toNat ≤ 7)
    (hrun : s.check.state ≠ .running) (hm : s.monitorAt p.toNat = some m) :
    ∃ t, exec (.clearMonitor tag [p]) s = .next t ∧
      t.monitorAt p.toNat = none ∧ (∀ q, q ≠ p.toNat → t.monitorAt q = s.monitorAt q) ∧
      t.receiver m = { s.receiver m with state := if (s.receiver m).location = none then .unknown else .docked } ∧
      (∀ q, q ≠ m → t.receiver q = s.receiver q) ∧ s.beacon.l3.loses m t.beacon.l3 ∧
      (t.beacon = { s.beacon with l3 := t.beacon.l3 } ∧ t.racks = s.racks) ∧
      s.keepsAudio t ∧ s.keepsMoney t ∧ s.keepsRest t ∧ s.answeredWith t 0x2B tag [0x00] [] := by
  set u := s.reserve ⟨0x2B, tag, [p]⟩
  have hm' : u.monitorAt p.toNat = some m := hm
  obtain ⟨hreceiver, ⟨-, hlost⟩, rs, l, ht⟩ := releaseMonitor_releases u p.toNat
  have hkeeps := State.onlyMonitors.answered (body := [0x00]) ((releaseMonitor_only u p.toNat).setMonitorAt p.toNat none)
  rw [exec_clearMonitor, takeRequest_served h (serveClearMonitor_cleared hp hrun), clearMonitorAt_held hm']
  generalize releaseMonitor u p.toNat = t at *
  have hat : ∀ q, (t.setMonitorAt p.toNat none).monitorAt q = if q = p.toNat then none else s.monitorAt q := fun q => by
    rw [State.monitorAt_setMonitorAt, ht]; rfl
  refine ⟨_, rfl, (hat _).trans (if_pos rfl), fun q hq => (hat q).trans (if_neg hq), (hreceiver m).trans (if_pos hm'),
    fun q hq => (hreceiver q).trans (if_neg fun e => hq (Option.some.inj (e.symm.trans hm'))), hlost m hm', ⟨?_, ?_⟩,
    hkeeps⟩ <;> rw [ht] <;> rfl
end

/-- Settles O31: the refusals in order, the placement of R95 in its forms, and the release of R96. -/
theorem monitors : Obligations.Monitors := by
  unfold Obligations.Monitors
  refine ⟨fun tag p r s hr h => ?_, fun tag p s h => ⟨fun hp => ?_, fun hp hrun => ?_, fun hp hrun => ⟨fun hm => ?_,
    fun m hm => clearMonitor_cleared h hp hrun hm⟩⟩⟩
  · have hrefused : ∀ {t : Status}, s.monitorRefusal p.toNat r = some t →
        exec (.setMonitor tag (p :: be16 r)) s = .next (s.replied 0x2A tag [t.code]) := fun ht => by
      rw [exec_setMonitor, takeRequest_replied h (serveSetMonitor_refused hr ht)]
    refine ⟨fun hbad => hrefused (t := .range) (State.monitorRefusal_range hbad), fun hp hr' => ?_⟩
    have hrange : ¬(7 < p.toNat ∨ 4095 < r) := by omega
    refine ⟨fun hrun => hrefused (t := .busy) (State.monitorRefusal_busy hrange hrun), fun hrun => ?_⟩
    have hidle := State.monitorRefusal_idle (s := s) hrange hrun
    refine ⟨fun hheld => hrefused (t := .notAvailable) (hidle.trans (if_neg ?_)), fun hfree => ?_⟩
    · rw [ReceiverState.placeable_iff]; exact not_not.mpr hheld
    have haccept : s.monitorRefusal p.toNat r = none := hidle.trans (if_pos (by
      rcases hfree with h | h | h | h | h <;> rw [h] <;> rfl))
    have hserve := serveSetMonitor_placed (s := s.reserve ⟨0x2A, tag, p :: be16 r⟩) hr haccept
    refine ⟨fun hsame => ?_, fun hother => ?_⟩
    · rw [exec_setMonitor, takeRequest_replied h (hserve.trans (by rw [placeMonitor_same (by exact hsame)]))]
    · rw [exec_setMonitor, takeRequest_served h hserve]
      obtain ⟨hat, hats, hmoved, hnew, hreleased, hreceivers, hl3, hstray, hl1, hrest⟩ :=
        placeMonitor_places (s := s.reserve ⟨0x2A, tag, p :: be16 r⟩) hother
      exact ⟨_, rfl, hat, hats, hmoved, hnew, hreleased, hreceivers, hl3, hstray, hl1, hrest,
        State.onlyMonitors.answered (placeMonitor_only _ _ _)⟩
  · rw [exec_clearMonitor, takeRequest_replied h (serveClearMonitor_range hp)]
  · rw [exec_clearMonitor, takeRequest_replied h (serveClearMonitor_busy hp (by exact hrun))]
  · rw [exec_clearMonitor, takeRequest_replied h ((serveClearMonitor_cleared hp (by exact hrun)).trans
      (by rw [clearMonitorAt_empty (by exact hm)]))]

end Sys2Proof.Machine
end

