-- ==== Sys2Proof/Proofs/FleetReads.lean ====
section
/-! O30: READ_RECEIVER and READ_RACK. -/

namespace Sys2Proof.Machine

/-! ### READ_RECEIVER (R99) -/

theorem exec_readReceiver (tag : Byte) (body : List Byte) (s : State) :
    exec (.readReceiver tag body) s = .next (takeRequest s ⟨0x28, tag, body⟩ (serveReadReceiver body)) := rfl

section
variable {r : Nat} {s : State}

theorem serveReadReceiver_read (hr : r ≤ 4095) : serveReadReceiver (be16 r) s = (s, receiverBody s r) := by
  simp only [be16, serveReadReceiver, nat16_be16 (show r < 65536 by omega), if_pos hr]

theorem serveReadReceiver_range (hr : r < 65536) (h : 4095 < r) : serveReadReceiver (be16 r) s = (s, [0x03]) := by
  simp only [be16, serveReadReceiver, nat16_be16 hr, if_neg (Nat.not_le.mpr h)]; rfl

theorem optional32_length (x : Option Nat) : (optional32 x).length = 5 := by cases x <;> rfl

theorem receiverBody_length (s : State) (r : Nat) : (receiverBody s r).length = 25 := by
  simp [receiverBody, optional32_length]

/-- A receiver stands at the first of the eight positions that holds it (R95). -/
theorem State.positionOf_first {p : Nat} (h : s.positionOf r = some p) :
    p ≤ 7 ∧ s.monitorAt p = some r ∧ ∀ q, q < p → s.monitorAt q ≠ some r := by
  obtain ⟨-, -, hfirst⟩ := List.find?_range_eq_some.mp h
  exact ⟨Nat.le_of_lt_succ (State.positionOf_lt h), State.monitorAt_positionOf h, by simpa using hfirst⟩

/-- A receiver at no position is held by none of the eight (R95). -/
theorem State.positionOf_absent (h : s.positionOf r = none) {p : Nat} (hp : p ≤ 7) : s.monitorAt p ≠ some r := by
  have hnone := List.find?_eq_none.mp h p (List.mem_range.mpr (Nat.lt_succ_of_le hp))
  simpa using hnone

/-- The position byte of READ_RECEIVER (R99). -/
theorem State.positionByte_eq {position : Byte}
    (hheld : ∀ p, p ≤ 7 → s.monitorAt p = some r → (∀ q, q < p → s.monitorAt q ≠ some r) → position = byteOf p)
    (habsent : (∀ p, p ≤ 7 → s.monitorAt p ≠ some r) → position = 0xFF) :
    byteOf ((s.positionOf r).getD 255) = position := by
  cases h : s.positionOf r with
  | none => exact (habsent fun _ => State.positionOf_absent h).symm
  | some p =>
    obtain ⟨hp, hat, hfirst⟩ := State.positionOf_first h
    exact (hheld p hp hat hfirst).symm
end

/-! ### READ_RACK (R100) -/

theorem exec_readRack (tag : Byte) (body : List Byte) (s : State) :
    exec (.readRack tag body) s = .next (takeRequest s ⟨0x29, tag, body⟩ (serveReadRack body)) := rfl

theorem isRack_iff {k : Nat} : isRack k = true ↔ 1 ≤ k ∧ k ≤ 16 := by simp [isRack]

/-- The reply of READ_RACK: the state of the rack's unit and its 48 slot records (R100). -/
def rackBody (s : State) (k : Byte) : List Byte :=
  [0x00, k, (s.unit (24 + k.toNat)).state.code] ++ allSlots.flatMap fun x => slotRecord s ⟨k.toNat, x⟩

section
variable {k : Byte} {s : State}

theorem serveReadRack_read (h1 : 1 ≤ k.toNat) (h16 : k.toNat ≤ 16) : serveReadRack [k] s = (s, rackBody s k) :=
  if_pos (isRack_iff.mpr ⟨h1, h16⟩)

theorem serveReadRack_range (h : k.toNat = 0 ∨ 16 < k.toNat) : serveReadRack [k] s = (s, [0x03]) :=
  if_neg (by rw [isRack_iff]; omega)

theorem slotRecord_length (s : State) (l : Location) : (slotRecord s l).length = 3 := by
  unfold slotRecord; split <;> rfl

theorem rackBody_length (s : State) (k : Byte) : (rackBody s k).length = 147 := by
  simp [rackBody, List.length_flatMap, slotRecord_length, allSlots]
end

/-- Settles O30: the two bodies, field by field, their lengths, and the refusals. -/
theorem readReceiverAndRack : Obligations.ReadReceiverAndRack := by
  unfold Obligations.ReadReceiverAndRack
  refine ⟨fun tag r s hr h => ⟨fun hbad => ?_, fun e position hr' he hheld habsent => ?_⟩,
    fun tag k s h => ⟨fun hbad => ?_, fun h1 h16 => ?_⟩⟩
  · rw [exec_readReceiver, takeRequest_replied h (serveReadReceiver_range hr hbad)]
  · refine ⟨receiverBody s r, ?_, ?_, receiverBody_length s r⟩
    · rw [exec_readReceiver, takeRequest_replied h (serveReadReceiver_read hr')]; rfl
    have hstate : e.state.code = (match e.state with
        | .unknown => 1
        | .docked => 2
        | .reserved => 3
        | .out => 4
        | .silent => 5
        | .stray => 6
        | .lost => 7
        | .monitor => 8
        | .withdrawn => 9 : Byte) := by cases e.state <;> rfl
    have hoptional : ∀ x : Option Nat,
        optional32 x = (match x with | none => 0 :: be32 0 | some n => 1 :: be32 n : List Byte) := by
      rintro (_ | n) <;> rfl
    rw [receiverBody, State.positionByte_eq hheld habsent, ← he, hstate, hoptional, hoptional]
    cases e.location <;> cases e.tuned <;> cases e.hire <;> rfl
  · rw [exec_readRack, takeRequest_replied h (serveReadRack_range hbad)]
  · refine ⟨rackBody s k, ?_, ?_, rackBody_length s k⟩
    · rw [exec_readRack, takeRequest_replied h (serveReadRack_read h1 h16)]; rfl
    have hstate : ∀ x : UnitState, x.code = (match x with | .unseen => 0 | .present => 1 | .lost => 2 : Byte) := by
      rintro (_ | _ | _) <;> rfl
    have hrecord : ∀ x, slotRecord s ⟨k.toNat, x⟩ = (match s.slot ⟨k.toNat, x⟩ with
        | none => [0xFF, 0xFF, 0]
        | some r => be16 r ++ [byteOf (s.receiver r).band] : List Byte) := fun x => by
      unfold slotRecord
      cases s.slot ⟨k.toNat, x⟩ <;> rfl
    rw [rackBody, hstate]
    simp only [hrecord]
    rfl

end Sys2Proof.Machine
end

