-- ==== Sys2Proof/Proofs/Withdrawals.lean ====
section
/-! O32: WITHDRAW_RECEIVER and RESTORE_RECEIVER. -/

namespace Sys2Proof.Machine

theorem exec_withdrawReceiver (tag : Byte) (body : List Byte) (s : State) :
    exec (.withdrawReceiver tag body) s = .next (takeRequest s ⟨0x2C, tag, body⟩ (serveWithdrawReceiver body)) := rfl

theorem exec_restoreReceiver (tag : Byte) (body : List Byte) (s : State) :
    exec (.restoreReceiver tag body) s = .next (takeRequest s ⟨0x2D, tag, body⟩ (serveRestoreReceiver body)) := rfl

section
variable {r : Nat} {s : State}

/-! ### WITHDRAW_RECEIVER (R97) -/

theorem serveWithdrawReceiver_range (hr : r < 65536) (h : 4095 < r) :
    serveWithdrawReceiver (be16 r) s = (s, [0x03]) := by
  simp only [be16, serveWithdrawReceiver, nat16_be16 hr, if_neg (Nat.not_le.mpr h)]; rfl

theorem serveWithdrawReceiver_inRange (h : r ≤ 4095) :
    serveWithdrawReceiver (be16 r) s = withdrawReceiver s r := by
  simp only [be16, serveWithdrawReceiver, nat16_be16 (show r < 65536 by omega), if_pos h]

theorem withdrawReceiver_idle
    (h : (s.receiver r).state = .unknown ∨ (s.receiver r).state = .docked ∨ (s.receiver r).state = .lost) :
    withdrawReceiver s r = (withdraw s r, [0x00]) := by
  unfold withdrawReceiver
  rcases h with h | h | h <;> rw [h] <;> rfl

theorem withdrawReceiver_stray (h : (s.receiver r).state = .stray) :
    withdrawReceiver s r = (withdraw (leaveList s .l1 r) r, [0x00]) := by
  unfold withdrawReceiver; rw [h]; rfl

theorem withdrawReceiver_withdrawn (h : (s.receiver r).state = .withdrawn) :
    withdrawReceiver s r = (s, [0x00]) := by
  unfold withdrawReceiver; rw [h]; rfl

theorem withdrawReceiver_inUse (h : (s.receiver r).state = .reserved ∨ (s.receiver r).state = .out ∨
    (s.receiver r).state = .silent ∨ (s.receiver r).state = .monitor) : withdrawReceiver s r = (s, [0x05]) := by
  unfold withdrawReceiver
  rcases h with h | h | h | h <;> rw [h] <;> rfl

/-! ### RESTORE_RECEIVER (R98) -/

theorem serveRestoreReceiver_range (hr : r < 65536) (h : 4095 < r) :
    serveRestoreReceiver (be16 r) s = (s, [0x03]) := by
  simp only [be16, serveRestoreReceiver, nat16_be16 hr, if_neg (Nat.not_le.mpr h)]; rfl

theorem serveRestoreReceiver_inRange (h : r ≤ 4095) : serveRestoreReceiver (be16 r) s = restoreReceiver s r := by
  simp only [be16, serveRestoreReceiver, nat16_be16 (show r < 65536 by omega), if_pos h]

theorem restoreReceiver_withdrawn (h : (s.receiver r).state = .withdrawn) :
    restoreReceiver s r = (s.setReceiver r { s.receiver r with
      state := if (s.receiver r).location = none then .unknown else .docked }, [0x00]) := by
  unfold restoreReceiver
  rw [if_pos h, Receiver.restState_eq]; rfl

theorem restoreReceiver_refused (h : (s.receiver r).state ≠ .withdrawn) : restoreReceiver s r = (s, [0x10]) :=
  if_neg h
end

/-- Settles O32: each service by the receiver's state, and the refusals. -/
theorem withdrawAndRestore : Obligations.WithdrawAndRestore := by
  unfold Obligations.WithdrawAndRestore
  refine fun tag r s hr => ⟨fun h => ⟨fun hbad => ?_, fun hr' => ⟨fun hidle => ?_, fun hstray => ?_, fun hgone => ?_,
    fun huse => ?_⟩⟩, fun h => ⟨fun hbad => ?_, fun hr' => ⟨fun hgone => ?_, fun hheld => ?_⟩⟩⟩
  · rw [exec_withdrawReceiver, takeRequest_replied h (serveWithdrawReceiver_range hr hbad)]
  · rw [exec_withdrawReceiver, takeRequest_served h ((serveWithdrawReceiver_inRange hr').trans
      (withdrawReceiver_idle hidle))]
    exact congrArg _ (reserve_putReply (withdraw s r) _ _ _ _)
  · refine ⟨_, s.beacon.l1.leave_loses r, ?_⟩
    rw [exec_withdrawReceiver, takeRequest_served h ((serveWithdrawReceiver_inRange hr').trans
      (withdrawReceiver_stray hstray))]
    exact congrArg _ (reserve_putReply (withdraw (leaveList s .l1 r) r) _ _ _ _)
  · rw [exec_withdrawReceiver, takeRequest_replied h ((serveWithdrawReceiver_inRange hr').trans
      (withdrawReceiver_withdrawn hgone))]
  · rw [exec_withdrawReceiver, takeRequest_replied h ((serveWithdrawReceiver_inRange hr').trans
      (withdrawReceiver_inUse huse))]
  · rw [exec_restoreReceiver, takeRequest_replied h (serveRestoreReceiver_range hr hbad)]
  · rw [exec_restoreReceiver, takeRequest_served h ((serveRestoreReceiver_inRange hr').trans
      (restoreReceiver_withdrawn hgone))]
    exact congrArg _ (reserve_putReply (s.setReceiver r _) _ _ _ _)
  · rw [exec_restoreReceiver, takeRequest_replied h ((serveRestoreReceiver_inRange hr').trans
      (restoreReceiver_refused hheld))]

end Sys2Proof.Machine
end

