-- ==== Sys2Proof/Proofs/RackReports.lean ====
section
/-! O33 and O34: what an UNDOCK, a DOCK and a BATTERY make of the state, each said once by the state of its receiver. -/

namespace Sys2Proof.Machine

/-! ### Receivers written and listed -/

section
variable (s : State) (r : Nat) (e : Receiver)

theorem State.receiver_set_same : (s.setReceiver r e).receiver r = e :=
  (State.receiver_setReceiver s r r e).trans (if_pos rfl)

theorem State.setReceiver_twice (d : Receiver) : (s.setReceiver r d).setReceiver r e = s.setReceiver r e := by
  simp [State.setReceiver]

/-- Every receiver but the one written is kept. -/
theorem State.receiver_set_ne {q : Nat} (h : q ≠ r) : (s.setReceiver r e).receiver q = s.receiver q :=
  (State.receiver_setReceiver s r q e).trans (if_neg h)

/-- A receiver that has just been written joins a list with its miss count 0 (R102). -/
theorem joinList_written (i : ListId) :
    joinList (s.setReceiver r e) i r =
      (s.setPollList i ((s.pollList i).join r)).setReceiver r { e with misses := 0 } := by
  unfold joinList
  rw [State.receiver_set_same]
  exact State.setReceiver_twice (s.setPollList i ((s.pollList i).join r)) r _ _

/-- A state written over a slot just filled stands with the slot's location and band (R89). -/
theorem fillSlot_receiver (l : Location) (band : Nat) :
    (fillSlot s l r band).receiver r = { s.receiver r with location := some l, band := band } :=
  State.receiver_set_same _ r _

theorem fillSlot_setReceiver (l : Location) (band : Nat) :
    (fillSlot s l r band).setReceiver r e = (s.setSlot l (some r)).setReceiver r e := State.setReceiver_twice _ r e _
end

/-! ### The unit that has answered (R165) -/

section
variable (s : State) (u : Nat)

@[simp] theorem unitReply_link : (unitReply s u).link = s.link := rfl
@[simp] theorem unitReply_plan : (unitReply s u).plan = s.plan := rfl
@[simp] theorem unitReply_arbiter : (unitReply s u).arbiter = s.arbiter := rfl
@[simp] theorem unitReply_booths : (unitReply s u).booths = s.booths := rfl
@[simp] theorem unitReply_turns : (unitReply s u).turns = s.turns := rfl
@[simp] theorem unitReply_check : (unitReply s u).check = s.check := rfl
@[simp] theorem unitReply_racks : (unitReply s u).racks = s.racks := rfl
@[simp] theorem unitReply_fleet : (unitReply s u).fleet = s.fleet := rfl
@[simp] theorem unitReply_beacon : (unitReply s u).beacon = s.beacon := rfl
@[simp] theorem unitReply_hires : (unitReply s u).hires = s.hires := rfl
@[simp] theorem unitReply_money : (unitReply s u).money = s.money := rfl
@[simp] theorem unitReply_meters : (unitReply s u).meters = s.meters := rfl
@[simp] theorem unitReply_clock : (unitReply s u).clock = s.clock := rfl
@[simp] theorem unitReply_limits : (unitReply s u).limits = s.limits := rfl
@[simp] theorem unitReply_pending : (unitReply s u).pending = s.pending := rfl
@[simp] theorem unitReply_receiver : (unitReply s u).receiver = s.receiver := rfl
@[simp] theorem unitReply_slot : (unitReply s u).slot = s.slot := rfl
@[simp] theorem unitReply_hire : (unitReply s u).hire = s.hire := rfl
@[simp] theorem unitReply_lowMark : (unitReply s u).lowMark = s.lowMark := rfl
end

/-! ### UNDOCK (R88) -/

/-- Slot `l` is empty, and its receiver `r` has no location (R86). -/
def State.emptied (s : State) (l : Location) (r : Nat) : State :=
  (s.setSlot l none).setReceiver r { s.receiver r with location := none }

/-- Receiver `r`, gone from slot `l`, is STRAY in L1 (R88, R102). -/
def State.strayed (s : State) (l : Location) (r : Nat) : State :=
  ((s.setSlot l none).setPollList .l1 (s.beacon.l1.join r)).setReceiver r
    { s.receiver r with location := none, state := .stray, misses := 0 }

/-- Receiver `r`, drawn from slot `l`, is OUT in L0 with no tuned channel and no battery-low mark (R88, R102, R114). -/
def State.drawn (s : State) (l : Location) (r : Nat) : State :=
  (((s.setSlot l none).setPollList .l0 (s.beacon.l0.join r)).setReceiver r
    { s.receiver r with location := none, state := .out, tuned := none, misses := 0 }).setLowMark r false

/-- A hire that begins now (R125). -/
def State.begun (s : State) (h : Hire) (rec : Bool) : Hire :=
  { h with state := .active s.now s.clock.degradedCount, reconciled := h.reconciled || rec }

/-- A hire that begins with an undock of a reply, and not of an inventory (R125). -/
theorem State.begun_plain (s : State) (h : Hire) :
    s.begun h false = { h with state := .active s.clock.seconds s.clock.degradedCount } := by
  unfold State.begun; rw [Bool.or_false]; rfl

section
variable {s : State} {l : Location} {r : Nat}

theorem undock_empty (h : s.slot l = none) (rec : Bool) : undock s l rec = s := by unfold undock; rw [h]

theorem undock_held (h : s.slot l = some r) (rec : Bool) :
    undock s l rec = undockState (s.emptied l r) l r rec := by unfold undock; rw [h]; rfl

theorem State.emptied_receiver : (s.emptied l r).receiver r = { s.receiver r with location := none } :=
  State.receiver_set_same _ r _

/-- A receiver gone from its slot joins a list in a new state (R88, R102). -/
theorem State.emptied_joinList (e : Receiver) (i : ListId) :
    joinList ((s.emptied l r).setReceiver r e) i r =
      ((s.setSlot l none).setPollList i ((s.pollList i).join r)).setReceiver r { e with misses := 0 } := by
  rw [State.emptied, State.setReceiver_twice, joinList_written]
  rfl

theorem undock_docked (h : s.slot l = some r) (hs : (s.receiver r).state = .docked) (rec : Bool) :
    undock s l rec = (s.strayed l r).raise (.stray r l.rack l.slot) := by
  rw [undock_held h]
  unfold undockState
  rw [State.emptied_receiver, hs]
  dsimp only
  rw [State.emptied_joinList]
  rfl

theorem activateHire_pending {n w : Nat} {h : Hire} (hn : s.hire n = some h) (hw : h.state = .pending w) (rec : Bool) :
    activateHire s n rec =
      (s.setHire n (some (s.begun h rec))).raise (.hireStarted n h.receiver s.now (h.reconciled || rec)) := by
  unfold activateHire
  rw [hn]
  dsimp only
  rw [hw]
  rfl

theorem undock_reserved {n w : Nat} {h : Hire} (hl : s.slot l = some r) (hs : (s.receiver r).state = .reserved)
    (hr : (s.receiver r).hire = some n) (hn : s.hire n = some h) (hw : h.state = .pending w) (rec : Bool) :
    undock s l rec = ((s.drawn l r).setHire n (some (s.begun h rec))).raise
      (.hireStarted n h.receiver s.now (h.reconciled || rec)) := by
  have hdrawn : (joinList ((s.emptied l r).setReceiver r
      { s.receiver r with location := none, state := .out, tuned := none }) .l0 r).setLowMark r false = s.drawn l r := by
    rw [State.emptied_joinList]
    rfl
  rw [undock_held hl]
  unfold undockState
  rw [State.emptied_receiver, hs]
  dsimp only
  rw [hdrawn, hr]
  exact activateHire_pending (s := s.drawn l r) hn hw rec

/-- A receiver that is neither DOCKED nor RESERVED loses its location alone (R88). -/
theorem undock_other (h : s.slot l = some r) (hd : (s.receiver r).state ≠ .docked)
    (hr : (s.receiver r).state ≠ .reserved) (rec : Bool) : undock s l rec = s.emptied l r := by
  rw [undock_held h]
  unfold undockState
  rw [State.emptied_receiver]
  dsimp only
  split
  next hs => exact absurd hs hd
  next hs => exact absurd hs hr
  next => rfl

/-- Behind an UNDOCK the slot is empty (R88). -/
theorem activateHire_racks (n : Nat) (rec : Bool) : (activateHire s n rec).racks = s.racks := by
  fun_cases activateHire s n rec <;> rfl

theorem undockState_racks (rec : Bool) : (undockState s l r rec).racks = s.racks := by
  unfold undockState
  split
  · rfl
  · dsimp only; split
    exacts [activateHire_racks _ rec, rfl]
  · rfl

theorem undock_slot (rec : Bool) : (undock s l rec).slot l = none := by
  cases h : s.slot l with
  | none => rw [undock_empty h, h]
  | some r =>
    rw [undock_held h, State.slot, undockState_racks]
    exact Table.read_write_same none s.racks.slots (slotKey l) none
end

/-! ### DOCK and BATTERY (R89 to R91) -/

section
variable {s : State} {l : Location} {r band : Nat} {rec : Bool}

theorem clearSlot_free (h : s.slot l = none) : clearSlot s l r rec = s := by unfold clearSlot; rw [h]

theorem clearSlot_own (h : s.slot l = some r) : clearSlot s l r rec = s := by
  unfold clearSlot; rw [h]; exact if_pos rfl

theorem clearSlot_other {q : Nat} (h : s.slot l = some q) (hq : q ≠ r) : clearSlot s l r rec = undock s l rec := by
  unfold clearSlot; rw [h]; exact if_neg hq

/-- The slot of a DOCK is free behind the UNDOCK of another receiver, and the DOCK goes on there (R89). -/
theorem dock_displaces {q : Nat} (h : s.slot l = some q) (hq : q ≠ r) :
    dock s l r band rec = dock (undock s l rec) l r band rec := by
  rw [dock_eq, dock_eq, clearSlot_other h hq, clearSlot_free (undock_slot rec)]

theorem dockCleared_repeats (h : (s.receiver r).location = some l) :
    dockCleared s l r band rec = s.setReceiver r { s.receiver r with band := band } := by
  unfold dockCleared; rw [h]; exact if_pos rfl

theorem dockCleared_relocates {m : Location} (h : (s.receiver r).location = some m) (hm : m ≠ l) :
    dockCleared s l r band rec = ((s.setSlot m none).setSlot l (some r)).setReceiver r
      { s.receiver r with location := some l, band := band } := by
  unfold dockCleared; rw [h]; exact if_neg hm

theorem dockCleared_new (h : (s.receiver r).location = none) :
    dockCleared s l r band rec = dockState (fillSlot s l r band) l r rec := by
  unfold dockCleared; rw [h]

/-- Receiver `r` is DOCKED in slot `l` (R89, R90). -/
def State.dockedAt (s : State) (l : Location) (r band : Nat) : State :=
  (s.setSlot l (some r)).setReceiver r { s.receiver r with location := some l, band := band, state := .docked }

theorem dockState_unknown (hs : (s.receiver r).state = .unknown) :
    dockState (fillSlot s l r band) l r rec = s.dockedAt l r band := by
  rw [dockState, fillSlot_receiver, hs]
  exact fillSlot_setReceiver _ _ _ _ _

theorem dockState_lost (hs : (s.receiver r).state = .lost) :
    dockState (fillSlot s l r band) l r rec = (s.dockedAt l r band).raise (.recovered r l.rack l.slot) := by
  rw [dockState, fillSlot_receiver, hs]
  exact congrArg (fun t => State.raise t _) (fillSlot_setReceiver _ _ _ _ _)

theorem dockState_stray (hs : (s.receiver r).state = .stray) :
    dockState (fillSlot s l r band) l r rec =
      ((leaveList s .l1 r).dockedAt l r band).raise (.strayReturned r l.rack l.slot) := by
  rw [dockState, fillSlot_receiver, hs]
  show ((leaveList (fillSlot s l r band) .l1 r).setReceiver r
    { (fillSlot s l r band).receiver r with state := .docked }).raise _ = _
  rw [fillSlot_receiver]
  exact congrArg (fun t => State.raise t _) (State.setReceiver_twice (leaveList (s.setSlot l (some r)) .l1 r) r _ _)

/-- A MONITOR or WITHDRAWN receiver keeps its state in its slot (R90). -/
theorem dockState_kept (hs : (s.receiver r).state = .monitor ∨ (s.receiver r).state = .withdrawn) :
    dockState (fillSlot s l r band) l r rec = fillSlot s l r band := by
  rw [dockState, fillSlot_receiver]
  rcases hs with hs | hs <;> rw [hs]

theorem battery_held (h : s.slot l = some r) :
    battery s l band = s.setReceiver r { s.receiver r with band := band } := by unfold battery; rw [h]

theorem battery_empty (h : s.slot l = none) : battery s l band = s := by unfold battery; rw [h]
end

/-! ### The rack's reply (R87) -/

theorem slotInRange_iff {x : Nat} : slotInRange x = true ↔ 1 ≤ x ∧ x ≤ 48 := by simp [slotInRange]

theorem receiverInRange_iff {r band : Nat} : receiverInRange r band = true ↔ r ≤ 4095 ∧ band ≤ 7 := by
  simp [receiverInRange]

section
variable {s : State} {k x r band : Nat}

theorem rackReport_undock (h1 : 1 ≤ x) (h48 : x ≤ 48) : rackReport s k (.undock x) = undock s ⟨k, x⟩ false :=
  if_pos (slotInRange_iff.mpr ⟨h1, h48⟩)

theorem rackReport_undock_ignored (h : x = 0 ∨ 48 < x) : rackReport s k (.undock x) = s :=
  if_neg (by rw [slotInRange_iff]; omega)

theorem rackReport_dock (h1 : 1 ≤ x) (h48 : x ≤ 48) (hr : r ≤ 4095) (hband : band ≤ 7) :
    rackReport s k (.dock x r band) = dock s ⟨k, x⟩ r band false :=
  if_pos (by rw [slotInRange_iff.mpr ⟨h1, h48⟩, receiverInRange_iff.mpr ⟨hr, hband⟩]; rfl)

theorem rackReport_dock_ignored (h : x = 0 ∨ 48 < x ∨ 4095 < r ∨ 7 < band) : rackReport s k (.dock x r band) = s :=
  if_neg (by rw [Bool.and_eq_true, slotInRange_iff, receiverInRange_iff]; omega)

theorem rackReport_battery (h1 : 1 ≤ x) (h48 : x ≤ 48) (hband : band ≤ 7) :
    rackReport s k (.battery x band) = battery s ⟨k, x⟩ band :=
  if_pos (by rw [slotInRange_iff.mpr ⟨h1, h48⟩, decide_eq_true hband]; rfl)

/-- A PRESENT rack's reply to its poll: of its reports the first sixteen, in order (R87). -/
theorem exec_rackReply_reports (h1 : 1 ≤ k) (h16 : k ≤ 16) (h : s.awaitsRack k)
    (hp : (s.unit (24 + k)).state = .present) (y : List RackReport) :
    exec (.rackReply k (.reports y)) s =
      .next ((y.take 16).foldl (fun t e => rackReport t k e) (unitReply s (24 + k))) := by
  rw [exec_rackReply, rackAnswer_awaited h1 h16 h, if_pos rfl]
  exact congrArg _ (if_neg fun ho => (owesReturn_iff _).mp ho hp)

/-- The one report of a reply is taken in the state in which its rack has answered. -/
theorem exec_rackReply_one (h1 : 1 ≤ k) (h16 : k ≤ 16) (h : s.awaitsRack k)
    (hp : (s.unit (24 + k)).state = .present) (e : RackReport) :
    exec (.rackReply k (.reports [e])) s = .next (rackReport (unitReply s (24 + k)) k e) :=
  exec_rackReply_reports h1 h16 h hp [e]
end

/-! ### What is left -/

theorem State.keepsAudio.trans {s t u : State} (h : s.keepsAudio t) (k : t.keepsAudio u) : s.keepsAudio u :=
  ⟨k.1.trans h.1, k.2.1.trans h.2.1, k.2.2.1.trans h.2.2.1, k.2.2.2.1.trans h.2.2.2.1, k.2.2.2.2.trans h.2.2.2.2⟩

section
variable (s : State) (l : Location) (r : Nat) (n : Notice)

/-- What an UNDOCK of a DOCKED receiver leaves (R88). -/
theorem State.strayed_frame {t : State} (ht : t = (s.strayed l r).raise n) :
    t.racks = (s.setSlot l none).racks ∧
      t.receiver r = { s.receiver r with location := none, state := .stray, misses := 0 } ∧
      (∀ q, q ≠ r → t.receiver q = s.receiver q) ∧ t.fleet.monitors = s.fleet.monitors ∧
      t.beacon = { s.beacon with l1 := s.beacon.l1.join r } ∧
      s.keepsAudio t ∧ s.keepsMoney t ∧ s.keepsRest t ∧ s.raised t [n] := by
  subst ht
  refine ⟨rfl, State.receiver_set_same ((s.setSlot l none).setPollList .l1 (s.beacon.l1.join r)) r _,
    fun q hq => State.receiver_set_ne ((s.setSlot l none).setPollList .l1 (s.beacon.l1.join r)) r _ hq, rfl, rfl, ?_⟩
  simp [State.strayed, State.keepsAudio, State.keepsMoney, State.keepsRest, State.raised, State.raiseAll, State.raise]

/-- What an UNDOCK of a RESERVED receiver leaves (R88, R125). -/
theorem State.drawn_frame {k : Nat} {h : Hire} {t : State} (ht : t = ((s.drawn l r).setHire k (some h)).raise n) :
    t.racks = (s.setSlot l none).racks ∧
      t.receiver r = { s.receiver r with location := none, state := .out, tuned := none, misses := 0 } ∧
      (∀ q, q ≠ r → t.receiver q = s.receiver q) ∧ t.fleet.monitors = s.fleet.monitors ∧
      t.beacon = { s.beacon with l0 := s.beacon.l0.join r, lowMarks := s.beacon.lowMarks.write false r false } ∧
      t.hires = (s.setHire k (some h)).hires ∧ s.keepsAudio t ∧ (t.money = s.money ∧ t.meters = s.meters) ∧
      s.keepsRest t ∧ s.raised t [n] := by
  subst ht
  refine ⟨rfl, State.receiver_set_same ((s.setSlot l none).setPollList .l0 (s.beacon.l0.join r)) r _,
    fun q hq => State.receiver_set_ne ((s.setSlot l none).setPollList .l0 (s.beacon.l0.join r)) r _ hq, rfl, rfl, rfl, ?_⟩
  simp [State.drawn, State.keepsAudio, State.keepsRest, State.raised, State.raiseAll, State.raise]

/-- What a DOCK of an UNKNOWN receiver leaves (R90). -/
theorem State.dockedAt_frame {band : Nat} {t : State} (ht : t = s.dockedAt l r band) :
    t.racks = (s.setSlot l (some r)).racks ∧
      t.receiver r = { s.receiver r with location := some l, band := band, state := .docked } ∧
      (∀ q, q ≠ r → t.receiver q = s.receiver q) ∧ t.fleet.monitors = s.fleet.monitors ∧ t.beacon = s.beacon ∧
      s.keepsAudio t ∧ s.keepsMoney t ∧ s.keepsRest t ∧ t.link = s.link := by
  subst ht
  refine ⟨rfl, State.receiver_set_same (s.setSlot l (some r)) r _,
    fun q hq => State.receiver_set_ne (s.setSlot l (some r)) r _ hq, rfl, rfl, ?_⟩
  simp [State.dockedAt, State.keepsAudio, State.keepsMoney, State.keepsRest]

/-- A slot emptied and filled is filled (R89). -/
theorem State.setSlot_twice (x y : Option Nat) : (s.setSlot l x).setSlot l y = s.setSlot l y := by
  simp [State.setSlot]
end

/-- The poll list, the battery-low marks and the hires behind the UNDOCK of a RESERVED receiver (R88, R114, R125). -/
theorem State.drawn_told {s t : State} {q n : Nat} {h : Hire}
    (hbeacon : t.beacon = { s.beacon with l0 := s.beacon.l0.join q, lowMarks := s.beacon.lowMarks.write false q false })
    (hhires : t.hires = (s.setHire n (some h)).hires) :
    s.beacon.l0.gains q t.beacon.l0 ∧ t.lowMark q = false ∧ (∀ y, y ≠ q → t.lowMark y = s.lowMark y) ∧
      t.beacon = { s.beacon with l0 := t.beacon.l0, lowMarks := t.beacon.lowMarks } ∧
      t.hire n = some h ∧ (∀ y, y ≠ n → t.hire y = s.hire y) ∧ t.hires.next = s.hires.next := by
  have hmark : ∀ y, t.lowMark y = (s.setLowMark q false).lowMark y := fun y => by unfold State.lowMark; rw [hbeacon]; rfl
  have hhire : ∀ y, t.hire y = (s.setHire n (some h)).hire y := fun y => by unfold State.hire; rw [hhires]
  refine ⟨by rw [hbeacon]; exact s.beacon.l0.join_gains q, ?_, fun y hy => ?_, by rw [hbeacon], ?_, fun y hy => ?_,
    by rw [hhires]; rfl⟩
  · exact (hmark q).trans ((State.lowMark_setLowMark s q q false).trans (if_pos rfl))
  · exact (hmark y).trans ((State.lowMark_setLowMark s q y false).trans (if_neg hy))
  · exact (hhire n).trans ((State.hire_setHire s n n _).trans (if_pos rfl))
  · exact (hhire y).trans ((State.hire_setHire s n y _).trans (if_neg hy))

/-- Settles O33: the UNDOCK of each form, in the state in which the rack has answered. -/
theorem rackUndock : Obligations.RackUndock := by
  unfold Obligations.RackUndock
  rintro k x l s h1 h16 rfl h hp
  refine ⟨fun hno => ?_, fun r hx1 hx48 hl => ?_⟩ <;> rw [exec_rackReply_one h1 h16 h hp]
  · by_cases hx : 1 ≤ x ∧ x ≤ 48
    · rw [rackReport_undock hx.1 hx.2, undock_empty (s := unitReply s (24 + k))]
      exact (hno.resolve_left (by omega)).resolve_left (by omega)
    · rw [rackReport_undock_ignored (by omega)]
  rw [rackReport_undock hx1 hx48]
  refine ⟨fun hs => ?_, fun hs => ?_, fun n h w hs hr hn hw hrec => ?_⟩
  · rw [undock_other (s := unitReply s (24 + k)) hl
      (fun hd => by rw [unitReply_receiver] at hd; simp [hd] at hs)
      (fun hd => by rw [unitReply_receiver] at hd; simp [hd] at hs)]
    rfl
  · rw [undock_docked (s := unitReply s (24 + k)) hl hs]
    obtain ⟨hracks, hself, hothers, hmonitors, hbeacon, haudio, hmoney, ⟨hclock, hsup, hlimits, hpending⟩, hraised⟩ :=
      State.strayed_frame _ ⟨k, x⟩ r _ rfl
    refine ⟨_, rfl, hracks, hself, hothers, hmonitors, ?_, ?_, haudio, hmoney, hclock, hsup, hlimits, hpending, hraised⟩
    · rw [hbeacon]; exact s.beacon.l1.join_gains r
    · rw [hbeacon]; rfl
  · have hdrawn : undock (unitReply s (24 + k)) ⟨k, x⟩ false =
        (((unitReply s (24 + k)).drawn ⟨k, x⟩ r).setHire n
          (some { h with state := .active s.clock.seconds s.clock.degradedCount })).raise
          (.hireStarted n r s.clock.seconds h.reconciled) := by
      rw [undock_reserved (s := unitReply s (24 + k)) hl hs hr hn hw, State.begun_plain, Bool.or_false]
      exact congrArg (fun q => State.raise _ (.hireStarted n q s.clock.seconds h.reconciled)) hrec
    rw [hdrawn]
    obtain ⟨hracks, hself, hothers, hmonitors, hbeacon, hhires, haudio, ⟨hmoney, hmeters⟩,
      ⟨hclock, hsup, hlimits, hpending⟩, hraised⟩ := State.drawn_frame _ ⟨k, x⟩ r _ rfl
    obtain ⟨hgains, hmark, hmarks, hkept, hactive, hhired, hnext⟩ := State.drawn_told hbeacon hhires
    exact ⟨_, rfl, hracks, hself, hothers, hmonitors, hgains, hmark, hmarks, hkept, hactive, hhired, hnext, haudio, hmoney,
      hmeters, hclock, hsup, hlimits, hpending, hraised⟩

end Sys2Proof.Machine
end

