-- ==== Sys2Proof/Proofs/RackAnswers.lean ====
section
/-! O34: the reports of a rack's reply taken one behind the other, and a DOCK in each of its forms. -/

namespace Sys2Proof.Machine

/-! ### What no rack report touches (R87 to R91) -/

/-- The blocks on which no rack report acts: the audio side, the clock, the units, the limits and the frames. -/
def State.aside (s : State) : (Plan × Arbiter × Booths × Turns × Check) × Clock × Supervisor × Limits × List Instr :=
  ((s.plan, s.arbiter, s.booths, s.turns, s.check), s.clock, s.supervisor, s.limits, s.pending)

section
variable (s : State)

@[simp] theorem State.aside_raise (n : Notice) : (s.raise n).aside = s.aside := rfl
@[simp] theorem State.aside_setReceiver (r : Nat) (e : Receiver) : (s.setReceiver r e).aside = s.aside := rfl
@[simp] theorem State.aside_setSlot (l : Location) (r : Option Nat) : (s.setSlot l r).aside = s.aside := rfl
@[simp] theorem State.aside_setPollList (i : ListId) (l : PollList) : (s.setPollList i l).aside = s.aside := by
  cases i <;> rfl
@[simp] theorem State.aside_setListeners (c n : Nat) : (s.setListeners c n).aside = s.aside := rfl
@[simp] theorem State.aside_setLowMark (r : Nat) (m : Bool) : (s.setLowMark r m).aside = s.aside := rfl
@[simp] theorem State.aside_setHire (n : Nat) (h : Option Hire) : (s.setHire n h).aside = s.aside := rfl
@[simp] theorem State.aside_setListening (d c n : Nat) : (s.setListening d c n).aside = s.aside := rfl
@[simp] theorem leaveList_aside (i : ListId) (r : Nat) : (leaveList s i r).aside = s.aside := by simp [leaveList]
@[simp] theorem joinList_aside (i : ListId) (r : Nat) : (joinList s i r).aside = s.aside := by simp [joinList]
@[simp] theorem fillSlot_aside (l : Location) (r band : Nat) : (fillSlot s l r band).aside = s.aside := by simp [fillSlot]

@[simp] theorem dropListeners_aside (c : Option Nat) : (dropListeners s c).aside = s.aside := by
  cases c <;> simp [dropListeners]

@[simp] theorem creditReceiver_aside (r d now : Nat) : (creditReceiver s r d now).aside = s.aside := by
  unfold creditReceiver credit; split <;> simp

@[simp] theorem settleHire_aside (n : Nat) : (settleHire s n).aside = s.aside := by
  fun_cases settleHire s n <;> rfl

@[simp] theorem settleOrWait_aside (n : Nat) : (settleOrWait s n).aside = s.aside := by
  unfold settleOrWait; split <;> simp

@[simp] theorem beginClosing_aside (n : Nat) (lost rec : Bool) : (beginClosing s n lost rec).aside = s.aside := by
  unfold beginClosing
  split
  · split
    · dsimp only; split <;> simp
    · rfl
  · rfl

@[simp] theorem activateHire_aside (n : Nat) (rec : Bool) : (activateHire s n rec).aside = s.aside := by
  fun_cases activateHire s n rec <;> rfl

@[simp] theorem undockState_aside (l : Location) (r : Nat) (rec : Bool) : (undockState s l r rec).aside = s.aside := by
  unfold undockState
  split
  · simp
  · dsimp only; split <;> simp
  · rfl

@[simp] theorem undock_aside (l : Location) (rec : Bool) : (undock s l rec).aside = s.aside := by
  unfold undock; split <;> simp

@[simp] theorem dockHired_aside (r : Nat) : (dockHired s r).aside = s.aside := by
  unfold dockHired; split <;> simp

@[simp] theorem dockClosing_aside (r : Nat) (rec : Bool) : (dockClosing s r rec).aside = s.aside := by
  unfold dockClosing; split <;> simp

@[simp] theorem dockState_aside (l : Location) (r : Nat) (rec : Bool) : (dockState s l r rec).aside = s.aside := by
  unfold dockState; split <;> simp

@[simp] theorem dock_aside (l : Location) (r band : Nat) (rec : Bool) : (dock s l r band rec).aside = s.aside := by
  have hclear : (clearSlot s l r rec).aside = s.aside := by unfold clearSlot; split; split <;> simp; rfl
  rw [dock_eq, ← hclear]
  fun_cases dockCleared (clearSlot s l r rec) l r band rec <;> simp

@[simp] theorem battery_aside (l : Location) (band : Nat) : (battery s l band).aside = s.aside := by
  unfold battery; split <;> simp

@[simp] theorem rackReport_aside (k : Nat) (x : RackReport) : (rackReport s k x).aside = s.aside := by
  unfold rackReport; split <;> split <;> simp

theorem rackReports_aside (k : Nat) (l : List RackReport) :
    (l.foldl (fun t e => rackReport t k e) s).aside = s.aside :=
  List.foldlRecOn (motive := fun t => t.aside = s.aside) l _ rfl fun t ht e _ => (rackReport_aside t k e).trans ht
end

theorem State.supervisor_of_aside {s t : State} (h : t.aside = s.aside) : t.supervisor = s.supervisor :=
  congrArg (·.2.2.1) h

theorem State.keepsAudio_of_aside {s t : State} (h : t.aside = s.aside) : s.keepsAudio t :=
  ⟨congrArg (·.1.1) h, congrArg (·.1.2.1) h, congrArg (·.1.2.2.1) h, congrArg (·.1.2.2.2.1) h,
    congrArg (·.1.2.2.2.2) h⟩

theorem State.keepsRest_of_aside {s t : State} (h : t.aside = s.aside) : s.keepsRest t :=
  ⟨congrArg (·.2.1) h, congrArg (·.2.2.1) h, congrArg (·.2.2.2.1) h, congrArg (·.2.2.2.2) h⟩

/-! ### The reports of one reply (R87) -/

/-- State `t` with the rack link's poll as it stands in `s`. -/
def State.polledAs (t s : State) : State :=
  { t with supervisor := { t.supervisor with rackPoll := s.supervisor.rackPoll } }

/-- The poll of a unit put back under way behind its reply, the same reply makes nothing more of the state. -/
theorem unitReply_polledAs {s t : State} {u : Nat} (h : t.supervisor = (unitReply s u).supervisor) :
    unitReply (t.polledAs s) u = t := by
  suffices hsup : (unitReply (t.polledAs s) u).supervisor = t.supervisor from
    congrArg (fun x => { t with supervisor := x }) hsup
  unfold State.polledAs
  rw [h]
  unfold unitReply endPoll State.setUnit
  dsimp only
  congr 1
  · exact Table.write_write _ _ _ _ _
  · split <;> rfl
  · split <;> rfl

/-- The reports behind the sixteenth are not taken (R87). -/
theorem takeRackReply_take (s : State) (k : Nat) (y : List RackReport) :
    takeRackReply s k (.reports y) = takeRackReply s k (.reports (y.take 16)) := by
  unfold takeRackReply
  dsimp only
  rw [show Config.reportsPerReply = 16 from rfl, List.take_take, Nat.min_self]

theorem exec_rackReply_take (k : Nat) (y : List RackReport) (s : State) :
    exec (.rackReply k (.reports y)) s = exec (.rackReply k (.reports (y.take 16))) s := by
  rw [exec_rackReply, exec_rackReply]
  unfold rackAnswer
  rw [takeRackReply_take]

/-- The last report of a reply is taken in the state that the others give, as if it alone answered the poll (R87). -/
theorem exec_rackReply_append {k : Nat} {y : List RackReport} {s t : State} (h1 : 1 ≤ k) (h16 : k ≤ 16)
    (h : s.awaitsRack k) (hp : (s.unit (24 + k)).state = .present) (hy : y.length < 16)
    (ht : exec (.rackReply k (.reports y)) s = .next t) (e : RackReport) :
    exec (.rackReply k (.reports (y ++ [e]))) s = exec (.rackReply k (.reports [e]))
      (t.polledAs s) := by
  rw [exec_rackReply_reports h1 h16 h hp, List.take_of_length_le (by omega)] at ht
  injection ht with ht
  have hsup : t.supervisor = (unitReply s (24 + k)).supervisor :=
    ht ▸ State.supervisor_of_aside (rackReports_aside (unitReply s (24 + k)) k y)
  have hunit : ((t.polledAs s).unit (24 + k)).state = .present := by
    show (t.supervisor.units.read UnitEntry.unseen (24 + k)).state = _
    rw [hsup]
    exact congrArg UnitEntry.state ((State.unit_setUnit (endPoll s (24 + k)) _ _ _).trans (if_pos rfl))
  rw [exec_rackReply_reports h1 h16 h hp, exec_rackReply_one (s := t.polledAs s) h1 h16 h hunit, unitReply_polledAs hsup,
    List.take_of_length_le (by rw [List.length_append]; simpa using hy), List.foldl_append, ht]
  rfl

/-! ### A DOCK into a free slot (R89, R90) -/

section
variable {s : State} {l : Location} {r band : Nat} {rec : Bool}

theorem dock_free (h : s.slot l = none) : dock s l r band rec = dockCleared s l r band rec := by
  rw [dock_eq, clearSlot_free h]

theorem dock_new (h : s.slot l = none) (hloc : (s.receiver r).location = none) :
    dock s l r band rec = dockState (fillSlot s l r band) l r rec := by rw [dock_free h, dockCleared_new hloc]

/-- An UNKNOWN receiver is DOCKED in the slot that the UNDOCK of another has left (R89, R90). -/
theorem dock_displaces_unknown {q : Nat} {t : State} (h : s.slot l = some q) (hq : q ≠ r) (ht : undock s l rec = t)
    (hr : t.receiver r = s.receiver r) (hs : (s.receiver r).state = .unknown)
    (hloc : (s.receiver r).location = none) : dock s l r band rec = t.dockedAt l r band := by
  rw [dock_displaces h hq, ht, dock_new (by rw [← ht]; exact undock_slot rec) (by rw [hr]; exact hloc)]
  exact dockState_unknown (by rw [hr]; exact hs)

/-- The slot map behind an UNDOCK and a DOCK of one slot is that of the DOCK (R89). -/
theorem State.dockedAt_racks {t : State} (h : t.racks = (s.setSlot l none).racks) :
    (t.dockedAt l r band).racks = (s.setSlot l (some r)).racks := by
  show { t.racks with slots := _ } = _
  rw [h]
  exact congrArg State.racks (s.setSlot_twice l none (some r))
end

/-! ### O34, by its clauses -/

section
variable {k x r q band : Nat} {s : State}

/-- An UNKNOWN receiver docked over a DOCKED one (R88, R89). -/
theorem dock_over_docked (hl : s.slot ⟨k, x⟩ = some q) (hq : q ≠ r) (hr : (s.receiver r).state = .unknown)
    (hloc : (s.receiver r).location = none) (hs : (s.receiver q).state = .docked) :
    ∃ t, dock s ⟨k, x⟩ r band false = t ∧ t.racks = (s.setSlot ⟨k, x⟩ (some r)).racks ∧
      t.receiver q = { s.receiver q with location := none, state := .stray, misses := 0 } ∧
      t.receiver r = { s.receiver r with location := some ⟨k, x⟩, band := band, state := .docked } ∧
      (∀ y, y ≠ q → y ≠ r → t.receiver y = s.receiver y) ∧ t.fleet.monitors = s.fleet.monitors ∧
      s.beacon.l1.gains q t.beacon.l1 ∧ t.beacon = { s.beacon with l1 := t.beacon.l1 } ∧
      s.keepsAudio t ∧ s.keepsMoney t ∧ s.keepsRest t ∧ s.raised t [.stray q k x] := by
  obtain ⟨u, hu⟩ : ∃ u, u = (s.strayed ⟨k, x⟩ q).raise (.stray q k x) := ⟨_, rfl⟩
  obtain ⟨hracks, hself, hothers, hmonitors, hbeacon, haudio, hmoney, hrest, hraised⟩ := s.strayed_frame ⟨k, x⟩ q _ hu
  refine ⟨_, dock_displaces_unknown hl hq (hu ▸ undock_docked hl hs false) (hothers r hq.symm) hr hloc, ?_⟩
  obtain ⟨-, kself, kothers, kmonitors, kbeacon, kaudio, kmoney, ⟨kclock, ksup, klimits, kpending⟩, klink⟩ :=
    u.dockedAt_frame ⟨k, x⟩ r (band := band) rfl
  obtain ⟨hclock, hsup, hlimits, hpending⟩ := hrest
  refine ⟨State.dockedAt_racks hracks, (kothers q hq).trans hself, ?_,
    fun y hy hyr => (kothers y hyr).trans (hothers y hy), kmonitors.trans hmonitors, ?_, ?_, haudio.trans kaudio, ?_,
    ⟨kclock.trans hclock, ksup.trans hsup, klimits.trans hlimits, kpending.trans hpending⟩, klink.trans hraised⟩
  · rw [kself, hothers r hq.symm]
  · rw [kbeacon, hbeacon]; exact s.beacon.l1.join_gains q
  · rw [kbeacon, hbeacon]
  · exact ⟨kmoney.1.trans hmoney.1, kmoney.2.1.trans hmoney.2.1, kmoney.2.2.trans hmoney.2.2⟩

/-- An UNKNOWN receiver docked over a RESERVED one (R88, R89, R125). -/
theorem dock_over_reserved {n w : Nat} {h : Hire} (hl : s.slot ⟨k, x⟩ = some q) (hq : q ≠ r)
    (hr : (s.receiver r).state = .unknown) (hloc : (s.receiver r).location = none)
    (hs : (s.receiver q).state = .reserved) (hhire : (s.receiver q).hire = some n) (hn : s.hire n = some h)
    (hw : h.state = .pending w) (hrec : h.receiver = q) :
    ∃ t, dock s ⟨k, x⟩ r band false = t ∧ t.racks = (s.setSlot ⟨k, x⟩ (some r)).racks ∧
      t.receiver q = { s.receiver q with location := none, state := .out, tuned := none, misses := 0 } ∧
      t.receiver r = { s.receiver r with location := some ⟨k, x⟩, band := band, state := .docked } ∧
      (∀ y, y ≠ q → y ≠ r → t.receiver y = s.receiver y) ∧ t.fleet.monitors = s.fleet.monitors ∧
      t.beacon = { s.beacon with
        l0 := s.beacon.l0.join q, lowMarks := s.beacon.lowMarks.write false q false } ∧
      t.hires = (s.setHire n (some { h with
        state := .active s.clock.seconds s.clock.degradedCount })).hires ∧
      s.keepsAudio t ∧ (t.money = s.money ∧ t.meters = s.meters) ∧ s.keepsRest t ∧
      s.raised t [.hireStarted n q s.clock.seconds h.reconciled] := by
  obtain ⟨u, hu⟩ : ∃ u, u = ((s.drawn ⟨k, x⟩ q).setHire n (some (s.begun h false))).raise
      (.hireStarted n h.receiver s.now (h.reconciled || false)) := ⟨_, rfl⟩
  obtain ⟨hracks, hself, hothers, hmonitors, hbeacon, hhires, haudio, ⟨hmoney, hmeters⟩,
    ⟨hclock, hsup, hlimits, hpending⟩, hraised⟩ := s.drawn_frame ⟨k, x⟩ q _ hu
  rw [State.begun_plain] at hhires
  rw [Bool.or_false, hrec] at hraised
  refine ⟨_, dock_displaces_unknown hl hq (hu ▸ undock_reserved hl hs hhire hn hw false) (hothers r hq.symm) hr hloc, ?_⟩
  obtain ⟨-, kself, kothers, kmonitors, kbeacon, kaudio, kmoney, ⟨kclock, ksup, klimits, kpending⟩, klink⟩ :=
    u.dockedAt_frame ⟨k, x⟩ r (band := band) rfl
  refine ⟨State.dockedAt_racks hracks, (kothers q hq).trans hself, ?_,
    fun y hy hyr => (kothers y hyr).trans (hothers y hy), kmonitors.trans hmonitors, kbeacon.trans hbeacon,
    kmoney.1.trans hhires, haudio.trans kaudio, ⟨kmoney.2.1.trans hmoney, kmoney.2.2.trans hmeters⟩,
    ⟨kclock.trans hclock, ksup.trans hsup, klimits.trans hlimits, kpending.trans hpending⟩, klink.trans hraised⟩
  rw [kself, hothers r hq.symm]
end

/-- Settles O34: sixteen reports, one behind the other; the displacing DOCK; the other forms of DOCK and BATTERY. -/
theorem rackDock : Obligations.RackDock := by
  unfold Obligations.RackDock
  refine ⟨exec_rackReply_take, fun k y e s t h1 h16 h hp hy ht => exec_rackReply_append h1 h16 h hp hy ht e, ?_, ?_⟩
  · rintro k x r q band l s h1 h16 rfl h hp hx1 hx48 hr hband hl hq
    have hone : exec (.rackReply k (.reports [.dock x r band])) s =
        .next (dock (unitReply s (24 + k)) ⟨k, x⟩ r band false) := by
      rw [exec_rackReply_one h1 h16 h hp, rackReport_dock hx1 hx48 hr hband]
    rw [hone]
    refine ⟨?_, fun hs hloc => ⟨fun hsq => ?_, fun n g w hsq hhire hn hw hrec => ?_⟩⟩
    · rw [exec_rackReply_reports h1 h16 h hp, dock_displaces (s := unitReply s (24 + k)) hl hq]
      show _ = Host.Outcome.next (rackReport (rackReport _ k (.undock x)) k (.dock x r band))
      rw [rackReport_undock hx1 hx48, rackReport_dock hx1 hx48 hr hband]
    · obtain ⟨t, ht, hracks, hgone, hnew, hothers, hmonitors, hgains, hbeacon, haudio, hmoney,
        ⟨hclock, hsup, hlimits, hpending⟩, hraised⟩ := dock_over_docked (s := unitReply s (24 + k)) hl hq hs hloc hsq
      exact ⟨t, congrArg _ ht, hracks, hgone, hnew, hothers, hmonitors, hgains, hbeacon, haudio, hmoney, hclock, hsup,
        hlimits, hpending, hraised⟩
    · obtain ⟨t, ht, hracks, hgone, hnew, hothers, hmonitors, hbeacon, hhires, haudio, ⟨hmoney, hmeters⟩,
        ⟨hclock, hsup, hlimits, hpending⟩, hraised⟩ :=
        dock_over_reserved (s := unitReply s (24 + k)) hl hq hs hloc hsq hhire hn hw hrec
      obtain ⟨hgains, hmark, hmarks, hkept, hactive, hhired, hnext⟩ := State.drawn_told hbeacon hhires
      exact ⟨t, congrArg _ ht, hracks, hgone, hnew, hothers, hmonitors, hgains, hmark, hmarks, hkept, hactive, hhired,
        hnext, haudio, hmoney, hmeters, hclock, hsup, hlimits, hpending, hraised⟩
  · rintro k x r band l s h1 h16 rfl h hp
    refine ⟨fun hout => ?_, fun hx1 hx48 hr hband => ?_, fun hx1 hx48 hband => ⟨fun q hl => ?_, fun hl => ?_⟩⟩ <;>
      rw [exec_rackReply_one h1 h16 h hp]
    · rw [rackReport_dock_ignored hout]
    · rw [rackReport_dock hx1 hx48 hr hband, dock_eq]
      refine ⟨fun hl hloc => ?_, fun hl => ?_⟩
      · rw [clearSlot_own (s := unitReply s (24 + k)) hl, dockCleared_repeats (s := unitReply s (24 + k)) hloc]; rfl
      rw [clearSlot_free (s := unitReply s (24 + k)) hl]
      refine ⟨fun m hm hne => ?_, fun hloc => ?_⟩
      · rw [dockCleared_relocates (s := unitReply s (24 + k)) hm hne]; rfl
      rw [dockCleared_new (s := unitReply s (24 + k)) hloc]
      refine ⟨fun hs => ?_, fun hs => ?_, fun hs => ?_, fun hs => ⟨_, s.beacon.l1.leave_loses r, ?_⟩⟩
      · rw [dockState_kept (s := unitReply s (24 + k)) hs]; rfl
      · rw [dockState_unknown (s := unitReply s (24 + k)) hs]; rfl
      · rw [dockState_lost (s := unitReply s (24 + k)) hs]; rfl
      · rw [dockState_stray (s := unitReply s (24 + k)) hs]; rfl
    · rw [rackReport_battery hx1 hx48 hband, battery_held (s := unitReply s (24 + k)) hl]; rfl
    · rw [rackReport_battery hx1 hx48 hband, battery_empty (s := unitReply s (24 + k)) hl]

end Sys2Proof.Machine
end

