-- ==== Sys2Proof/Proofs/HireClosings.lean ====
section
/-! O35: a hire that closes, with the last credit of its receiver, its poll list and its listener count,
and the settlement or the wait (R129, R130). -/

namespace Sys2Proof.Machine

/-! ### The last credit (R129, R152) -/

/-- A credit reaches the listening account alone. -/
theorem creditReceiver_frame (s : State) (r d now : Nat) :
    creditReceiver s r d now = { s with meters :=
      { s.meters with listening := (creditReceiver s r d now).meters.listening } } := by
  unfold creditReceiver; split <;> rfl

section
variable {s : State} {r d now c since : Nat}

theorem creditReceiver_untimed (h : (s.receiver r).tuned = none ∨ (s.receiver r).lastReply = none) :
    creditReceiver s r d now = s := by
  unfold creditReceiver
  split
  next hc ht => rcases h with h | h <;> simp_all
  next => rfl

theorem creditReceiver_timed (hc : (s.receiver r).tuned = some c) (ht : (s.receiver r).lastReply = some since) :
    creditReceiver s r d now = credit s d c since now := by unfold creditReceiver; rw [hc, ht]

/-- The gap since the last reply is credited to the channel of the receiver (R150 to R152). -/
theorem creditReceiver_tuned (hc : (s.receiver r).tuned = some c) (ht : (s.receiver r).lastReply = some since) :
    (creditReceiver s r d now).listening d c =
      min (s.listening d c + min (now - since) s.limits.creditCap) 4294967295 := by
  rw [creditReceiver_timed hc ht]
  exact Table.read_write_same _ _ _ _

/-- Every other count of the listening account is kept. -/
theorem creditReceiver_others {e x : Nat} (hx : x < 32) (hne : e ≠ d ∨ (s.receiver r).tuned ≠ some x)
    (hr : ∀ q, (s.receiver r).tuned = some q → q < 32) :
    (creditReceiver s r d now).listening e x = s.listening e x := by
  fun_cases creditReceiver s r d now
  next c since ht hc =>
    refine (State.listening_setListening s d c e x _ (hr c hc) hx).trans (if_neg ?_)
    rintro ⟨rfl, rfl⟩
    exact hne.elim (fun h => h rfl) (fun h => h hc)
  next => rfl

/-- The credit does not read the hires. -/
theorem creditReceiver_setHire (n : Nat) (x : Option Hire) :
    creditReceiver (s.setHire n x) r d now = { s.setHire n x with meters := (creditReceiver s r d now).meters } := by
  have hr : (s.setHire n x).receiver r = s.receiver r := rfl
  unfold creditReceiver
  rw [hr]
  split <;> rfl
end

/-- The meters behind the last credit of a hire: made when its receiver is OUT (R129, R152). -/
def State.lastCredit (s : State) (h : Hire) : Meters :=
  if (s.receiver h.receiver).state = .out then (creditReceiver s h.receiver h.delegation s.now).meters else s.meters

theorem beginClosing_active {s : State} {n st ds : Nat} {h : Hire} (hn : s.hire n = some h) (hst : h.state = .active st ds)
    (lost rec : Bool) :
    beginClosing s n lost rec =
      { s.setHire n (some { h with
          state := .closing st ds s.now s.clock.degradedCount, lost := h.lost || lost, reconciled := h.reconciled || rec })
        with meters := s.lastCredit h } := by
  unfold beginClosing State.lastCredit
  rw [hn]
  dsimp only
  rw [hst]
  dsimp only
  split
  · exact creditReceiver_setHire _ _
  · rfl

/-! ### The receiver leaves its list and its listener count (R102, R115, R128, R129) -/

/-- A receiver that leaves its hire changes the beacon scheduler alone. -/
theorem leaveForLost_frame (s : State) (r : Nat) :
    leaveForLost s r = { s with beacon := (leaveForLost s r).beacon } := by
  unfold leaveForLost
  split
  · cases (s.receiver r).tuned <;> rfl
  · rfl
  · rfl

theorem leaveForLost_congr {s t : State} {r : Nat} (hb : t.beacon = s.beacon)
    (hstate : (t.receiver r).state = (s.receiver r).state) (htuned : (t.receiver r).tuned = (s.receiver r).tuned) :
    (leaveForLost t r).beacon = (leaveForLost s r).beacon := by
  unfold leaveForLost
  rw [hstate, htuned]
  split
  · cases (s.receiver r).tuned <;> simp [leaveList, dropListeners, State.setPollList, State.setListeners, State.pollList,
      State.listeners, hb]
  · simp [leaveList, State.setPollList, State.pollList, hb]
  · exact hb

section
variable {s : State} {r : Nat}

theorem leaveForLost_out (h : (s.receiver r).state = .out) :
    s.beacon.l0.loses r (leaveForLost s r).beacon.l0 ∧ (leaveForLost s r).beacon.l2 = s.beacon.l2 ∧
      (∀ c, (s.receiver r).tuned = some c → (leaveForLost s r).listeners c = s.listeners c - 1) ∧
      (∀ c, (s.receiver r).tuned ≠ some c → (leaveForLost s r).listeners c = s.listeners c) ∧
      (leaveForLost s r).beacon = { s.beacon with
        l0 := (leaveForLost s r).beacon.l0, listeners := (leaveForLost s r).beacon.listeners } := by
  have hleft : leaveForLost s r = dropListeners (leaveList s .l0 r) (s.receiver r).tuned := by
    unfold leaveForLost; rw [h]
  rw [hleft]
  cases hc : (s.receiver r).tuned with
  | none => exact ⟨s.beacon.l0.leave_loses r, rfl, nofun, fun _ _ => rfl, rfl⟩
  | some c =>
    refine ⟨s.beacon.l0.leave_loses r, rfl, ?_, ?_, rfl⟩
    · rintro _ ⟨⟩
      exact (State.listeners_setListeners (leaveList s .l0 r) c c _).trans (if_pos rfl)
    · exact fun x hx => (State.listeners_setListeners (leaveList s .l0 r) c x _).trans
        (if_neg fun e => hx (congrArg some e.symm))

theorem leaveForLost_silent (h : (s.receiver r).state = .silent) :
    s.beacon.l2.loses r (leaveForLost s r).beacon.l2 ∧
      (leaveForLost s r).beacon = { s.beacon with l2 := (leaveForLost s r).beacon.l2 } := by
  unfold leaveForLost
  rw [h]
  exact ⟨s.beacon.l2.leave_loses r, rfl⟩

/-- The DOCK of a hired receiver takes it off its list and its listener count as its loss does, and brings it home (R90,
R129). -/
theorem dockHired_eq (h : (s.receiver r).state = .out ∨ (s.receiver r).state = .silent) :
    dockHired s r = (leaveForLost s r).setReceiver r (s.receiver r).home := by
  unfold dockHired leaveForLost
  rcases h with h | h <;> rw [h]
  · cases hc : (s.receiver r).tuned <;> rfl
  · rfl
end

/-! ### Settled, or waiting (R130) -/

section
variable {s : State} {n st ds fi de : Nat} {h : Hire}

theorem settleHire_closing (hn : s.hire n = some h) (hst : h.state = .closing st ds fi de) :
    settleHire s n =
      ((s.setQueue (s.money.queue ++ [settlementOf (s.tariff h.tariff) h st ds fi de])).setHire n none).raise
        (.hireSettled n h.receiver (settlementOf (s.tariff h.tariff) h st ds fi de).flags) := by
  unfold settleHire
  rw [hn]
  dsimp only
  rw [hst]
  rfl

/-- Only a CLOSING hire settles (R130). -/
theorem settleHire_open (h : ∀ h, s.hire n = some h → ∀ st ds fi de, h.state ≠ .closing st ds fi de) :
    settleHire s n = s := by
  unfold settleHire
  split
  next x hx =>
    split
    next hst => exact absurd hst (h x hx _ _ _ _)
    next => rfl
  next => rfl

theorem settleOrWait_place (hn : s.hire n = some h) (hst : h.state = .closing st ds fi de)
    (hq : s.money.queue.length < 256) :
    settleOrWait s n =
      ((s.setQueue (s.money.queue ++ [settlementOf (s.tariff h.tariff) h st ds fi de])).setHire n none).raise
        (.hireSettled n h.receiver (settlementOf (s.tariff h.tariff) h st ds fi de).flags) :=
  (if_pos (show _ < Config.settlementPlaces from hq)).trans (settleHire_closing hn hst)

theorem settleOrWait_full (hq : 256 ≤ s.money.queue.length) : settleOrWait s n = s :=
  if_neg (Nat.not_lt.mpr hq)
end

/-! ### A hire closed -/

/-- Hire `closed`, entering CLOSING, with its last credit made and its receiver gone from list and count, and left as
`e` (steps 1 to 3 of R129). -/
def State.closingOf (s : State) (closed : Hire) (e : Receiver) : State :=
  { s with
    hires := (s.setHire closed.number (some closed)).hires
    meters := s.lastCredit closed
    beacon := (leaveForLost s closed.receiver).beacon
    fleet := (s.setReceiver closed.receiver e).fleet }

/-- The record of hire `h`, started at `st` and `ds`, as it enters CLOSING (step 1 of R129). -/
def State.closedHire (s : State) (h : Hire) (st ds : Nat) (lost rec : Bool) : Hire :=
  { h with
    state := .closing st ds s.now s.clock.degradedCount, lost := h.lost || lost, reconciled := h.reconciled || rec }

/-- A hire that closes with no flag set anew. -/
theorem State.closedHire_plain (s : State) (h : Hire) (st ds : Nat) :
    s.closedHire h st ds false false = { h with state := .closing st ds s.clock.seconds s.clock.degradedCount } := by
  unfold State.closedHire; rw [Bool.or_false, Bool.or_false]; rfl

section
variable {s : State} {n r st ds : Nat} {h : Hire}

theorem closingOf_eq (hn : s.hire n = some h) (hnum : h.number = n) (hrec : h.receiver = r) (hst : h.state = .active st ds)
    (lost rec : Bool) (e : Receiver) :
    (leaveForLost (beginClosing s n lost rec) r).setReceiver r e = s.closingOf (s.closedHire h st ds lost rec) e := by
  subst hnum hrec
  rw [leaveForLost_frame, beginClosing_active hn hst,
    leaveForLost_congr (s := s) (t := { s.setHire _ _ with meters := _ }) rfl rfl rfl]
  rfl

theorem beginClosing_receiver (hn : s.hire n = some h) (hst : h.state = .active st ds) (lost rec : Bool) :
    (beginClosing s n lost rec).receiver = s.receiver := by rw [beginClosing_active hn hst]; rfl

/-- The DOCK of a receiver on hire begins the close of its hire (R90, R129). -/
theorem dockHired_beginClosing (hs : (s.receiver r).state = .out ∨ (s.receiver r).state = .silent)
    (hn : s.hire n = some h) (hnum : h.number = n) (hrec : h.receiver = r) (hst : h.state = .active st ds) (rec : Bool) :
    dockHired (beginClosing s n false rec) r =
      s.closingOf (s.closedHire h st ds false rec) (s.receiver r).home := by
  rw [dockHired_eq (by rw [beginClosing_receiver hn hst]; exact hs), beginClosing_receiver hn hst,
    closingOf_eq hn hnum hrec hst]
end

/-- The meters behind the last credit (R129, R152). -/
theorem lastCredit_meters {s : State} {h : Hire} :
    (((s.receiver h.receiver).state = .silent ∨ (s.receiver h.receiver).tuned = none ∨
        (s.receiver h.receiver).lastReply = none) → s.lastCredit h = s.meters) ∧
      (s.lastCredit h).service = s.meters.service ∧ (s.lastCredit h).unserved = s.meters.unserved := by
  unfold State.lastCredit
  split
  next hout =>
    refine ⟨fun hno => ?_, ?_⟩
    · rw [creditReceiver_untimed (hno.resolve_left (by rw [hout]; nofun))]
    · rw [creditReceiver_frame]; exact ⟨rfl, rfl⟩
  next => exact ⟨fun _ => rfl, rfl, rfl⟩

/-- What beacon and meters are behind a hire that closes (R102, R103, R115, R129, R152). -/
theorem closing_leaves {s t : State} {closed : Hire} (hmeters : t.meters = s.lastCredit closed)
    (hbeacon : t.beacon = (leaveForLost s closed.receiver).beacon)
    (hs : (s.receiver closed.receiver).state = .out ∨ (s.receiver closed.receiver).state = .silent) :
    ((s.receiver closed.receiver).state = .out →
      s.beacon.l0.loses closed.receiver t.beacon.l0 ∧ t.beacon.l2 = s.beacon.l2 ∧
      (∀ c, (s.receiver closed.receiver).tuned = some c → t.listeners c = s.listeners c - 1) ∧
      (∀ c, (s.receiver closed.receiver).tuned ≠ some c → t.listeners c = s.listeners c) ∧
      ∀ c since, (s.receiver closed.receiver).tuned = some c → (s.receiver closed.receiver).lastReply = some since →
        t.listening closed.delegation c =
          min (s.listening closed.delegation c + min (s.clock.seconds - since) s.limits.creditCap) 4294967295) ∧
    ((s.receiver closed.receiver).state = .silent →
      s.beacon.l2.loses closed.receiver t.beacon.l2 ∧ t.beacon.l0 = s.beacon.l0 ∧
      t.beacon.listeners = s.beacon.listeners) ∧
    t.beacon = { s.beacon with l0 := t.beacon.l0, l2 := t.beacon.l2, listeners := t.beacon.listeners } ∧
    (∀ d c, c < 32 → (d ≠ closed.delegation ∨ (s.receiver closed.receiver).tuned ≠ some c) →
      (∀ q, (s.receiver closed.receiver).tuned = some q → q < 32) → t.listening d c = s.listening d c) := by
  have hcount : ∀ c, t.listeners c = (leaveForLost s closed.receiver).listeners c := fun c => by
    unfold State.listeners; rw [hbeacon]
  refine ⟨fun ho => ?_, fun hsil => ?_, ?_, fun d c hc hne hr => ?_⟩
  · obtain ⟨hl0, hl2, htuned, hothers, -⟩ := leaveForLost_out ho
    rw [hbeacon]
    refine ⟨hl0, hl2, fun c hc => (hcount c).trans (htuned c hc), fun c hc => (hcount c).trans (hothers c hc),
      fun c since hc ht => ?_⟩
    unfold State.listening
    rw [hmeters, State.lastCredit, if_pos ho]
    exact creditReceiver_tuned hc ht
  · obtain ⟨hl2, hkept⟩ := leaveForLost_silent hsil
    rw [hbeacon]
    exact ⟨hl2, by rw [hkept], by rw [hkept]⟩
  · rw [hbeacon]
    rcases hs with ho | hsil
    · obtain ⟨-, hl2, -, -, hkept⟩ := leaveForLost_out ho
      rw [hl2]; exact hkept
    · obtain ⟨-, hkept⟩ := leaveForLost_silent hsil
      conv_lhs => rw [hkept]
      rw [hkept]
  · unfold State.listening
    rw [hmeters, State.lastCredit]
    split
    · exact creditReceiver_others hc hne hr
    · rfl

/-- What hires, money, beacon and meters are behind a hire that closes, and its notice (R102, R103, R115, R129, R130,
R152). -/
theorem closingOf_closes {s : State} {closed : Hire} {st ds fi de : Nat} {e : Receiver} {y : Settlement}
    (hst : closed.state = .closing st ds fi de)
    (hs : (s.receiver closed.receiver).state = .out ∨ (s.receiver closed.receiver).state = .silent)
    (hy : y = settlementOf (s.tariff closed.tariff) closed st ds fi de) :
    s.hireCloses (settleOrWait (s.closingOf closed e) closed.number) closed y ∧
      s.raised (settleOrWait (s.closingOf closed e) closed.number) (s.settledNotices y) := by
  have hheld : (s.closingOf closed e).hire closed.number = some closed :=
    (State.hire_setHire s _ _ _).trans (if_pos rfl)
  have hothers : ∀ q, q ≠ closed.number → (s.closingOf closed e).hire q = s.hire q := fun q hq =>
    (State.hire_setHire s _ _ _).trans (if_neg hq)
  obtain ⟨hmeters, hservice, hunserved⟩ := lastCredit_meters (s := s) (h := closed)
  rcases Nat.lt_or_ge s.money.queue.length 256 with hq | hq
  · rw [settleOrWait_place (s := s.closingOf closed e) hheld hst hq]
    obtain ⟨hout, hsilent, hbeacon, hlistening⟩ := closing_leaves (s := s) (closed := closed)
      (t := (((s.closingOf closed e).setQueue _).setHire closed.number none).raise _) rfl rfl hs
    refine ⟨⟨⟨fun q hne => ?_, rfl, rfl, rfl⟩, fun _ => ⟨?_, ?_⟩, fun h => absurd hq (Nat.not_lt.mpr h), hout, hsilent,
      hbeacon, hmeters, hlistening, hservice, hunserved⟩, ?_⟩
    · exact ((State.hire_setHire (s.closingOf closed e) _ _ _).trans (if_neg hne)).trans (hothers q hne)
    · exact (State.hire_setHire (s.closingOf closed e) _ _ _).trans (if_pos rfl)
    · rw [hy]; rfl
    · rw [State.settledNotices, if_pos hq, hy]; rfl
  · rw [settleOrWait_full (s := s.closingOf closed e) hq]
    obtain ⟨hout, hsilent, hbeacon, hlistening⟩ := closing_leaves (s := s) (closed := closed)
      (t := s.closingOf closed e) rfl rfl hs
    refine ⟨⟨⟨hothers, rfl, rfl, rfl⟩, fun h => absurd h (Nat.not_lt.mpr hq), fun _ => ⟨hheld, rfl⟩, hout, hsilent,
      hbeacon, hmeters, hlistening, hservice, hunserved⟩, ?_⟩
    rw [State.settledNotices, if_neg (Nat.not_lt.mpr hq)]
    rfl

/-- Only the hires, the money, the meters, the beacon, the clock, the limits and what the receiver was bear on how a hire
closes. -/
theorem State.hireCloses.of_blocks {s u t : State} {closed : Hire} {y : Settlement} (h : u.hireCloses t closed y)
    (hhires : u.hires = s.hires) (hmoney : u.money = s.money) (hmeters : u.meters = s.meters)
    (hbeacon : u.beacon = s.beacon) (hclock : u.clock = s.clock) (hlimits : u.limits = s.limits)
    (hstate : (u.receiver closed.receiver).state = (s.receiver closed.receiver).state)
    (htuned : (u.receiver closed.receiver).tuned = (s.receiver closed.receiver).tuned)
    (hlast : (u.receiver closed.receiver).lastReply = (s.receiver closed.receiver).lastReply) :
    s.hireCloses t closed y := by
  have hhire : ∀ q, u.hire q = s.hire q := fun q => by unfold State.hire; rw [hhires]
  have hcount : ∀ c, u.listeners c = s.listeners c := fun c => by unfold State.listeners; rw [hbeacon]
  have hheard : ∀ d c, u.listening d c = s.listening d c := fun d c => by unfold State.listening; rw [hmeters]
  unfold State.hireCloses at h ⊢
  simpa only [hhire, hhires, hmoney, hcount, hheard, hmeters, hbeacon, hclock, hlimits, hstate, htuned, hlast] using h

/-- A settlement touches no slot and no receiver. -/
theorem settleOrWait_fleet (s : State) (n : Nat) :
    (settleOrWait s n).racks = s.racks ∧ (settleOrWait s n).fleet = s.fleet := by
  have hsettle : (settleHire s n).racks = s.racks ∧ (settleHire s n).fleet = s.fleet := by
    fun_cases settleHire s n <;> exact ⟨rfl, rfl⟩
  unfold settleOrWait
  split
  exacts [hsettle, ⟨rfl, rfl⟩]

theorem dockClosing_named {s : State} {r n : Nat} (hr : (s.receiver r).hire = some n) (rec : Bool) :
    dockClosing s r rec = settleOrWait (dockHired (beginClosing s n false rec) r) n := by
  unfold dockClosing; rw [hr]

theorem dockState_hired {s : State} {l : Location} {r : Nat}
    (h : (s.receiver r).state = .out ∨ (s.receiver r).state = .silent) (rec : Bool) :
    dockState s l r rec = dockClosing s r rec := by
  unfold dockState
  rcases h with h | h <;> rw [h]

/-- Settles O35: the DOCK of a receiver on hire is the close of its hire, read off the state with the slot filled. -/
theorem dockClosesHire : Obligations.DockClosesHire := by
  unfold Obligations.DockClosesHire
  rintro k x r band n st ds h closed l s h1 h16 hx1 hx48 hr hband rfl hasks hp hl hloc hs hhire hn hnum hrec hst rfl
  obtain ⟨u, hu⟩ : ∃ u, u = fillSlot (unitReply s (24 + k)) ⟨k, x⟩ r band := ⟨_, rfl⟩
  have hur : u.receiver r = { s.receiver r with location := some ⟨k, x⟩, band := band } := by
    rw [hu]; exact fillSlot_receiver _ r _ band
  obtain ⟨hracks, hmonitors, hothers⟩ : u.racks = (s.setSlot ⟨k, x⟩ (some r)).racks ∧
      u.fleet.monitors = s.fleet.monitors ∧ ∀ q, q ≠ r → u.receiver q = s.receiver q := by
    rw [hu]
    exact ⟨rfl, rfl, fun q hq => State.receiver_set_ne ((unitReply s (24 + k)).setSlot ⟨k, x⟩ (some r)) r _ hq⟩
  obtain ⟨hhires, hmoney, hmeters, hbeacon, hlink⟩ : u.hires = s.hires ∧ u.money = s.money ∧ u.meters = s.meters ∧
      u.beacon = s.beacon ∧ u.link = s.link := by rw [hu]; exact ⟨rfl, rfl, rfl, rfl, rfl⟩
  have hus : (u.receiver r).state = .out ∨ (u.receiver r).state = .silent := by rw [hur]; exact hs
  have haside : u.aside = (unitReply s (24 + k)).aside := by rw [hu]; simp
  obtain ⟨hclock, -, hlimits, -⟩ := State.keepsRest_of_aside haside
  have hexec : exec (.rackReply k (.reports [.dock x r band])) s = .next (settleOrWait (u.closingOf { h with
      state := .closing st ds s.clock.seconds s.clock.degradedCount } (u.receiver r).home) n) := by
    rw [exec_rackReply_one h1 h16 hasks hp, rackReport_dock hx1 hx48 hr hband,
      dock_new (s := unitReply s (24 + k)) hl hloc, ← hu, dockState_hired hus,
      dockClosing_named (by rw [hur]; exact hhire),
      dockHired_beginClosing hus (by rw [State.hire, hhires]; exact hn) hnum hrec hst, State.closedHire_plain, hclock]
    rfl
  rw [hexec]
  subst hnum hrec
  obtain ⟨hcloses, hraised⟩ := closingOf_closes (s := u) (e := (u.receiver h.receiver).home)
    (closed := { h with state := .closing st ds s.clock.seconds s.clock.degradedCount }) rfl hus rfl
  obtain ⟨kracks, kfleet⟩ := settleOrWait_fleet (u.closingOf { h with
    state := .closing st ds s.clock.seconds s.clock.degradedCount } (u.receiver h.receiver).home) h.number
  have kaside : (settleOrWait (u.closingOf { h with
      state := .closing st ds s.clock.seconds s.clock.degradedCount } (u.receiver h.receiver).home) h.number).aside =
      (unitReply s (24 + k)).aside := (settleOrWait_aside (u.closingOf _ _) h.number).trans haside
  generalize settleOrWait (u.closingOf _ _) h.number = t at *
  have kreceiver : ∀ q, t.receiver q = (u.setReceiver h.receiver (u.receiver h.receiver).home).receiver q := fun q => by
    unfold State.receiver; rw [kfleet]; rfl
  obtain ⟨kclock, ksup, klimits, kpending⟩ := State.keepsRest_of_aside kaside
  refine ⟨t, rfl, kracks.trans hracks, ?_, fun q hq => ?_, ?_, ⟨_, rfl, ?_, ?_⟩,
    State.keepsAudio_of_aside (s := unitReply s (24 + k)) kaside, kclock, ksup, klimits, kpending⟩
  · rw [kreceiver, State.receiver_set_same u, hur]; rfl
  · rw [kreceiver, State.receiver_set_ne u _ _ hq, hothers q hq]
  · rw [kfleet]; exact hmonitors
  · refine State.hireCloses.of_blocks ?_ hhires hmoney hmeters hbeacon hclock hlimits ?_ ?_ ?_
    · rw [State.tariff, ← hmoney]; exact hcloses
    · exact congrArg (·.state) hur
    · exact congrArg (·.tuned) hur
    · exact congrArg (·.lastReply) hur
  · rw [State.tariff, ← hmoney]
    unfold State.raised State.settledNotices at *
    rw [State.raiseAll_link_eq] at hraised ⊢
    rw [hlink, hmoney] at hraised
    exact hraised

end Sys2Proof.Machine
end

