-- ==== Sys2Proof/Proofs/FleetMoves.lean ====
section
/-! O59: the agreement of the receiver fleet read receiver by receiver, and what a step on one receiver must bring so
that it is kept (`State.moves`). -/

namespace Sys2Proof.Machine

/-! ### Poll lists by state (R102) -/

/-- The poll list a receiver in this state is a member of (R102). -/
def ReceiverState.list : ReceiverState → Option ListId
  | .out => some .l0
  | .stray => some .l1
  | .silent => some .l2
  | .monitor => some .l3
  | _ => none

theorem State.listsAgree_iff (s : State) :
    s.listsAgree ↔ (∀ i, (s.pollList i).sound) ∧
      ∀ r i, r ∈ (s.pollList i).members ↔ (s.receiver r).state.list = some i := by
  constructor
  · rintro ⟨h0, h1, h2, h3, hmembers⟩
    refine ⟨fun i => by cases i <;> assumption, fun r i => ?_⟩
    obtain ⟨hout, hstray, hsilent, hmonitor⟩ := hmembers r
    cases i
    · refine hout.trans ?_; cases (s.receiver r).state <;> simp [ReceiverState.list]
    · refine hstray.trans ?_; cases (s.receiver r).state <;> simp [ReceiverState.list]
    · refine hsilent.trans ?_; cases (s.receiver r).state <;> simp [ReceiverState.list]
    · refine hmonitor.trans ?_; cases (s.receiver r).state <;> simp [ReceiverState.list]
  · rintro ⟨hsound, hmembers⟩
    refine ⟨hsound .l0, hsound .l1, hsound .l2, hsound .l3, fun r => ⟨?_, ?_, ?_, ?_⟩⟩
    · refine (hmembers r .l0).trans ?_; cases (s.receiver r).state <;> simp [ReceiverState.list]
    · refine (hmembers r .l1).trans ?_; cases (s.receiver r).state <;> simp [ReceiverState.list]
    · refine (hmembers r .l2).trans ?_; cases (s.receiver r).state <;> simp [ReceiverState.list]
    · refine (hmembers r .l3).trans ?_; cases (s.receiver r).state <;> simp [ReceiverState.list]

section
variable {l : PollList} {r q : Nat}

theorem PollList.mem_leave : q ∈ (l.leave r).members ↔ q ∈ l.members ∧ q ≠ r := by
  simp [PollList.leave]

theorem PollList.mem_join : q ∈ (l.join r).members ↔ q ∈ l.members ∨ q = r := by
  simp [PollList.join]

theorem mem_of_successorIn {l : List Nat} (h : successorIn r l = some q) : q ∈ l := by
  induction l with
  | nil => cases h
  | cons x xs ih =>
    unfold successorIn at h
    split at h
    · exact List.mem_cons_of_mem _ (List.mem_of_mem_head? h)
    · exact List.mem_cons_of_mem _ (ih h)

/-- In a list that names each member once the member behind `r` is not `r`. -/
theorem ne_of_successorIn {l : List Nat} (hl : l.Nodup) (h : successorIn r l = some q) : q ≠ r := by
  induction l with
  | nil => cases h
  | cons x xs ih =>
    obtain ⟨hx, hxs⟩ := List.nodup_cons.mp hl
    unfold successorIn at h
    split at h
    · rename_i hr
      rintro rfl
      exact hx (hr ▸ List.mem_of_mem_head? h)
    · exact ih hxs h

theorem PollList.leave_sound (h : l.sound) (r : Nat) : (l.leave r).sound := by
  obtain ⟨hnodup, hcursor⟩ := h
  refine ⟨hnodup.filter _, ?_⟩
  have hmem : ∀ {x}, x ∈ l.members → x ≠ r → x ∈ l.members.filter fun x => decide (x ≠ r) := fun hx hr => by
    simp [hx, hr]
  unfold PollList.leave
  dsimp only
  by_cases hrest : l.members.filter (fun x => decide (x ≠ r)) = []
  · rw [if_pos hrest]; exact hrest
  rw [if_neg hrest]
  by_cases hcur : l.cursor = some r
  · rw [if_pos hcur]
    cases hs : successorIn r l.members with
    | some x => exact hmem (mem_of_successorIn hs) (ne_of_successorIn hnodup hs)
    | none =>
      cases hh : l.members.filter fun x => decide (x ≠ r) with
      | nil => exact absurd hh hrest
      | cons x xs => exact List.mem_cons_self
  · rw [if_neg hcur]
    cases hc : l.cursor with
    | none =>
      rw [hc] at hcursor
      exact absurd (by rw [show l.members = [] from hcursor]; rfl) hrest
    | some x =>
      rw [hc] at hcursor hcur
      exact hmem hcursor fun hx => hcur (congrArg some hx)

theorem PollList.join_sound (h : l.sound) (hr : r ∉ l.members) : (l.join r).sound := by
  obtain ⟨hnodup, hcursor⟩ := h
  refine ⟨List.Nodup.append hnodup (List.nodup_singleton r) (by simpa using hr), ?_⟩
  unfold PollList.join
  dsimp only
  by_cases hm : l.members = []
  · rw [if_pos hm]; simp
  · rw [if_neg hm]
    cases hc : l.cursor with
    | none => rw [hc] at hcursor; exact absurd hcursor hm
    | some x => rw [hc] at hcursor; exact List.mem_append_left _ hcursor

theorem PollList.advance_sound (h : l.sound) (hr : r ∈ l.members) : (l.advance r).sound := by
  refine ⟨h.1, ?_⟩
  unfold PollList.advance PollList.after
  dsimp only
  cases hs : successorIn r l.members with
  | some x => exact mem_of_successorIn hs
  | none =>
    cases hm : l.members with
    | nil => rw [hm] at hr; cases hr
    | cons x xs => exact List.mem_cons_self
end

/-- List `i` behind the move of receiver `r` from state `a` to state `b`: it has left the list of the one and joined the
list of the other, unless they are the same (R102). -/
def PollList.moved (l : PollList) (i : ListId) (r : Nat) (a b : ReceiverState) : PollList :=
  if a.list = b.list then l
  else if b.list = some i then l.join r
  else if a.list = some i then l.leave r
  else l

section
variable {l : PollList} {i : ListId} {r q : Nat} {a b : ReceiverState}

theorem PollList.moved_sound (h : l.sound) (hr : r ∈ l.members ↔ a.list = some i) : (l.moved i r a b).sound := by
  unfold PollList.moved
  split
  · exact h
  next hab =>
    split
    next hb => exact PollList.join_sound h fun hm => hab ((hr.mp hm).trans hb.symm)
    next => split; exacts [PollList.leave_sound h r, h]

theorem PollList.mem_moved_self (hr : r ∈ l.members ↔ a.list = some i) :
    r ∈ (l.moved i r a b).members ↔ b.list = some i := by
  unfold PollList.moved
  split
  next hab => rw [hr, hab]
  next =>
    split
    next hb => simp [PollList.mem_join, hb]
    next hb =>
      split
      · simp [PollList.mem_leave, hb]
      next ha => simp [hr, ha, hb]

theorem PollList.mem_moved_ne (hq : q ≠ r) : q ∈ (l.moved i r a b).members ↔ q ∈ l.members := by
  unfold PollList.moved
  split
  · exact Iff.rfl
  · split
    · simp [PollList.mem_join, hq]
    · split
      · simp [PollList.mem_leave, hq]
      · exact Iff.rfl
end

/-! ### Hires by stage (R119) -/

/-- How far a receiver in this state is in a hire: not at all, RESERVED, or out on it (R119). -/
def ReceiverState.stage : ReceiverState → Nat
  | .reserved => 1
  | .out => 2
  | .silent => 2
  | _ => 0

/-- The stage a hire in this state holds its receiver at; a CLOSING one holds none (R119). -/
def HireState.stage : HireState → Nat
  | .pending _ => 1
  | .active _ _ => 2
  | .closing _ _ _ _ => 3

theorem HireState.holds_iff (x : HireState) (y : ReceiverState) : x.holds y = true ↔ x.stage = y.stage := by
  cases x <;> cases y <;> simp [HireState.holds, HireState.stage, ReceiverState.stage]

theorem ReceiverState.stage_zero (y : ReceiverState) : y.stage = 0 ↔ y ≠ .reserved ∧ y ≠ .out ∧ y ≠ .silent := by
  cases y <;> simp [ReceiverState.stage]

theorem ReceiverState.stage_le (y : ReceiverState) : y.stage ≤ 2 := by cases y <;> decide

/-- The next hire number is in its range and free (R120). -/
def State.nextFree (s : State) : Prop :=
  s.hire s.hires.next = none ∧ 1 ≤ s.hires.next ∧ s.hires.next ≤ Config.maxCount

/-- Hire `h` stands under number `n`, and, while it is open, holds the receiver of entry `e`, which names it. -/
def Hire.keptBy (h : Hire) (n : Nat) (e : Receiver) : Prop :=
  h.number = n ∧ (h.state.stage ≠ 3 → h.state.stage = e.state.stage ∧ e.hire = some n)

/-- The hire that entry `e` of receiver `r` names is an open hire of it; and it names one when it is hired. -/
def State.names (s : State) (r : Nat) (e : Receiver) : Prop :=
  match e.hire with
  | some n => ∃ h, s.hire n = some h ∧ h.receiver = r ∧ h.state.stage = e.state.stage
  | none => e.state.stage = 0

theorem State.hiresAgree_iff (s : State) :
    s.hiresAgree ↔ (∀ n h, s.hire n = some h → h.keptBy n (s.receiver h.receiver)) ∧
      (∀ r, s.names r (s.receiver r)) ∧ s.nextFree := by
  refine and_congr (forall₂_congr fun n h => imp_congr_right fun _ => ?_) (and_congr (forall_congr' fun r => ?_) Iff.rfl)
  · unfold Hire.keptBy
    cases hs : h.state <;> simp only [HireState.holds_iff, HireState.stage] <;> simp
  · unfold State.names
    cases (s.receiver r).hire <;> simp only [HireState.holds_iff, ReceiverState.stage_zero]

/-! ### What a step on one receiver brings -/

/-- A receiver at location `new` that stood at `old`: in the slot map it has left the one slot and fills the other, which
was free (R86). -/
def State.reslots (s t : State) (r : Nat) (old new : Option Location) : Prop :=
  (∀ l, new = some l → l.fits ∧ (s.slot l = none ∨ s.slot l = some r)) ∧
    ∀ l, l.fits → t.slot l = if new = some l then some r else if old = some l then none else s.slot l

/-- The monitor positions of every receiver but `r` are kept, and `r` holds one exactly when `y` is MONITOR (R95). -/
def State.reposts (s t : State) (r : Nat) (y : ReceiverState) : Prop :=
  (∀ q, q ≠ r → ∀ p, p ≤ 7 → (t.monitorAt p = some q ↔ s.monitorAt p = some q)) ∧
    (y = .monitor ↔ ∃ p, p ≤ 7 ∧ t.monitorAt p = some r) ∧
    ∀ p q, p ≤ 7 → q ≤ 7 → t.monitorAt p = some r → t.monitorAt q = some r → p = q

/-- The hires of every receiver but `r` are kept, and those of `r` go with its entry `e` (R119, R120). -/
def State.rehires (s t : State) (r : Nat) (e : Receiver) : Prop :=
  (∀ n h, h.receiver ≠ r → (t.hire n = some h ↔ s.hire n = some h)) ∧
    (∀ n h, t.hire n = some h → h.receiver = r → h.keptBy n e) ∧ t.names r e ∧ t.nextFree

/-- What an OUT receiver of this entry adds to the listener count of channel `c` (R115). -/
def Receiver.counts (e : Receiver) (c : Nat) : Nat := if e.state = .out ∧ e.tuned = some c then 1 else 0

/-- Receiver `r` has come to entry `e`, with its slot, its poll list, its monitor position, its hire and its listener
count. -/
structure State.moves (s t : State) (r : Nat) (e : Receiver) : Prop where
  receivers : ∀ q, t.receiver q = if q = r then e else s.receiver q
  slots : s.reslots t r (s.receiver r).location e.location
  lists : ∀ i, t.pollList i = (s.pollList i).moved i r (s.receiver r).state e.state
  monitors : s.reposts t r e.state
  hires : s.rehires t r e
  fits : e.locationFits ∧ e.silenceFits
  listeners : ∀ c, (s.receiver r).counts c ≤ s.listeners c →
    t.listeners c + (s.receiver r).counts c = s.listeners c + e.counts c

namespace State.moves
variable {s t : State} {r : Nat} {e : Receiver}

theorem self (h : s.moves t r e) : t.receiver r = e := (h.receivers r).trans (if_pos rfl)

theorem other (h : s.moves t r e) {q : Nat} (hq : q ≠ r) : t.receiver q = s.receiver q :=
  (h.receivers q).trans (if_neg hq)

theorem slotsAgree (h : s.moves t r e) (hs : s.slotsAgree) : t.slotsAgree := by
  obtain ⟨hfree, hslot⟩ := h.slots
  intro q l
  by_cases hq : q = r
  · subst hq
    rw [h.self]
    constructor
    · exact fun hl => ⟨(hfree l hl).1, (hslot l (hfree l hl).1).trans (if_pos hl)⟩
    · rintro ⟨hfit, hl⟩
      rw [hslot l hfit] at hl
      by_contra hne
      rw [if_neg hne] at hl
      split at hl
      · cases hl
      next hold => exact hold ((hs q l).mpr ⟨hfit, hl⟩)
  · rw [h.other hq, hs q l]
    refine and_congr_right fun hfit => ?_
    rw [hslot l hfit]
    split
    next hl =>
      have hr : ¬ r = q := fun h => hq h.symm
      rcases (hfree l hl).2 with hn | hn <;> simp [hn, hr]
    next =>
      split
      next hold =>
        have hr : ¬ r = q := fun h => hq h.symm
        simp [((hs r l).mp hold).2, hr]
      next => exact Iff.rfl

theorem listsAgree (h : s.moves t r e) (hs : s.listsAgree) : t.listsAgree := by
  rw [State.listsAgree_iff] at hs ⊢
  obtain ⟨hsound, hmembers⟩ := hs
  refine ⟨fun i => h.lists i ▸ PollList.moved_sound (hsound i) (hmembers r i), fun q i => ?_⟩
  rw [h.lists]
  by_cases hq : q = r
  · rw [hq, h.self]; exact PollList.mem_moved_self (hmembers r i)
  · rw [h.other hq, PollList.mem_moved_ne hq]; exact hmembers q i

theorem monitorsAgree (h : s.moves t r e) (hs : s.monitorsAgree) : t.monitorsAgree := by
  obtain ⟨hothers, hself, hone⟩ := h.monitors
  refine ⟨fun q => ?_, fun p p' q hp hp' hq hq' => ?_⟩
  · by_cases hq : q = r
    · rw [hq, h.self]; exact hself
    · rw [h.other hq, hs.1 q]
      exact exists_congr fun p => and_congr_right fun hp => (hothers q hq p hp).symm
  · by_cases hqr : q = r
    · exact hone p p' hp hp' (hqr ▸ hq) (hqr ▸ hq')
    · exact hs.2 p p' q hp hp' ((hothers q hqr p hp).mp hq) ((hothers q hqr p' hp').mp hq')

theorem hiresAgree (h : s.moves t r e) (hs : s.hiresAgree) : t.hiresAgree := by
  rw [State.hiresAgree_iff] at hs ⊢
  obtain ⟨hrecords, hnames, -⟩ := hs
  obtain ⟨hothers, hself, hname, hnext⟩ := h.hires
  refine ⟨fun n x hx => ?_, fun q => ?_, hnext⟩
  · by_cases hr : x.receiver = r
    · rw [hr, h.self]; exact hself n x hx hr
    · rw [h.other hr]; exact hrecords n x ((hothers n x hr).mp hx)
  · by_cases hq : q = r
    · rw [hq, h.self]; exact hname
    · rw [h.other hq]
      have hkept := hnames q
      unfold State.names at hkept ⊢
      split at hkept
      · obtain ⟨x, hx, rfl, hstage⟩ := hkept
        exact ⟨x, (hothers _ x hq).mpr hx, rfl, hstage⟩
      · exact hkept

theorem fleetAgrees (h : s.moves t r e) (hs : s.fleetAgrees) : t.fleetAgrees := by
  obtain ⟨hslots, hlists, hmonitors, hhires, hfits⟩ := hs
  refine ⟨h.slotsAgree hslots, h.listsAgree hlists, h.monitorsAgree hmonitors, h.hiresAgree hhires, fun q => ?_⟩
  by_cases hq : q = r
  · rw [hq, h.self]; exact h.fits
  · rw [h.other hq]; exact hfits q
end State.moves

/-! ### The listener counts (R115) -/

/-- The OUT receivers that last reported channel `c`. -/
def State.tunedTo (s : State) (c : Nat) : Finset Nat :=
  (s.beacon.l0.members.filter fun r => decide ((s.receiver r).tuned = some c)).toFinset

theorem State.listsAgree.mem_tunedTo {s : State} (h : s.listsAgree) {r c : Nat} :
    r ∈ s.tunedTo c ↔ (s.receiver r).counts c = 1 := by
  have hout : r ∈ s.beacon.l0.members ↔ (s.receiver r).state = .out := (h.2.2.2.2 r).1
  simp [State.tunedTo, Receiver.counts, hout]

theorem State.listsAgree.card_tunedTo {s : State} (h : s.listsAgree) (c : Nat) : (s.tunedTo c).card = s.outTuned c :=
  List.toFinset_card_of_nodup (h.1.1.filter _)

/-- A receiver adds itself to the count of its channel. -/
theorem State.listsAgree.outTuned_eq {s : State} (h : s.listsAgree) (r c : Nat) :
    s.outTuned c = ((s.tunedTo c).erase r).card + (s.receiver r).counts c := by
  have hone : (s.receiver r).counts c = if r ∈ s.tunedTo c then 1 else 0 := by
    simp only [h.mem_tunedTo]
    unfold Receiver.counts
    split <;> simp
  rw [← h.card_tunedTo, hone]
  split
  next hr => exact (Finset.card_erase_add_one hr).symm
  next hr => rw [Finset.erase_eq_of_notMem hr, Nat.add_zero]

theorem State.moves.listenersAgree {s t : State} {r : Nat} {e : Receiver} (h : s.moves t r e) (hs : s.listsAgree)
    (hc : s.listenersAgree) : t.listenersAgree := by
  have ht := h.listsAgree hs
  intro c
  have hothers : (t.tunedTo c).erase r = (s.tunedTo c).erase r := by
    ext q
    simp only [Finset.mem_erase, ht.mem_tunedTo, hs.mem_tunedTo]
    exact and_congr_right fun hq => by rw [h.other hq]
  have hmoved := h.listeners c
  rw [hc c, hs.outTuned_eq r c] at hmoved
  rw [ht.outTuned_eq r c, hothers, h.self]
  omega

end Sys2Proof.Machine
end

