-- ==== Sys2Proof/Proofs/FleetAccord.lean ====
section
/-! O59: operations that keep the fleet in agreement (`Accord`): those that the fleet does not see, and those that move
one receiver. -/

namespace Sys2Proof.Machine

/-! ### What the fleet sees -/

/-- The blocks that the agreement of the fleet speaks of, and the settlement queue. -/
def State.fleetSeen (s : State) :
    Racks × Fleet × (PollList × PollList × PollList × PollList × Table Nat) × Hires × List Settlement :=
  (s.racks, s.fleet, (s.beacon.l0, s.beacon.l1, s.beacon.l2, s.beacon.l3, s.beacon.listeners), s.hires, s.money.queue)

/-- The hire table and the settlement queue keep their form and their places (R118, R130). -/
def State.hiresBounded (s : State) : Prop :=
  s.hires.records.canonical none = true ∧ s.hires.count ≤ Config.hirePlaces ∧
    s.money.queue.length ≤ Config.settlementPlaces

/-- The fleet agrees, and the hire table and the settlement queue are in bounds. -/
structure State.InAccord (s : State) : Prop where
  bounded : s.hiresBounded
  fleet : s.fleetAgrees

theorem State.same_of_fleetSeen {s t : State} (h : t.fleetSeen = s.fleetSeen) :
    (s.hiresBounded → t.hiresBounded) ∧ (s.fleetAgrees → t.fleetAgrees) ∧ (s.listenersAgree → t.listenersAgree) := by
  simp only [State.fleetSeen, Prod.mk.injEq] at h
  obtain ⟨hracks, hfleet, ⟨h0, h1, h2, h3, hcounts⟩, hhires, hqueue⟩ := h
  have hreceiver : t.receiver = s.receiver := by funext r; unfold State.receiver; rw [hfleet]
  have hslot : t.slot = s.slot := by funext l; unfold State.slot; rw [hracks]
  have hmonitor : t.monitorAt = s.monitorAt := by funext p; unfold State.monitorAt; rw [hfleet]
  have hhire : t.hire = s.hire := by funext n; unfold State.hire; rw [hhires]
  refine ⟨fun hi => ?_, fun hi => ?_, fun hi => ?_⟩
  · unfold State.hiresBounded at hi ⊢
    rw [hhires, hqueue]; exact hi
  · unfold State.fleetAgrees State.slotsAgree State.listsAgree State.monitorsAgree State.hiresAgree at hi ⊢
    rw [hreceiver, hslot, hmonitor, hhire, h0, h1, h2, h3, hhires]; exact hi
  · unfold State.listenersAgree State.listeners State.outTuned at hi ⊢
    rw [hreceiver, h0, hcounts]; exact hi

theorem Change.keeps_hiresBounded {s t : State} (h : Change s t) (hi : s.hiresBounded) : t.hiresBounded := by
  obtain ⟨hform, hcount, hqueue⟩ := hi
  cases h with
  | hires x hx hfit => exact ⟨hx hform, hfit hcount, hqueue⟩
  | settlements q hfit => exact ⟨hform, hcount, hfit hqueue⟩
  | domain b p new =>
    obtain ⟨x, y, e⟩ := setDomainState_boothsAlone s b p new
    rw [e]; exact ⟨hform, hcount, hqueue⟩
  | config b c =>
    obtain ⟨x, y, e⟩ := storeConfig_boothsAlone s b c
    rw [e]; exact ⟨hform, hcount, hqueue⟩
  | _ => exact ⟨hform, hcount, hqueue⟩

theorem Work.keeps_hiresBounded {s t : State} (h : Work s t) (hi : s.hiresBounded) : t.hiresBounded := by
  induction h with
  | refl => exact hi
  | tail _ hc ih => exact hc.keeps_hiresBounded ih

/-! ### Operations that keep the fleet in accord -/

/-- From a fleet in accord an operation leads to a fleet in accord, and to right listener counts from right ones. -/
def Accord (s t : State) : Prop := s.InAccord → t.InAccord ∧ (s.listenersAgree → t.listenersAgree)

namespace Accord
variable {s t u : State}

theorem refl (s : State) : Accord s s := fun hi => ⟨hi, id⟩

theorem trans (h : Accord s t) (k : Accord t u) : Accord s u := fun hi => by
  obtain ⟨ht, hst⟩ := h hi
  obtain ⟨hu, htu⟩ := k ht
  exact ⟨hu, fun hl => htu (hst hl)⟩

theorem foldl {α : Type} {f : State → α → State} {l : List α} (h : ∀ t, ∀ x ∈ l, Accord t (f t x)) (s : State) :
    Accord s (l.foldl f s) :=
  List.foldlRecOn (motive := fun t => Accord s t) l f (.refl s) fun t ht x hx => ht.trans (h t x hx)

/-- An operation that the fleet does not see. -/
theorem unseen (h : t.fleetSeen = s.fleetSeen) : Accord s t := fun hi => by
  obtain ⟨hbounded, hfleet, hlisteners⟩ := State.same_of_fleetSeen h
  exact ⟨⟨hbounded hi.bounded, hfleet hi.fleet⟩, hlisteners⟩

theorem link (s : State) (l : Link) : Accord s { s with link := l } := .unseen rfl

theorem clock (s : State) (c : Clock) : Accord s { s with clock := c } := .unseen rfl

theorem queue (s : State) (q : List Instr) : Accord s { s with pending := q } := .unseen rfl

/-- An operation whose accord rests on that of the state it starts from. -/
theorem given (h : s.fleetAgrees → Accord s t) : Accord s t := fun hi => h hi.fleet hi

/-- A work that moves one receiver into a state whose hire table and queue are in bounds. -/
theorem moved_bounded {r : Nat} {e : Receiver} (hw : Work s t) (h : s.fleetAgrees → t.hiresBounded → s.moves t r e) :
    Accord s t := fun hi => by
  have ht := hw.keeps_hiresBounded hi.bounded
  exact ⟨⟨ht, (h hi.fleet ht).fleetAgrees hi.fleet⟩, (h hi.fleet ht).listenersAgree hi.fleet.2.1⟩

/-- A work that moves one receiver. -/
theorem moved {r : Nat} {e : Receiver} (hw : Work s t) (h : s.fleetAgrees → s.moves t r e) : Accord s t :=
  moved_bounded hw fun hs _ => h hs

/-- An operation that moves one receiver and keeps the hire table and the settlement queue. -/
theorem moved_unhired {r : Nat} {e : Receiver} (hhires : t.hires = s.hires) (hqueue : t.money.queue = s.money.queue)
    (h : s.fleetAgrees → s.moves t r e) : Accord s t := fun hi => by
  refine ⟨⟨?_, (h hi.fleet).fleetAgrees hi.fleet⟩, (h hi.fleet).listenersAgree hi.fleet.2.1⟩
  have hbounded := hi.bounded
  unfold State.hiresBounded at hbounded ⊢
  rw [hhires, hqueue]; exact hbounded

/-- An operation done on a condition. -/
theorem ite (c : Bool) (h : c = true → Accord s t) : Accord s (if c = true then t else s) := by
  split
  · rename_i hc; exact h hc
  · exact .refl s
end Accord

/-! ### The blocks of a move -/

theorem Location.slotKey_inj {l m : Location} (hl : l.fits) (hm : m.fits) : slotKey l = slotKey m ↔ l = m := by
  obtain ⟨lr, ls⟩ := l
  obtain ⟨mr, ms⟩ := m
  obtain ⟨-, -, -, hls⟩ := hl
  obtain ⟨-, -, -, hms⟩ := hm
  simp only [slotKey, Location.mk.injEq] at *
  omega

theorem State.slot_setSlot (s : State) {l m : Location} (hl : l.fits) (hm : m.fits) (x : Option Nat) :
    (s.setSlot l x).slot m = if m = l then x else s.slot m := by
  simp only [State.slot, State.setSlot, Table.read_write, Location.slotKey_inj hm hl]

theorem State.slot_of_racks {s t : State} (h : t.racks = s.racks) (l : Location) : t.slot l = s.slot l := by
  unfold State.slot; rw [h]

section
variable {s t : State} {r : Nat} {l m : Location}

theorem State.reslots_same (h : t.racks = s.racks) (hs : s.slotsAgree) :
    s.reslots t r (s.receiver r).location (s.receiver r).location := by
  refine ⟨fun l hl => ⟨((hs r l).mp hl).1, .inr ((hs r l).mp hl).2⟩, fun l hfit => ?_⟩
  rw [State.slot_of_racks h]
  split
  next hl => exact ((hs r l).mp hl).2
  next => rfl

theorem State.reslots_empty (hl : l.fits) (h : t.racks = (s.setSlot l none).racks) : s.reslots t r (some l) none := by
  refine ⟨nofun, fun m hm => ?_⟩
  rw [State.slot_of_racks h, s.slot_setSlot hl hm]
  simp [eq_comm]

theorem State.reslots_fill (hl : l.fits) (hfree : s.slot l = none ∨ s.slot l = some r)
    (h : t.racks = (s.setSlot l (some r)).racks) : s.reslots t r none (some l) := by
  refine ⟨by rintro _ ⟨⟩; exact ⟨hl, hfree⟩, fun m hm => ?_⟩
  rw [State.slot_of_racks h, s.slot_setSlot hl hm]
  simp [eq_comm]

theorem State.reslots_move (hm : m.fits) (hl : l.fits) (hfree : s.slot l = none ∨ s.slot l = some r)
    (h : t.racks = ((s.setSlot m none).setSlot l (some r)).racks) : s.reslots t r (some m) (some l) := by
  refine ⟨by rintro _ ⟨⟩; exact ⟨hl, hfree⟩, fun q hq => ?_⟩
  rw [State.slot_of_racks h, State.slot_setSlot _ hl hq, State.slot_setSlot _ hm hq]
  simp [eq_comm]

/-- The monitor positions are kept by a move of a receiver that is MONITOR before it and behind it, or neither. -/
theorem State.reposts_same {y : ReceiverState} (h : t.fleet.monitors = s.fleet.monitors) (hs : s.monitorsAgree)
    (hy : y = .monitor ↔ (s.receiver r).state = .monitor) : s.reposts t r y := by
  have hmonitor : t.monitorAt = s.monitorAt := by funext p; unfold State.monitorAt; rw [h]
  unfold State.reposts
  rw [hmonitor]
  exact ⟨fun _ _ _ _ => Iff.rfl, hy.trans (hs.1 r), fun p q hp hq => hs.2 p q r hp hq⟩

/-- The hires are kept by a move that keeps the receiver's hire and its stage (R119). -/
theorem State.rehires_same {e : Receiver} (h : t.hires = s.hires) (hs : s.hiresAgree)
    (hhire : e.hire = (s.receiver r).hire) (hstage : e.state.stage = (s.receiver r).state.stage) : s.rehires t r e := by
  rw [State.hiresAgree_iff] at hs
  obtain ⟨hrecords, hnames, hnext⟩ := hs
  have hread : t.hire = s.hire := by funext n; unfold State.hire; rw [h]
  refine ⟨fun n x _ => by rw [hread], fun n x hx hr => ?_, ?_, ?_⟩
  · have hkept := hrecords n x (by rw [← hread]; exact hx)
    unfold Hire.keptBy at hkept ⊢
    rw [hhire, hstage, ← hr]; exact hkept
  · have hname := hnames r
    unfold State.names at hname ⊢
    rw [hread, hhire, hstage]; exact hname
  · unfold State.nextFree at hnext ⊢
    rw [hread, h]; exact hnext

/-- The next hire number stays free when a record that is there is edited or leaves. -/
theorem State.nextFree.edit {n : Nat} {h : Hire} (hs : s.nextFree) (hn : s.hire n = some h)
    (hothers : ∀ m, m ≠ n → t.hire m = s.hire m) (hnext : t.hires.next = s.hires.next) : t.nextFree := by
  obtain ⟨hfree, hrange⟩ := hs
  refine ⟨?_, hnext ▸ hrange⟩
  rw [hnext, hothers _ fun he => by rw [he, hn] at hfree; cases hfree]
  exact hfree

/-- The one record of number `n` is edited, added or removed, with the receiver that it names, and no other names. -/
theorem State.rehires_edit {e : Receiver} {n : Nat} (hs : s.hiresAgree) (hothers : ∀ m, m ≠ n → t.hire m = s.hire m)
    (hold : ∀ h, s.hire n = some h → h.receiver = r) (hnames : ∀ m, (s.receiver r).hire = some m → m = n)
    (hnew : ∀ h, t.hire n = some h → h.receiver = r ∧ h.keptBy n e) (hself : t.names r e) (hnext : t.nextFree) :
    s.rehires t r e := by
  rw [State.hiresAgree_iff] at hs
  obtain ⟨hrecords, -, -⟩ := hs
  refine ⟨fun m x hx => ?_, fun m x hx hr => ?_, hself, hnext⟩
  · by_cases hm : m = n
    · rw [hm]
      exact ⟨fun ht => absurd (hnew x ht).1 hx, fun hs => absurd (hold x hs) hx⟩
    · rw [hothers m hm]
  · by_cases hm : m = n
    · exact hm ▸ (hnew x (hm ▸ hx)).2
    · obtain ⟨hnum, hopen⟩ := hrecords m x (by rw [← hothers m hm]; exact hx)
      exact ⟨hnum, fun hst => absurd (hnames m (hr ▸ (hopen hst).2)) hm⟩
end

/-- A move that leaves alone the slot map, the poll lists, the monitor positions, the hires and the listener counts. -/
theorem State.moves_plain {s t : State} {r : Nat} {e : Receiver} (hs : s.fleetAgrees)
    (hseen : t.fleetSeen = (s.setReceiver r e).fleetSeen) (hloc : e.location = (s.receiver r).location)
    (hlist : e.state.list = (s.receiver r).state.list) (hhire : e.hire = (s.receiver r).hire)
    (hstage : e.state.stage = (s.receiver r).state.stage) (hcounts : ∀ c, e.counts c = (s.receiver r).counts c)
    (hfits : e.locationFits ∧ e.silenceFits) : s.moves t r e := by
  simp only [State.fleetSeen, Prod.mk.injEq] at hseen
  obtain ⟨hracks, hfleet, ⟨h0, h1, h2, h3, hlisteners⟩, hhires, -⟩ := hseen
  obtain ⟨hslots, hlists, hmonitors, hires, -⟩ := hs
  have hcount : ∀ c, t.listeners c = s.listeners c := fun c => by unfold State.listeners; rw [hlisteners]; rfl
  refine ⟨fun q => ?_, ?_, fun i => ?_, ?_, State.rehires_same hhires hires hhire hstage, hfits, fun c _ => ?_⟩
  · unfold State.receiver; rw [hfleet]; exact State.receiver_setReceiver s r q e
  · rw [hloc]; exact State.reslots_same hracks hslots
  · rw [PollList.moved, if_pos hlist.symm]
    cases i <;> assumption
  · refine State.reposts_same (by rw [hfleet]; rfl) hmonitors ?_
    revert hlist
    cases e.state <;> cases (s.receiver r).state <;> simp [ReceiverState.list]
  · rw [hcount, hcounts]

/-! ### The parts of the agreement, by name -/

theorem State.fleetAgrees.slots {s : State} (h : s.fleetAgrees) : s.slotsAgree := h.1

theorem State.fleetAgrees.lists {s : State} (h : s.fleetAgrees) : s.listsAgree := h.2.1

theorem State.fleetAgrees.monitors {s : State} (h : s.fleetAgrees) : s.monitorsAgree := h.2.2.1

theorem State.fleetAgrees.hires {s : State} (h : s.fleetAgrees) : s.hiresAgree := h.2.2.2.1

theorem State.fleetAgrees.fits {s : State} (h : s.fleetAgrees) (r : Nat) :
    (s.receiver r).locationFits ∧ (s.receiver r).silenceFits := h.2.2.2.2 r

theorem State.fleetAgrees.records {s : State} (h : s.fleetAgrees) (n : Nat) (x : Hire) (hx : s.hire n = some x) :
    x.keptBy n (s.receiver x.receiver) := (s.hiresAgree_iff.mp h.hires).1 n x hx

theorem State.fleetAgrees.names {s : State} (h : s.fleetAgrees) (r : Nat) : s.names r (s.receiver r) :=
  (s.hiresAgree_iff.mp h.hires).2.1 r

theorem State.fleetAgrees.nextFree {s : State} (h : s.fleetAgrees) : s.nextFree := (s.hiresAgree_iff.mp h.hires).2.2

end Sys2Proof.Machine
end

