-- ==== Sys2Proof/Proofs/FleetUnseen.lean ====
section
/-! O59: the audio side, the units, the clock, the meters and the reading requests touch nothing that the fleet sees
(`State.fleetSeen`). -/

namespace Sys2Proof.Machine

section
variable (s : State)

@[simp] theorem State.seen_raise (n : Notice) : (s.raise n).fleetSeen = s.fleetSeen := rfl
@[simp] theorem State.seen_setUnit (u : Nat) (e : UnitEntry) : (s.setUnit u e).fleetSeen = s.fleetSeen := rfl
@[simp] theorem State.seen_setDesk (b d : Nat) (k : Desk) : (s.setDesk b d k).fleetSeen = s.fleetSeen := rfl
@[simp] theorem State.seen_setDomain (b : Nat) (p : Side) (m : Domain) : (s.setDomain b p m).fleetSeen = s.fleetSeen := rfl
@[simp] theorem State.seen_setRelay (b : Nat) (c : Option Nat) : (s.setRelay b c).fleetSeen = s.fleetSeen := rfl
@[simp] theorem State.seen_setTurn (b : Nat) (p : Side) (t : TurnRecord) : (s.setTurn b p t).fleetSeen = s.fleetSeen := rfl
@[simp] theorem State.seen_setDeskRecord (b d : Nat) (r : DeskRecord) :
    (s.setDeskRecord b d r).fleetSeen = s.fleetSeen := rfl
@[simp] theorem State.seen_setInFlight (p : Option InFlight) : (s.setInFlight p).fleetSeen = s.fleetSeen := rfl
@[simp] theorem State.seen_setPhase (i : ListId) (n : Nat) : (s.setPhase i n).fleetSeen = s.fleetSeen := rfl
@[simp] theorem State.seen_setLowMark (r : Nat) (m : Bool) : (s.setLowMark r m).fleetSeen = s.fleetSeen := rfl
@[simp] theorem State.seen_setListening (d c n : Nat) : (s.setListening d c n).fleetSeen = s.fleetSeen := rfl
@[simp] theorem State.seen_setServiceSeconds (c k n : Nat) : (s.setServiceSeconds c k n).fleetSeen = s.fleetSeen := rfl
@[simp] theorem State.seen_setUnserved (c n : Nat) : (s.setUnserved c n).fleetSeen = s.fleetSeen := rfl
@[simp] theorem State.seen_setCough (b d : Nat) (on : Bool) : (setCough s b d on).fleetSeen = s.fleetSeen := rfl
@[simp] theorem unitReply_seen (u : Nat) : (unitReply s u).fleetSeen = s.fleetSeen := rfl
end

/-- A fold of operations that the fleet does not see is not seen. -/
theorem State.seen_foldl {α : Type} {f : State → α → State} (h : ∀ t x, (f t x).fleetSeen = t.fleetSeen) (l : List α)
    (s : State) : (l.foldl f s).fleetSeen = s.fleetSeen :=
  List.foldlRecOn (motive := fun t => t.fleetSeen = s.fleetSeen) l f rfl fun t ht x _ => (h t x).trans ht

theorem State.boothsAlone.seen {s t : State} (h : s.boothsAlone t) : t.fleetSeen = s.fleetSeen := by
  obtain ⟨x, y, rfl⟩ := h; rfl

theorem State.scores.seen {s t : State} (h : s.scores t) : t.fleetSeen = s.fleetSeen := by
  obtain ⟨⟨r, f, g, rfl⟩, -⟩ := h; rfl

@[simp] theorem settleEvent_seen (before : State) (e l : List Notice) (s : State) :
    (settleEvent before e l s).fleetSeen = s.fleetSeen := by rw [settleEvent_frame]; rfl

@[simp] theorem recordFault_seen (s : State) (u : Nat) (v : Severity) (c : Cause) (d : Nat) :
    (recordFault s u v c d).fleetSeen = s.fleetSeen := by rw [recordFault_frame]; rfl

@[simp] theorem flash_seen (s : State) (b d : Nat) : (flash s b d).fleetSeen = s.fleetSeen := (flash_boothsAlone s b d).seen

@[simp] theorem dropFlashes_seen (s : State) (b : Nat) : (dropFlashes s b).fleetSeen = s.fleetSeen := by
  rw [dropFlashes_frame]; rfl

@[simp] theorem endChannel_seen (s : State) (c : Nat) : (endChannel s c).1.fleetSeen = s.fleetSeen := by
  rw [endChannel_frame]; rfl

@[simp] theorem changeDomain_seen (s : State) (b : Nat) (p : Side) (new : Domain) :
    (changeDomain s b p new).fleetSeen = s.fleetSeen := by
  rw [changeDomain_eq, settleEvent_seen, activate_frame]
  exact (setDomainState_boothsAlone s b p new).seen

/-! ### The booths (R37 to R60) -/

@[simp] theorem micOn_seen (s : State) (b e : Nat) : (micOn s b e).fleetSeen = s.fleetSeen := by
  rcases micOn_cases s b e with h | h | ⟨p, new, h⟩ <;> rw [h] <;> simp

@[simp] theorem micOff_seen (s : State) (b x : Nat) : (micOff s b x).fleetSeen = s.fleetSeen := by
  unfold micOff
  dsimp only
  split
  · rfl
  · split <;> simp
  · split
    · simp
    · split <;> simp

@[simp] theorem cough_seen (s : State) (b d : Nat) (on : Bool) : (cough s b d on).fleetSeen = s.fleetSeen := by
  unfold cough; split <;> simp

@[simp] theorem selectOutput_seen (s : State) (b d : Nat) (x : Side) :
    (selectOutput s b d x).fleetSeen = s.fleetSeen := by unfold selectOutput; split <;> simp

@[simp] theorem relay_seen (s : State) (b d : Nat) (c : Byte) : (relay s b d c).fleetSeen = s.fleetSeen := by
  unfold relay
  split
  · simp
  · split <;> simp

@[simp] theorem deskEvent_seen (s : State) (b : Nat) (e : DeskEvent) : (deskEvent s b e).fleetSeen = s.fleetSeen := by
  unfold deskEvent
  split
  · split <;> simp
  · rfl

@[simp] theorem windowSecond_seen (s : State) (b : Nat) (p : Side) : (windowSecond s b p).fleetSeen = s.fleetSeen := by
  have hexpire : ∀ t, (expireWindow t b p).fleetSeen = t.fleetSeen := fun t => by
    unfold expireWindow
    split
    · split <;> simp
    · rfl
  unfold windowSecond
  split
  · dsimp only
    split <;> simp [hexpire]
  · rfl

theorem windowsSecond_seen (s : State) : (windowsSecond s).fleetSeen = s.fleetSeen := by
  unfold windowsSecond
  refine State.seen_foldl ?_ _ s
  exact fun t p => windowSecond_seen t p.1 p.2

theorem forceOff_seen (s : State) (o : BoothOutput) : (forceOff s o).fleetSeen = s.fleetSeen := by
  unfold forceOff
  dsimp only
  split
  · split <;> simp
  · rfl

theorem reconcileConsole_seen (s : State) (b : Nat) (l : List (Nat × DeskReport)) :
    (reconcileConsole s b l).fleetSeen = s.fleetSeen := by
  have hoff : ∀ (l : List (Nat × DeskReport)) (t : State × Nat),
      (l.foldl (reconcileOff b) t).1.fleetSeen = t.1.fleetSeen := fun l t =>
    List.foldlRecOn (motive := fun u : State × Nat => u.1.fleetSeen = t.1.fleetSeen) l _ rfl fun u hu p _ => by
      unfold reconcileOff; split <;> simp [hu]
  have hselection : ∀ (l : List (Nat × DeskReport)) (t : State),
      (l.foldl (reconcileSelection b) t).fleetSeen = t.fleetSeen := fun l t =>
    State.seen_foldl (fun u p => by unfold reconcileSelection; split <;> simp) l t
  have hon : ∀ (l : List (Nat × DeskReport)) (t : State × Nat),
      (l.foldl (reconcileOn b) t).1.fleetSeen = t.1.fleetSeen := fun l t =>
    List.foldlRecOn (motive := fun u : State × Nat => u.1.fleetSeen = t.1.fleetSeen) l _ rfl fun u hu p _ => by
      unfold reconcileOn; split <;> simp [hu]
  have hpasses : (reconcilePasses s b l).1.fleetSeen = s.fleetSeen := by
    unfold reconcilePasses
    dsimp only
    rw [hon]
    exact (hselection _ _).trans (hoff _ _)
  have hcoughs : ∀ t, (clearCoughs t b).fleetSeen = t.fleetSeen := fun t => by
    unfold clearCoughs
    rw [settleEvent_seen]
    exact State.seen_foldl (fun u d => State.seen_setCough u b d false) positions t
  unfold reconcileConsole
  dsimp only
  split <;> simp [hcoughs, hpasses]

/-! ### The check (R74 to R81) -/

theorem checkPoll_seen (s : State) (m : Nat) (q : DecodeRequest) (o : PollOutcome) :
    (checkPoll s m q o).fleetSeen = s.fleetSeen := by
  have hentry := (pollEntry_scores s q.channel m o).seen
  unfold checkPoll
  split
  · dsimp only
    split <;> simp [hentry]
  · rfl

theorem passToChecker_seen (s : State) (p : InFlight) (o : PollOutcome) : (passToChecker s p o).fleetSeen = s.fleetSeen := by
  unfold passToChecker
  split
  exacts [checkPoll_seen s _ _ o, rfl]

theorem failEntry_seen (s : State) (c m : Nat) : (failEntry s c m).fleetSeen = s.fleetSeen := rfl

theorem dwellSecond_seen (placed : Nat) (s : State) : (dwellSecond placed s).fleetSeen = s.fleetSeen := by
  have hexpire : ∀ t c, (expireDwell t c).fleetSeen = t.fleetSeen := fun t c => by
    unfold expireDwell
    dsimp only
    rw [settleEvent_seen, endChannel_seen]
    exact State.seen_foldl (fun u m => by split; exacts [failEntry_seen u c m, rfl]) _ t
  unfold dwellSecond
  split
  · rfl
  · split
    · dsimp only
      split
      · exact (hexpire _ _).trans rfl
      · rfl
    · rfl

/-! ### Units, meters and the clock (R61 to R69, R150 to R165) -/

theorem unitMiss_seen (s : State) (u : Nat) : (unitMiss s u).fleetSeen = s.fleetSeen := by
  have hloss : ∀ t : State, (ownLoss t u).fleetSeen = t.fleetSeen := fun t => by
    unfold ownLoss
    split
    · simp
    · split <;> simp
  unfold unitMiss
  dsimp only
  split
  · rw [recordFault_seen, hloss]; rfl
  · rfl

@[simp] theorem turnSecond_seen (s : State) (b : Nat) (p : Side) : (turnSecond s b p).fleetSeen = s.fleetSeen := by
  have hcount : (turnCount s b p).fleetSeen = s.fleetSeen := by unfold turnCount; split <;> simp
  have hdue : ∀ t, (turnDue t b p).fleetSeen = t.fleetSeen := fun t => by
    unfold turnDue; split; rfl; split <;> simp
  have hover : ∀ t, (turnOverrun t b p).fleetSeen = t.fleetSeen := fun t => by
    unfold turnOverrun; split; rfl; split <;> simp
  unfold turnSecond
  rw [hover, hdue, hcount]

theorem turnMeterSecond_seen (s : State) : (turnMeterSecond s).fleetSeen = s.fleetSeen := by
  unfold turnMeterSecond
  refine State.seen_foldl ?_ _ s
  exact fun t p => turnSecond_seen t p.1 p.2

theorem metersSecond_seen (s : State) : (metersSecond s).fleetSeen = s.fleetSeen :=
  State.seen_foldl (fun t c => by unfold meterChannel; dsimp only; split <;> simp) _ s

theorem clockReturn_seen (s : State) : (clockReturn s).fleetSeen = s.fleetSeen := by
  unfold clockReturn; split <;> rfl

theorem referenceGap_seen (s : State) : (referenceGap s).fleetSeen = s.fleetSeen := by
  have hlose : (loseReference s).fleetSeen = s.fleetSeen := by
    unfold loseReference
    dsimp only
    rw [State.seen_raise, recordFault_seen]
    rfl
  unfold referenceGap
  split
  exacts [hlose, rfl, rfl, rfl]

theorem stableReached_seen (s : State) : (stableReached s).fleetSeen = s.fleetSeen := by
  unfold stableReached
  split
  · split <;> rfl
  · rfl

@[simp] theorem creditReceiver_seen (s : State) (r d now : Nat) : (creditReceiver s r d now).fleetSeen = s.fleetSeen := by
  unfold creditReceiver credit; split <;> simp

@[simp] theorem replyCredit_seen (s : State) (r : Nat) (h : Option Nat) : (replyCredit s r h).fleetSeen = s.fleetSeen := by
  unfold replyCredit; split <;> simp

@[simp] theorem batteryTest_seen (s : State) (r band : Nat) : (batteryTest s r band).fleetSeen = s.fleetSeen := by
  unfold batteryTest; split <;> simp

/-! ### Services of requests -/

section
variable (body : List Byte) (s : State)

theorem serveReadStatus_seen : (serveReadStatus body s).1.fleetSeen = s.fleetSeen := by
  fun_cases serveReadStatus body s <;> rfl
theorem serveOpenSession_seen : (serveOpenSession body s).1.fleetSeen = s.fleetSeen := by
  fun_cases serveOpenSession body s <;> rfl
theorem serveSetTime_seen : (serveSetTime body s).1.fleetSeen = s.fleetSeen := by fun_cases serveSetTime body s <;> rfl
theorem serveWriteLimits_seen : (serveWriteLimits body s).1.fleetSeen = s.fleetSeen := by
  fun_cases serveWriteLimits body s <;> rfl
theorem serveReadLimits_seen : (serveReadLimits body s).1.fleetSeen = s.fleetSeen := by
  fun_cases serveReadLimits body s <;> rfl
theorem serveReadFault_seen : (serveReadFault body s).1.fleetSeen = s.fleetSeen := by
  fun_cases serveReadFault body s <;> rfl
theorem serveClearFault_seen : (serveClearFault body s).1.fleetSeen = s.fleetSeen := by
  fun_cases serveClearFault body s <;> rfl
theorem serveReadChannel_seen : (serveReadChannel body s).1.fleetSeen = s.fleetSeen := by
  fun_cases serveReadChannel body s <;> rfl
theorem serveReadSources_seen : (serveReadSources body s).1.fleetSeen = s.fleetSeen := by
  fun_cases serveReadSources body s <;> rfl
theorem serveReadBooth_seen : (serveReadBooth body s).1.fleetSeen = s.fleetSeen := by
  fun_cases serveReadBooth body s <;> rfl
theorem serveReadDesks_seen : (serveReadDesks body s).1.fleetSeen = s.fleetSeen := by
  fun_cases serveReadDesks body s <;> rfl
theorem serveReadCheck_seen : (serveReadCheck body s).1.fleetSeen = s.fleetSeen := by
  fun_cases serveReadCheck body s <;> rfl
theorem serveReadReceiver_seen : (serveReadReceiver body s).1.fleetSeen = s.fleetSeen := by
  fun_cases serveReadReceiver body s <;> rfl
theorem serveReadRack_seen : (serveReadRack body s).1.fleetSeen = s.fleetSeen := by
  fun_cases serveReadRack body s <;> rfl
theorem serveWriteSchedule_seen : (serveWriteSchedule body s).1.fleetSeen = s.fleetSeen := by
  fun_cases serveWriteSchedule body s <;> rfl
theorem serveReadListeners_seen : (serveReadListeners body s).1.fleetSeen = s.fleetSeen := by
  fun_cases serveReadListeners body s <;> rfl
theorem serveReadHire_seen : (serveReadHire body s).1.fleetSeen = s.fleetSeen := by
  fun_cases serveReadHire body s <;> rfl
theorem serveReadSettlement_seen : (serveReadSettlement body s).1.fleetSeen = s.fleetSeen := by
  fun_cases serveReadSettlement body s <;> rfl
theorem serveWriteTariff_seen : (serveWriteTariff body s).1.fleetSeen = s.fleetSeen := by
  fun_cases serveWriteTariff body s <;> rfl
theorem serveReadTariff_seen : (serveReadTariff body s).1.fleetSeen = s.fleetSeen := by
  fun_cases serveReadTariff body s <;> rfl
theorem serveFreezeTariffs_seen : (serveFreezeTariffs body s).1.fleetSeen = s.fleetSeen := by
  fun_cases serveFreezeTariffs body s <;> rfl
theorem serveReadDelegation_seen : (serveReadDelegation body s).1.fleetSeen = s.fleetSeen := by
  fun_cases serveReadDelegation body s <;> rfl
theorem serveReadService_seen : (serveReadService body s).1.fleetSeen = s.fleetSeen := by
  fun_cases serveReadService body s <;> rfl

theorem serveReadDeskRecords_seen : (serveReadDeskRecords body s).1.fleetSeen = s.fleetSeen := by
  have hraise : ∀ (t : State) b p, (raiseLongest t b p).fleetSeen = t.fleetSeen := fun t b p => by
    unfold raiseLongest; split <;> rfl
  fun_cases serveReadDeskRecords body s
  exacts [(hraise _ _ .b).trans (hraise s _ .a), rfl, rfl]

theorem serveClearDelegation_seen : (serveClearDelegation body s).1.fleetSeen = s.fleetSeen := by
  have hrow : ∀ d, (clearRow s d).fleetSeen = s.fleetSeen := fun d => by
    unfold clearRow
    exact State.seen_foldl (fun t c => State.seen_setListening t d c 0) allChannels s
  fun_cases serveClearDelegation body s
  exacts [hrow _, rfl, rfl, rfl]

theorem quietHall_seen : (quietHall s).fleetSeen = s.fleetSeen := by rw [quietHall_frame]; rfl

theorem serveCloseSession_seen : (serveCloseSession body s).1.fleetSeen = s.fleetSeen := by
  unfold serveCloseSession
  split
  · split
    · exact (settleEvent_seen _ _ _ _).trans (quietHall_seen s)
    · rfl
  · rfl

theorem abortCheckState_seen : (abortCheckState s).1.fleetSeen = s.fleetSeen := by
  unfold abortCheckState; split <;> rfl

theorem serveResetAudio_seen : (serveResetAudio body s).1.fleetSeen = s.fleetSeen := by
  have hunsee : ∀ t, (unseeConsoles t).fleetSeen = t.fleetSeen := fun t =>
    State.seen_foldl (fun u b => State.seen_setUnit u b .unseen) allBooths t
  have hrelays : ∀ t, (clearRelays t).fleetSeen = t.fleetSeen := fun _ => rfl
  have hreset : (resetAudioState s).fleetSeen = s.fleetSeen := by
    unfold resetAudioState
    dsimp only
    rw [settleEvent_seen, hunsee, hrelays, abortCheckState_seen, quietHall_seen]
  unfold serveResetAudio
  split
  exacts [hreset, rfl]

/-- Announcements entered on channels are not seen. -/
theorem announced_seen (f : Nat → AnnState) (cs : List Nat) (i : AnnInput) (x : Option ChannelSet) :
    ((cs.foldl (fun t c => t.setAnnouncement c (f c)) s).setInput i x).fleetSeen = s.fleetSeen :=
  (show _ = (cs.foldl (fun t c => t.setAnnouncement c (f c)) s).fleetSeen from rfl).trans
    (State.seen_foldl (f := fun t c => t.setAnnouncement c (f c)) (fun _ _ => rfl) cs s)

theorem serveWriteChannel_seen : (serveWriteChannel body s).1.fleetSeen = s.fleetSeen := by
  fun_cases serveWriteChannel body s
  exacts [rfl, rfl, (settleEvent_seen _ _ _ _).trans rfl, rfl]

theorem serveSetFloorLanguage_seen : (serveSetFloorLanguage body s).1.fleetSeen = s.fleetSeen := by
  fun_cases serveSetFloorLanguage body s
  exacts [(settleEvent_seen _ _ _ _).trans rfl, rfl, rfl]

theorem serveStartAnnouncement_seen : (serveStartAnnouncement body s).1.fleetSeen = s.fleetSeen := by
  have hbegin : ∀ i set, (beginAnnouncement s i set).fleetSeen = s.fleetSeen := fun i set => by
    unfold beginAnnouncement
    rw [settleEvent_seen]
    exact announced_seen s _ (channelsOf set) i (some set)
  unfold serveStartAnnouncement
  split
  · split
    · rfl
    · extract_lets set
      clear_value set
      split
      · rfl
      · split
        exacts [rfl, hbegin _ _]
  · rfl

theorem serveStopAnnouncement_seen : (serveStopAnnouncement body s).1.fleetSeen = s.fleetSeen := by
  have hstop : ∀ i set, (stopInput s i set).fleetSeen = s.fleetSeen := fun i set => by
    unfold stopInput
    rw [settleEvent_seen]
    exact announced_seen s (fun _ => .none) (channelsOf set) i none
  unfold serveStopAnnouncement
  split
  · split
    · rfl
    · split
      exacts [hstop _ _, rfl]
  · rfl

theorem serveWriteBooth_seen : (serveWriteBooth body s).1.fleetSeen = s.fleetSeen := by
  unfold serveWriteBooth
  split
  · split
    · split
      · dsimp only
        split
        exacts [rfl, (storeConfig_boothsAlone s _ _).seen]
      · rfl
    · rfl
  · rfl

theorem serveForceOutputOff_seen : (serveForceOutputOff body s).1.fleetSeen = s.fleetSeen := by
  unfold serveForceOutputOff
  split
  · split
    · split
      exacts [forceOff_seen s _, rfl]
    · rfl
  · rfl

theorem serveStartCheck_seen : (serveStartCheck body s).1.fleetSeen = s.fleetSeen := by
  have hbegin : ∀ p, (beginCheck s p).fleetSeen = s.fleetSeen := fun p => by
    unfold beginCheck
    dsimp only
    rw [settleEvent_seen, takeNextChannel_frame]
    rfl
  fun_cases serveStartCheck body s
  exacts [rfl, hbegin _, rfl]

theorem serveAbortCheck_seen : (serveAbortCheck body s).1.fleetSeen = s.fleetSeen := by
  have habort : (abortCheck s).fleetSeen = s.fleetSeen := by
    unfold abortCheck
    split
    · rw [settleEvent_seen, abortCheckState_seen]
    · rfl
  unfold serveAbortCheck
  split
  exacts [habort, rfl]
end

end Sys2Proof.Machine
end

