-- ==== Sys2Proof/Proofs/FleetEvents.lean ====
section
/-! O59: each operation on a receiver, a slot, a monitor position or a hire is a move of one receiver, or some of them one
behind the other. -/

namespace Sys2Proof.Machine

/-! ### Moves in general -/

/-- What the fleet sees decides what a move has brought. -/
theorem State.moves.of_seen {s t u : State} {r : Nat} {e : Receiver} (h : s.moves t r e) (hu : u.fleetSeen = t.fleetSeen) :
    s.moves u r e := by
  simp only [State.fleetSeen, Prod.mk.injEq] at hu
  obtain ⟨hracks, hfleet, ⟨h0, h1, h2, h3, hcounts⟩, hhires, -⟩ := hu
  have hreceiver : u.receiver = t.receiver := by funext q; unfold State.receiver; rw [hfleet]
  have hslot : u.slot = t.slot := by funext l; unfold State.slot; rw [hracks]
  have hmonitor : u.monitorAt = t.monitorAt := by funext p; unfold State.monitorAt; rw [hfleet]
  have hhire : u.hire = t.hire := by funext n; unfold State.hire; rw [hhires]
  have hlist : u.pollList = t.pollList := by funext i; cases i <;> assumption
  have hlisteners : u.listeners = t.listeners := by funext c; unfold State.listeners; rw [hcounts]
  obtain ⟨hreceivers, hslots, hlists, hmonitors, hires, hfits, hcount⟩ := h
  refine ⟨by rw [hreceiver]; exact hreceivers, ?_, by rw [hlist]; exact hlists, ?_, ?_, hfits,
    by rw [hlisteners]; exact hcount⟩
  · unfold State.reslots at hslots ⊢; rw [hslot]; exact hslots
  · unfold State.reposts at hmonitors ⊢; rw [hmonitor]; exact hmonitors
  · unfold State.rehires State.names State.nextFree at hires ⊢; rw [hhire, hhires]; exact hires

theorem Receiver.counts_zero {e : Receiver} (h : e.state ≠ .out ∨ e.tuned = none) (c : Nat) : e.counts c = 0 := by
  refine if_neg ?_
  rintro ⟨ho, hc⟩
  rcases h with h | h
  · exact h ho
  · rw [h] at hc; cases hc

theorem ReceiverState.stage_two {y : ReceiverState} (h : y.stage ≠ 2) : y ≠ .out ∧ y ≠ .silent := by
  constructor <;> rintro rfl <;> exact h rfl

/-- A move of a receiver that is not out on a hire, and keeps its hire. -/
theorem State.moves_posted {s t : State} {r : Nat} {e : Receiver} (hs : s.fleetAgrees)
    (hreceivers : t.receiver = (s.setReceiver r e).receiver) (hhires : t.hires = s.hires)
    (hlisteners : t.beacon.listeners = s.beacon.listeners) (hslots : s.reslots t r (s.receiver r).location e.location)
    (hlists : ∀ i, t.pollList i = (s.pollList i).moved i r (s.receiver r).state e.state)
    (hmonitors : s.reposts t r e.state)
    (hstage : e.state.stage = (s.receiver r).state.stage) (hidle : (s.receiver r).state.stage ≠ 2)
    (hkept : e.hire = (s.receiver r).hire ∧ e.silentSince = (s.receiver r).silentSince ∧
      e.missingReported = (s.receiver r).missingReported ∧ e.tuned = (s.receiver r).tuned) (hfits : e.locationFits) :
    s.moves t r e := by
  obtain ⟨-, -, -, hires, hfit⟩ := hs
  obtain ⟨hhire, hsince, hmissing, htuned⟩ := hkept
  obtain ⟨hout, hsilent⟩ := ReceiverState.stage_two hidle
  obtain ⟨heout, hesilent⟩ := ReceiverState.stage_two (hstage ▸ hidle)
  have hcount : ∀ c, t.listeners c = s.listeners c := fun c => by unfold State.listeners; rw [hlisteners]
  refine ⟨fun q => ?_, hslots, hlists, hmonitors, State.rehires_same hhires hires hhire hstage, ⟨hfits, ?_⟩,
    fun c _ => ?_⟩
  · rw [hreceivers]; exact State.receiver_setReceiver s r q e
  · obtain ⟨hfsince, hfmissing, hftuned⟩ := (hfit r).2
    unfold Receiver.silenceFits
    rw [hsince, hmissing, htuned]
    exact ⟨hfsince.trans (by simp [hsilent, hesilent]), fun h => absurd (hfmissing h) hsilent, hftuned⟩
  · rw [hcount, Receiver.counts_zero (.inl hout), Receiver.counts_zero (.inl heout)]

/-- A move of a receiver that is not out on a hire, keeps its hire, and is MONITOR before it and behind it, or neither. -/
theorem State.moves_idle {s t : State} {r : Nat} {e : Receiver} (hs : s.fleetAgrees)
    (hfleet : t.fleet = (s.setReceiver r e).fleet) (hhires : t.hires = s.hires)
    (hlisteners : t.beacon.listeners = s.beacon.listeners) (hslots : s.reslots t r (s.receiver r).location e.location)
    (hlists : ∀ i, t.pollList i = (s.pollList i).moved i r (s.receiver r).state e.state)
    (hmonitor : e.state = .monitor ↔ (s.receiver r).state = .monitor)
    (hstage : e.state.stage = (s.receiver r).state.stage) (hidle : (s.receiver r).state.stage ≠ 2)
    (hkept : e.hire = (s.receiver r).hire ∧ e.silentSince = (s.receiver r).silentSince ∧
      e.missingReported = (s.receiver r).missingReported ∧ e.tuned = (s.receiver r).tuned) (hfits : e.locationFits) :
    s.moves t r e :=
  State.moves_posted hs (by funext q; unfold State.receiver; rw [hfleet]) hhires hlisteners hslots hlists
    (State.reposts_same (by rw [hfleet]; rfl) hs.monitors hmonitor) hstage hidle hkept hfits

section
variable {s : State} {l : Location} {r : Nat}

theorem State.fleetAgrees.located (hs : s.fleetAgrees) (hl : l.fits) (h : s.slot l = some r) :
    (s.receiver r).location = some l := (hs.slots r l).mpr ⟨hl, h⟩

theorem HireState.stage_pos (x : HireState) : x.stage ≠ 0 := by cases x <;> simp [HireState.stage]

/-- A receiver that is on no hire names none (R119). -/
theorem State.fleetAgrees.unhired (hs : s.fleetAgrees) (h : (s.receiver r).state.stage = 0) :
    (s.receiver r).hire = none := by
  have hname := hs.names r
  unfold State.names at hname
  split at hname
  · obtain ⟨x, -, -, hstage⟩ := hname
    exact absurd (hstage.trans h) x.state.stage_pos
  · assumption

/-- A receiver on a hire names the open hire that holds it (R119). -/
theorem State.fleetAgrees.hired (hs : s.fleetAgrees) (h : (s.receiver r).state.stage ≠ 0) :
    ∃ n x, (s.receiver r).hire = some n ∧ s.hire n = some x ∧ x.receiver = r ∧ x.number = n ∧
      x.state.stage = (s.receiver r).state.stage := by
  obtain ⟨hrecords, hnames, -⟩ := s.hiresAgree_iff.mp hs.hires
  have hname := hnames r
  unfold State.names at hname
  split at hname
  next n hn =>
    obtain ⟨x, hx, hr, hstage⟩ := hname
    exact ⟨n, x, hn, hx, hr, (hrecords n x hx).1, hstage⟩
  next => exact absurd hname h

/-- The receiver of an open hire names it (R119). -/
theorem State.fleetAgrees.holder (hs : s.fleetAgrees) {n : Nat} {h : Hire} (hn : s.hire n = some h)
    (hst : h.state.stage ≠ 3) :
    h.number = n ∧ h.state.stage = (s.receiver h.receiver).state.stage ∧ (s.receiver h.receiver).hire = some n := by
  obtain ⟨hnum, hopen⟩ := hs.records n h hn
  exact ⟨hnum, hopen hst⟩

/-- The hires behind the edit of the record `h` of number `n`, which receiver `r` names, to `x`. -/
theorem State.fleetAgrees.rehires_record {t : State} {n : Nat} {h x : Hire} {e : Receiver} (hs : s.fleetAgrees)
    (hn : s.hire n = some h) (hrec : h.receiver = r) (hname : (s.receiver r).hire = some n)
    (ht : t.hires = (s.setHire n (some x)).hires) (hx : x.receiver = r ∧ x.keptBy n e)
    (hself : (e.hire = none ∧ e.state.stage = 0) ∨ (e.hire = some n ∧ x.state.stage = e.state.stage)) :
    s.rehires t r e := by
  have hread : ∀ m, t.hire m = if m = n then some x else s.hire m := fun m => by
    unfold State.hire; rw [ht]; exact State.hire_setHire s n m _
  have hthere : t.hire n = some x := (hread n).trans (if_pos rfl)
  refine State.rehires_edit (n := n) hs.hires (fun m hm => (hread m).trans (if_neg hm)) (fun y hy => ?_) (fun m hm => ?_)
    (fun y hy => ?_) ?_ ?_
  · obtain rfl := Option.some.inj (hn.symm.trans hy); exact hrec
  · exact Option.some.inj (hm.symm.trans hname)
  · obtain rfl := Option.some.inj (hthere.symm.trans hy); exact hx
  · unfold State.names
    rcases hself with ⟨he, hstage⟩ | ⟨he, hstage⟩ <;> rw [he]
    exacts [hstage, ⟨x, hthere, hx.1, hstage⟩]
  · exact hs.nextFree.edit hn (fun m hm => (hread m).trans (if_neg hm)) (by rw [ht]; rfl)

/-! ### UNDOCK (R88) -/

theorem State.strayed_moves (hs : s.fleetAgrees) (hl : l.fits) (hslot : s.slot l = some r)
    (hst : (s.receiver r).state = .docked) :
    s.moves (s.strayed l r) r { s.receiver r with location := none, state := .stray, misses := 0 } := by
  refine State.moves_idle hs rfl rfl rfl ?_ (fun i => ?_) (by simp [hst]) (by rw [hst]; rfl) (by rw [hst]; decide)
    ⟨rfl, rfl, rfl, rfl⟩ rfl
  · rw [hs.located hl hslot]; exact State.reslots_empty hl rfl
  · rw [hst]; cases i <;> rfl

theorem State.emptied_moves (hs : s.fleetAgrees) (hl : l.fits) (hslot : s.slot l = some r)
    (hd : (s.receiver r).state ≠ .docked) (hr : (s.receiver r).state ≠ .reserved) :
    s.moves (s.emptied l r) r { s.receiver r with location := none } := by
  have hloc := hs.located hl hslot
  have hfits := (hs.fits r).1
  refine State.moves_idle hs rfl rfl rfl ?_ (fun i => (if_pos rfl).symm) Iff.rfl rfl ?_ ⟨rfl, rfl, rfl, rfl⟩ ?_
  · rw [hloc]; exact State.reslots_empty hl rfl
  · unfold Receiver.locationFits at hfits
    rw [hloc] at hfits
    revert hfits
    cases (s.receiver r).state <;> simp [ReceiverState.stage]
  · unfold Receiver.locationFits
    dsimp only
    split <;> simp_all

theorem State.drawn_moves (hs : s.fleetAgrees) (hl : l.fits) (hslot : s.slot l = some r)
    (hst : (s.receiver r).state = .reserved) {n : Nat} {h : Hire} (hname : (s.receiver r).hire = some n)
    (hn : s.hire n = some h) (hrec : h.receiver = r) (hnum : h.number = n) (rec : Bool) :
    s.moves ((s.drawn l r).setHire n (some (s.begun h rec))) r
      { s.receiver r with location := none, state := .out, tuned := none, misses := 0 } := by
  obtain ⟨hsince, hmissing, -⟩ := (hs.fits r).2
  rw [hst] at hsince hmissing
  refine ⟨fun q => State.receiver_setReceiver _ r q _, ?_, fun i => ?_, State.reposts_same rfl hs.monitors (by simp [hst]),
    ?_, ⟨rfl, ?_⟩, fun c _ => ?_⟩
  · rw [hs.located hl hslot]; exact State.reslots_empty hl rfl
  · rw [hst]; cases i <;> rfl
  · exact hs.rehires_record hn hrec hname rfl ⟨hrec, hnum, fun _ => ⟨rfl, hname⟩⟩ (.inr ⟨hname, rfl⟩)
  · exact ⟨by simpa using hsince, fun h => absurd (hmissing h) (by decide), Nat.zero_le _⟩
  · rw [Receiver.counts_zero (.inl (by simp [hst])), Receiver.counts_zero (.inr rfl)]; rfl

theorem undock_accord (s : State) (hl : l.fits) (rec : Bool) : Accord s (undock s l rec) := by
  cases hslot : s.slot l with
  | none => rw [undock_empty hslot]; exact .refl s
  | some r =>
    refine .given fun hs => ?_
    by_cases hd : (s.receiver r).state = .docked
    · refine .moved (undock_work s l rec) fun hs => (State.strayed_moves hs hl hslot hd).of_seen ?_
      rw [undock_docked hslot hd]; rfl
    by_cases hr : (s.receiver r).state = .reserved
    · obtain ⟨n, h, hname, hn, hrec, hnum, hstage⟩ := hs.hired (r := r) (by rw [hr]; decide)
      rw [hr] at hstage
      obtain ⟨w, hw⟩ : ∃ w, h.state = .pending w := by
        cases hh : h.state with
        | pending w => exact ⟨w, rfl⟩
        | _ => rw [hh] at hstage; cases hstage
      refine .moved (undock_work s l rec) fun hs => (State.drawn_moves hs hl hslot hr hname hn hrec hnum rec).of_seen ?_
      rw [undock_reserved hslot hr hname hn hw]; rfl
    · refine .moved (undock_work s l rec) fun hs => (State.emptied_moves hs hl hslot hd hr).of_seen ?_
      rw [undock_other hslot hd hr]

end

end Sys2Proof.Machine
end

