-- ==== Sys2Proof/Proofs/FleetDocks.lean ====
section
/-! O59: a DOCK in each of its forms, and a hire that closes or settles, keep the fleet in accord. -/

namespace Sys2Proof.Machine

/-! ### A settlement (R130) -/

/-- A CLOSING hire that leaves the table holds no receiver (R119). -/
theorem State.rehires_settled {s t : State} {n st ds fi de : Nat} {h : Hire} (hs : s.hiresAgree) (hn : s.hire n = some h)
    (hst : h.state = .closing st ds fi de) (hhires : t.hires = (s.setHire n none).hires) :
    s.rehires t h.receiver (s.receiver h.receiver) := by
  obtain ⟨hrecords, hnames, hnext⟩ := s.hiresAgree_iff.mp hs
  have hread : ∀ m, t.hire m = if m = n then none else s.hire m := fun m => by
    unfold State.hire; rw [hhires]; exact State.hire_setHire s n m _
  have hkept : ∀ m x, t.hire m = some x → s.hire m = some x := fun m x hx => by
    rw [hread] at hx
    split at hx
    · cases hx
    · exact hx
  have hleft : ∀ m x, s.hire m = some x → x ≠ h → t.hire m = some x := fun m x hx hne => by
    rw [hread, if_neg]
    · exact hx
    · rintro rfl
      exact hne (Option.some.inj (hx.symm.trans hn))
  refine ⟨fun m x hr => ⟨hkept m x, fun hx => hleft m x hx fun he => hr (he ▸ rfl)⟩, fun m x hx hr => ?_, ?_, ?_⟩
  · exact hr ▸ hrecords m x (hkept m x hx)
  · have hname := hnames h.receiver
    unfold State.names at hname ⊢
    split at hname
    · obtain ⟨x, hx, hr, hstage⟩ := hname
      refine ⟨x, hleft _ x hx fun he => ?_, hr, hstage⟩
      rw [he, hst] at hstage
      have hle := (s.receiver h.receiver).state.stage_le
      rw [← hstage] at hle
      exact absurd hle (by simp [HireState.stage])
    · exact hname
  · exact hnext.edit hn (fun m hm => (hread m).trans (if_neg hm)) (by rw [hhires]; rfl)

/-- A step that changes no receiver, list, slot or monitor position, and keeps receiver `r` with its hires. -/
theorem State.moves_none {s t : State} {r : Nat} (hs : s.fleetAgrees) (hracks : t.racks = s.racks)
    (hfleet : t.fleet = s.fleet) (hbeacon : t.beacon = s.beacon) (hhires : s.rehires t r (s.receiver r)) :
    s.moves t r (s.receiver r) := by
  refine ⟨fun q => ?_, State.reslots_same hracks hs.slots, fun i => ?_,
    State.reposts_same (by rw [hfleet]) hs.monitors Iff.rfl, hhires, hs.fits r, fun c _ => ?_⟩
  · unfold State.receiver
    rw [hfleet]
    split
    next hq => rw [hq]
    next => rfl
  · rw [PollList.moved, if_pos rfl]
    cases i <;> simp only [State.pollList, hbeacon]
  · unfold State.listeners; rw [hbeacon]

/-- A hire settles into a queue that has a place (R130). -/
theorem settleHire_accord {s : State} {q : List Settlement}
    (hq : s.money.queue.length ≤ Config.settlementPlaces → q.length < Config.settlementPlaces) (n : Nat) :
    Accord s (settleHire (s.setQueue q) n) := by
  have hwork := settleHire_work hq n
  by_cases hclosing : ∃ h st ds fi de, s.hire n = some h ∧ h.state = .closing st ds fi de
  · obtain ⟨h, st, ds, fi, de, hn, hst⟩ := hclosing
    rw [settleHire_closing (s := s.setQueue q) hn hst] at hwork ⊢
    exact .moved hwork fun hs =>
      State.moves_none hs rfl rfl rfl (State.rehires_settled hs.hires hn hst rfl)
  · rw [settleHire_open (s := s.setQueue q) fun h hn st ds fi de hst => hclosing ⟨h, st, ds, fi, de, hn, hst⟩] at hwork ⊢
    exact .moved (r := 0) hwork fun hs =>
      State.moves_none hs rfl rfl rfl (State.rehires_same rfl hs.hires rfl rfl)

theorem settleOrWait_accord (s : State) (n : Nat) : Accord s (settleOrWait s n) := by
  unfold settleOrWait
  split
  next hq => exact settleHire_accord (q := s.money.queue) (fun _ => hq) n
  next => exact .refl s

/-! ### A hire that closes (R129) -/

theorem State.pollList_congr {s t : State} (h : t.beacon = s.beacon) : t.pollList = s.pollList := by
  funext i; cases i <;> simp only [State.pollList, h]

section
variable {s t : State} {r n : Nat} {h : Hire}

/-- A receiver that leaves its hire is off its list, in a state of no list (R102). -/
theorem leaveForLost_lists (hst : (s.receiver r).state = .out ∨ (s.receiver r).state = .silent) {y : ReceiverState}
    (hy : y.list = none) (i : ListId) :
    (leaveForLost s r).pollList i = (s.pollList i).moved i r (s.receiver r).state y := by
  have hdrop : ∀ c, (dropListeners (leaveList s .l0 r) c).pollList = (leaveList s .l0 r).pollList := fun c => by
    cases c
    · rfl
    · funext j; cases j <;> rfl
  unfold leaveForLost PollList.moved
  rw [hy]
  rcases hst with hst | hst <;> rw [hst]
  · dsimp only; rw [hdrop]; cases i <;> rfl
  · cases i <;> rfl

/-- An OUT receiver that leaves its hire leaves the count of its channel (R115). -/
theorem leaveForLost_listeners (hst : (s.receiver r).state = .out ∨ (s.receiver r).state = .silent) (c : Nat)
    (hc : (s.receiver r).counts c ≤ s.listeners c) :
    (leaveForLost s r).listeners c + (s.receiver r).counts c = s.listeners c := by
  rcases hst with ho | hsilent
  · obtain ⟨-, -, htuned, hothers, -⟩ := leaveForLost_out ho
    by_cases htc : (s.receiver r).tuned = some c
    · have hone : (s.receiver r).counts c = 1 := if_pos ⟨ho, htc⟩
      rw [htuned c htc, hone]; rw [hone] at hc; omega
    · rw [hothers c htc, Receiver.counts, if_neg fun h => htc h.2]; rfl
  · obtain ⟨-, hkept⟩ := leaveForLost_silent hsilent
    rw [Receiver.counts_zero (.inl (by rw [hsilent]; decide))]
    unfold State.listeners
    rw [hkept]; rfl

/-- A receiver on hire whose hire closes comes home or is LOST (R85, R90, R128, R129). -/
theorem State.closing_moves {closed : Hire} {e : Receiver} (hs : s.fleetAgrees)
    (hst : (s.receiver r).state = .out ∨ (s.receiver r).state = .silent) (hname : (s.receiver r).hire = some n)
    (hn : s.hire n = some h) (hrec : h.receiver = r)
    (hclosed : closed.receiver = r ∧ closed.number = n ∧ closed.state.stage = 3)
    (hhome : e.hire = none ∧ e.silentSince = none ∧ e.missingReported = false ∧ e.tuned = (s.receiver r).tuned)
    (hstate : e.state = .docked ∨ e.state = .lost) (hfits : e.locationFits)
    (hslots : s.reslots t r (s.receiver r).location e.location) (hfleet : t.fleet = (s.setReceiver r e).fleet)
    (hbeacon : t.beacon = (leaveForLost s r).beacon) (hhires : t.hires = (s.setHire n (some closed)).hires) :
    s.moves t r e := by
  obtain ⟨hhire, hsince, hmissing, htuned⟩ := hhome
  obtain ⟨hlist, hstage, hout, hsilent, hmonitor⟩ : e.state.list = none ∧ e.state.stage = 0 ∧ e.state ≠ .out ∧
      e.state ≠ .silent ∧ e.state ≠ .monitor := by rcases hstate with h | h <;> rw [h] <;> decide
  refine ⟨fun q => ?_, hslots, fun i => ?_, State.reposts_same (by rw [hfleet]; rfl) hs.monitors ?_, ?_, ⟨hfits, ?_⟩,
    fun c hc => ?_⟩
  · unfold State.receiver; rw [hfleet]; exact State.receiver_setReceiver s r q e
  · rw [State.pollList_congr hbeacon]; exact leaveForLost_lists hst hlist i
  · rcases hst with h | h <;> simp [h, hmonitor]
  · exact hs.rehires_record hn hrec hname hhires ⟨hclosed.1, hclosed.2.1, fun h => absurd hclosed.2.2 h⟩
      (.inl ⟨hhire, hstage⟩)
  · have hfit := (hs.fits r).2.2.2
    unfold Receiver.silenceFits
    rw [hsince, hmissing, htuned]
    exact ⟨by simp [hsilent], nofun, hfit⟩
  · have hcount : t.listeners c = (leaveForLost s r).listeners c := by unfold State.listeners; rw [hbeacon]
    rw [hcount, leaveForLost_listeners hst c hc, Receiver.counts_zero (.inl hout), Nat.add_zero]
end

/-- The hire of a receiver that is out is ACTIVE (R119). -/
theorem State.fleetAgrees.active {s : State} {r : Nat} (hs : s.fleetAgrees)
    (hst : (s.receiver r).state = .out ∨ (s.receiver r).state = .silent) :
    ∃ n h st ds, (s.receiver r).hire = some n ∧ s.hire n = some h ∧ h.receiver = r ∧ h.number = n ∧
      h.state = .active st ds := by
  have htwo : (s.receiver r).state.stage = 2 := by rcases hst with h | h <;> rw [h] <;> rfl
  obtain ⟨n, h, hname, hn, hrec, hnum, hstage⟩ := hs.hired (r := r) (by rw [htwo]; decide)
  rw [htwo] at hstage
  cases hh : h.state with
  | active st ds => exact ⟨n, h, st, ds, hname, hn, hrec, hnum, hh⟩
  | pending w => rw [hh] at hstage; cases hstage
  | closing => rw [hh] at hstage; cases hstage

theorem closeLost_accord {s : State} {n st ds : Nat} {h : Hire} (hn : s.hire n = some h) (hst : h.state = .active st ds) :
    Accord s (closeLost s h) := by
  refine .given fun hs => ?_
  obtain ⟨hnum, hstage, hname⟩ := hs.holder hn (by simp [hst, HireState.stage])
  have hout : (s.receiver h.receiver).state = .out ∨ (s.receiver h.receiver).state = .silent := by
    rw [hst] at hstage
    revert hstage
    cases (s.receiver h.receiver).state <;> simp [HireState.stage, ReceiverState.stage]
  have hreceiver : (leaveForLost (beginClosing s h.number true false) h.receiver).receiver = s.receiver := by
    rw [leaveForLost_frame, hnum]; exact beginClosing_receiver hn hst true false
  have hlose : loseReceiver (beginClosing s h.number true false) h.receiver =
      s.closingOf (s.closedHire h st ds true false) { s.receiver h.receiver with
        state := .lost, hire := none, silentSince := none, missingReported := false } := by
    unfold loseReceiver
    dsimp only
    rw [hreceiver, hnum]
    exact closingOf_eq hn hnum rfl hst true false _
  have hloc := (hs.fits h.receiver).1
  have habsent : (s.receiver h.receiver).location = none := by
    unfold Receiver.locationFits at hloc
    rcases hout with ho | ho <;> rw [ho] at hloc <;> exact hloc
  unfold closeLost
  refine Accord.trans (.moved (r := h.receiver) (e := { s.receiver h.receiver with
    state := .lost, hire := none, silentSince := none, missingReported := false }) ?_ fun _ => ?_)
    (settleOrWait_accord _ _)
  · exact ((beginClosing_work s _ true false).trans (leaveForLost_work _ _)).tail (.receiver _ _)
  · rw [hlose]
    exact State.closing_moves (closed := s.closedHire h st ds true false) hs hout hname hn rfl
      ⟨rfl, hnum, rfl⟩ ⟨rfl, rfl, rfl, rfl⟩ (.inr rfl) habsent
      (State.reslots_same rfl hs.slots) rfl rfl (by rw [← hnum]; rfl)

/-! ### DOCK (R89, R90) -/

section
variable {s : State} {l : Location} {r band : Nat}

/-- A receiver at a location is not out on a hire (R85). -/
theorem Receiver.locationFits.stage {e : Receiver} (h : e.locationFits) {m : Location} (hm : e.location = some m) :
    e.state.stage ≠ 2 := by
  unfold Receiver.locationFits at h
  rw [hm] at h
  revert h
  cases e.state <;> simp [ReceiverState.stage]

theorem State.relocated_moves {m : Location} (hs : s.fleetAgrees) (hl : l.fits)
    (hfree : s.slot l = none ∨ s.slot l = some r) (hm : (s.receiver r).location = some m) :
    s.moves (((s.setSlot m none).setSlot l (some r)).setReceiver r
      { s.receiver r with location := some l, band := band }) r { s.receiver r with location := some l, band := band } := by
  have hfits := (hs.fits r).1
  refine State.moves_idle hs rfl rfl rfl ?_ (fun i => (if_pos rfl).symm) Iff.rfl rfl (hfits.stage hm)
    ⟨rfl, rfl, rfl, rfl⟩ ?_
  · rw [hm]; exact State.reslots_move ((hs.slots r m).mp hm).1 hl hfree rfl
  · unfold Receiver.locationFits at hfits ⊢
    dsimp only
    split <;> simp_all

theorem State.dockedAt_moves (hs : s.fleetAgrees) (hl : l.fits) (hfree : s.slot l = none)
    (hloc : (s.receiver r).location = none)
    (hst : (s.receiver r).state = .unknown ∨ (s.receiver r).state = .lost) :
    s.moves (s.dockedAt l r band) r { s.receiver r with location := some l, band := band, state := .docked } := by
  refine State.moves_idle hs rfl rfl rfl ?_ (fun i => ?_) ?_ ?_ ?_ ⟨rfl, rfl, rfl, rfl⟩ nofun
  · rw [hloc]; exact State.reslots_fill hl (.inl hfree) rfl
  · rcases hst with hst | hst <;> rw [hst] <;> cases i <;> rfl
  · rcases hst with hst | hst <;> simp [hst]
  · rcases hst with hst | hst <;> rw [hst] <;> rfl
  · rcases hst with hst | hst <;> rw [hst] <;> decide

theorem State.returned_moves (hs : s.fleetAgrees) (hl : l.fits) (hfree : s.slot l = none)
    (hloc : (s.receiver r).location = none) (hst : (s.receiver r).state = .stray) :
    s.moves ((leaveList s .l1 r).dockedAt l r band) r
      { s.receiver r with location := some l, band := band, state := .docked } := by
  refine State.moves_idle hs rfl rfl rfl ?_ (fun i => ?_) (by simp [hst]) (by rw [hst]; rfl) (by rw [hst]; decide)
    ⟨rfl, rfl, rfl, rfl⟩ nofun
  · rw [hloc]; exact State.reslots_fill hl (.inl hfree) rfl
  · rw [hst]; cases i <;> rfl

theorem State.filled_moves (hs : s.fleetAgrees) (hl : l.fits) (hfree : s.slot l = none)
    (hloc : (s.receiver r).location = none)
    (hst : (s.receiver r).state = .monitor ∨ (s.receiver r).state = .withdrawn) :
    s.moves (fillSlot s l r band) r { s.receiver r with location := some l, band := band } := by
  refine State.moves_idle hs rfl rfl rfl ?_ (fun i => (if_pos rfl).symm) Iff.rfl rfl ?_ ⟨rfl, rfl, rfl, rfl⟩ ?_
  · rw [hloc]; exact State.reslots_fill hl (.inl hfree) rfl
  · rcases hst with hst | hst <;> rw [hst] <;> decide
  · unfold Receiver.locationFits
    rcases hst with hst | hst <;> simp [hst]

/-- A receiver on hire that is found in a free slot (R90, R129). -/
theorem dockClosing_accord (hl : l.fits) (hfree : s.slot l = none) (hloc : (s.receiver r).location = none)
    (hst : (s.receiver r).state = .out ∨ (s.receiver r).state = .silent) (rec : Bool) :
    Accord s (dockClosing (fillSlot s l r band) r rec) := by
  refine .given fun hs => ?_
  obtain ⟨n, h, st, ds, hname, hn, hrec, hnum, hact⟩ := hs.active hst
  have hfilled := fillSlot_receiver s r l band
  have hclosing := dockHired_beginClosing (s := fillSlot s l r band) (by rw [hfilled]; exact hst) hn hnum hrec hact rec
  rw [dockClosing_named (by rw [hfilled]; exact hname)]
  refine Accord.trans (.moved (r := r) (e := { s.receiver r with
    location := some l, band := band, state := .docked, hire := none, silentSince := none, missingReported := false })
    ?_ fun _ => ?_) (settleOrWait_accord _ _)
  · exact ((fillSlot_work s l r band).trans (beginClosing_work _ n false rec)).trans (dockHired_work _ r)
  · rw [hclosing, hfilled]
    subst hrec
    refine State.closing_moves (closed := (fillSlot s l h.receiver band).closedHire h st ds false rec) hs hst hname hn rfl
      ⟨rfl, hnum, rfl⟩ ⟨rfl, rfl, rfl, rfl⟩ (.inl rfl) nofun ?_ ?_ ?_
      (by rw [← hnum]; rfl)
    · rw [hloc]; exact State.reslots_fill hl (.inl hfree) rfl
    · show ((fillSlot s l h.receiver band).setReceiver h.receiver _).fleet = _
      rw [fillSlot_setReceiver]; rfl
    · exact leaveForLost_congr rfl (congrArg (·.state) hfilled) (congrArg (·.tuned) hfilled)

theorem dockState_accord (hl : l.fits) (hfree : s.slot l = none) (hloc : (s.receiver r).location = none) (rec : Bool) :
    Accord s (dockState (fillSlot s l r band) l r rec) := by
  have hwork := (fillSlot_work s l r band).trans (dockState_work _ l r rec)
  cases hst : (s.receiver r).state with
  | unknown =>
    rw [dockState_unknown hst] at hwork ⊢
    exact .moved hwork fun hs => State.dockedAt_moves hs hl hfree hloc (.inl hst)
  | lost =>
    rw [dockState_lost hst] at hwork ⊢
    exact .moved hwork fun hs => (State.dockedAt_moves hs hl hfree hloc (.inr hst)).of_seen rfl
  | stray =>
    rw [dockState_stray hst] at hwork ⊢
    exact .moved hwork fun hs => (State.returned_moves hs hl hfree hloc hst).of_seen rfl
  | monitor =>
    rw [dockState_kept (.inl hst)] at hwork ⊢
    exact .moved hwork fun hs => State.filled_moves hs hl hfree hloc (.inl hst)
  | withdrawn =>
    rw [dockState_kept (.inr hst)] at hwork ⊢
    exact .moved hwork fun hs => State.filled_moves hs hl hfree hloc (.inr hst)
  | out =>
    rw [dockState_hired (by rw [fillSlot_receiver]; exact .inl hst)]
    exact dockClosing_accord hl hfree hloc (.inl hst) rec
  | silent =>
    rw [dockState_hired (by rw [fillSlot_receiver]; exact .inr hst)]
    exact dockClosing_accord hl hfree hloc (.inr hst) rec
  | docked =>
    refine .given fun hs => absurd hloc ?_
    have hfits := (hs.fits r).1
    unfold Receiver.locationFits at hfits
    rw [hst] at hfits; exact hfits
  | reserved =>
    refine .given fun hs => absurd hloc ?_
    have hfits := (hs.fits r).1
    unfold Receiver.locationFits at hfits
    rw [hst] at hfits; exact hfits

/-- A band stored is no move at all (R84). -/
theorem setBand_accord (s : State) (r band : Nat) : Accord s (s.setReceiver r { s.receiver r with band := band }) :=
  .moved (State.setReceiver_work s r _) fun hs =>
    State.moves_plain hs rfl rfl rfl rfl rfl (fun _ => rfl) (hs.fits r)

theorem dockCleared_accord (hl : l.fits) (hfree : s.slot l = none ∨ s.slot l = some r) (rec : Bool) :
    Accord s (dockCleared s l r band rec) := by
  refine .given fun hs => ?_
  cases hm : (s.receiver r).location with
  | some m =>
    by_cases hml : m = l
    · rw [dockCleared_repeats (hml ▸ hm)]; exact setBand_accord s r band
    · have hwork := dockCleared_work s l r band rec
      rw [dockCleared_relocates hm hml] at hwork ⊢
      exact .moved hwork fun hs => State.relocated_moves hs hl hfree hm
  | none =>
    rw [dockCleared_new hm]
    refine dockState_accord hl (hfree.resolve_right fun hr => ?_) hm rec
    rw [hs.located hl hr] at hm; cases hm

theorem dock_accord (s : State) (hl : l.fits) (r band : Nat) (rec : Bool) : Accord s (dock s l r band rec) := by
  rw [dock_eq]
  cases hslot : s.slot l with
  | none => rw [clearSlot_free hslot]; exact dockCleared_accord hl (.inl hslot) rec
  | some q =>
    by_cases hq : q = r
    · rw [clearSlot_own (hq ▸ hslot)]; exact dockCleared_accord hl (.inr (hq ▸ hslot)) rec
    · rw [clearSlot_other hslot hq]
      exact (undock_accord s hl rec).trans (dockCleared_accord hl (.inl (undock_slot rec)) rec)

theorem battery_accord (s : State) (l : Location) (band : Nat) : Accord s (battery s l band) := by
  cases h : s.slot l with
  | none => rw [battery_empty h]; exact .refl s
  | some r => rw [battery_held h]; exact setBand_accord s r band
end

end Sys2Proof.Machine
end

