-- ==== Sys2Proof/Proofs/FleetMonitors.lean ====
section
/-! O59: monitors placed and cleared, receivers withdrawn and restored, keep the fleet in accord. -/

namespace Sys2Proof.Machine

/-! ### Monitors (R95, R96) -/

theorem Receiver.restState_cases (e : Receiver) :
    (e.restState = .docked ∧ e.location ≠ none) ∨ (e.restState = .unknown ∧ e.location = none) := by
  unfold Receiver.restState
  cases e.location <;> simp

/-- A receiver at rest is on no list, no hire and no monitor position, where its location says. -/
theorem Receiver.restState_rests (e : Receiver) : e.restState.list = none ∧ e.restState.stage = 0 ∧
    e.restState ≠ .monitor ∧ ({ e with state := e.restState } : Receiver).locationFits := by
  unfold Receiver.locationFits
  dsimp only
  rcases e.restState_cases with ⟨h, hloc⟩ | ⟨h, hloc⟩ <;> rw [h]
  exacts [⟨rfl, rfl, nofun, hloc⟩, ⟨rfl, rfl, nofun, hloc⟩]

section
variable {s : State} {p r m : Nat}

theorem releaseMonitor_held (h : s.monitorAt p = some m) :
    releaseMonitor s p = (leaveList s .l3 m).setReceiver m { s.receiver m with state := (s.receiver m).restState } := by
  unfold releaseMonitor; rw [h]; rfl

theorem releaseMonitor_free (h : s.monitorAt p = none) : releaseMonitor s p = s := by unfold releaseMonitor; rw [h]

theorem clearMonitorAt_accord (hp : p ≤ 7) : Accord s (clearMonitorAt s p) := by
  cases h : s.monitorAt p with
  | none => rw [clearMonitorAt_empty h]; exact .refl s
  | some m =>
    rw [clearMonitorAt_held h, releaseMonitor_held h]
    refine .moved_unhired (r := m) (e := { s.receiver m with state := (s.receiver m).restState }) rfl rfl fun hs => ?_
    have hst : (s.receiver m).state = .monitor := (hs.monitors.1 m).mpr ⟨p, hp, h⟩
    obtain ⟨hlist, hstage, hmonitor, hfits⟩ := (s.receiver m).restState_rests
    have hread : ∀ x, (((leaveList s .l3 m).setReceiver m { s.receiver m with
        state := (s.receiver m).restState }).setMonitorAt p none).monitorAt x = if x = p then none else s.monitorAt x :=
      fun x => State.monitorAt_setMonitorAt _ p x none
    refine State.moves_posted hs rfl rfl rfl (State.reslots_same rfl hs.slots) (fun i => ?_) ⟨fun q hq x hx => ?_, ?_, ?_⟩
      (by rw [hst]; exact hstage) (by rw [hst]; decide) ⟨rfl, rfl, rfl, rfl⟩ hfits
    · rw [hst, PollList.moved, hlist]
      cases i <;> rfl
    · rw [hread]
      split
      next hxp => rw [hxp, h]; simp [hq.symm]
      next => exact Iff.rfl
    · refine ⟨fun he => absurd he hmonitor, ?_⟩
      rintro ⟨x, hx, hxm⟩
      rw [hread] at hxm
      split at hxm
      · cases hxm
      next hxp => exact absurd (hs.monitors.2 x p m hx hp hxm h) hxp
    · intro x y hx hy hxm hym
      rw [hread] at hxm hym
      split at hxm
      · cases hxm
      · split at hym
        · cases hym
        · exact hs.monitors.2 x y m hx hy hxm hym

/-- Position `p` has been cleared, and the receiver that stood there released; the position itself may still be to be
filled (R95, R96). -/
structure State.Clears (s c : State) (p : Nat) : Prop where
  free : c.monitorAt p = none
  others : ∀ x, x ≠ p → c.monitorAt x = s.monitorAt x
  receiver : c.receiver = (releaseMonitor s p).receiver
  racks : c.racks = (releaseMonitor s p).racks
  beacon : c.beacon = (releaseMonitor s p).beacon
  hires : c.hires = (releaseMonitor s p).hires
  queue : c.money.queue = (releaseMonitor s p).money.queue

theorem clearMonitorAt_clears (s : State) (p : Nat) : s.Clears (clearMonitorAt s p) p := by
  cases h : s.monitorAt p with
  | none =>
    rw [clearMonitorAt_empty h]
    constructor
    exacts [h, fun _ _ => rfl, by rw [releaseMonitor_free h], by rw [releaseMonitor_free h], by rw [releaseMonitor_free h],
      by rw [releaseMonitor_free h], by rw [releaseMonitor_free h]]
  | some m =>
    rw [clearMonitorAt_held h]
    have hread : ∀ x, ((releaseMonitor s p).setMonitorAt p none).monitorAt x = if x = p then none else s.monitorAt x :=
      fun x => (State.monitorAt_setMonitorAt _ p x none).trans (by rw [releaseMonitor_held h]; rfl)
    exact ⟨(hread p).trans (if_pos rfl), fun x hx => (hread x).trans (if_neg hx), rfl, rfl, rfl, rfl, rfl⟩

theorem State.positionOf_le {q : Nat} (h : s.positionOf r = some q) : q ≤ 7 := by
  have hmem := List.mem_of_find?_eq_some h
  simp [monitorPositions] at hmem
  omega

theorem State.positionOf_none (h : s.positionOf r = none) {q : Nat} (hq : q ≤ 7) : s.monitorAt q ≠ some r := by
  have hmem : q ∈ monitorPositions := by simp [monitorPositions]; omega
  exact of_decide_eq_false (by simpa using List.find?_eq_none.mp h q hmem)

/-- A MONITOR moves to a position that has been cleared (R95). -/
theorem placeMonitor_moved_accord {c : State} {q : Nat} (hc : s.Clears c p) (hp : p ≤ 7) (h : s.monitorAt p ≠ some r)
    (hq : s.positionOf r = some q) : Accord c (placeMonitor s p r) := by
  have hpq : q ≠ p := by rintro rfl; exact h (State.monitorAt_positionOf hq)
  have hcq : c.monitorAt q = some r := (hc.others q hpq).trans (State.monitorAt_positionOf hq)
  have hat : ∀ x, (placeMonitor s p r).monitorAt x = if x = p then some r else if x = q then none else c.monitorAt x :=
    fun x => by
      rw [placeMonitor_moved h hq, State.monitorAt_setMonitorAt, State.monitorAt_setMonitorAt]
      split
      · rfl
      next hxp =>
        obtain ⟨-, -, rs, l, ht⟩ := releaseMonitor_releases s p
        rw [hc.others x hxp, ht]; rfl
  have hreceiver : (placeMonitor s p r).receiver = c.receiver := by rw [hc.receiver, placeMonitor_moved h hq]; rfl
  have hbeacon : (placeMonitor s p r).beacon = c.beacon := by rw [hc.beacon, placeMonitor_moved h hq]; rfl
  have hhires : (placeMonitor s p r).hires = c.hires := by rw [hc.hires, placeMonitor_moved h hq]; rfl
  refine .moved_unhired (r := r) (e := c.receiver r) hhires (by rw [hc.queue, placeMonitor_moved h hq]; rfl) fun hs => ?_
  refine ⟨fun x => ?_, State.reslots_same (by rw [hc.racks, placeMonitor_moved h hq]; rfl) hs.slots, fun i => ?_,
    ⟨fun o ho x hx => ?_, ?_, fun x y hx hy hxr hyr => ?_⟩, State.rehires_same hhires hs.hires rfl rfl, hs.fits r,
    fun n _ => ?_⟩
  · rw [hreceiver]
    split
    next hx => rw [hx]
    next => rfl
  · rw [PollList.moved, if_pos rfl, State.pollList_congr hbeacon]
  · rw [hat]
    split
    next hxp => rw [hxp, hc.free]; simp [ho.symm]
    next =>
      split
      next hxq => rw [hxq, hcq]; simp [ho.symm]
      next => exact Iff.rfl
  · refine ⟨fun _ => ⟨p, hp, (hat p).trans (if_pos rfl)⟩, fun _ => ?_⟩
    exact (hs.monitors.1 r).mpr ⟨q, State.positionOf_le hq, hcq⟩
  · have honly : ∀ x, x ≤ 7 → (placeMonitor s p r).monitorAt x = some r → x = p := fun x hx hxr => by
      rw [hat] at hxr
      by_contra hxp
      rw [if_neg hxp] at hxr
      split at hxr
      · cases hxr
      next hxq => exact hxq (hs.monitors.2 x q r hx (State.positionOf_le hq) hxr hcq)
    rw [honly x hx hxr, honly y hy hyr]
  · unfold State.listeners; rw [hbeacon]

/-- A receiver that stands nowhere becomes MONITOR at a position that has been cleared (R95). -/
theorem placeMonitor_new_accord {c : State} (hc : s.Clears c p) (hp : p ≤ 7) (h : s.monitorAt p ≠ some r)
    (hno : s.positionOf r = none) (hplace : (s.receiver r).state.placeable = true) : Accord c (placeMonitor s p r) := by
  obtain ⟨hreleased, -, rs, l, ht⟩ := releaseMonitor_releases s p
  obtain ⟨rs', hframe⟩ := admitMonitor_frame (releaseMonitor s p) r
  have hcr : c.receiver r = s.receiver r := by rw [hc.receiver]; exact (hreleased r).trans (if_neg h)
  have hat : ∀ x, (placeMonitor s p r).monitorAt x = if x = p then some r else c.monitorAt x := fun x => by
    rw [placeMonitor_new h hno, State.monitorAt_setMonitorAt]
    split
    · rfl
    next hxp => rw [hc.others x hxp, hframe, ht]; rfl
  have hreceiver : (placeMonitor s p r).receiver =
      (c.setReceiver r { c.receiver r with state := .monitor, misses := 0 }).receiver := by
    funext x
    rw [State.receiver_setReceiver, hc.receiver, placeMonitor_new h hno]
    exact admitMonitor_receiver _ r x
  have hbeacon : (placeMonitor s p r).beacon = { c.beacon with
      l1 := if (c.receiver r).state = .stray then c.beacon.l1.leave r else c.beacon.l1
      l3 := c.beacon.l3.join r } := by
    rw [hc.beacon, hc.receiver, placeMonitor_new h hno]
    show (admitMonitor (releaseMonitor s p) r).beacon = _
    rw [hframe]
  have hhires : (placeMonitor s p r).hires = c.hires := by
    rw [hc.hires, placeMonitor_new h hno]
    show (admitMonitor (releaseMonitor s p) r).hires = _
    rw [hframe]
  have hracks : (placeMonitor s p r).racks = c.racks := by
    rw [hc.racks, placeMonitor_new h hno]
    show (admitMonitor (releaseMonitor s p) r).racks = _
    rw [hframe]
  have hqueue : (placeMonitor s p r).money.queue = c.money.queue := by
    rw [hc.queue, placeMonitor_new h hno]
    show (admitMonitor (releaseMonitor s p) r).money.queue = _
    rw [hframe]
  have hnone : ∀ x, x ≤ 7 → c.monitorAt x ≠ some r := fun x hx hxr => by
    by_cases hxp : x = p
    · rw [hxp, hc.free] at hxr; cases hxr
    · exact State.positionOf_none hno hx ((hc.others x hxp).symm.trans hxr)
  refine .moved_unhired (r := r) (e := { c.receiver r with state := .monitor, misses := 0 }) hhires hqueue fun hs => ?_
  have hnot : (c.receiver r).state ≠ .monitor := fun hm => by
    obtain ⟨x, hx, hxr⟩ := (hs.monitors.1 r).mp hm
    exact hnone x hx hxr
  have hstate : (c.receiver r).state = .unknown ∨ (c.receiver r).state = .docked ∨ (c.receiver r).state = .stray ∨
      (c.receiver r).state = .withdrawn := by
    rw [← hcr] at hplace
    revert hplace hnot
    cases (c.receiver r).state <;> simp [ReceiverState.placeable]
  refine State.moves_posted hs hreceiver hhires (by rw [hbeacon]) (State.reslots_same hracks hs.slots) (fun i => ?_)
    ⟨fun o ho x hx => ?_, ⟨fun _ => ⟨p, hp, (hat p).trans (if_pos rfl)⟩, fun _ => rfl⟩, fun x y hx hy hxr hyr => ?_⟩
    ?_ ?_ ⟨rfl, rfl, rfl, rfl⟩ trivial
  · have hlist : (placeMonitor s p r).pollList i = State.pollList { c with beacon := { c.beacon with
        l1 := if (c.receiver r).state = .stray then c.beacon.l1.leave r else c.beacon.l1
        l3 := c.beacon.l3.join r } } i := by cases i <;> simp only [State.pollList, hbeacon]
    rw [hlist]
    rcases hstate with hst | hst | hst | hst <;> rw [hst] <;> cases i <;> rfl
  · rw [hat]
    split
    next hxp => rw [hxp, hc.free]; simp [ho.symm]
    next => exact Iff.rfl
  · have honly : ∀ x, x ≤ 7 → (placeMonitor s p r).monitorAt x = some r → x = p := fun x hx hxr => by
      rw [hat] at hxr
      by_contra hxp
      rw [if_neg hxp] at hxr
      exact hnone x hx hxr
    rw [honly x hx hxr, honly y hy hyr]
  · rcases hstate with hst | hst | hst | hst <;> rw [hst] <;> rfl
  · rcases hstate with hst | hst | hst | hst <;> rw [hst] <;> decide

theorem placeMonitor_accord (hp : p ≤ 7) (hplace : (s.receiver r).state.placeable = true) :
    Accord s (placeMonitor s p r) := by
  by_cases h : s.monitorAt p = some r
  · rw [placeMonitor_same h]; exact .refl s
  refine (clearMonitorAt_accord hp).trans ?_
  cases hq : s.positionOf r with
  | none => exact placeMonitor_new_accord (clearMonitorAt_clears s p) hp h hq hplace
  | some q => exact placeMonitor_moved_accord (clearMonitorAt_clears s p) hp h hq

/-! ### Withdrawal (R97, R98) -/

theorem withdraw_accord (hst : (s.receiver r).state = .unknown ∨ (s.receiver r).state = .docked ∨
    (s.receiver r).state = .lost) : Accord s (withdraw s r) := by
  refine .moved_unhired (r := r) (e := { s.receiver r with state := .withdrawn }) rfl rfl fun hs =>
    State.moves_idle hs rfl rfl rfl (State.reslots_same rfl hs.slots) (fun i => ?_) ?_ ?_ ?_ ⟨rfl, rfl, rfl, rfl⟩ trivial
  · rcases hst with hst | hst | hst <;> rw [hst] <;> cases i <;> rfl
  · rcases hst with hst | hst | hst <;> simp [hst]
  · rcases hst with hst | hst | hst <;> rw [hst] <;> rfl
  · rcases hst with hst | hst | hst <;> rw [hst] <;> decide

theorem withdraw_stray_accord (hst : (s.receiver r).state = .stray) : Accord s (withdraw (leaveList s .l1 r) r) := by
  refine .moved_unhired (r := r) (e := { s.receiver r with state := .withdrawn }) rfl rfl fun hs =>
    State.moves_idle hs rfl rfl rfl (State.reslots_same rfl hs.slots) (fun i => ?_) (by simp [hst]) (by rw [hst]; rfl)
      (by rw [hst]; decide) ⟨rfl, rfl, rfl, rfl⟩ trivial
  rw [hst]; cases i <;> rfl

theorem restoreReceiver_accord (s : State) (r : Nat) : Accord s (restoreReceiver s r).1 := by
  unfold restoreReceiver
  split
  next hst =>
    obtain ⟨hlist, hstage, hmonitor, hfits⟩ := (s.receiver r).restState_rests
    refine .moved_unhired (r := r) (e := { s.receiver r with state := (s.receiver r).restState }) rfl rfl fun hs =>
      State.moves_idle hs rfl rfl rfl (State.reslots_same rfl hs.slots) (fun i => ?_) ?_ (by rw [hst]; exact hstage)
        (by rw [hst]; decide) ⟨rfl, rfl, rfl, rfl⟩ hfits
    · rw [PollList.moved, hlist, hst]; cases i <;> rfl
    · simp [hst, hmonitor]
  next => exact .refl s
end

end Sys2Proof.Machine
end

