-- ==== Sys2Proof/Proofs/FleetPolls.lean ====
section
/-! O59: polls of the beacon, their replies and misses, and the missing timers, keep the fleet in accord. -/

namespace Sys2Proof.Machine

/-! ### Polls sent (R103 to R107) -/

/-- A cursor that moves within its list (R103). -/
theorem advance_accord {s : State} {i : ListId} {r : Nat} (h : (s.pollList i).cursor = some r) :
    Accord s (s.setPollList i ((s.pollList i).advance r)) := fun hi => by
  have hread : ∀ j, (s.setPollList i ((s.pollList i).advance r)).pollList j =
      if j = i then (s.pollList i).advance r else s.pollList j := fun j => State.pollList_setPollList s i j _
  have hmembers : ∀ j, ((s.setPollList i ((s.pollList i).advance r)).pollList j).members = (s.pollList j).members :=
    fun j => by
      rw [hread]
      split
      next hj => rw [hj]; rfl
      next => rfl
  obtain ⟨hbounded, hslots, hlists, hmonitors, hhires, hfits⟩ := hi
  obtain ⟨hsound, hagree⟩ := s.listsAgree_iff.mp hlists
  have hmoved : (s.setPollList i ((s.pollList i).advance r)).listsAgree := by
    rw [State.listsAgree_iff]
    refine ⟨fun j => ?_, fun q j => by rw [hmembers]; exact hagree q j⟩
    rw [hread]
    split
    · refine PollList.advance_sound (hsound i) ?_
      have hcursor := (hsound i).2
      rw [h] at hcursor; exact hcursor
    · exact hsound j
  refine ⟨⟨hbounded, hslots, hmoved, hmonitors, hhires, hfits⟩, fun hl c => ?_⟩
  have hcount : (s.setPollList i ((s.pollList i).advance r)).listeners c = s.listeners c := by cases i <;> rfl
  rw [hcount, hl c]
  unfold State.outTuned
  rw [show (s.setPollList i ((s.pollList i).advance r)).beacon.l0.members = s.beacon.l0.members from hmembers .l0]
  exact congrArg List.length (List.filter_congr fun _ _ => rfl)

theorem beaconSlot_accord (s : State) : Accord s (beaconSlot s) := by
  have hphase : ∀ n (t : State), (settlePhase t n).fleetSeen = t.fleetSeen := by
    intro n
    induction n with
    | zero => exact fun _ => rfl
    | succ n ih =>
      intro t
      unfold settlePhase
      split
      · rfl
      · split
        exacts [rfl, (ih _).trans rfl]
  have hsend : ∀ (t : State) i r, (t.pollList i).cursor = some r → Accord t (sendPoll t i r) := fun t i r h =>
    (advance_accord h).trans (.unseen (by cases i <;> rfl))
  unfold beaconSlot
  split
  · dsimp only
    split
    · split
      next hcursor => exact (Accord.unseen (hphase 5 s)).trans (hsend _ _ _ hcursor)
      next => exact .unseen (hphase 5 s)
    · exact .unseen (hphase 5 s)
  · exact .refl s

/-! ### Replies (R108 to R111) -/

theorem State.receiver_congr {s t : State} (h : t.fleet = s.fleet) : t.receiver = s.receiver := by
  unfold State.receiver; rw [h]

section
variable {s : State} {r tuned band now : Nat}

/-- What a reply sets tells nothing of the receiver's place (R108). -/
theorem Receiver.heard_fits {e : Receiver} (h : e.locationFits ∧ e.silenceFits) (ht : tuned ≤ 31) :
    (e.heard now tuned band).locationFits ∧ (e.heard now tuned band).silenceFits :=
  ⟨h.1, h.2.1, h.2.2.1, ht⟩

/-- A reply of a receiver that is not OUT (R111). -/
theorem heard_accord (hout : (s.receiver r).state ≠ .out) (ht : tuned ≤ 31) :
    Accord s (s.setReceiver r ((s.receiver r).heard now tuned band)) :=
  .moved (State.setReceiver_work s r _) fun hs => State.moves_plain hs rfl rfl rfl rfl rfl
    (fun c => (Receiver.counts_zero (e := (s.receiver r).heard now tuned band) (.inl hout) c).trans
      (Receiver.counts_zero (.inl hout) c).symm)
    (Receiver.heard_fits (hs.fits r) ht)

theorem dropListeners_listeners (s : State) (p : Option Nat) (c : Nat) :
    (dropListeners s p).listeners c = if p = some c then s.listeners c - 1 else s.listeners c := by
  cases p with
  | none => rfl
  | some d =>
    refine (State.listeners_setListeners s d c _).trans ?_
    by_cases h : c = d
    · rw [if_pos h, if_pos (congrArg some h.symm), h]
    · rw [if_neg h, if_neg fun e => h (Option.some.inj e).symm]

theorem raiseListeners_listeners (s : State) (q c : Nat) :
    (raiseListeners s q).listeners c = if q = c then s.listeners c + 1 else s.listeners c := by
  refine (State.listeners_setListeners s q c _).trans ?_
  by_cases h : c = q
  · rw [if_pos h, if_pos h.symm, h]
  · rw [if_neg h, if_neg fun e => h e.symm]

/-- The listener counts behind the reply of an OUT receiver (R109). -/
theorem moveListeners_listeners (s : State) (p : Option Nat) (q c : Nat) (hc : p = some c → 1 ≤ s.listeners c) :
    (moveListeners s p q).listeners c + (if p = some c then 1 else 0) = s.listeners c + (if q = c then 1 else 0) := by
  unfold moveListeners
  by_cases hpq : p = some q
  · rw [if_pos hpq, hpq]; simp
  · rw [if_neg hpq, raiseListeners_listeners, dropListeners_listeners]
    by_cases hp : p = some c
    · have hqc : q ≠ c := fun e => hpq (e ▸ hp)
      have hone := hc hp
      rw [if_pos hp, if_pos hp, if_neg hqc, if_neg hqc]; omega
    · rw [if_neg hp, if_neg hp]
      split <;> rfl

theorem moveListeners_keeps (s : State) (p : Option Nat) (q : Nat) : (moveListeners s p q).fleet = s.fleet ∧
    (moveListeners s p q).racks = s.racks ∧ (moveListeners s p q).hires = s.hires ∧
    (moveListeners s p q).money = s.money ∧ (moveListeners s p q).pollList = s.pollList := by
  have hraise : ∀ t : State, (raiseListeners t q).fleet = t.fleet ∧ (raiseListeners t q).racks = t.racks ∧
      (raiseListeners t q).hires = t.hires ∧ (raiseListeners t q).money = t.money ∧
      (raiseListeners t q).pollList = t.pollList := fun t => ⟨rfl, rfl, rfl, rfl, by funext i; cases i <;> rfl⟩
  unfold moveListeners
  split
  · exact ⟨rfl, rfl, rfl, rfl, rfl⟩
  · cases p with
    | none => exact hraise s
    | some d => 
      obtain ⟨h1, h2, h3, h4, h5⟩ := hraise (dropListeners s (some d))
      exact ⟨h1, h2, h3, h4, h5.trans (by funext i; cases i <;> rfl)⟩

theorem Receiver.counts_out {e : Receiver} (h : e.state = .out) (c : Nat) :
    e.counts c = if e.tuned = some c then 1 else 0 := by simp [Receiver.counts, h]

/-- An OUT receiver replies, and its listener count moves to the channel it tells (R108, R109). -/
theorem repliedOut_accord (hout : (s.receiver r).state = .out) (ht : tuned ≤ 31) :
    Accord s (moveListeners (s.setReceiver r ((s.receiver r).heard now tuned band)) (s.receiver r).tuned tuned) := by
  obtain ⟨hfleet, hracks, hhires, hmoney, hlists⟩ :=
    moveListeners_keeps (s.setReceiver r ((s.receiver r).heard now tuned band)) (s.receiver r).tuned tuned
  refine .moved_unhired (r := r) (e := (s.receiver r).heard now tuned band) hhires (by rw [hmoney]; rfl) fun hs =>
    ⟨fun q => ?_, State.reslots_same hracks hs.slots, fun i => ?_,
      State.reposts_same (by rw [hfleet]; rfl) hs.monitors Iff.rfl, State.rehires_same hhires hs.hires rfl rfl, Receiver.heard_fits (hs.fits r) ht, fun c hc => ?_⟩
  · exact (congrFun (State.receiver_congr hfleet) q).trans (State.receiver_setReceiver s r q _)
  · rw [hlists, PollList.moved]; exact (if_pos rfl).symm
  · rw [Receiver.counts_out hout] at hc ⊢
    rw [Receiver.counts_out (show ((s.receiver r).heard now tuned band).state = .out from hout)]
    refine (moveListeners_listeners (s.setReceiver r ((s.receiver r).heard now tuned band)) _ tuned c fun htc => ?_).trans ?_
    · rw [if_pos htc] at hc; exact hc
    · simp [Receiver.heard]; rfl

theorem State.receiver_of_seen {s t : State} (h : t.fleetSeen = s.fleetSeen) : t.receiver = s.receiver :=
  State.receiver_congr (congrArg (·.2.1) h)

theorem replyOut_accord (hout : (s.receiver r).state = .out) (ht : tuned ≤ 31) (hire : Option Nat) :
    Accord s (replyOut s r hire tuned band) := by
  have hcredit := replyCredit_seen s r hire
  have hreceiver := State.receiver_of_seen hcredit
  refine ((Accord.unseen hcredit).trans ?_).trans (.unseen (batteryTest_seen _ r band))
  rw [← hreceiver]
  exact repliedOut_accord (by rw [hreceiver]; exact hout) ht

/-- A SILENT receiver replies and is OUT again (R110). -/
theorem repliedSilent_accord (hsilent : (s.receiver r).state = .silent) (ht : tuned ≤ 31) :
    Accord s (raiseListeners (joinList (leaveList (s.setReceiver r { (s.receiver r).heard now tuned band with
      state := .out, silentSince := none, missingReported := false }) .l2 r) .l0 r) tuned) := by
  have hjoined := joinList_written (leaveList s .l2 r) r { (s.receiver r).heard now tuned band with
      state := .out, silentSince := none, missingReported := false } .l0
  have hform : joinList (leaveList (s.setReceiver r { (s.receiver r).heard now tuned band with
      state := .out, silentSince := none, missingReported := false }) .l2 r) .l0 r = _ := hjoined
  rw [hform]
  refine .moved_unhired (r := r) (e := { (s.receiver r).heard now tuned band with
      state := .out, silentSince := none, missingReported := false }) rfl rfl fun hs =>
    ⟨fun q => State.receiver_setReceiver _ r q _, State.reslots_same rfl hs.slots, fun i => ?_,
      State.reposts_same rfl hs.monitors (by simp [hsilent]), State.rehires_same rfl hs.hires rfl (by rw [hsilent]; rfl),
      ⟨?_, ?_⟩, fun c _ => ?_⟩
  · rw [hsilent]; cases i <;> rfl
  · have hloc := (hs.fits r).1
    unfold Receiver.locationFits at hloc
    rw [hsilent] at hloc; exact hloc
  · exact ⟨by simp, nofun, ht⟩
  · rw [raiseListeners_listeners, Receiver.counts_zero (.inl (by rw [hsilent]; decide)), Receiver.counts_out rfl]
    simp only [Receiver.heard, Option.some.injEq]
    split <;> rfl

theorem replySilent_accord (hsilent : (s.receiver r).state = .silent) (ht : tuned ≤ 31) (hire : Option Nat) :
    Accord s (replySilent s r hire tuned band) := by
  have hcredit := replyCredit_seen s r hire
  have hreceiver := State.receiver_of_seen hcredit
  refine ((Accord.unseen hcredit).trans ?_).trans (.unseen (batteryTest_seen _ r band))
  exact repliedSilent_accord (by rw [hreceiver]; exact hsilent) ht

/-- A receiver whose poll the scheduler takes is in the state of the list polled (R102, R107). -/
theorem State.takesPoll.state {p : InFlight} (h : s.takesPoll p = true) (hs : s.fleetAgrees) :
    (s.receiver p.receiver).state.list = some p.list := by
  unfold State.takesPoll at h
  rw [Bool.and_eq_true] at h
  exact ((s.listsAgree_iff.mp hs.lists).2 p.receiver p.list).mp (of_decide_eq_true h.1)

theorem ReceiverState.list_out {y : ReceiverState} (h : y.list = some .l0) : y = .out := by
  revert h; cases y <;> simp [ReceiverState.list]

theorem ReceiverState.list_silent {y : ReceiverState} (h : y.list = some .l2) : y = .silent := by
  revert h; cases y <;> simp [ReceiverState.list]

theorem takeReply_accord {p : InFlight} (h : s.takesPoll p = true) (ht : tuned ≤ 31) :
    Accord s (takeReply s p tuned band) := by
  refine .given fun hs => ?_
  have hlist := State.takesPoll.state h hs
  unfold takeReply
  cases hp : p.list with
  | l0 => rw [hp] at hlist; exact replyOut_accord (ReceiverState.list_out hlist) ht p.hire
  | l2 => rw [hp] at hlist; exact replySilent_accord (ReceiverState.list_silent hlist) ht p.hire
  | l1 => rw [hp] at hlist; exact heard_accord (fun ho => by rw [ho] at hlist; cases hlist) ht
  | l3 => rw [hp] at hlist; exact heard_accord (fun ho => by rw [ho] at hlist; cases hlist) ht

/-! ### Misses (R112, R113) -/

theorem setMisses_accord (s : State) (r n : Nat) : Accord s (s.setReceiver r { s.receiver r with misses := n }) :=
  .moved (State.setReceiver_work s r _) fun hs =>
    State.moves_plain hs rfl rfl rfl rfl rfl (fun _ => rfl) (hs.fits r)

theorem fallSilent_accord (hout : (s.receiver r).state = .out) : Accord s (fallSilent s r) := by
  have hjoined := joinList_written (leaveList (dropListeners s (s.receiver r).tuned) .l0 r) r { s.receiver r with
    state := .silent, silentSince := some s.now, missingReported := false } .l2
  have hdrop : (dropListeners s (s.receiver r).tuned).fleet = s.fleet ∧
      (dropListeners s (s.receiver r).tuned).racks = s.racks ∧ (dropListeners s (s.receiver r).tuned).hires = s.hires ∧
      (dropListeners s (s.receiver r).tuned).money = s.money ∧
      (dropListeners s (s.receiver r).tuned).pollList = s.pollList := by
    cases (s.receiver r).tuned
    · exact ⟨rfl, rfl, rfl, rfl, rfl⟩
    · exact ⟨rfl, rfl, rfl, rfl, by funext i; cases i <;> rfl⟩
  have hcount := fun c => dropListeners_listeners s (s.receiver r).tuned c
  have hform : fallSilent s r = _ := congrArg (fun t => State.raise t (.silent r ((s.receiver r).hire.getD 0))) hjoined
  rw [hform]
  generalize dropListeners s (s.receiver r).tuned = t at *
  obtain ⟨hfleet, hracks, hhires, hmoney, hlists⟩ := hdrop
  refine Accord.moved_unhired (r := r) (e := { s.receiver r with
      state := .silent, silentSince := some s.now, missingReported := false, misses := 0 }) hhires (congrArg _ hmoney)
    fun hs => ⟨fun q => ?_, State.reslots_same hracks hs.slots, fun i => ?_,
      State.reposts_same (show t.fleet.monitors = s.fleet.monitors by rw [hfleet]) hs.monitors (by simp [hout]),
      State.rehires_same hhires hs.hires rfl (by rw [hout]; rfl), ⟨?_, ?_⟩, fun c hc => ?_⟩
  · refine (State.receiver_setReceiver _ r q _).trans ?_
    split
    · rfl
    · show t.fleet.receivers.read _ q = _
      rw [hfleet]; rfl
  · rw [hout, ← hlists]; cases i <;> rfl
  · have hloc := (hs.fits r).1
    unfold Receiver.locationFits at hloc
    rw [hout] at hloc; exact hloc
  · exact ⟨by simp, fun _ => rfl, (hs.fits r).2.2.2⟩
  · rw [Receiver.counts_out hout] at hc ⊢
    rw [Receiver.counts_zero (.inl (by simp))]
    refine (congrArg (· + _) (hcount c)).trans ?_
    split
    next htc => rw [if_pos htc] at hc; omega
    next => rfl

theorem takeMiss_accord {p : InFlight} (h : s.takesPoll p = true) : Accord s (takeMiss s p) := by
  refine .given fun hs => ?_
  have hlist := State.takesPoll.state h hs
  unfold takeMiss
  dsimp only
  split
  next hp =>
    refine (setMisses_accord s p.receiver _).trans (fallSilent_accord ?_)
    rw [State.receiver_set_same s]
    exact ReceiverState.list_out (hp.1 ▸ hlist)
  next => exact setMisses_accord s p.receiver _

theorem completeMiss_accord (s : State) (p : InFlight) : Accord s (completeMiss s p) := by
  refine (Accord.unseen (s.seen_setInFlight none)).trans (Accord.trans ?_ (.unseen (passToChecker_seen _ p .miss)))
  split
  next h => exact takeMiss_accord (s := s.setInFlight none) h
  next => exact .refl _

theorem completeReply_accord (s : State) (p : InFlight) (ht : tuned ≤ 31) (x : Option Code16) :
    Accord s (completeReply s p tuned band x) := by
  refine (Accord.unseen (s.seen_setInFlight none)).trans (Accord.trans ?_ (.unseen (passToChecker_seen _ p _)))
  split
  next h => exact takeReply_accord (s := s.setInFlight none) h ht
  next => exact .refl _

theorem reportMissing_accord {n : Nat} (h : s.missingDue r n = true) : Accord s (reportMissing s r) := by
  have hsilent : (s.receiver r).state = .silent := by
    unfold State.missingDue at h
    split at h
    · rw [Bool.and_eq_true, Bool.and_eq_true] at h
      exact of_decide_eq_true h.1.1
    · cases h
  refine .moved (reportMissing_work s r) fun hs =>
    State.moves_plain hs rfl rfl rfl rfl rfl (fun _ => rfl) ⟨(hs.fits r).1, ?_⟩
  obtain ⟨hsince, -, htuned⟩ := (hs.fits r).2
  exact ⟨hsince, fun _ => hsilent, htuned⟩

theorem missingSecond_accord (s : State) : Accord s (missingSecond s) :=
  Accord.foldl (fun _ _ _ => .ite _ fun h => reportMissing_accord h) s
end

end Sys2Proof.Machine
end

