-- ==== Sys2Proof/Proofs/FleetHires.lean ====
section
/-! O59: hires opened, cancelled, lapsing and settled keep the fleet in accord; the next hire number is free. -/

namespace Sys2Proof.Machine

/-! ### The next hire number (R120) -/

theorem succNumber_range {n : Nat} (h1 : 1 ≤ n) (hn : n ≤ Config.maxCount) :
    1 ≤ succNumber n ∧ succNumber n ≤ Config.maxCount := by
  unfold succNumber
  split <;> omega

/-- The hire numbers run in a cycle (R120). -/
theorem succNumber_iterate {n : Nat} (h1 : 1 ≤ n) (hn : n ≤ Config.maxCount) (k : Nat) :
    succNumber^[k] n = (n - 1 + k) % Config.maxCount + 1 := by
  have hM : 0 < Config.maxCount := by decide
  induction k with
  | zero => rw [Function.iterate_zero_apply, Nat.add_zero, Nat.mod_eq_of_lt (by omega)]; omega
  | succ k ih =>
    have hlt := Nat.mod_lt (n - 1 + k) hM
    have hone : 1 % Config.maxCount = 1 := by decide
    rw [Function.iterate_succ_apply', ih, ← Nat.add_assoc, Nat.add_mod (n - 1 + k) 1, hone]
    unfold succNumber
    split
    next hlast => rw [hlast, Nat.mod_self]
    next hmore => rw [Nat.mod_eq_of_lt (show (n - 1 + k) % Config.maxCount + 1 < Config.maxCount by omega)]

/-- As many numbers in a row as there are in the cycle are different. -/
theorem succNumber_iterate_inj {n i j : Nat} (h1 : 1 ≤ n) (hn : n ≤ Config.maxCount) (hi : i < Config.maxCount)
    (hj : j < Config.maxCount) (h : succNumber^[i] n = succNumber^[j] n) : i = j := by
  rw [succNumber_iterate h1 hn, succNumber_iterate h1 hn] at h
  have hmod : (n - 1 + i) ≡ (n - 1 + j) [MOD Config.maxCount] := Nat.succ.inj h
  have hij := Nat.ModEq.add_left_cancel' (n - 1) hmod
  rwa [Nat.ModEq, Nat.mod_eq_of_lt hi, Nat.mod_eq_of_lt hj] at hij

/-- The search ends at a free number, or has met held numbers alone. -/
theorem State.freeNumber_spec (s : State) (fuel n : Nat) :
    ∃ k, s.freeNumber fuel n = succNumber^[k] n ∧
      (s.numberHeld (succNumber^[k] n) = false ∨
        (k = fuel ∧ ∀ j, j < fuel → s.numberHeld (succNumber^[j] n) = true)) := by
  induction fuel generalizing n with
  | zero => exact ⟨0, rfl, .inr ⟨rfl, nofun⟩⟩
  | succ fuel ih =>
    unfold State.freeNumber
    by_cases hheld : s.numberHeld n = true
    · rw [if_pos hheld]
      obtain ⟨k, hk, hfree⟩ := ih (succNumber n)
      refine ⟨k + 1, hk, hfree.imp id fun ⟨hfuel, hall⟩ => ⟨by rw [hfuel], fun j hj => ?_⟩⟩
      cases j with
      | zero => exact hheld
      | succ j => exact hall j (Nat.lt_of_succ_lt_succ hj)
    · rw [if_neg hheld]
      exact ⟨0, rfl, .inl (Bool.eq_false_iff.mpr hheld)⟩

/-- The numbers that the hire table and the settlement queue hold (R120). -/
def State.heldNumbers (s : State) : Finset Nat :=
  (s.hires.records.map (·.1)).toFinset ∪ (s.money.queue.map (·.hire)).toFinset

theorem State.mem_heldNumbers {s : State} {n : Nat} (h : s.numberHeld n = true) : n ∈ s.heldNumbers := by
  unfold State.heldNumbers
  rw [Finset.mem_union, List.mem_toFinset, List.mem_toFinset, List.mem_map, List.mem_map]
  unfold State.numberHeld at h
  rw [Bool.or_eq_true, List.any_eq_true] at h
  rcases h with h | ⟨x, hx, hn⟩
  · have hne : s.hires.records.read none n ≠ none := Option.isSome_iff_ne_none.mp h
    exact .inl ⟨_, Table.mem_of_read_ne hne, rfl⟩
  · exact .inr ⟨x, hx, of_decide_eq_true hn⟩

theorem State.card_heldNumbers_le (s : State) :
    s.heldNumbers.card ≤ s.hires.records.length + s.money.queue.length := by
  refine (Finset.card_union_le _ _).trans (Nat.add_le_add ?_ ?_)
  · exact (List.toFinset_card_le _).trans (by rw [List.length_map])
  · exact (List.toFinset_card_le _).trans (by rw [List.length_map])

/-- The search for the next hire number finds a free one (R120). -/
theorem State.freeNumber_free {s : State} {n : Nat} (h1 : 1 ≤ n) (hn : n ≤ Config.maxCount)
    (hfew : s.hires.records.length + s.money.queue.length < Config.maxCount) :
    s.numberHeld (s.freeNumber (s.hires.records.length + s.money.queue.length) n) = false := by
  obtain ⟨k, hk, hfree | ⟨hfuel, hall⟩⟩ := s.freeNumber_spec (s.hires.records.length + s.money.queue.length) n
  · rw [hk]; exact hfree
  · rw [hk]
    refine Bool.eq_false_iff.mpr fun hlast => ?_
    have hsub : (Finset.range (s.hires.records.length + s.money.queue.length + 1)).image (succNumber^[·] n) ⊆
        s.heldNumbers := by
      intro m hm
      obtain ⟨j, hj, rfl⟩ := Finset.mem_image.mp hm
      refine State.mem_heldNumbers ?_
      rcases Nat.lt_or_eq_of_le (Nat.le_of_lt_succ (Finset.mem_range.mp hj)) with hlt | heq
      · exact hall j hlt
      · rw [heq, ← hfuel]; exact hlast
    have hcard := Finset.card_le_card hsub
    rw [Finset.card_image_of_injOn, Finset.card_range] at hcard
    · exact absurd (hcard.trans s.card_heldNumbers_le) (Nat.not_succ_le_self _)
    · intro i hi j hj hij
      have hi := Finset.mem_range.mp hi
      have hj := Finset.mem_range.mp hj
      exact succNumber_iterate_inj h1 hn (by omega) (by omega) hij

theorem State.freeNumber_range (s : State) {n : Nat} (h1 : 1 ≤ n) (hn : n ≤ Config.maxCount) (fuel : Nat) :
    1 ≤ s.freeNumber fuel n ∧ s.freeNumber fuel n ≤ Config.maxCount := by
  obtain ⟨k, hk, -⟩ := s.freeNumber_spec fuel n
  rw [hk, succNumber_iterate h1 hn]
  have hlt := Nat.mod_lt (n - 1 + k) (show 0 < Config.maxCount by decide)
  omega

/-- In a hire table in its form every entry is a record. -/
theorem Table.count_of_canonical {t : Table (Option Hire)} (h : t.canonical none = true) :
    (t.filterMap (·.2)).length = t.length := by
  induction t with
  | nil => rfl
  | cons e t ih =>
    obtain ⟨k, v⟩ := e
    obtain ⟨hv, -, ht⟩ := (Table.canonical_cons none k v t).mp h
    obtain ⟨x, rfl⟩ := Option.ne_none_iff_exists'.mp hv
    exact congrArg (· + 1) (ih ht)

theorem State.hiresBounded.few {s : State} (h : s.hiresBounded) :
    s.hires.records.length + s.money.queue.length < Config.maxCount := by
  obtain ⟨hform, hcount, hqueue⟩ := h
  unfold Hires.count at hcount
  rw [Table.count_of_canonical hform] at hcount
  exact (Nat.add_le_add hcount hqueue).trans_lt (by decide)

theorem State.nextNumberAfter_nextFree {s : State} {n : Nat} (h1 : 1 ≤ n) (hn : n ≤ Config.maxCount)
    (hs : s.hiresBounded) : State.nextFree { s with hires := { s.hires with next := s.nextNumberAfter n } } := by
  obtain ⟨hs1, hsn⟩ := succNumber_range h1 hn
  have hfree := State.freeNumber_free hs1 hsn hs.few
  unfold State.numberHeld at hfree
  rw [Bool.or_eq_false_iff] at hfree
  exact ⟨Option.isSome_eq_false_iff.mp hfree.1 |> Option.isNone_iff_eq_none.mp, s.freeNumber_range hs1 hsn _⟩

/-! ### Hires opened and removed (R120 to R123, R127) -/

section
variable {s : State} {r n : Nat} {h : Hire}

/-- A DOCKED receiver is RESERVED under the next hire number (R120, R122). -/
theorem openHire_accord (hplace : s.hireList.length < Config.hirePlaces) (hst : (s.receiver r).state = .docked)
    (ref d k dep : Nat) : Accord s (openHire s r ref d k dep) := by
  refine .moved_bounded (r := r) (e := { s.receiver r with state := .reserved, hire := some s.hires.next })
    (openHire_work hplace r ref d k dep) fun hs hbounded => ?_
  obtain ⟨-, -, hfree⟩ := s.hiresAgree_iff.mp hs.hires
  have hread : ∀ m, (openHire s r ref d k dep).hire m =
      if m = s.hires.next then some (newHire s r ref d k dep) else s.hire m := fun m =>
    State.hire_setHire s s.hires.next m (some (newHire s r ref d k dep))
  have hnext := State.nextNumberAfter_nextFree (s := (s.setHire s.hires.next
    (some (newHire s r ref d k dep))).setReceiver r { s.receiver r with state := .reserved, hire := some s.hires.next })
    hfree.2.1 hfree.2.2 hbounded
  have hunhired := hs.unhired (r := r) (by rw [hst]; rfl)
  obtain ⟨hloc, hsince, hmissing, htuned⟩ := hs.fits r
  refine ⟨fun q => State.receiver_setReceiver _ r q _, State.reslots_same rfl hs.slots, fun i => ?_,
    State.reposts_same rfl hs.monitors (by simp [hst]), ?_, ⟨?_, ?_⟩, fun c _ => ?_⟩
  · rw [hst]; cases i <;> rfl
  · refine State.rehires_edit (n := s.hires.next) hs.hires (fun m hm => (hread m).trans (if_neg hm)) (fun x hx => ?_)
      (fun m hm => ?_) (fun x hx => ?_) ⟨_, (hread _).trans (if_pos rfl), rfl, rfl⟩ hnext
    · rw [hfree.1] at hx; cases hx
    · rw [hunhired] at hm; cases hm
    · obtain rfl := Option.some.inj (((hread _).trans (if_pos rfl)).symm.trans hx)
      exact ⟨rfl, rfl, fun _ => ⟨rfl, rfl⟩⟩
  · unfold Receiver.locationFits at hloc
    rw [hst] at hloc; exact hloc
  · rw [hst] at hsince hmissing
    exact ⟨by simpa using hsince, fun hm => absurd (hmissing hm) (by decide), htuned⟩
  · rw [Receiver.counts_zero (.inl (by simp [hst])), Receiver.counts_zero (.inl (by simp))]; rfl

/-- The receiver of a PENDING hire is RESERVED (R119). -/
theorem State.fleetAgrees.reserved (hs : s.fleetAgrees) (hn : s.hire n = some h) {w : Nat} (hst : h.state = .pending w) :
    h.number = n ∧ (s.receiver h.receiver).state = .reserved ∧ (s.receiver h.receiver).hire = some n := by
  obtain ⟨hnum, hstage, hname⟩ := hs.holder hn (by simp [hst, HireState.stage])
  refine ⟨hnum, ?_, hname⟩
  rw [hst] at hstage
  revert hstage
  cases (s.receiver h.receiver).state <;> simp [HireState.stage, ReceiverState.stage]

/-- A PENDING hire is removed, and its receiver is DOCKED (R123, R127). -/
theorem removePending_accord (hn : s.hire n = some h) {w : Nat} (hst : h.state = .pending w) :
    Accord s (removePending s h) := by
  refine .moved (r := h.receiver) (e := { s.receiver h.receiver with state := .docked, hire := none })
    (removePending_work s h) fun hs => ?_
  obtain ⟨hnum, hreserved, hname⟩ := hs.reserved hn hst
  have hread : ∀ m, (removePending s h).hire m = if m = n then none else s.hire m := fun m => by
    rw [← hnum]; exact State.hire_setHire s _ m _
  obtain ⟨hloc, hsince, hmissing, htuned⟩ := hs.fits h.receiver
  refine ⟨fun q => State.receiver_setReceiver _ _ q _, State.reslots_same rfl hs.slots, fun i => ?_,
    State.reposts_same rfl hs.monitors (by simp [hreserved]), ?_, ⟨?_, ?_⟩, fun c _ => ?_⟩
  · rw [hreserved]; cases i <;> rfl
  · refine State.rehires_edit (n := n) hs.hires (fun m hm => (hread m).trans (if_neg hm)) (fun x hx => ?_)
      (fun m hm => ?_) (fun x hx => ?_) rfl
      (hs.nextFree.edit hn (fun m hm => (hread m).trans (if_neg hm)) rfl)
    · rw [Option.some.inj (hx.symm.trans hn)]
    · exact Option.some.inj (hm.symm.trans hname)
    · rw [hread, if_pos rfl] at hx; cases hx
  · unfold Receiver.locationFits at hloc
    rw [hreserved] at hloc; exact hloc
  · rw [hreserved] at hsince hmissing
    exact ⟨by simpa using hsince, fun hm => absurd (hmissing hm) (by decide), htuned⟩
  · rw [Receiver.counts_zero (.inl (by simp [hreserved])), Receiver.counts_zero (.inl (by simp))]; rfl

theorem issueSecond_accord (s : State) (n : Nat) : Accord s (issueSecond s n) := by
  have hwork := issueSecond_work s n
  revert hwork
  fun_cases issueSecond s n
  next h hn w hst hlast => exact fun _ => (removePending_accord hn hst).trans (.unseen rfl)
  next h hn w hst hmore =>
    refine fun hwork => .moved (r := h.receiver) (e := s.receiver h.receiver) hwork fun hs => ?_
    obtain ⟨hnum, hreserved, hname⟩ := hs.reserved hn hst
    refine State.moves_none hs rfl rfl rfl (hs.rehires_record hn rfl hname rfl ⟨rfl, hnum, fun _ => ⟨?_, hname⟩⟩
      (.inr ⟨hname, ?_⟩)) <;> rw [hreserved] <;> rfl
  all_goals exact fun _ => .refl s

theorem issuesSecond_accord (s : State) : Accord s (issuesSecond s) :=
  Accord.foldl (fun t n _ => issueSecond_accord t n) s
end

end Sys2Proof.Machine
end

