-- ==== Sys2Proof/Proofs/FleetAgreed.lean ====
section
/-! O59: every service, every command and every step keeps the fleet in accord (`step_accord`). -/

namespace Sys2Proof.Machine

/-! ### Racks (R87, R93) -/

theorem fits_of_rack {k x : Nat} (hk : isRack k = true) (hx : slotInRange x = true) : Location.fits ⟨k, x⟩ := by
  obtain ⟨hx1, hx48⟩ := slotInRange_iff.mp hx
  simp only [isRack, Bool.and_eq_true, decide_eq_true_eq] at hk
  exact ⟨hk.1, hk.2, hx1, hx48⟩

section
variable {k : Nat}

theorem rackReport_accord (hk : isRack k = true) (s : State) (e : RackReport) : Accord s (rackReport s k e) := by
  cases e with
  | dock x r band =>
    refine .ite _ fun h => dock_accord s (fits_of_rack hk ?_) r band false
    exact (Bool.and_eq_true _ _ ▸ h).1
  | undock x => exact .ite _ fun h => undock_accord s (fits_of_rack hk h) false
  | battery x band => exact .ite _ fun _ => battery_accord s _ band

theorem compareSlot_accord (hk : isRack k = true) (t : State × Nat) {p : Nat × InventoryEntry}
    (hp : slotInRange p.1 = true) : Accord t.1 (compareSlot k t p).1 := by
  have hl := fits_of_rack hk hp
  fun_cases compareSlot k t p
  · exact .refl t.1
  · exact undock_accord t.1 hl true
  · exact battery_accord t.1 _ _
  · exact dock_accord t.1 hl _ _ true
  · exact .refl t.1

theorem takeInventory_accord (hk : isRack k = true) (s : State) (l : List InventoryEntry) :
    Accord s (takeInventory s k l) := by
  have hslots : ∀ p ∈ allSlots.zip l, slotInRange p.1 = true := fun p hp => by
    have hmem := (List.of_mem_zip (a := p.1) (b := p.2) hp).1
    revert hmem
    generalize p.1 = x
    simp [allSlots, slotInRange]
    omega
  have hall : Accord s ((allSlots.zip l).foldl (compareSlot k) (s, 0)).1 :=
    List.foldlRecOn (motive := fun t : State × Nat => Accord s t.1) _ _ (.refl s) fun t ht p hp =>
      ht.trans (compareSlot_accord hk t (hslots p hp))
  refine hall.trans (.unseen ?_)
  unfold takeInventory
  dsimp only
  split <;> simp

theorem rackAnswer_accord (s : State) (k : Nat) (x : RackContent) : Accord s (rackAnswer s k x) := by
  have htake : isRack k = true → Accord s (takeRackReply s k x) := fun hk => by
    unfold takeRackReply
    split
    · split
      · exact .unseen (unitMiss_seen s _)
      · exact (Accord.unseen (unitReply_seen s _)).trans (Accord.foldl (fun t e _ => rackReport_accord hk t e) _)
    · split
      · exact (Accord.unseen (unitReply_seen s _)).trans (takeInventory_accord hk _ _)
      · exact .unseen (unitMiss_seen s _)
  unfold rackAnswer
  split
  · split
    next hp =>
      split
      next hk => exact htake (hk ▸ hp)
      next => exact .unseen (unitMiss_seen s _)
    next => exact .refl s
  · exact .refl s
end

/-! ### Consoles and the second event (R160, R165) -/

theorem consoleAnswer_seen (s : State) (b : Nat) (x : ConsoleContent) :
    (consoleAnswer s b x).fleetSeen = s.fleetSeen := by
  have htake : (takeConsoleReply s b x).fleetSeen = s.fleetSeen := by
    unfold takeConsoleReply
    split
    · split
      · exact unitMiss_seen s _
      · exact (State.seen_foldl (fun t e => deskEvent_seen t b e) _ _).trans (unitReply_seen s b)
    · split
      · exact (reconcileConsole_seen _ b _).trans (unitReply_seen s b)
      · exact unitMiss_seen s _
  unfold consoleAnswer
  split
  · split
    · split
      exacts [htake, unitMiss_seen s _]
    · rfl
  · rfl

theorem takeSecond_accord (placed : Nat) (s : State) (x : SecondTaker) : Accord s (takeSecond placed s x) := by
  cases x with
  | turnMeter => exact .unseen (turnMeterSecond_seen s)
  | accountingMeters => exact .unseen (metersSecond_seen s)
  | handoverWindows => exact .unseen (windowsSecond_seen s)
  | issueWindows => exact issuesSecond_accord s
  | missingTimers => exact missingSecond_accord s
  | checkDwell => exact .unseen (dwellSecond_seen placed s)
  | clockReturn => exact .unseen (clockReturn_seen s)

theorem secondEvent_accord (s : State) (order : List SecondTaker) : Accord s (secondEvent s order) :=
  ((Accord.clock s _).trans (Accord.foldl (fun t x _ => takeSecond_accord _ t x) _)).trans (.clock _ _)

theorem clockPeriod_accord (s : State) : Accord s (clockPeriod s) := by
  unfold clockPeriod
  split
  exacts [.clock s _, (Accord.clock s _).trans (secondEvent_accord _ _)]

theorem edgeArrives_accord (s : State) : Accord s (edgeArrives s) := by
  unfold edgeArrives
  split
  exacts [clockPeriod_accord s, .clock s _, .refl s, .refl s]

/-! ### Services of requests (R171) -/

section
variable (body : List Byte) (s : State)

theorem serveSetMonitor_accord : Accord s (serveSetMonitor body s).1 := by
  unfold serveSetMonitor
  split
  next p r1 r0 =>
    cases h : s.monitorRefusal p.toNat (nat16 r1 r0) with
    | some t => exact .refl s
    | none =>
      unfold State.monitorRefusal at h
      split_ifs at h with hrange hrun hplace
      exact placeMonitor_accord (by omega) (by simpa using hplace)
  next => exact .refl s

theorem serveClearMonitor_accord : Accord s (serveClearMonitor body s).1 := by
  unfold serveClearMonitor
  split
  next p =>
    split
    next => exact .refl s
    next hp =>
      split
      exacts [.refl s, clearMonitorAt_accord (Nat.le_of_not_lt hp)]
  next => exact .refl s

theorem serveWithdrawReceiver_accord : Accord s (serveWithdrawReceiver body s).1 := by
  have hout : ∀ r, Accord s (withdrawReceiver s r).1 := fun r => by
    unfold withdrawReceiver
    split
    next h => exact withdraw_accord (.inl h)
    next h => exact withdraw_accord (.inr (.inl h))
    next h => exact withdraw_accord (.inr (.inr h))
    next h => exact withdraw_stray_accord h
    all_goals exact .refl s
  unfold serveWithdrawReceiver
  split
  · split
    exacts [hout _, .refl s]
  · exact .refl s

theorem serveRestoreReceiver_accord : Accord s (serveRestoreReceiver body s).1 := by
  unfold serveRestoreReceiver
  split
  · split
    exacts [restoreReceiver_accord s _, .refl s]
  · exact .refl s

theorem serveOpenHire_accord : Accord s (serveOpenHire body s).1 := by
  unfold serveOpenHire
  split
  · split
    next => exact .refl s
    next hfree =>
      refine openHire_accord (State.hireRefusal_none hfree) ?_ _ _ _ _
      unfold State.hireRefusal at hfree
      split_ifs at hfree with h1 h2 hdocked
      exact not_not.mp hdocked
  · exact .refl s

theorem serveCancelHire_accord : Accord s (serveCancelHire body s).1 := by
  have hcancel : ∀ n, Accord s (cancelHire s n).1 := fun n => by
    unfold cancelHire
    split
    next => exact .refl s
    next h hn =>
      split
      next hst => exact removePending_accord hn hst
      next => exact .refl s
      next => exact .refl s
  unfold serveCancelHire
  split
  exacts [hcancel _, .refl s]

theorem serveDeclareLost_accord : Accord s (serveDeclareLost body s).1 := by
  have hdeclare : ∀ n, Accord s (declareLost s n).1 := fun n => by
    unfold declareLost
    split
    next => exact .refl s
    next h hn =>
      split
      next hst => exact closeLost_accord hn hst
      next => exact .refl s
  unfold serveDeclareLost
  split
  exacts [hdeclare _, .refl s]

theorem serveTakeSettlement_accord : Accord s (serveTakeSettlement body s).1 := by
  have htake : ∀ n, Accord s (takeSettlement s n).1 := fun n => by
    unfold takeSettlement
    split
    next => exact .refl s
    next x rest hqueue =>
      split
      · show Accord s (settleNext (s.setQueue rest))
        have hshorter : s.money.queue.length ≤ Config.settlementPlaces → rest.length < Config.settlementPlaces :=
          fun hq => by rw [hqueue, List.length_cons] at hq; omega
        unfold settleNext
        split
        · exact settleHire_accord hshorter _
        · exact .moved (r := 0) (Change.settlements rest fun hq => (hshorter hq).le).work fun hs =>
            State.moves_none hs rfl rfl rfl (State.rehires_same rfl hs.hires rfl rfl)
      · exact .refl s
  unfold serveTakeSettlement
  split
  exacts [htake _, .refl s]
end

/-- A service that the fleet does not see. -/
theorem Accord.served {serve : List Byte → State → Served} (h : ∀ body s, (serve body s).1.fleetSeen = s.fleetSeen)
    (body : List Byte) (s : State) : Accord s (serve body s).1 := .unseen (h body s)

/-- Whatever a request asks for, its service keeps the fleet in accord (R171). -/
theorem servers_accord : ∀ e ∈ servers, ∀ body s, Accord s (e.2 body s).1 := by
  simp only [servers, List.forall_mem_append, List.forall_mem_cons]
  exact ⟨⟨⟨⟨.served serveReadStatus_seen, .served serveOpenSession_seen, .served serveCloseSession_seen,
        .served serveResetAudio_seen, .served serveSetTime_seen, .served serveWriteLimits_seen,
        .served serveReadLimits_seen, .served serveReadFault_seen, .served serveClearFault_seen, nofun⟩,
      .served serveWriteChannel_seen, .served serveReadChannel_seen, .served serveSetFloorLanguage_seen,
        .served serveReadSources_seen, .served serveStartAnnouncement_seen, .served serveStopAnnouncement_seen,
        .served serveWriteBooth_seen, .served serveReadBooth_seen, .served serveReadDesks_seen,
        .served serveForceOutputOff_seen, .served serveReadDeskRecords_seen, nofun⟩,
      .served serveStartCheck_seen, .served serveAbortCheck_seen, .served serveReadCheck_seen,
        .served serveReadReceiver_seen, .served serveReadRack_seen, serveSetMonitor_accord, serveClearMonitor_accord,
        serveWithdrawReceiver_accord, serveRestoreReceiver_accord, .served serveWriteSchedule_seen,
        .served serveReadListeners_seen, nofun⟩,
      serveOpenHire_accord, serveCancelHire_accord, serveDeclareLost_accord, .served serveReadHire_seen,
        .served serveReadSettlement_seen, serveTakeSettlement_accord, .served serveWriteTariff_seen,
        .served serveReadTariff_seen, .served serveFreezeTariffs_seen, .served serveReadDelegation_seen,
        .served serveClearDelegation_seen, .served serveReadService_seen, nofun⟩

theorem serveFrame_accord (f : Frame) (s : State) : Accord s (serveFrame f s).1 := by
  unfold serveFrame
  split
  · rename_i e he
    exact servers_accord e (List.mem_of_find?_eq_some he) _ _
  · exact .refl s

/-! ### The control link (R170 to R172) -/

theorem await_seen (s : State) (f : Frame) : (s.await f).fleetSeen = s.fleetSeen := by
  unfold State.await
  split <;> rfl

theorem takeRequest_accord (s : State) (f : Frame) {serve : State → Served} (h : ∀ t, Accord t (serve t).1) :
    Accord s (takeRequest s f serve) := by
  unfold takeRequest
  split
  · exact ((Accord.link s _).trans (h _)).trans (.link _ _)
  · exact .unseen (await_seen s f)

theorem discardFrame_seen (s : State) (f : Frame) : (discardFrame s f).fleetSeen = s.fleetSeen := by
  unfold discardFrame
  split
  exacts [rfl, await_seen s f]

theorem passFrame_accord (s : State) (f : Frame) : Accord s (passFrame s f) := by
  unfold passFrame
  split
  exacts [.unseen (discardFrame_seen s f), takeRequest_accord s f (serveFrame_accord f)]

theorem receiveByte_accord (s : State) (b : LineByte) : Accord s (receiveByte s b) := by
  unfold receiveByte
  split
  · dsimp only
    split
    exacts [(Accord.link s _).trans (passFrame_accord _ _), .link s _]
  · exact .refl s

theorem takeHeld_accord (s : State) : Accord s (takeHeld s) := by
  unfold takeHeld
  split
  · split
    exacts [passFrame_accord s _, .refl s]
  · exact .refl s

/-! ### Every step -/

theorem reset_accord (s : State) : Accord s State.reset := by
  have hreceiver : ∀ r, State.reset.receiver r = .unseen := fun _ => rfl
  have hslot : ∀ l, State.reset.slot l = none := fun _ => rfl
  have hmonitor : ∀ p, State.reset.monitorAt p = none := fun _ => rfl
  have hhire : ∀ n, State.reset.hire n = none := fun _ => rfl
  refine fun _ => ⟨⟨⟨rfl, by decide, by decide⟩, fun r l => ?_, ?_, ⟨fun r => ?_, fun p q r _ _ hp => ?_⟩, ?_, fun r => ?_⟩,
    fun _ c => rfl⟩
  · rw [hreceiver, hslot]; simp [Receiver.unseen]
  · rw [State.listsAgree_iff]
    refine ⟨fun i => ?_, fun r i => ?_⟩
    · cases i <;> exact ⟨List.nodup_nil, rfl⟩
    · have hempty : (State.reset.pollList i).members = [] := by cases i <;> rfl
      rw [hreceiver, hempty]; simp [Receiver.unseen, ReceiverState.list]
  · rw [hreceiver]; simp [hmonitor, Receiver.unseen]
  · rw [hmonitor] at hp; cases hp
  · rw [State.hiresAgree_iff]
    exact ⟨fun n h hn => by (rw [hhire] at hn; cases hn), fun r => rfl, rfl, by decide, by decide⟩
  · rw [hreceiver]; exact ⟨rfl, by simp [Receiver.unseen], nofun, by decide⟩

/-- A request command is its service, taken. -/
theorem request_accord {s t : State} {k tag : Byte} {body : List Byte} {serve : List Byte → State → Served}
    (h : (k, serve) ∈ servers) (ht : (.next (takeRequest s ⟨k, tag, body⟩ (serve body)) : Answer) = .next t) :
    Accord s t := by
  cases ht
  exact takeRequest_accord s _ (servers_accord (k, serve) h body)

/-- Every command keeps the fleet in accord. -/
theorem exec_accord {c : Instr} {s t : State} (h : exec c s = .next t) : Accord s t := by
  cases c with
  | powerOnReset =>
    cases h
    exact ((reset_accord s).trans (.clock _ { Clock.reset with boundaries := s.clock.boundaries })).trans
      (.queue _ s.pending)
  | frameReceived bytes => cases h; exact Accord.foldl (fun t b _ => receiveByte_accord t b) s
  | framerGapTimeout => cases h; exact .link s _
  | unknownKind kind tag body =>
    cases h
    split
    exacts [.refl s, takeRequest_accord s _ .refl]
  | frameSent => cases h; exact (Accord.link s _).trans (takeHeld_accord _)
  | consoleReply booth content => cases h; exact .unseen (consoleAnswer_seen s booth content)
  | rackReply rack content => cases h; exact rackAnswer_accord s rack content
  | radiatorStatusPoll => cases h; exact .unseen rfl
  | radiatorReply => cases h; exact .ite _ fun _ => .unseen (unitReply_seen s _)
  | unitPollMiss unit => cases h; exact .ite _ fun _ => .unseen (unitMiss_seen s unit)
  | unitDeclaredLost unit => cases h; exact .ite _ fun _ => .unseen (unitMiss_seen s unit)
  | beaconPollSend => cases h; exact beaconSlot_accord s
  | beaconReply receiver tuned band signature =>
    cases h
    split
    · split
      next hp =>
        simp only [InFlight.answeredBy, Bool.and_eq_true, decide_eq_true_eq] at hp
        exact completeReply_accord s _ hp.1.2 _
      next => exact completeMiss_accord s _
    · exact .refl s
  | beaconMiss =>
    cases h
    split
    exacts [completeMiss_accord s _, .refl s]
  | missLimitReached receiver =>
    cases h
    split
    exacts [.ite _ fun _ => completeMiss_accord s _, .refl s]
  | secondEvent order => cases h; exact secondEvent_accord s order
  | turnLimitReached booth domain => cases h; exact .ite _ fun _ => .unseen (turnSecond_seen s booth domain)
  | overrunLimitReached booth domain => cases h; exact .ite _ fun _ => .unseen (turnSecond_seen s booth domain)
  | handoverWindowExpiry booth domain => cases h; exact .ite _ fun _ => .unseen (windowSecond_seen s booth domain)
  | issueWindowExpiry hire => cases h; exact .ite _ fun _ => issueSecond_accord s hire
  | missingTimeReached receiver => cases h; exact .ite _ fun hm => reportMissing_accord hm
  | checkDwellExpiry => cases h; exact .ite _ fun _ => .unseen (dwellSecond_seen _ s)
  | referenceGap => cases h; exact .unseen (referenceGap_seen s)
  | stableTimeReached => cases h; exact .unseen (stableReached_seen s)
  | referenceEdgesResume => cases h; exact edgeArrives_accord s
  | consolePoll =>
    cases h
    split
    · refine .unseen ?_
      unfold sendConsolePoll
      exact (show _ = (dropFlashes s s.supervisor.nextConsole).fleetSeen from rfl).trans (dropFlashes_seen s _)
    · exact .refl s
  | rackPoll =>
    cases h
    split
    exacts [.unseen rfl, .refl s]
  | replyKindDiscarded kind tag body =>
    cases h
    split
    exacts [.unseen (discardFrame_seen s _), .refl s]
  | _ => exact request_accord (by simp [servers]) h

/-- Every step keeps the fleet in accord. -/
theorem step_accord {s t : State} (h : step s = .next t) : Accord s t := by
  unfold step at h
  split at h
  · exact (Accord.queue s _).trans (exec_accord h)
  · cases h; exact clockPeriod_accord s

/-- The bounds and the form that the accord of a fleet needs (R118, R130). -/
theorem State.InAccord.of_agrees {s : State} (hqueues : s.queuesBounded) (htables : s.tablesCanonical)
    (hfleet : s.fleetAgrees) : s.InAccord :=
  ⟨⟨htables.2.2.2.1.2.2.1, hqueues.2.2, hqueues.2.1⟩, hfleet⟩

/-- Settles O59: every step moves one receiver after another, each with all that goes with it (`step_accord`). -/
theorem fleetStaysAgreed : Obligations.FleetStaysAgreed := by
  unfold Obligations.FleetStaysAgreed
  exact ⟨fun s t hqueues htables hfleet h => (step_accord h (.of_agrees hqueues htables hfleet)).1.fleet,
    fun s t hqueues htables hfleet hl h => (step_accord h (.of_agrees hqueues htables hfleet)).2 hl⟩

end Sys2Proof.Machine
end
